-- ==== Sys2Proof/Word.lean ====
section
/-! DEFINITION. The word types of the machine (00_scope.md R7, R8). -/

namespace Sys2Proof

/-- A register, data or address word: 32 bits (00_scope.md R7; 10_state.md R20, R23). -/
abbrev Word := BitVec 32

/-- A memory byte. -/
abbrev Byte := BitVec 8

/-- The number of a general register, x0 to x31: a 5-bit field of an instruction word (10_state.md R20). -/
abbrev Reg := BitVec 5

/-- A 6-bit opcode, `w[31:26]` (30_encoding.md R121). -/
abbrev Opcode := BitVec 6

/-- `sext_n(v)` of 00_scope.md R9, on an n-bit field. -/
abbrev sext {n : Nat} (v : BitVec n) : Word := v.signExtend 32

/-- `zext_n(v)` of 00_scope.md R9, on an n-bit field. -/
abbrev zext {n : Nat} (v : BitVec n) : Word := v.setWidth 32

end Sys2Proof
end

