-- ==== Sys2Proof/Config.lean ====
section
/-! DEFINITION. The construction parameters of 00_scope.md R7, the construction checks of 20_memory.md R85,
and the free bytes of FRESH_PAGE_FILL. -/

namespace Sys2Proof

/-- FRESH_PAGE_FILL (00_scope.md R7, 93_implementation_defined.md I6): what the bytes of a freshly mapped frame are. -/
inductive FreshFill where
  /-- every byte is 0 (the default) -/
  | zero
  /-- every byte is a free value, drawn from `Config.freeByte` -/
  | anyValue
  deriving DecidableEq, Repr

/-- The parameters a machine is constructed with (00_scope.md R7). XLEN, the instruction width, the address width, the number
of registers, the link register, the byte order and the single privilege level are fixed by R7 and are no fields. -/
structure Params where
  /-- PAGE_SIZE -/
  pageSize : Nat
  /-- ROM_BASE -/
  romBase : Nat
  /-- ROM_SIZE -/
  romSize : Nat
  /-- RAM_BASE -/
  ramBase : Nat
  /-- RAM_SIZE -/
  ramSize : Nat
  /-- VM_BASE -/
  vmBase : Nat
  /-- VM_SIZE -/
  vmSize : Nat
  /-- DISK_PAGES -/
  diskPages : Nat
  /-- USER_LOW, inclusive -/
  userLow : Nat
  /-- USER_HIGH, inclusive -/
  userHigh : Nat
  /-- KERNEL_LOW, inclusive -/
  kernelLow : Nat
  /-- KERNEL_HIGH, inclusive -/
  kernelHigh : Nat
  /-- RESET_VECTOR_ADDR -/
  resetVector : Nat
  /-- CYCLE_COST: the pairs (opcode number, cost); an opcode that is not listed costs 1 -/
  cycleCost : List (Nat × Nat)
  /-- FRESH_PAGE_FILL -/
  freshFill : FreshFill
  /-- DEFAULT_NAN -/
  defaultNan : Word
  deriving DecidableEq, Repr

/-- The defaults of 00_scope.md R7. -/
def Params.defaults : Params where
  pageSize := 4096
  romBase := 0x00000000
  romSize := 0x00010000
  ramBase := 0x00010000
  ramSize := 0x00100000
  vmBase := 0x80000000
  vmSize := 0x80000000
  diskPages := 256
  userLow := 128
  userHigh := 255
  kernelLow := 64
  kernelHigh := 127
  resetVector := 0x00000000
  cycleCost := []
  freshFill := .zero
  defaultNan := 0x7FC00000#32

/-- VPAGES = VM_SIZE / PAGE_SIZE (00_scope.md, derived values). -/
def Params.vpages (p : Params) : Nat := p.vmSize / p.pageSize

/-- RAM_PAGES = RAM_SIZE / PAGE_SIZE (00_scope.md, derived values). -/
def Params.ramPages (p : Params) : Nat := p.ramSize / p.pageSize

/-- CYCLE_COST(opcode) (00_scope.md R7, 70_reset_and_hazards.md R326). -/
def Params.cost (p : Params) (op : Opcode) : Nat :=
  match p.cycleCost.find? (fun e => e.1 == op.toNat) with
  | some e => e.2
  | none => 1

/-- The ranges [a, a + m) and [b, b + n) share no address. -/
def disjointRanges (a m b n : Nat) : Bool := a + m ≤ b || b + n ≤ a || m == 0 || n == 0

/-- The construction checks of 20_memory.md R85. -/
def Params.ok (p : Params) : Bool :=
  p.pageSize == 2 ^ Nat.log2 p.pageSize && 16 ≤ p.pageSize &&
  p.ramBase % p.pageSize == 0 && p.ramSize % p.pageSize == 0 &&
  p.vmBase % p.pageSize == 0 && p.vmSize % p.pageSize == 0 &&
  disjointRanges p.romBase p.romSize p.ramBase p.ramSize &&
  disjointRanges p.romBase p.romSize p.vmBase p.vmSize &&
  disjointRanges p.ramBase p.ramSize p.vmBase p.vmSize &&
  p.romBase + p.romSize ≤ 2 ^ 32 && p.ramBase + p.ramSize ≤ 2 ^ 32 && p.vmBase + p.vmSize ≤ 2 ^ 32 &&
  p.userLow ≤ p.userHigh && p.userHigh < p.ramPages &&
  p.kernelLow ≤ p.kernelHigh && p.kernelHigh < p.ramPages &&
  (p.userHigh < p.kernelLow || p.kernelHigh < p.userLow) &&
  ((p.romBase ≤ p.resetVector && p.resetVector + 4 ≤ p.romBase + p.romSize) ||
   (p.ramBase ≤ p.resetVector && p.resetVector + 4 ≤ p.ramBase + p.ramSize))

/-- The byte at `off` of the frame mapped by the `draw`-th fresh mapping, under FRESH_PAGE_FILL = any-value
(93_implementation_defined.md I6): a FREE VALUE, an uninterpreted constant (log 11). -/
opaque Config.freeByte (draw off : Nat) : Byte

end Sys2Proof
end

