-- ==== Sys2Proof/Machine/Assoc.lean ====
section
/-! DEFINITION. Sparse maps from numbers: sorted lists of (key, value) pairs, used for memories, page tables,
reference counts and the process map. -/

namespace Sys2Proof.Machine

/-- The value listed for key `a`. -/
def assocFind {α : Type} : List (Nat × α) → Nat → Option α
  | [], _ => none
  | (k, v) :: m, a => if k = a then some v else assocFind m a

/-- List the value `v` for key `a`, in its sorted place. -/
def assocPut {α : Type} : List (Nat × α) → Nat → α → List (Nat × α)
  | [], a, v => [(a, v)]
  | (k, w) :: m, a, v =>
    if a < k then (a, v) :: (k, w) :: m
    else if k = a then (a, v) :: m
    else (k, w) :: assocPut m a v

/-- List nothing for key `a`. -/
def assocDel {α : Type} (m : List (Nat × α)) (a : Nat) : List (Nat × α) := m.filter fun e => e.1 != a

/-- Write `v` for key `a` in a map whose unlisted keys read `dflt`: writing `dflt` lists nothing. -/
def assocSet {α : Type} [DecidableEq α] (dflt : α) (m : List (Nat × α)) (a : Nat) (v : α) : List (Nat × α) :=
  if v = dflt then assocDel m a else assocPut m a v

/-- Apply `g` to every listed value. -/
def assocMap {α : Type} (g : α → α) (m : List (Nat × α)) : List (Nat × α) := m.map fun e => (e.1, g e.2)

/-- The keys rise strictly. -/
abbrev assocSorted {α : Type} (m : List (Nat × α)) : Prop := m.Pairwise fun x y => x.1 < y.1

/-- The keys rise strictly and no listed value is `dflt`: the canonical form of a map whose unlisted keys read `dflt`. -/
abbrev assocWf {α : Type} [DecidableEq α] (dflt : α) (m : List (Nat × α)) : Prop :=
  assocSorted m ∧ ∀ e ∈ m, e.2 ≠ dflt

/-- Put `n` into a rising list of numbers, in its sorted place. -/
def sortedInsert : List Nat → Nat → List Nat
  | [], n => [n]
  | k :: m, n => if n < k then n :: k :: m else if k = n then k :: m else k :: sortedInsert m n

end Sys2Proof.Machine
end

