-- ==== Sys2Proof/Machine/Memory.lean ====
section
/-! DEFINITION. The bytes of a memory device (20_memory.md R60 to R62) as a canonical sparse list of (offset, byte) cells. -/

namespace Sys2Proof.Machine

/-- The bytes of one device, by offset: strictly rising offsets, no listed byte equal to what an unlisted offset reads as. -/
abbrev Memory := List Host.Cell

/-- What an unlisted byte reads as: 0, the value 10_state.md R35 gives every byte that no image sets. -/
def unlistedByte : Byte := 0#8

/-- The byte at offset `a`. -/
def Memory.read (m : Memory) (a : Nat) : Byte := (assocFind m a).getD unlistedByte

/-- Write one byte, keeping the canonical form. -/
def Memory.write (m : Memory) (a : Nat) (b : Byte) : Memory := assocSet unlistedByte m a b

/-- The canonical form holds. -/
abbrev Memory.wf (m : Memory) : Prop := assocWf unlistedByte m

/-- Every listed offset lies inside a device of `size` bytes. -/
abbrev Memory.inside (m : Memory) (size : Nat) : Prop := ∀ c ∈ m, c.1 < size

/-- The cells of `[lo, lo + len)`. -/
def Memory.slice (m : Memory) (lo len : Nat) : Memory := m.filter fun c => lo ≤ c.1 && c.1 < lo + len

/-- Replace the bytes of `[lo, lo + len)` by `cells`, whose offsets lie in that range. -/
def Memory.splice (m : Memory) (lo len : Nat) (cells : Memory) : Memory :=
  (m.filter fun c => c.1 < lo) ++ cells ++ (m.filter fun c => lo + len ≤ c.1)

/-- Copy the `len` bytes of `src` from `srcLo` to `[lo, lo + len)` of `dst` (20_memory.md R91, R92, R98). -/
def Memory.copy (dst : Memory) (lo len : Nat) (src : Memory) (srcLo : Nat) : Memory :=
  dst.splice lo len ((src.slice srcLo len).map fun c => (c.1 - srcLo + lo, c.2))

/-- Make the bytes of `[lo, lo + len)` 0. -/
def Memory.clear (m : Memory) (lo len : Nat) : Memory := m.splice lo len []

/-- The cells that give byte `lo + i` the value `g i`, for `i < len`. -/
def cellsOf (lo len : Nat) (g : Nat → Byte) : Memory :=
  (List.range len).filterMap fun i => if g i = unlistedByte then none else some (lo + i, g i)

/-- Give byte `lo + i` the value `g i`, for `i < len`. -/
def Memory.fill (m : Memory) (lo len : Nat) (g : Nat → Byte) : Memory := m.splice lo len (cellsOf lo len g)

/-- The bytes at the listed offsets. -/
def Memory.readMany (m : Memory) (offs : List Nat) : List Byte := offs.map m.read

/-- Write the bytes to the listed offsets, in order. -/
def Memory.writeMany : Memory → List Nat → List Byte → Memory
  | m, o :: offs, b :: bs => (m.write o b).writeMany offs bs
  | m, _, _ => m

/-- A byte image laid from offset `lo` on (20_memory.md R64, 70_reset_and_hazards.md R322). -/
def Memory.load (m : Memory) (lo : Nat) (bytes : List Byte) : Memory :=
  m.writeMany (List.range' lo bytes.length) bytes

end Sys2Proof.Machine
end

