-- ==== Sys2Proof/Machine/State.lean ====
section
/-! DEFINITION. The state of the machine (10_state.md; 20_memory.md section 4.1; 60_exceptions.md R280 to R282), the
reasons a step can stop, and the state after reset. -/

namespace Sys2Proof.Machine

/-- The four condition flags (10_state.md R25). -/
structure Flags where
  /-- Negative -/
  n : Bool
  /-- Zero -/
  z : Bool
  /-- Carry -/
  c : Bool
  /-- oVerflow -/
  v : Bool
  deriving DecidableEq, Repr

/-- The execution state (10_state.md R30). -/
inductive ExecState where
  | running | halted | faulted
  deriving DecidableEq, Repr

/-! ## The MMU's data (20_memory.md R80 to R84) -/

/-- The three free-page pools (20_memory.md R80). -/
inductive Pool where
  | user | kernel | disk
  deriving DecidableEq, Repr

/-- Where a mapped page's bytes are (20_memory.md R81). -/
inductive Loc where
  /-- frame `f` of RAM: the page is resident -/
  | frame (f : Nat)
  /-- slot `d` of the disk -/
  | disk (d : Nat)
  deriving DecidableEq, Repr

/-- A valid page table entry (20_memory.md R81). An Invalid entry is one the table does not list; the reference count is a
view of the frame's or the slot's count (R82). -/
structure Pte where
  /-- where the page's bytes are -/
  loc : Loc
  /-- writes are permitted -/
  write : Bool
  /-- instruction fetch is permitted -/
  execute : Bool
  /-- the page's frames come from the kernel pool -/
  kernel : Bool
  /-- the page is copy-on-write -/
  cow : Bool
  deriving DecidableEq, Repr

/-- A page table: the valid entries by virtual page, rising (20_memory.md R83). -/
abbrev PageTable := List (Nat × Pte)

/-! ## Faults of the spec and run results (60_exceptions.md R280 to R282) -/

/-- The kind of a bus access (20_memory.md R73; sub-codes 60_exceptions.md R280). -/
inductive AccessKind where
  | read | write | fetch | swap
  deriving DecidableEq, Repr

/-- Why a PageFault is raised (20_memory.md R90). -/
inductive PageFaultReason where
  | unmapped | permission
  deriving DecidableEq, Repr

/-- A fault that an instruction or a host access can raise, codes 16 to 20, with its info (60_exceptions.md R280).
These are the SPEC's faults: the machine takes them (a next state), it does not stop. -/
inductive FaultCause where
  /-- a fetched word that decodes to Invalid -/
  | invalidOpcode (word : Word)
  /-- an access outside every bus range or across two ranges -/
  | memoryOutOfBounds (addr : Word)
  /-- a store or swap into the ROM range -/
  | writeToReadOnly (addr : Word)
  /-- a VM-window access to an unmapped page, or without the permission it needs -/
  | pageFault (addr : Word) (vpage : Nat) (access : AccessKind) (reason : PageFaultReason)
  /-- a page-in or a copy-on-write break with an empty frame pool -/
  | resourceExhausted (pool : Pool)
  deriving DecidableEq, Repr

/-- An error of an MMU control operation (20_memory.md R102). -/
inductive CtlError where
  | resourceExhausted (pool : Pool)
  | consistencyFault (page : Nat)
  | alreadyMapped (vpage : Nat)
  | invalidArgument
  deriving DecidableEq, Repr

/-- The fault record (60_exceptions.md R281). -/
structure FaultRecord where
  /-- the code and its info -/
  cause : FaultCause
  /-- the address of the instruction being executed -/
  faultPc : Word
  /-- the fetched instruction word, or none if the fetch itself faulted -/
  word : Option Word
  /-- x0 to x31 before the faulting instruction -/
  regs : Vector Word 32
  /-- the flags before the faulting instruction -/
  flags : Flags
  /-- the pc before the faulting instruction -/
  pc : Word
  deriving DecidableEq, Repr

/-- How a run ended (60_exceptions.md R282). -/
inductive RunEnd where
  | halt
  | budgetExhausted
  /-- with imm26 -/
  | softwareInterrupt (imm : Word)
  | fault (record : FaultRecord)
  deriving DecidableEq, Repr

/-- A run result (60_exceptions.md R282). -/
structure RunResult where
  /-- the kind, with its record -/
  ending : RunEnd
  /-- the number of instructions completed by the run -/
  executed : Nat
  deriving DecidableEq, Repr

/-! ## The state -/

/-- Everything the spec gives the machine. -/
structure State where
  /-- the construction parameters (00_scope.md R7); no operation changes them (log 1) -/
  cfg : Params
  /-- x0 to x31 (10_state.md R20) -/
  regs : Vector Word 32
  /-- the program counter (10_state.md R23) -/
  pc : Word
  /-- N, Z, C, V (10_state.md R25) -/
  flags : Flags
  /-- Running, Halted or Faulted (10_state.md R30) -/
  execState : ExecState
  /-- the cycle counter (10_state.md R31) -/
  cycles : BitVec 64
  /-- the result of the most recent run (10_state.md R32) -/
  lastResult : Option RunResult
  /-- the count of instructions completed by the run in progress, none between runs (60_exceptions.md R284; log 2) -/
  activeRun : Option Nat
  /-- the ROM's bytes (20_memory.md R60) -/
  rom : Memory
  /-- the RAM's bytes (20_memory.md R61) -/
  ram : Memory
  /-- the disk's bytes; byte `o` of slot `d` is at offset d * PAGE_SIZE + o (20_memory.md R62) -/
  disk : Memory
  /-- the free user frames, rising (20_memory.md R80) -/
  userFree : List Nat
  /-- the free kernel frames, rising (20_memory.md R80) -/
  kernelFree : List Nat
  /-- the free disk slots, rising (20_memory.md R80) -/
  diskFree : List Nat
  /-- the reference counts of the frames; an unlisted frame's count is 0 (20_memory.md R82) -/
  frameRef : List (Nat × Nat)
  /-- the reference counts of the disk slots; an unlisted slot's count is 0 (20_memory.md R82) -/
  diskRef : List (Nat × Nat)
  /-- the page tables of the live processes, by pid, rising (20_memory.md R84) -/
  procs : List (Nat × PageTable)
  /-- the current pid, or none (20_memory.md R84) -/
  current : Option Nat
  /-- the next pid to hand out (20_memory.md R84) -/
  nextPid : Nat
  /-- the next draw of the free bytes of a fresh page, under FRESH_PAGE_FILL = any-value (93 I6; log 11) -/
  freeDraws : Nat
  deriving DecidableEq, Repr

/-- Why a step stops the machine. Every fault of the spec is TAKEN instead (`FaultCause`, a next state). -/
inductive Fault where
  /-- Raised by a page-in whose own `return_one` of the disk slot fails, which needs an invariant of 20_memory.md R82 to be
  broken beforehand (93_implementation_defined.md I13, "stuck"; log 6). SAFE: the model stops where the spec gives no effect. -/
  | brokenMmu (e : CtlError)
  deriving DecidableEq, Repr

/-- Why a step refuses. -/
inductive Refusal where
  /-- Raised by an arm of `exec` whose instruction has no meaning yet; no arm raises it. SAFE: nothing is claimed. -/
  | notModelled (mnemonic : String)
  deriving DecidableEq, Repr

/-- The machine constructed with the default parameters and no images, then reset (10_state.md R35, 70_reset_and_hazards.md R320,
R322). The pc is the word at RESET_VECTOR_ADDR, a ROM word of a machine whose every byte is 0. -/
def State.reset : State where
  cfg := Params.defaults
  regs := Vector.replicate 32 0#32
  pc := 0x00000000#32
  flags := { n := false, z := false, c := false, v := false }
  execState := .running
  cycles := 0#64
  lastResult := none
  activeRun := none
  rom := []
  ram := []
  disk := []
  userFree := List.range' 128 128
  kernelFree := List.range' 64 64
  diskFree := List.range 256
  frameRef := []
  diskRef := []
  procs := [(0, [])]
  current := some 0
  nextPid := 1
  freeDraws := 0

end Sys2Proof.Machine
end

