-- ==== Sys2Proof/Syntax.lean ====
section
/-! DEFINITION. The instructions: one constructor of `Instr` per row of spec/opcode_table.json, with the operand
fields of the decoded record (30_encoding.md R136). -/

namespace Sys2Proof

/-- The shift types of the `sh` field (30_encoding.md R125). -/
inductive ShiftType where
  | lsl | lsr | asr | ror
  deriving DecidableEq, Repr

/-- The conditions of a branch (46_branch.md R240); 1111 is no condition. -/
inductive Cond where
  | eq | ne | hs | lo | mi | pl | vs | vc | hi | ls | ge | lt | gt | le | al
  deriving DecidableEq, Repr

/-- The addressing modes of format MEM (30_encoding.md R129, 44_memory.md R210); am = 11 is no mode. -/
inductive AddrMode where
  /-- am = 00 -/
  | offsetOnly
  /-- am = 01 -/
  | preIndexed
  /-- am = 10 -/
  | postIndexed
  deriving DecidableEq, Repr

/-- The second operand of formats DP and CMP (30_encoding.md R125) and the operand of format MOV (R128). -/
inductive Operand2 where
  /-- I = 1: the immediate, after zero extension (R136) -/
  | imm (v : Word)
  /-- I = 0: register xm, shifted by the 5-bit amount -/
  | reg (xm : Reg) (sh : ShiftType) (shamt : BitVec 5)
  deriving DecidableEq, Repr

/-- The amount of format SH (30_encoding.md R126). -/
inductive ShiftAmount where
  /-- I = 1: imm5, after zero extension (R136) -/
  | imm (v : Word)
  /-- I = 0: the low byte of register xm -/
  | reg (xm : Reg)
  deriving DecidableEq, Repr

/-- The offset of format MEM (30_encoding.md R129). -/
inductive MemOffset where
  /-- I = 1: simm13, after sign extension (R136) -/
  | imm (v : Word)
  /-- I = 0: register xm -/
  | reg (xm : Reg)
  deriving DecidableEq, Repr

/-- The 41 instructions (30_encoding.md R123). `f` is the S ("flags") bit of formats DP, SH and MOV; an immediate
field holds its value after extension, as the decoded record does (R136). -/
inductive Instr where
  /-- SYS 0x00 -/
  | hlt
  /-- SYS 0x01; `imm` is zext_26 of the service number -/
  | swi (imm : Word)
  /-- DP 0x04 -/
  | add (f : Bool) (xd xn : Reg) (o : Operand2)
  /-- DP 0x05 -/
  | sub (f : Bool) (xd xn : Reg) (o : Operand2)
  /-- DP 0x06 -/
  | rsb (f : Bool) (xd xn : Reg) (o : Operand2)
  /-- DP 0x07 -/
  | adc (f : Bool) (xd xn : Reg) (o : Operand2)
  /-- DP 0x08 -/
  | sbc (f : Bool) (xd xn : Reg) (o : Operand2)
  /-- DP 0x09 -/
  | rsc (f : Bool) (xd xn : Reg) (o : Operand2)
  /-- DP 0x0A -/
  | mul (f : Bool) (xd xn : Reg) (o : Operand2)
  /-- DP 0x0C -/
  | and (f : Bool) (xd xn : Reg) (o : Operand2)
  /-- DP 0x0D -/
  | orr (f : Bool) (xd xn : Reg) (o : Operand2)
  /-- DP 0x0E -/
  | eor (f : Bool) (xd xn : Reg) (o : Operand2)
  /-- DP 0x0F -/
  | bic (f : Bool) (xd xn : Reg) (o : Operand2)
  /-- SH 0x10 -/
  | lsl (f : Bool) (xd xn : Reg) (amt : ShiftAmount)
  /-- SH 0x11 -/
  | lsr (f : Bool) (xd xn : Reg) (amt : ShiftAmount)
  /-- SH 0x12 -/
  | asr (f : Bool) (xd xn : Reg) (amt : ShiftAmount)
  /-- SH 0x13 -/
  | ror (f : Bool) (xd xn : Reg) (amt : ShiftAmount)
  /-- CMP 0x14 -/
  | cmp (xn : Reg) (o : Operand2)
  /-- CMP 0x15 -/
  | cmn (xn : Reg) (o : Operand2)
  /-- CMP 0x16 -/
  | tst (xn : Reg) (o : Operand2)
  /-- CMP 0x17 -/
  | teq (xn : Reg) (o : Operand2)
  /-- MOV 0x18 -/
  | mov (f : Bool) (xd : Reg) (o : Operand2)
  /-- MOV 0x19 -/
  | mvn (f : Bool) (xd : Reg) (o : Operand2)
  /-- MEM 0x20 -/
  | ldr (xt xn : Reg) (am : AddrMode) (off : MemOffset)
  /-- MEM 0x21 -/
  | ldrh (xt xn : Reg) (am : AddrMode) (off : MemOffset)
  /-- MEM 0x22 -/
  | ldrb (xt xn : Reg) (am : AddrMode) (off : MemOffset)
  /-- MEM 0x24 -/
  | str (xt xn : Reg) (am : AddrMode) (off : MemOffset)
  /-- MEM 0x25 -/
  | strh (xt xn : Reg) (am : AddrMode) (off : MemOffset)
  /-- MEM 0x26 -/
  | strb (xt xn : Reg) (am : AddrMode) (off : MemOffset)
  /-- ATM 0x28 -/
  | swp (xt xs xn : Reg)
  /-- ATM 0x29 -/
  | swph (xt xs xn : Reg)
  /-- ATM 0x2A -/
  | swpb (xt xs xn : Reg)
  /-- BI 0x2C; `off` is sext_22(simm22) * 4 -/
  | b (c : Cond) (off : Word)
  /-- BI 0x2D; `off` is sext_22(simm22) * 4 -/
  | bl (c : Cond) (off : Word)
  /-- BR 0x30 -/
  | bx (c : Cond) (xn : Reg)
  /-- BR 0x31 -/
  | blx (c : Cond) (xn : Reg)
  /-- FP3 0x34 -/
  | vaddF32 (xd xn xm : Reg)
  /-- FP3 0x35 -/
  | vsubF32 (xd xn xm : Reg)
  /-- FP3 0x36 -/
  | vmulF32 (xd xn xm : Reg)
  /-- FP3 0x37 -/
  | vdivF32 (xd xn xm : Reg)
  /-- FPC 0x38 -/
  | vcmpF32 (xn xm : Reg)
  deriving DecidableEq, Repr

end Sys2Proof
end

