-- ==== Sys2Proof/Machine/Flags.lean ====
section
/-! DEFINITION. The adder, the flag policies, the conditions, and the flags register (40_arith.md R160, R161, R169;
41_logical.md R180; 42_shift.md R191; 46_branch.md R240; 10_state.md R27). -/

namespace Sys2Proof.Machine

/-- A result with its carry and signed overflow. -/
structure AluResult where
  result : Word
  carry : Bool
  overflow : Bool
  deriving DecidableEq, Repr

/-- `AddWithCarry(a, b, cin)` (40_arith.md R160). -/
def addWithCarry (a b : Word) (cin : Bool) : AluResult :=
  let sum := a.toNat + b.toNat + cin.toNat
  let result := BitVec.ofNat 32 sum
  { result := result
    carry := 2 ^ 32 ≤ sum
    overflow := a.msb == b.msb && result.msb != a.msb }

/-- The product of 40_arith.md R169: C says that the unsigned product, V that the signed product, does not fit in 32 bits. -/
def mulLow (a b : Word) : AluResult :=
  let pu := a.toNat * b.toNat
  let ps := a.toInt * b.toInt
  { result := BitVec.ofNat 32 pu
    carry := 2 ^ 32 ≤ pu
    overflow := ps < -(2 ^ 31) || 2 ^ 31 - 1 < ps }

/-- N, Z, C and V of an arithmetic result (40_arith.md R161). -/
def arithFlags (r : AluResult) : Flags :=
  { n := r.result.msb, z := r.result == 0#32, c := r.carry, v := r.overflow }

/-- N and Z of a result, C when a shift applied, V kept (41_logical.md R180, 42_shift.md R191). -/
def logicFlags (r : Word) (shifted carry : Bool) (old : Flags) : Flags :=
  { n := r.msb, z := r == 0#32, c := if shifted then carry else old.c, v := old.v }

/-- `Cond(c)` for the given flags (46_branch.md R240). -/
def condHolds (c : Cond) (fl : Flags) : Bool :=
  match c with
  | .eq => fl.z
  | .ne => !fl.z
  | .hs => fl.c
  | .lo => !fl.c
  | .mi => fl.n
  | .pl => !fl.n
  | .vs => fl.v
  | .vc => !fl.v
  | .hi => fl.c && !fl.z
  | .ls => !fl.c || fl.z
  | .ge => fl.n == fl.v
  | .lt => fl.n != fl.v
  | .gt => !fl.z && fl.n == fl.v
  | .le => fl.z || fl.n != fl.v
  | .al => true

/-- The flags register as the host reads it: N bit 31, Z bit 30, C bit 29, V bit 28, the rest 0 (10_state.md R27). -/
def flagsWord (fl : Flags) : Word :=
  BitVec.ofBool fl.n ++ BitVec.ofBool fl.z ++ BitVec.ofBool fl.c ++ BitVec.ofBool fl.v ++ 0#28

/-- The flags after a host write of the flags register: bits 27 to 0 are ignored (10_state.md R27). -/
def flagsOfWord (w : Word) : Flags :=
  { n := w.getLsbD 31, z := w.getLsbD 30, c := w.getLsbD 29, v := w.getLsbD 28 }

end Sys2Proof.Machine
end

