-- ==== Sys2Proof/WellFormed.lean ====
section
/-! DEFINITION. Well-formed instructions: every immediate is one that its field of the encoding can hold
(30_encoding.md R125 to R131, R135, R136). Every other field is well formed by its type. -/

namespace Sys2Proof

/-- `v` is `zext_n` of an n-bit field. -/
def zextFits (n : Nat) (v : Word) : Bool := (v.setWidth n).setWidth 32 == v

/-- `v` is `sext_n` of an n-bit field. -/
def sextFits (n : Nat) (v : Word) : Bool := (v.setWidth n).signExtend 32 == v

/-- An operand2 or MOV operand whose immediate field has `n` bits (30_encoding.md R125: 14, R128: 19). -/
def Operand2.wf (n : Nat) : Operand2 → Bool
  | .imm v => zextFits n v
  | .reg _ _ _ => true

/-- The amount of format SH: imm5 (30_encoding.md R126). -/
def ShiftAmount.wf : ShiftAmount → Bool
  | .imm v => zextFits 5 v
  | .reg _ => true

/-- The offset of format MEM: simm13 (30_encoding.md R129). -/
def MemOffset.wf : MemOffset → Bool
  | .imm v => sextFits 13 v
  | .reg _ => true

/-- The offset of format BI: sext_22(simm22) * 4, a multiple of 4 from -2^23 to 2^23 - 4 (30_encoding.md R131). -/
def branchOffsetFits (v : Word) : Bool := (v.extractLsb' 2 22).signExtend 32 * 4#32 == v

/-- Every operand holds a value that the instruction's encoding admits. -/
def Instr.wf : Instr → Bool
  | .hlt => true
  | .swi imm => zextFits 26 imm
  | .add _ _ _ o => o.wf 14
  | .sub _ _ _ o => o.wf 14
  | .rsb _ _ _ o => o.wf 14
  | .adc _ _ _ o => o.wf 14
  | .sbc _ _ _ o => o.wf 14
  | .rsc _ _ _ o => o.wf 14
  | .mul _ _ _ o => o.wf 14
  | .and _ _ _ o => o.wf 14
  | .orr _ _ _ o => o.wf 14
  | .eor _ _ _ o => o.wf 14
  | .bic _ _ _ o => o.wf 14
  | .lsl _ _ _ amt => amt.wf
  | .lsr _ _ _ amt => amt.wf
  | .asr _ _ _ amt => amt.wf
  | .ror _ _ _ amt => amt.wf
  | .cmp _ o => o.wf 14
  | .cmn _ o => o.wf 14
  | .tst _ o => o.wf 14
  | .teq _ o => o.wf 14
  | .mov _ _ o => o.wf 19
  | .mvn _ _ o => o.wf 19
  | .ldr _ _ _ off => off.wf
  | .ldrh _ _ _ off => off.wf
  | .ldrb _ _ _ off => off.wf
  | .str _ _ _ off => off.wf
  | .strh _ _ _ off => off.wf
  | .strb _ _ _ off => off.wf
  | .swp _ _ _ => true
  | .swph _ _ _ => true
  | .swpb _ _ _ => true
  | .b _ off => branchOffsetFits off
  | .bl _ off => branchOffsetFits off
  | .bx _ _ => true
  | .blx _ _ => true
  | .vaddF32 _ _ _ => true
  | .vsubF32 _ _ _ => true
  | .vmulF32 _ _ _ => true
  | .vdivF32 _ _ _ => true
  | .vcmpF32 _ _ => true

end Sys2Proof
end

