-- ==== Sys2Proof/Decode.lean ====
section
/-! DEFINITION. The decoder and the encoder (30_encoding.md R120 to R138). -/

namespace Sys2Proof

/-! ## Formats -/

/-- The instruction formats (30_encoding.md R122). -/
inductive Format where
  | sys | dp | sh | cmp | mov | mem | atm | bi | br | fp3 | fpc
  deriving DecidableEq, Repr

/-- The format table, by `w[31:28]` (30_encoding.md R122); `none` is a reserved group. -/
def formatOfTop (top : BitVec 4) : Option Format :=
  match top with
  | 0x0#4 => some .sys
  | 0x1#4 => some .dp
  | 0x2#4 => some .dp
  | 0x3#4 => some .dp
  | 0x4#4 => some .sh
  | 0x5#4 => some .cmp
  | 0x6#4 => some .mov
  | 0x8#4 => some .mem
  | 0x9#4 => some .mem
  | 0xA#4 => some .atm
  | 0xB#4 => some .bi
  | 0xC#4 => some .br
  | 0xD#4 => some .fp3
  | 0xE#4 => some .fpc
  | _ => none

/-- The format an instruction is written in (30_encoding.md R123). -/
def Instr.format : Instr → Format
  | .hlt => .sys
  | .swi _ => .sys
  | .add _ _ _ _ => .dp
  | .sub _ _ _ _ => .dp
  | .rsb _ _ _ _ => .dp
  | .adc _ _ _ _ => .dp
  | .sbc _ _ _ _ => .dp
  | .rsc _ _ _ _ => .dp
  | .mul _ _ _ _ => .dp
  | .and _ _ _ _ => .dp
  | .orr _ _ _ _ => .dp
  | .eor _ _ _ _ => .dp
  | .bic _ _ _ _ => .dp
  | .lsl _ _ _ _ => .sh
  | .lsr _ _ _ _ => .sh
  | .asr _ _ _ _ => .sh
  | .ror _ _ _ _ => .sh
  | .cmp _ _ => .cmp
  | .cmn _ _ => .cmp
  | .tst _ _ => .cmp
  | .teq _ _ => .cmp
  | .mov _ _ _ => .mov
  | .mvn _ _ _ => .mov
  | .ldr _ _ _ _ => .mem
  | .ldrh _ _ _ _ => .mem
  | .ldrb _ _ _ _ => .mem
  | .str _ _ _ _ => .mem
  | .strh _ _ _ _ => .mem
  | .strb _ _ _ _ => .mem
  | .swp _ _ _ => .atm
  | .swph _ _ _ => .atm
  | .swpb _ _ _ => .atm
  | .b _ _ => .bi
  | .bl _ _ => .bi
  | .bx _ _ => .br
  | .blx _ _ => .br
  | .vaddF32 _ _ _ => .fp3
  | .vsubF32 _ _ _ => .fp3
  | .vmulF32 _ _ _ => .fp3
  | .vdivF32 _ _ _ => .fp3
  | .vcmpF32 _ _ => .fpc

/-- The opcode of an instruction (30_encoding.md R123). -/
def Instr.opcode : Instr → Opcode
  | .hlt => 0x00#6
  | .swi _ => 0x01#6
  | .add _ _ _ _ => 0x04#6
  | .sub _ _ _ _ => 0x05#6
  | .rsb _ _ _ _ => 0x06#6
  | .adc _ _ _ _ => 0x07#6
  | .sbc _ _ _ _ => 0x08#6
  | .rsc _ _ _ _ => 0x09#6
  | .mul _ _ _ _ => 0x0A#6
  | .and _ _ _ _ => 0x0C#6
  | .orr _ _ _ _ => 0x0D#6
  | .eor _ _ _ _ => 0x0E#6
  | .bic _ _ _ _ => 0x0F#6
  | .lsl _ _ _ _ => 0x10#6
  | .lsr _ _ _ _ => 0x11#6
  | .asr _ _ _ _ => 0x12#6
  | .ror _ _ _ _ => 0x13#6
  | .cmp _ _ => 0x14#6
  | .cmn _ _ => 0x15#6
  | .tst _ _ => 0x16#6
  | .teq _ _ => 0x17#6
  | .mov _ _ _ => 0x18#6
  | .mvn _ _ _ => 0x19#6
  | .ldr _ _ _ _ => 0x20#6
  | .ldrh _ _ _ _ => 0x21#6
  | .ldrb _ _ _ _ => 0x22#6
  | .str _ _ _ _ => 0x24#6
  | .strh _ _ _ _ => 0x25#6
  | .strb _ _ _ _ => 0x26#6
  | .swp _ _ _ => 0x28#6
  | .swph _ _ _ => 0x29#6
  | .swpb _ _ _ => 0x2A#6
  | .b _ _ => 0x2C#6
  | .bl _ _ => 0x2D#6
  | .bx _ _ => 0x30#6
  | .blx _ _ => 0x31#6
  | .vaddF32 _ _ _ => 0x34#6
  | .vsubF32 _ _ _ => 0x35#6
  | .vmulF32 _ _ _ => 0x36#6
  | .vdivF32 _ _ _ => 0x37#6
  | .vcmpF32 _ _ => 0x38#6

/-! ## Field values -/

/-- The shift type of a 2-bit `sh` field (30_encoding.md R125). -/
def decodeShiftType (v : BitVec 2) : ShiftType :=
  match v with
  | 0b00#2 => .lsl
  | 0b01#2 => .lsr
  | 0b10#2 => .asr
  | _ => .ror

/-- The 2-bit `sh` field of a shift type (30_encoding.md R125). -/
def encodeShiftType : ShiftType → BitVec 2
  | .lsl => 0b00#2
  | .lsr => 0b01#2
  | .asr => 0b10#2
  | .ror => 0b11#2

/-- The condition of a 4-bit `cond` field; 1111 is Invalid (46_branch.md R240, 30_encoding.md R138). -/
def decodeCond (v : BitVec 4) : Option Cond :=
  match v with
  | 0b0000#4 => some .eq
  | 0b0001#4 => some .ne
  | 0b0010#4 => some .hs
  | 0b0011#4 => some .lo
  | 0b0100#4 => some .mi
  | 0b0101#4 => some .pl
  | 0b0110#4 => some .vs
  | 0b0111#4 => some .vc
  | 0b1000#4 => some .hi
  | 0b1001#4 => some .ls
  | 0b1010#4 => some .ge
  | 0b1011#4 => some .lt
  | 0b1100#4 => some .gt
  | 0b1101#4 => some .le
  | 0b1110#4 => some .al
  | _ => none

/-- The 4-bit `cond` field of a condition (46_branch.md R240). -/
def encodeCond : Cond → BitVec 4
  | .eq => 0b0000#4
  | .ne => 0b0001#4
  | .hs => 0b0010#4
  | .lo => 0b0011#4
  | .mi => 0b0100#4
  | .pl => 0b0101#4
  | .vs => 0b0110#4
  | .vc => 0b0111#4
  | .hi => 0b1000#4
  | .ls => 0b1001#4
  | .ge => 0b1010#4
  | .lt => 0b1011#4
  | .gt => 0b1100#4
  | .le => 0b1101#4
  | .al => 0b1110#4

/-- The addressing mode of a 2-bit `am` field; 11 is Invalid (30_encoding.md R129). -/
def decodeAddrMode (v : BitVec 2) : Option AddrMode :=
  match v with
  | 0b00#2 => some .offsetOnly
  | 0b01#2 => some .preIndexed
  | 0b10#2 => some .postIndexed
  | _ => none

/-- The 2-bit `am` field of an addressing mode (30_encoding.md R129). -/
def encodeAddrMode : AddrMode → BitVec 2
  | .offsetOnly => 0b00#2
  | .preIndexed => 0b01#2
  | .postIndexed => 0b10#2

/-! ## Decoding, format by format. Each answers `none` where a reserved-zero bit is 1 (R137, R138). -/

/-- Operand2 of formats DP and CMP, `w[14:0]` (30_encoding.md R125). -/
def decodeOperand2 (w : Word) : Option Operand2 :=
  if w.getLsbD 14 then some (.imm (zext (w.extractLsb' 0 14)))
  else if w.extractLsb' 0 2 = 0#2 then
    some (.reg (w.extractLsb' 9 5) (decodeShiftType (w.extractLsb' 7 2)) (w.extractLsb' 2 5))
  else none

/-- Format DP (30_encoding.md R124). -/
def decodeDp (w : Word) (mk : Bool → Reg → Reg → Operand2 → Instr) : Option Instr :=
  (decodeOperand2 w).map (mk (w.getLsbD 25) (w.extractLsb' 20 5) (w.extractLsb' 15 5))

/-- Format SH (30_encoding.md R126). -/
def decodeSh (w : Word) (mk : Bool → Reg → Reg → ShiftAmount → Instr) : Option Instr :=
  if w.getLsbD 14 then
    if w.extractLsb' 5 9 = 0#9 then
      some (mk (w.getLsbD 25) (w.extractLsb' 20 5) (w.extractLsb' 15 5) (.imm (zext (w.extractLsb' 0 5))))
    else none
  else if w.extractLsb' 0 9 = 0#9 then
    some (mk (w.getLsbD 25) (w.extractLsb' 20 5) (w.extractLsb' 15 5) (.reg (w.extractLsb' 9 5)))
  else none

/-- Format CMP (30_encoding.md R127). -/
def decodeCmp (w : Word) (mk : Reg → Operand2 → Instr) : Option Instr :=
  if w.extractLsb' 20 6 = 0#6 then (decodeOperand2 w).map (mk (w.extractLsb' 15 5)) else none

/-- Format MOV (30_encoding.md R128). -/
def decodeMov (w : Word) (mk : Bool → Reg → Operand2 → Instr) : Option Instr :=
  if w.getLsbD 19 then
    some (mk (w.getLsbD 25) (w.extractLsb' 20 5) (.imm (zext (w.extractLsb' 0 19))))
  else if w.extractLsb' 0 7 = 0#7 then
    some (mk (w.getLsbD 25) (w.extractLsb' 20 5)
      (.reg (w.extractLsb' 14 5) (decodeShiftType (w.extractLsb' 12 2)) (w.extractLsb' 7 5)))
  else none

/-- The offset of format MEM, `w[13:0]` (30_encoding.md R129). -/
def decodeMemOffset (w : Word) : Option MemOffset :=
  if w.getLsbD 13 then some (.imm (sext (w.extractLsb' 0 13)))
  else if w.extractLsb' 0 8 = 0#8 then some (.reg (w.extractLsb' 8 5))
  else none

/-- Format MEM (30_encoding.md R129). -/
def decodeMem (w : Word) (mk : Reg → Reg → AddrMode → MemOffset → Instr) : Option Instr :=
  match decodeAddrMode (w.extractLsb' 14 2), decodeMemOffset w with
  | some am, some off => some (mk (w.extractLsb' 21 5) (w.extractLsb' 16 5) am off)
  | _, _ => none

/-- Format ATM (30_encoding.md R130). -/
def decodeAtm (w : Word) (mk : Reg → Reg → Reg → Instr) : Option Instr :=
  if w.extractLsb' 0 11 = 0#11 then
    some (mk (w.extractLsb' 21 5) (w.extractLsb' 16 5) (w.extractLsb' 11 5))
  else none

/-- Format BI (30_encoding.md R131). -/
def decodeBi (w : Word) (mk : Cond → Word → Instr) : Option Instr :=
  (decodeCond (w.extractLsb' 22 4)).map fun c => mk c (sext (w.extractLsb' 0 22) * 4#32)

/-- Format BR (30_encoding.md R132). -/
def decodeBr (w : Word) (mk : Cond → Reg → Instr) : Option Instr :=
  if w.extractLsb' 0 17 = 0#17 then
    (decodeCond (w.extractLsb' 22 4)).map fun c => mk c (w.extractLsb' 17 5)
  else none

/-- Format FP3 (30_encoding.md R133). -/
def decodeFp3 (w : Word) (mk : Reg → Reg → Reg → Instr) : Option Instr :=
  if w.getLsbD 25 then none
  else if w.extractLsb' 0 10 = 0#10 then
    some (mk (w.extractLsb' 20 5) (w.extractLsb' 15 5) (w.extractLsb' 10 5))
  else none

/-- Format FPC (30_encoding.md R134). -/
def decodeFpc (w : Word) (mk : Reg → Reg → Instr) : Option Instr :=
  if w.extractLsb' 20 6 = 0#6 then
    if w.extractLsb' 0 10 = 0#10 then some (mk (w.extractLsb' 15 5) (w.extractLsb' 10 5)) else none
  else none

/-- The decode algorithm (30_encoding.md R137), total on every word; `none` is Invalid(w) (R138). The opcode map is R123. -/
def decode (w : Word) : Option Instr :=
  match w.extractLsb' 26 6 with
  | 0x00#6 => if w.extractLsb' 0 26 = 0#26 then some .hlt else none
  | 0x01#6 => some (.swi (zext (w.extractLsb' 0 26)))
  | 0x04#6 => decodeDp w .add
  | 0x05#6 => decodeDp w .sub
  | 0x06#6 => decodeDp w .rsb
  | 0x07#6 => decodeDp w .adc
  | 0x08#6 => decodeDp w .sbc
  | 0x09#6 => decodeDp w .rsc
  | 0x0A#6 => decodeDp w .mul
  | 0x0C#6 => decodeDp w .and
  | 0x0D#6 => decodeDp w .orr
  | 0x0E#6 => decodeDp w .eor
  | 0x0F#6 => decodeDp w .bic
  | 0x10#6 => decodeSh w .lsl
  | 0x11#6 => decodeSh w .lsr
  | 0x12#6 => decodeSh w .asr
  | 0x13#6 => decodeSh w .ror
  | 0x14#6 => decodeCmp w .cmp
  | 0x15#6 => decodeCmp w .cmn
  | 0x16#6 => decodeCmp w .tst
  | 0x17#6 => decodeCmp w .teq
  | 0x18#6 => decodeMov w .mov
  | 0x19#6 => decodeMov w .mvn
  | 0x20#6 => decodeMem w .ldr
  | 0x21#6 => decodeMem w .ldrh
  | 0x22#6 => decodeMem w .ldrb
  | 0x24#6 => decodeMem w .str
  | 0x25#6 => decodeMem w .strh
  | 0x26#6 => decodeMem w .strb
  | 0x28#6 => decodeAtm w .swp
  | 0x29#6 => decodeAtm w .swph
  | 0x2A#6 => decodeAtm w .swpb
  | 0x2C#6 => decodeBi w .b
  | 0x2D#6 => decodeBi w .bl
  | 0x30#6 => decodeBr w .bx
  | 0x31#6 => decodeBr w .blx
  | 0x34#6 => decodeFp3 w .vaddF32
  | 0x35#6 => decodeFp3 w .vsubF32
  | 0x36#6 => decodeFp3 w .vmulF32
  | 0x37#6 => decodeFp3 w .vdivF32
  | 0x38#6 => decodeFpc w .vcmpF32
  | _ => none

/-! ## Encoding: each field at the bits of 30_encoding.md R124 to R136 -/

/-- `w[14:0]` of formats DP and CMP: I and operand2 (30_encoding.md R125). -/
def encodeOperand2 : Operand2 → BitVec 15
  | .imm v => 1#1 ++ v.extractLsb' 0 14
  | .reg xm sh shamt => 0#1 ++ xm ++ encodeShiftType sh ++ shamt ++ 0#2

/-- Format DP (30_encoding.md R124). -/
def encodeDp (op : Opcode) (f : Bool) (xd xn : Reg) (o : Operand2) : Word :=
  op ++ BitVec.ofBool f ++ xd ++ xn ++ encodeOperand2 o

/-- `w[14:0]` of format SH: I and the amount (30_encoding.md R126). -/
def encodeShiftAmount : ShiftAmount → BitVec 15
  | .imm v => 1#1 ++ 0#9 ++ v.extractLsb' 0 5
  | .reg xm => 0#1 ++ xm ++ 0#9

/-- Format SH (30_encoding.md R126). -/
def encodeSh (op : Opcode) (f : Bool) (xd xn : Reg) (amt : ShiftAmount) : Word :=
  op ++ BitVec.ofBool f ++ xd ++ xn ++ encodeShiftAmount amt

/-- Format CMP (30_encoding.md R127). -/
def encodeCmp (op : Opcode) (xn : Reg) (o : Operand2) : Word :=
  op ++ 0#6 ++ xn ++ encodeOperand2 o

/-- `w[19:0]` of format MOV: I and the operand (30_encoding.md R128). -/
def encodeMovOperand : Operand2 → BitVec 20
  | .imm v => 1#1 ++ v.extractLsb' 0 19
  | .reg xm sh shamt => 0#1 ++ xm ++ encodeShiftType sh ++ shamt ++ 0#7

/-- Format MOV (30_encoding.md R128). -/
def encodeMov (op : Opcode) (f : Bool) (xd : Reg) (o : Operand2) : Word :=
  op ++ BitVec.ofBool f ++ xd ++ encodeMovOperand o

/-- `w[13:0]` of format MEM: I and the offset (30_encoding.md R129). -/
def encodeMemOffset : MemOffset → BitVec 14
  | .imm v => 1#1 ++ v.extractLsb' 0 13
  | .reg xm => 0#1 ++ xm ++ 0#8

/-- Format MEM (30_encoding.md R129). -/
def encodeMem (op : Opcode) (xt xn : Reg) (am : AddrMode) (off : MemOffset) : Word :=
  op ++ xt ++ xn ++ encodeAddrMode am ++ encodeMemOffset off

/-- Format ATM (30_encoding.md R130). -/
def encodeAtm (op : Opcode) (xt xs xn : Reg) : Word := op ++ xt ++ xs ++ xn ++ 0#11

/-- Format BI (30_encoding.md R131). -/
def encodeBi (op : Opcode) (c : Cond) (off : Word) : Word := op ++ encodeCond c ++ off.extractLsb' 2 22

/-- Format BR (30_encoding.md R132). -/
def encodeBr (op : Opcode) (c : Cond) (xn : Reg) : Word := op ++ encodeCond c ++ xn ++ 0#17

/-- Format FP3 (30_encoding.md R133). -/
def encodeFp3 (op : Opcode) (xd xn xm : Reg) : Word := op ++ 0#1 ++ xd ++ xn ++ xm ++ 0#10

/-- Format FPC (30_encoding.md R134). -/
def encodeFpc (op : Opcode) (xn xm : Reg) : Word := op ++ 0#6 ++ xn ++ xm ++ 0#10

/-- The word of a well-formed instruction (30_encoding.md R123 to R136). -/
def encode (i : Instr) : Word :=
  match i with
  | .hlt => i.opcode ++ 0#26
  | .swi imm => i.opcode ++ imm.extractLsb' 0 26
  | .add f xd xn o => encodeDp i.opcode f xd xn o
  | .sub f xd xn o => encodeDp i.opcode f xd xn o
  | .rsb f xd xn o => encodeDp i.opcode f xd xn o
  | .adc f xd xn o => encodeDp i.opcode f xd xn o
  | .sbc f xd xn o => encodeDp i.opcode f xd xn o
  | .rsc f xd xn o => encodeDp i.opcode f xd xn o
  | .mul f xd xn o => encodeDp i.opcode f xd xn o
  | .and f xd xn o => encodeDp i.opcode f xd xn o
  | .orr f xd xn o => encodeDp i.opcode f xd xn o
  | .eor f xd xn o => encodeDp i.opcode f xd xn o
  | .bic f xd xn o => encodeDp i.opcode f xd xn o
  | .lsl f xd xn amt => encodeSh i.opcode f xd xn amt
  | .lsr f xd xn amt => encodeSh i.opcode f xd xn amt
  | .asr f xd xn amt => encodeSh i.opcode f xd xn amt
  | .ror f xd xn amt => encodeSh i.opcode f xd xn amt
  | .cmp xn o => encodeCmp i.opcode xn o
  | .cmn xn o => encodeCmp i.opcode xn o
  | .tst xn o => encodeCmp i.opcode xn o
  | .teq xn o => encodeCmp i.opcode xn o
  | .mov f xd o => encodeMov i.opcode f xd o
  | .mvn f xd o => encodeMov i.opcode f xd o
  | .ldr xt xn am off => encodeMem i.opcode xt xn am off
  | .ldrh xt xn am off => encodeMem i.opcode xt xn am off
  | .ldrb xt xn am off => encodeMem i.opcode xt xn am off
  | .str xt xn am off => encodeMem i.opcode xt xn am off
  | .strh xt xn am off => encodeMem i.opcode xt xn am off
  | .strb xt xn am off => encodeMem i.opcode xt xn am off
  | .swp xt xs xn => encodeAtm i.opcode xt xs xn
  | .swph xt xs xn => encodeAtm i.opcode xt xs xn
  | .swpb xt xs xn => encodeAtm i.opcode xt xs xn
  | .b c off => encodeBi i.opcode c off
  | .bl c off => encodeBi i.opcode c off
  | .bx c xn => encodeBr i.opcode c xn
  | .blx c xn => encodeBr i.opcode c xn
  | .vaddF32 xd xn xm => encodeFp3 i.opcode xd xn xm
  | .vsubF32 xd xn xm => encodeFp3 i.opcode xd xn xm
  | .vmulF32 xd xn xm => encodeFp3 i.opcode xd xn xm
  | .vdivF32 xd xn xm => encodeFp3 i.opcode xd xn xm
  | .vcmpF32 xn xm => encodeFpc i.opcode xn xm

/-! ## Words and bytes -/

/-- The low `n` bytes of a word, least significant first (20_memory.md R65). -/
def leBytes (n : Nat) (v : Word) : List Byte := (List.range n).map fun i => v.extractLsb' (8 * i) 8

/-- The word whose least significant bytes are the listed ones, first byte lowest (20_memory.md R65). -/
def leWord : List Byte → Word
  | [] => 0#32
  | b :: bs => (leWord bs <<< 8) ||| b.setWidth 32

/-- Decode the instruction whose bytes stand in memory in this order (30_encoding.md R120, 20_memory.md R66);
`none` where the bytes are not four or the word is Invalid. -/
def decodeBytes (bs : List Byte) : Option Instr :=
  if bs.length = 4 then decode (leWord bs) else none

/-- The instruction the decoder reads from the instruction whose low `nbits` bits are `w`, laid out as the hardware stores it. -/
def decodeTableWord (nbits w : Nat) : Option Instr :=
  decodeBytes (leBytes 4 (BitVec.ofNat 32 (w % 2 ^ nbits)))

end Sys2Proof
end

