-- ==== Sys2Proof/Machine/Ops.lean ====
section
/-! DEFINITION. The shared operations on registers and on the engine: completing an instruction, taking a fault and
resuming after one (10_state.md R22 to R24; 60_exceptions.md R281 to R293). -/

namespace Sys2Proof.Machine

/-! ## Registers -/

/-- Read general register `r` (10_state.md R20). -/
def State.reg (s : State) (r : Reg) : Word := s.regs[r.toNat]

/-- Write general register `r` (10_state.md R20). -/
def State.setReg (s : State) (r : Reg) (v : Word) : State := { s with regs := s.regs.set r.toNat v }

/-- Write the flags (10_state.md R25). -/
def State.setFlags (s : State) (fl : Flags) : State := { s with flags := fl }

/-- The link register, x30 (10_state.md R21). -/
def linkReg : Reg := 30#5

/-! ## Completing an instruction -/

/-- The instructions completed so far by the run in progress (60_exceptions.md R284). -/
def State.executed (s : State) : Nat := s.activeRun.getD 0

/-- Count a completed instruction: one more executed, its cost added to the cycles modulo 2^64 (60_exceptions.md R284,
10_state.md R31). -/
def State.retire (s : State) (op : Opcode) : State :=
  { s with activeRun := some (s.executed + 1), cycles := s.cycles + BitVec.ofNat 64 (s.cfg.cost op) }

/-- Complete `i` with the pc redirected to `target` (60_exceptions.md R285). -/
def State.redirect (s : State) (i : Instr) (target : Word) : State := { s with pc := target }.retire i.opcode

/-- Complete `i`, whose rule does not redirect the pc: pc <- (pc + 4) mod 2^32 (10_state.md R24). -/
def State.advance (s : State) (i : Instr) : State := s.redirect i (s.pc + 4#32)

/-- End the run in progress: its result goes into last_result (60_exceptions.md R282, R284). -/
def State.endRun (s : State) (e : RunEnd) : State :=
  { s with lastResult := some { ending := e, executed := s.executed }, activeRun := none }

/-! ## Taking a fault, and resuming -/

/-- The fault record of 60_exceptions.md R281. -/
def State.faultRecord (s : State) (cause : FaultCause) (word : Option Word) : FaultRecord :=
  { cause := cause, faultPc := s.pc, word := word, regs := s.regs, flags := s.flags, pc := s.pc }

/-- TAKING A FAULT (60_exceptions.md R283, R285, R288, R292): exec_state becomes Faulted, the record goes into last_result and
the run ends; nothing else changes, the pc stays at the faulting instruction. -/
def takeFault (cause : FaultCause) (word : Option Word) (s : State) : Host.Outcome State Fault Refusal :=
  .next ({ s with execState := .faulted }.endRun (.fault (s.faultRecord cause word)))

/-- THE RETURN: a run in progress goes on; between runs the host's next run begins, which leaves Faulted and sets Running
(60_exceptions.md R284, R288, R289, R293; log 2). -/
def State.resume (s : State) : State :=
  { s with execState := .running, activeRun := some s.executed }

end Sys2Proof.Machine
end

