-- ==== Sys2Proof/Machine/Operands.lean ====
section
/-! DEFINITION. The barrel shifter and every operand form (42_shift.md R190; 30_encoding.md R125, R126, R128, R129;
44_memory.md R210). -/

namespace Sys2Proof.Machine

/-- A shifted value, the carry out of the shifter, and whether a nonzero shift applied. -/
structure Shifted where
  value : Word
  carry : Bool
  shifted : Bool
  deriving DecidableEq, Repr

/-- `Shift(v, lsl, n)`, n not 0 (42_shift.md R190). -/
def shiftLsl (v : Word) (n : Nat) : Word × Bool :=
  if n < 32 then (v <<< n, v.getLsbD (32 - n)) else if n = 32 then (0#32, v.getLsbD 0) else (0#32, false)

/-- `Shift(v, lsr, n)`, n not 0 (42_shift.md R190). -/
def shiftLsr (v : Word) (n : Nat) : Word × Bool :=
  if n < 32 then (v >>> n, v.getLsbD (n - 1)) else if n = 32 then (0#32, v.getLsbD 31) else (0#32, false)

/-- `Shift(v, asr, n)`, n not 0 (42_shift.md R190). -/
def shiftAsr (v : Word) (n : Nat) : Word × Bool :=
  if n < 32 then (v.sshiftRight n, v.getLsbD (n - 1)) else (if v.msb then 0xFFFFFFFF#32 else 0#32, v.msb)

/-- `Shift(v, ror, n)`, n not 0 (42_shift.md R190). -/
def shiftRor (v : Word) (n : Nat) : Word × Bool :=
  let k := n % 32
  if k = 0 then (v, v.msb) else ((v >>> k) ||| (v <<< (32 - k)), v.getLsbD (k - 1))

/-- `Shift(v, t, n)` with the current C (42_shift.md R190). -/
def shift (v : Word) (t : ShiftType) (n : Nat) (c : Bool) : Shifted :=
  if n = 0 then { value := v, carry := c, shifted := false }
  else
    let r := match t with
      | .lsl => shiftLsl v n
      | .lsr => shiftLsr v n
      | .asr => shiftAsr v n
      | .ror => shiftRor v n
    { value := r.1, carry := r.2, shifted := true }

/-- The value of operand2 or of a MOV operand (30_encoding.md R125, R128). -/
def State.operand (s : State) : Operand2 → Shifted
  | .imm v => { value := v, carry := s.flags.c, shifted := false }
  | .reg xm sh shamt => shift (s.reg xm) sh shamt.toNat s.flags.c

/-- The amount of a shift instruction: imm5, or the low 8 bits of x[m] (30_encoding.md R126). -/
def State.shiftAmount (s : State) : ShiftAmount → Nat
  | .imm v => v.toNat
  | .reg xm => ((s.reg xm).extractLsb' 0 8).toNat

/-- The offset of a load or store (30_encoding.md R129, 44_memory.md R210). -/
def State.memOffset (s : State) : MemOffset → Word
  | .imm v => v
  | .reg xm => s.reg xm

/-- base + offset, modulo 2^32 (44_memory.md R210). -/
def State.indexed (s : State) (xn : Reg) (off : MemOffset) : Word := s.reg xn + s.memOffset off

/-- The access address of a load or store (44_memory.md R210). -/
def State.accessAddr (s : State) (xn : Reg) (am : AddrMode) (off : MemOffset) : Word :=
  match am with
  | .offsetOnly => s.indexed xn off
  | .preIndexed => s.indexed xn off
  | .postIndexed => s.reg xn

/-- Write the base register back, in the pre- and post-indexed modes (44_memory.md R210). -/
def State.writeBack (s : State) (xn : Reg) (am : AddrMode) (v : Word) : State :=
  match am with
  | .offsetOnly => s
  | .preIndexed => s.setReg xn v
  | .postIndexed => s.setReg xn v

end Sys2Proof.Machine
end

