-- ==== Sys2Proof/Machine/Arith.lean ====
section
/-! DEFINITION. The arithmetic instructions (40_arith.md). -/

namespace Sys2Proof.Machine

/-- Write an arithmetic result, and N, Z, C and V when S = 1 (40_arith.md R161); the instruction completes. -/
def finishArith (i : Instr) (f : Bool) (xd : Reg) (r : AluResult) (s : State) : Host.Outcome State Fault Refusal :=
  .next (((s.setReg xd r.result).setFlags (if f then arithFlags r else s.flags)).advance i)

/-- `add`: x[n] + operand2 (40_arith.md R163). -/
def execAdd (f : Bool) (xd xn : Reg) (o : Operand2) (s : State) : Host.Outcome State Fault Refusal :=
  finishArith (.add f xd xn o) f xd (addWithCarry (s.reg xn) (s.operand o).value false) s

/-- `sub`: x[n] - operand2 (40_arith.md R164). -/
def execSub (f : Bool) (xd xn : Reg) (o : Operand2) (s : State) : Host.Outcome State Fault Refusal :=
  finishArith (.sub f xd xn o) f xd (addWithCarry (s.reg xn) (~~~(s.operand o).value) true) s

/-- `rsb`: operand2 - x[n] (40_arith.md R165). -/
def execRsb (f : Bool) (xd xn : Reg) (o : Operand2) (s : State) : Host.Outcome State Fault Refusal :=
  finishArith (.rsb f xd xn o) f xd (addWithCarry (s.operand o).value (~~~(s.reg xn)) true) s

/-- `adc`: x[n] + operand2 + C (40_arith.md R166). -/
def execAdc (f : Bool) (xd xn : Reg) (o : Operand2) (s : State) : Host.Outcome State Fault Refusal :=
  finishArith (.adc f xd xn o) f xd (addWithCarry (s.reg xn) (s.operand o).value s.flags.c) s

/-- `sbc`: x[n] - operand2 - (1 - C) (40_arith.md R167). -/
def execSbc (f : Bool) (xd xn : Reg) (o : Operand2) (s : State) : Host.Outcome State Fault Refusal :=
  finishArith (.sbc f xd xn o) f xd (addWithCarry (s.reg xn) (~~~(s.operand o).value) s.flags.c) s

/-- `rsc`: operand2 - x[n] - (1 - C) (40_arith.md R168). -/
def execRsc (f : Bool) (xd xn : Reg) (o : Operand2) (s : State) : Host.Outcome State Fault Refusal :=
  finishArith (.rsc f xd xn o) f xd (addWithCarry (s.operand o).value (~~~(s.reg xn)) s.flags.c) s

/-- `mul`: the low word of x[n] * operand2 (40_arith.md R169). -/
def execMul (f : Bool) (xd xn : Reg) (o : Operand2) (s : State) : Host.Outcome State Fault Refusal :=
  finishArith (.mul f xd xn o) f xd (mulLow (s.reg xn) (s.operand o).value) s

end Sys2Proof.Machine
end

