-- ==== Sys2Proof/Machine/Mmu.lean ====
section
/-! DEFINITION. The MMU inside an access: pools, reference counts, page-in, copy-on-write break and translation
(20_memory.md R80 to R92). -/

namespace Sys2Proof.Machine

/-! ## Pools (R80, R86, R87) -/

/-- The free pages of a pool, rising (20_memory.md R80). -/
def State.pool (s : State) : Pool → List Nat
  | .user => s.userFree
  | .kernel => s.kernelFree
  | .disk => s.diskFree

/-- Replace the free pages of a pool. -/
def State.setPool (s : State) (p : Pool) (free : List Nat) : State :=
  match p with
  | .user => { s with userFree := free }
  | .kernel => { s with kernelFree := free }
  | .disk => { s with diskFree := free }

/-- Page `n` lies in the range of pool `p` (20_memory.md R80). -/
def inPoolRange (cfg : Params) (p : Pool) (n : Nat) : Bool :=
  match p with
  | .user => cfg.userLow ≤ n && n ≤ cfg.userHigh
  | .kernel => cfg.kernelLow ≤ n && n ≤ cfg.kernelHigh
  | .disk => n < cfg.diskPages

/-- `pool_of(f)`, by the frame's number (20_memory.md R80); a frame outside both ranges has none. -/
def poolOfFrame (cfg : Params) (f : Nat) : Option Pool :=
  if inPoolRange cfg .user f then some .user
  else if inPoolRange cfg .kernel f then some .kernel
  else none

/-- The pool an entry's frames come from (20_memory.md R81). -/
def framePool (kernel : Bool) : Pool := if kernel then .kernel else .user

/-- `allocate_one(pool)`: the lowest-numbered free page (20_memory.md R86). -/
def State.allocateOne (s : State) (p : Pool) : Except CtlError (Nat × State) :=
  match s.pool p with
  | [] => .error (.resourceExhausted p)
  | n :: free => .ok (n, s.setPool p free)

/-- `return_one(pool, n)` (20_memory.md R87). -/
def State.returnOne (s : State) (p : Pool) (n : Nat) : Except CtlError State :=
  if inPoolRange s.cfg p n then
    if n ∈ s.pool p then .error (.consistencyFault n) else .ok (s.setPool p (sortedInsert (s.pool p) n))
  else .error .invalidArgument

/-- `return_one(pool_of(f), f)` of a frame (20_memory.md R88, R98). -/
def State.returnFrame (s : State) (f : Nat) : Except CtlError State :=
  match poolOfFrame s.cfg f with
  | some p => s.returnOne p f
  | none => .error .invalidArgument

/-! ## Reference counts (R82) -/

/-- `frame_ref[f]` (20_memory.md R82); a frame that does not exist has none, and reads 0 (DESIGN CHOICE, log 20). -/
def State.frameRefOf (s : State) (f : Nat) : Nat := (assocFind s.frameRef f).getD 0

/-- `disk_ref[d]` (20_memory.md R82); a slot that does not exist has none, and reads 0 (DESIGN CHOICE, log 20). -/
def State.diskRefOf (s : State) (d : Nat) : Nat := (assocFind s.diskRef d).getD 0

/-- `frame_ref[f] <- n`. -/
def State.setFrameRef (s : State) (f n : Nat) : State := { s with frameRef := assocSet 0 s.frameRef f n }

/-- `disk_ref[d] <- n`. -/
def State.setDiskRef (s : State) (d n : Nat) : State := { s with diskRef := assocSet 0 s.diskRef d n }

/-! ## Page tables (R81, R83, R84) -/

/-- The page table of a process; a pid that is not live has an empty one (log 13). -/
def State.table (s : State) (pid : Nat) : PageTable := (assocFind s.procs pid).getD []

/-- `procs[current][p]`; `none` is an Invalid entry, or no current process (20_memory.md R83, R84). -/
def State.entry (s : State) (p : Nat) : Option Pte :=
  match s.current with
  | none => none
  | some pid => assocFind (s.table pid) p

/-- `procs[pid] <- t`. -/
def State.setTable (s : State) (pid : Nat) (t : PageTable) : State := { s with procs := assocPut s.procs pid t }

/-- `procs[current][p] <- e`, where there is a current process. -/
def State.setEntry (s : State) (p : Nat) (e : Pte) : State :=
  match s.current with
  | none => s
  | some pid => s.setTable pid (assocPut (s.table pid) p e)

/-- For every valid entry of every process with loc = `old`: loc <- `new` (20_memory.md R91, R98). -/
def State.relocate (s : State) (old new : Loc) : State :=
  { s with procs := assocMap (assocMap fun e : Pte => if e.loc = old then { e with loc := new } else e) s.procs }

/-! ## Page contents (R61, R62) -/

/-- Frame `f`'s bytes <- slot `d`'s bytes (20_memory.md R91). -/
def State.copySlotToFrame (s : State) (d f : Nat) : State :=
  { s with ram := s.ram.copy (f * s.cfg.pageSize) s.cfg.pageSize s.disk (d * s.cfg.pageSize) }

/-- Slot `d`'s bytes <- frame `f`'s bytes (20_memory.md R98). -/
def State.copyFrameToSlot (s : State) (f d : Nat) : State :=
  { s with disk := s.disk.copy (d * s.cfg.pageSize) s.cfg.pageSize s.ram (f * s.cfg.pageSize) }

/-- Frame `g`'s bytes <- frame `f`'s bytes (20_memory.md R92). -/
def State.copyFrame (s : State) (f g : Nat) : State :=
  { s with ram := s.ram.copy (g * s.cfg.pageSize) s.cfg.pageSize s.ram (f * s.cfg.pageSize) }

/-! ## Translation (R90 to R92) -/

/-- `page_in_entry(p)` for a valid entry on disk slot `d` (20_memory.md R91). -/
def State.pageInSlot (s : State) (kernel : Bool) (d : Nat) : Except CtlError State :=
  match s.allocateOne (framePool kernel) with
  | .error e => .error e
  | .ok (f, s1) =>
    (((s1.copySlotToFrame d f).relocate (.disk d) (.frame f)).setFrameRef f (s1.diskRefOf d) |>.setDiskRef d 0).returnOne .disk d

/-- The page-in of an access: nothing for a resident entry (20_memory.md R90, R91). -/
def State.bringIn (s : State) (e : Pte) : Except CtlError State :=
  match e.loc with
  | .frame _ => .ok s
  | .disk d => s.pageInSlot e.kernel d

/-- `cow_break(p)` for the valid entry `e` of page `p`, resident in frame `f` (20_memory.md R92). -/
def State.cowBreak (s : State) (p : Nat) (e : Pte) (f : Nat) : Except CtlError State :=
  if 1 < s.frameRefOf f then
    match s.allocateOne (framePool e.kernel) with
    | .error err => .error err
    | .ok (g, s1) =>
      .ok (((s1.copyFrame f g).setFrameRef f (s1.frameRefOf f - 1)).setFrameRef g 1
        |>.setEntry p { e with loc := .frame g, cow := false })
  else .ok (s.setEntry p { e with cow := false })

/-- The copy-on-write break of an access: only a write or swap to a cow entry breaks it (20_memory.md R90, R92). -/
def State.breakIfCow (s : State) (p : Nat) (writes : Bool) : Except CtlError State :=
  match s.entry p with
  | some e =>
    match e.loc with
    | .frame f => if writes && e.cow then s.cowBreak p e f else .ok s
    | .disk _ => .ok s
  | none => .ok s

/-- A write or a swap (20_memory.md R73, R90). -/
def AccessKind.writes : AccessKind → Bool
  | .read => false
  | .write => true
  | .fetch => false
  | .swap => true

/-- The result of an access: a value, a fault of the spec, or the model's stop. Both `ok` and `fault` carry the state after
the access, since a page translated before a fault keeps its bookkeeping (20_memory.md R89, 60_exceptions.md R283). -/
inductive Access (α : Type) where
  | ok (value : α) (s : State)
  | fault (cause : FaultCause) (s : State)
  | stuck (why : Fault)
  deriving Repr

/-- The result of an MMU step that an access needs: an empty pool is the fault ResourceExhausted and leaves `s0`, the state
before the translation (60_exceptions.md R283; log 5); any other error is a broken invariant (93 I13; log 6). -/
def mmuFailed {α : Type} (s0 : State) : CtlError → Access α
  | .resourceExhausted p => .fault (.resourceExhausted p) s0
  | e => .stuck (.brokenMmu e)

/-- `translate(p, k)`, after the permission checks, for the valid entry `e` (20_memory.md R90): the frame. -/
def State.makeResident (s : State) (p : Nat) (k : AccessKind) (e : Pte) : Access Nat :=
  match s.bringIn e with
  | .error err => mmuFailed s err
  | .ok s1 =>
    match s1.breakIfCow p k.writes with
    | .error err => mmuFailed s err
    | .ok s2 =>
      match s2.entry p with
      | some { loc := .frame f, .. } => .ok f s2
      | _ => .stuck (.brokenMmu (.consistencyFault p))

/-- `translate(p, k)` (20_memory.md R90); `fa` is the bus address of the access's first byte in page `p`. -/
def State.translate (s : State) (p : Nat) (k : AccessKind) (fa : Word) : Access Nat :=
  match s.entry p with
  | none => .fault (.pageFault fa p k .unmapped) s
  | some e =>
    if k.writes && !e.write then .fault (.pageFault fa p k .permission) s
    else if k == .fetch && !e.execute then .fault (.pageFault fa p k .permission) s
    else s.makeResident p k e

end Sys2Proof.Machine
end

