-- ==== Sys2Proof/Machine/Bus.lean ====
section
/-! DEFINITION. The system bus: routing, and the read, write and swap operations (20_memory.md R65 to R78, R89). -/

namespace Sys2Proof.Machine

/-- The access widths (20_memory.md R68, R70). -/
inductive Width where
  | byte | half | word
  deriving DecidableEq, Repr

/-- The number of bytes of a width (20_memory.md R68). -/
def Width.bytes : Width → Nat
  | .byte => 1
  | .half => 2
  | .word => 4

/-- Where the bus sends an access (20_memory.md R73). -/
inductive Route where
  | rom (off : Nat)
  | ram (off : Nat)
  | vm
  | fault (cause : FaultCause)
  deriving DecidableEq, Repr

/-- The whole range of `n` bytes at `a` lies in the device range [base, base + size) (20_memory.md R73). -/
def insideRange (base size a n : Nat) : Bool := base ≤ a && a + n - 1 < base + size

/-- `route(a, n, k)` (20_memory.md R73, R74). -/
def route (cfg : Params) (a : Word) (n : Nat) (k : AccessKind) : Route :=
  if 0xFFFFFFFF < a.toNat + n - 1 then .fault (.memoryOutOfBounds a)
  else if insideRange cfg.romBase cfg.romSize a.toNat n then
    if k.writes then .fault (.writeToReadOnly a) else .rom (a.toNat - cfg.romBase)
  else if insideRange cfg.ramBase cfg.ramSize a.toNat n then .ram (a.toNat - cfg.ramBase)
  else if insideRange cfg.vmBase cfg.vmSize a.toNat n then .vm
  else .fault (.memoryOutOfBounds a)

/-- The memory devices (20_memory.md R60 to R62). -/
inductive Device where
  | rom | ram | disk
  deriving DecidableEq, Repr

/-- The bytes of a device. -/
def State.device (s : State) : Device → Memory
  | .rom => s.rom
  | .ram => s.ram
  | .disk => s.disk

/-- READ ONE BYTE of a device, without the bus: what stands at this offset. -/
def State.byteAt (s : State) (d : Device) (off : Nat) : Byte := (s.device d).read off

/-- The device bytes an access reaches, first byte first. -/
structure Place where
  dev : Device
  offs : List Nat
  deriving DecidableEq, Repr

/-- The virtual page of a bus address in the VM window (20_memory.md R72). -/
def vpageOf (cfg : Params) (a : Nat) : Nat := (a - cfg.vmBase) / cfg.pageSize

/-- The RAM offset of the VM-window byte `a` whose page is in frame `f` (20_memory.md R89). -/
def frameOffset (cfg : Params) (f a : Nat) : Nat := f * cfg.pageSize + (a - cfg.vmBase) % cfg.pageSize

/-- The RAM offsets of `n` bytes at VM-window address `a`: those of page `p0` in frame `f0`, the others in frame `f1`
(20_memory.md R89). -/
def vmOffsets (cfg : Params) (a n p0 f0 f1 : Nat) : List Nat :=
  (List.range' a n).map fun b => frameOffset cfg (if vpageOf cfg b = p0 then f0 else f1) b

/-- An access in the VM window: page p0 is translated, then p1 if it differs (20_memory.md R89). -/
def State.resolveVm (s : State) (a : Word) (n : Nat) (k : AccessKind) : Access Place :=
  let p0 := vpageOf s.cfg a.toNat
  let p1 := vpageOf s.cfg (a.toNat + n - 1)
  match s.translate p0 k a with
  | .fault c s1 => .fault c s1
  | .stuck e => .stuck e
  | .ok f0 s1 =>
    if p1 = p0 then .ok { dev := .ram, offs := vmOffsets s.cfg a.toNat n p0 f0 f0 } s1
    else
      match s1.translate p1 k (BitVec.ofNat 32 (s.cfg.vmBase + p1 * s.cfg.pageSize)) with
      | .fault c s2 => .fault c s2
      | .stuck e => .stuck e
      | .ok f1 s2 => .ok { dev := .ram, offs := vmOffsets s.cfg a.toNat n p0 f0 f1 } s2

/-- WHERE AN ACCESS GOES: every check of an access of `n` bytes at `a` and, in the VM window, every translation, before any
byte is read or written (20_memory.md R73, R75, R89). -/
def State.resolve (s : State) (a : Word) (n : Nat) (k : AccessKind) : Access Place :=
  match route s.cfg a n k with
  | .fault c => .fault c s
  | .rom off => .ok { dev := .rom, offs := List.range' off n } s
  | .ram off => .ok { dev := .ram, offs := List.range' off n } s
  | .vm => s.resolveVm a n k

/-- The value of the bytes at a place, little-endian and zero-extended (20_memory.md R65, R76). -/
def State.valueAt (s : State) (pl : Place) : Word := leWord ((s.device pl.dev).readMany pl.offs)

/-- Store the low bytes of `v` at a place of RAM, little-endian (20_memory.md R65); no write is routed to another device. -/
def State.storeAt (s : State) (pl : Place) (v : Word) : State :=
  { s with ram := s.ram.writeMany pl.offs (leBytes pl.offs.length v) }

/-- `MemRead(a, n, k)`, k read or fetch (00_scope.md R9, 20_memory.md R70). -/
def State.memRead (s : State) (a : Word) (w : Width) (k : AccessKind) : Access Word :=
  match s.resolve a w.bytes k with
  | .ok pl s1 => .ok (s1.valueAt pl) s1
  | .fault c s1 => .fault c s1
  | .stuck e => .stuck e

/-- `MemWrite(a, n, v)` (00_scope.md R9, 20_memory.md R70). -/
def State.memWrite (s : State) (a : Word) (w : Width) (v : Word) : Access Unit :=
  match s.resolve a w.bytes .write with
  | .ok pl s1 => .ok () (s1.storeAt pl v)
  | .fault c s1 => .fault c s1
  | .stuck e => .stuck e

/-- `swap(a, n, v)`: one bus operation that reads the old value and writes the new one (20_memory.md R78). -/
def State.busSwap (s : State) (a : Word) (w : Width) (v : Word) : Access Word :=
  match s.resolve a w.bytes .swap with
  | .ok pl s1 => .ok (s1.valueAt pl) (s1.storeAt pl v)
  | .fault c s1 => .fault c s1
  | .stuck e => .stuck e

/-- Instruction fetch: the word at the pc (20_memory.md R66, 60_exceptions.md R285). -/
def State.fetch (s : State) : Access Word := s.memRead s.pc .word .fetch

end Sys2Proof.Machine
end

