-- ==== Sys2Proof/Machine/Atomic.lean ====
section
/-! DEFINITION. The atomic swap instructions (45_atomic.md). -/

namespace Sys2Proof.Machine

/-- A swap of width `w`: one bus swap at x[n] with x[s], and the old value, zero-extended, into x[t] (45_atomic.md R230). -/
def swapInstr (i : Instr) (w : Width) (xt xs xn : Reg) (s : State) : Host.Outcome State Fault Refusal :=
  match s.busSwap (s.reg xn) w (s.reg xs) with
  | .ok old s1 => .next ((s1.setReg xt old).advance i)
  | .fault c s1 => takeFault c (some (encode i)) s1
  | .stuck e => .fault e

/-- `swp`: swap word (45_atomic.md R231). -/
def execSwp (xt xs xn : Reg) (s : State) : Host.Outcome State Fault Refusal :=
  swapInstr (.swp xt xs xn) .word xt xs xn s

/-- `swph`: swap halfword (45_atomic.md R232). -/
def execSwph (xt xs xn : Reg) (s : State) : Host.Outcome State Fault Refusal :=
  swapInstr (.swph xt xs xn) .half xt xs xn s

/-- `swpb`: swap byte (45_atomic.md R233). -/
def execSwpb (xt xs xn : Reg) (s : State) : Host.Outcome State Fault Refusal :=
  swapInstr (.swpb xt xs xn) .byte xt xs xn s

end Sys2Proof.Machine
end

