-- ==== Sys2Proof/Machine/Branch.lean ====
section
/-! DEFINITION. The branches (46_branch.md). -/

namespace Sys2Proof.Machine

/-- Complete a branch: the pc goes to `target` when the condition holds, to pc + 4 otherwise (46_branch.md R241). -/
def branchTo (i : Instr) (c : Cond) (target : Word) (s : State) : Host.Outcome State Fault Refusal :=
  .next (if condHolds c s.flags then s.redirect i target else s.advance i)

/-- Complete a linking branch: when the condition holds, x30 gets pc + 4 and the pc goes to `target` (46_branch.md R241). -/
def branchLink (i : Instr) (c : Cond) (target : Word) (s : State) : Host.Outcome State Fault Refusal :=
  .next (if condHolds c s.flags then (s.setReg linkReg (s.pc + 4#32)).redirect i target else s.advance i)

/-- `b`: to pc + imm (46_branch.md R242). -/
def execB (c : Cond) (off : Word) (s : State) : Host.Outcome State Fault Refusal :=
  branchTo (.b c off) c (s.pc + off) s

/-- `bl`: to pc + imm, with link (46_branch.md R243). -/
def execBl (c : Cond) (off : Word) (s : State) : Host.Outcome State Fault Refusal :=
  branchLink (.bl c off) c (s.pc + off) s

/-- `bx`: to x[n] (46_branch.md R244). -/
def execBx (c : Cond) (xn : Reg) (s : State) : Host.Outcome State Fault Refusal :=
  branchTo (.bx c xn) c (s.reg xn) s

/-- `blx`: to x[n], read before x30 is written, with link (46_branch.md R245). -/
def execBlx (c : Cond) (xn : Reg) (s : State) : Host.Outcome State Fault Refusal :=
  branchLink (.blx c xn) c (s.reg xn) s

end Sys2Proof.Machine
end

