-- ==== Sys2Proof/Machine/Compare.lean ====
section
/-! DEFINITION. The compare instructions (43_compare.md). -/

namespace Sys2Proof.Machine

/-- Write the flags and nothing else; the instruction completes (43_compare.md R200). -/
def finishCompare (i : Instr) (fl : Flags) (s : State) : Host.Outcome State Fault Refusal :=
  .next ((s.setFlags fl).advance i)

/-- `cmp`: the flags of x[n] - operand2 (43_compare.md R201). -/
def execCmp (xn : Reg) (o : Operand2) (s : State) : Host.Outcome State Fault Refusal :=
  finishCompare (.cmp xn o)
    (arithFlags (addWithCarry (s.reg xn) (~~~(s.operand o).value) true)) s

/-- `cmn`: the flags of x[n] + operand2 (43_compare.md R202). -/
def execCmn (xn : Reg) (o : Operand2) (s : State) : Host.Outcome State Fault Refusal :=
  finishCompare (.cmn xn o)
    (arithFlags (addWithCarry (s.reg xn) (s.operand o).value false)) s

/-- `tst`: the flags of x[n] & operand2 (43_compare.md R203). -/
def execTst (xn : Reg) (o : Operand2) (s : State) : Host.Outcome State Fault Refusal :=
  finishCompare (.tst xn o)
    (logicFlags (s.reg xn &&& (s.operand o).value) (s.operand o).shifted (s.operand o).carry s.flags) s

/-- `teq`: the flags of x[n] ^ operand2 (43_compare.md R204). -/
def execTeq (xn : Reg) (o : Operand2) (s : State) : Host.Outcome State Fault Refusal :=
  finishCompare (.teq xn o)
    (logicFlags (s.reg xn ^^^ (s.operand o).value) (s.operand o).shifted (s.operand o).carry s.flags) s

end Sys2Proof.Machine
end

