-- ==== Sys2Proof/Machine/Float.lean ====
section
/-! DEFINITION. IEEE 754 binary32 on register words (47_float.md R250, R251, R256). A finite value is its sign and its
magnitude, counted exactly in units of 2^-149, the smallest subnormal. -/

namespace Sys2Proof.Machine

/-- The sign bit (47_float.md R250). -/
def f32Sign (w : Word) : Bool := w.getLsbD 31

/-- The biased exponent, bits 30 to 23 (47_float.md R250). -/
def f32Exp (w : Word) : Nat := (w.extractLsb' 23 8).toNat

/-- The fraction, bits 22 to 0 (47_float.md R250). -/
def f32Frac (w : Word) : Nat := (w.extractLsb' 0 23).toNat

/-- A NaN, quiet or signalling. -/
def f32IsNan (w : Word) : Bool := f32Exp w == 255 && f32Frac w != 0

/-- An infinity. -/
def f32IsInf (w : Word) : Bool := f32Exp w == 255 && f32Frac w == 0

/-- The magnitude of a finite value, in units of 2^-149. -/
def f32Mag (w : Word) : Nat := if f32Exp w = 0 then f32Frac w else (2 ^ 23 + f32Frac w) * 2 ^ (f32Exp w - 1)

/-- A finite value, in units of 2^-149. -/
def f32Units (w : Word) : Int := if f32Sign w then -(f32Mag w : Int) else (f32Mag w : Int)

/-- The word with this sign bit and these low 31 bits. -/
def f32Pack (neg : Bool) (bits : Nat) : Word := BitVec.ofBool neg ++ BitVec.ofNat 31 bits

/-- An infinity. -/
def f32Inf (neg : Bool) : Word := f32Pack neg 0x7F800000

/-- A zero. -/
def f32Zero (neg : Bool) : Word := f32Pack neg 0

/-- `num / den` rounded to a natural number, ties to even; den is not 0. -/
def divNearestEven (num den : Nat) : Nat :=
  let k := num / den
  let r := num % den
  if den < 2 * r || (2 * r == den && k % 2 == 1) then k + 1 else k

/-- The binary exponent, above 2^-149, of the last place of a magnitude of `num / den` units. -/
def lastPlace (num den : Nat) : Nat := Nat.log2 (num / den) - 23

/-- The low 31 bits of the binary32 value nearest to `num / den` units of 2^-149, ties to even; infinity past the largest
finite value (47_float.md R251, points 1 and 2). -/
def f32RoundBits (num den : Nat) : Nat :=
  let q := lastPlace num den
  min (q * 2 ^ 23 + divNearestEven num (den * 2 ^ q)) 0x7F800000

/-- Round an exact magnitude, with its sign (47_float.md R251, point 1). -/
def f32Round (neg : Bool) (num den : Nat) : Word := f32Pack neg (f32RoundBits num den)

/-- The sum of two words read as binary32 (47_float.md R251, R252). -/
def f32Add (nan a b : Word) : Word :=
  if f32IsNan a || f32IsNan b then nan
  else if f32IsInf a then (if f32IsInf b && f32Sign a != f32Sign b then nan else a)
  else if f32IsInf b then b
  else
    let sum := f32Units a + f32Units b
    if sum = 0 then f32Zero (f32Sign a && f32Sign b) else f32Round (sum < 0) sum.natAbs 1

/-- The word with its sign bit inverted. -/
def f32Neg (w : Word) : Word := w ^^^ 0x80000000#32

/-- The difference (47_float.md R251, R253). -/
def f32Sub (nan a b : Word) : Word := f32Add nan a (f32Neg b)

/-- The product (47_float.md R251, R254). -/
def f32Mul (nan a b : Word) : Word :=
  let neg := f32Sign a != f32Sign b
  if f32IsNan a || f32IsNan b then nan
  else if f32IsInf a then (if !f32IsInf b && f32Mag b == 0 then nan else f32Inf neg)
  else if f32IsInf b then (if f32Mag a == 0 then nan else f32Inf neg)
  else f32Round neg (f32Mag a * f32Mag b) (2 ^ 149)

/-- The quotient (47_float.md R251, R255). -/
def f32Div (nan a b : Word) : Word :=
  let neg := f32Sign a != f32Sign b
  if f32IsNan a || f32IsNan b then nan
  else if f32IsInf a then (if f32IsInf b then nan else f32Inf neg)
  else if f32IsInf b then f32Zero neg
  else if f32Mag b = 0 then (if f32Mag a = 0 then nan else f32Inf neg)
  else f32Round neg (f32Mag a * 2 ^ 149) (f32Mag b)

/-- A word that is no NaN, in units of 2^-149 and with an infinity beyond every finite value: an order-preserving reading. -/
def f32Rank (w : Word) : Int :=
  if f32IsInf w then (if f32Sign w then -(2 ^ 278) else 2 ^ 278) else f32Units w

/-- The flags of a comparison (47_float.md R256). -/
def f32Compare (a b : Word) : Flags :=
  if f32IsNan a || f32IsNan b then { n := false, z := false, c := true, v := true }
  else if f32Rank a = f32Rank b then { n := false, z := true, c := true, v := false }
  else if f32Rank a < f32Rank b then { n := true, z := false, c := false, v := false }
  else { n := false, z := false, c := true, v := false }

end Sys2Proof.Machine
end

