-- ==== Sys2Proof/Machine/FloatInstr.lean ====
section
/-! DEFINITION. The floating-point instructions (47_float.md). -/

namespace Sys2Proof.Machine

/-- Write a floating-point result, no flag; the instruction completes (47_float.md R251). -/
def finishFloat (i : Instr) (xd : Reg) (r : Word) (s : State) : Host.Outcome State Fault Refusal :=
  .next ((s.setReg xd r).advance i)

/-- `vadd_f32`: add (47_float.md R252). -/
def execVaddF32 (xd xn xm : Reg) (s : State) : Host.Outcome State Fault Refusal :=
  finishFloat (.vaddF32 xd xn xm) xd (f32Add s.cfg.defaultNan (s.reg xn) (s.reg xm)) s

/-- `vsub_f32`: subtract (47_float.md R253). -/
def execVsubF32 (xd xn xm : Reg) (s : State) : Host.Outcome State Fault Refusal :=
  finishFloat (.vsubF32 xd xn xm) xd (f32Sub s.cfg.defaultNan (s.reg xn) (s.reg xm)) s

/-- `vmul_f32`: multiply (47_float.md R254). -/
def execVmulF32 (xd xn xm : Reg) (s : State) : Host.Outcome State Fault Refusal :=
  finishFloat (.vmulF32 xd xn xm) xd (f32Mul s.cfg.defaultNan (s.reg xn) (s.reg xm)) s

/-- `vdiv_f32`: divide (47_float.md R255). -/
def execVdivF32 (xd xn xm : Reg) (s : State) : Host.Outcome State Fault Refusal :=
  finishFloat (.vdivF32 xd xn xm) xd (f32Div s.cfg.defaultNan (s.reg xn) (s.reg xm)) s

/-- `vcmp_f32`: compare, writing N, Z, C and V (47_float.md R256). -/
def execVcmpF32 (xn xm : Reg) (s : State) : Host.Outcome State Fault Refusal :=
  .next ((s.setFlags (f32Compare (s.reg xn) (s.reg xm))).advance (.vcmpF32 xn xm))

end Sys2Proof.Machine
end

