-- ==== Sys2Proof/Machine/LoadStore.lean ====
section
/-! DEFINITION. The loads and stores (44_memory.md). -/

namespace Sys2Proof.Machine

/-- A load of width `w`: the access, then the base, then x[t] (44_memory.md R210 to R212). -/
def loadInstr (i : Instr) (w : Width) (xt xn : Reg) (am : AddrMode) (off : MemOffset) (s : State) :
    Host.Outcome State Fault Refusal :=
  match s.memRead (s.accessAddr xn am off) w .read with
  | .ok v s1 => .next (((s1.writeBack xn am (s.indexed xn off)).setReg xt v).advance i)
  | .fault c s1 => takeFault c (some (encode i)) s1
  | .stuck e => .fault e

/-- A store of width `w`: the access with the old x[t], then the base (44_memory.md R210 to R212). -/
def storeInstr (i : Instr) (w : Width) (xt xn : Reg) (am : AddrMode) (off : MemOffset) (s : State) :
    Host.Outcome State Fault Refusal :=
  match s.memWrite (s.accessAddr xn am off) w (s.reg xt) with
  | .ok _ s1 => .next ((s1.writeBack xn am (s.indexed xn off)).advance i)
  | .fault c s1 => takeFault c (some (encode i)) s1
  | .stuck e => .fault e

/-- `ldr`: load word (44_memory.md R213). -/
def execLdr (xt xn : Reg) (am : AddrMode) (off : MemOffset) (s : State) : Host.Outcome State Fault Refusal :=
  loadInstr (.ldr xt xn am off) .word xt xn am off s

/-- `ldrh`: load halfword, zero-extended (44_memory.md R214). -/
def execLdrh (xt xn : Reg) (am : AddrMode) (off : MemOffset) (s : State) : Host.Outcome State Fault Refusal :=
  loadInstr (.ldrh xt xn am off) .half xt xn am off s

/-- `ldrb`: load byte, zero-extended (44_memory.md R215). -/
def execLdrb (xt xn : Reg) (am : AddrMode) (off : MemOffset) (s : State) : Host.Outcome State Fault Refusal :=
  loadInstr (.ldrb xt xn am off) .byte xt xn am off s

/-- `str`: store word (44_memory.md R216). -/
def execStr (xt xn : Reg) (am : AddrMode) (off : MemOffset) (s : State) : Host.Outcome State Fault Refusal :=
  storeInstr (.str xt xn am off) .word xt xn am off s

/-- `strh`: store halfword (44_memory.md R217). -/
def execStrh (xt xn : Reg) (am : AddrMode) (off : MemOffset) (s : State) : Host.Outcome State Fault Refusal :=
  storeInstr (.strh xt xn am off) .half xt xn am off s

/-- `strb`: store byte (44_memory.md R218). -/
def execStrb (xt xn : Reg) (am : AddrMode) (off : MemOffset) (s : State) : Host.Outcome State Fault Refusal :=
  storeInstr (.strb xt xn am off) .byte xt xn am off s

end Sys2Proof.Machine
end

