-- ==== Sys2Proof/Machine/Logical.lean ====
section
/-! DEFINITION. The logical and move instructions (41_logical.md). -/

namespace Sys2Proof.Machine

/-- Write a logical result `r`, and by the policy of 41_logical.md R180 the flags when S = 1; the instruction completes.
`b` is the operand as the shifter gave it. -/
def finishLogic (i : Instr) (f : Bool) (xd : Reg) (r : Word) (b : Shifted) (s : State) : Host.Outcome State Fault Refusal :=
  .next (((s.setReg xd r).setFlags (if f then logicFlags r b.shifted b.carry s.flags else s.flags)).advance i)

/-- `and`: x[n] & operand2 (41_logical.md R181). -/
def execAnd (f : Bool) (xd xn : Reg) (o : Operand2) (s : State) : Host.Outcome State Fault Refusal :=
  finishLogic (.and f xd xn o) f xd (s.reg xn &&& (s.operand o).value) (s.operand o) s

/-- `orr`: x[n] | operand2 (41_logical.md R182). -/
def execOrr (f : Bool) (xd xn : Reg) (o : Operand2) (s : State) : Host.Outcome State Fault Refusal :=
  finishLogic (.orr f xd xn o) f xd (s.reg xn ||| (s.operand o).value) (s.operand o) s

/-- `eor`: x[n] ^ operand2 (41_logical.md R183). -/
def execEor (f : Bool) (xd xn : Reg) (o : Operand2) (s : State) : Host.Outcome State Fault Refusal :=
  finishLogic (.eor f xd xn o) f xd (s.reg xn ^^^ (s.operand o).value) (s.operand o) s

/-- `bic`: x[n] & ~operand2 (41_logical.md R184). -/
def execBic (f : Bool) (xd xn : Reg) (o : Operand2) (s : State) : Host.Outcome State Fault Refusal :=
  finishLogic (.bic f xd xn o) f xd (s.reg xn &&& ~~~(s.operand o).value) (s.operand o) s

/-- `mov`: the operand (41_logical.md R185). -/
def execMov (f : Bool) (xd : Reg) (o : Operand2) (s : State) : Host.Outcome State Fault Refusal :=
  finishLogic (.mov f xd o) f xd (s.operand o).value (s.operand o) s

/-- `mvn`: the complement of the operand (41_logical.md R186). -/
def execMvn (f : Bool) (xd : Reg) (o : Operand2) (s : State) : Host.Outcome State Fault Refusal :=
  finishLogic (.mvn f xd o) f xd (~~~(s.operand o).value) (s.operand o) s

end Sys2Proof.Machine
end

