-- ==== Sys2Proof/Machine/Shift.lean ====
section
/-! DEFINITION. The shift instructions (42_shift.md). -/

namespace Sys2Proof.Machine

/-- Write a shift result, and by the policy of 42_shift.md R191 the flags when S = 1; the instruction completes. -/
def finishShift (i : Instr) (f : Bool) (xd : Reg) (r : Shifted) (s : State) : Host.Outcome State Fault Refusal :=
  .next (((s.setReg xd r.value).setFlags (if f then logicFlags r.value r.shifted r.carry s.flags else s.flags)).advance i)

/-- `lsl`: logical shift left (42_shift.md R192). -/
def execLsl (f : Bool) (xd xn : Reg) (amt : ShiftAmount) (s : State) : Host.Outcome State Fault Refusal :=
  finishShift (.lsl f xd xn amt) f xd (shift (s.reg xn) .lsl (s.shiftAmount amt) s.flags.c) s

/-- `lsr`: logical shift right (42_shift.md R193). -/
def execLsr (f : Bool) (xd xn : Reg) (amt : ShiftAmount) (s : State) : Host.Outcome State Fault Refusal :=
  finishShift (.lsr f xd xn amt) f xd (shift (s.reg xn) .lsr (s.shiftAmount amt) s.flags.c) s

/-- `asr`: arithmetic shift right (42_shift.md R194). -/
def execAsr (f : Bool) (xd xn : Reg) (amt : ShiftAmount) (s : State) : Host.Outcome State Fault Refusal :=
  finishShift (.asr f xd xn amt) f xd (shift (s.reg xn) .asr (s.shiftAmount amt) s.flags.c) s

/-- `ror`: rotate right (42_shift.md R195). -/
def execRor (f : Bool) (xd xn : Reg) (amt : ShiftAmount) (s : State) : Host.Outcome State Fault Refusal :=
  finishShift (.ror f xd xn amt) f xd (shift (s.reg xn) .ror (s.shiftAmount amt) s.flags.c) s

end Sys2Proof.Machine
end

