-- ==== Sys2Proof/Machine/System.lean ====
section
/-! DEFINITION. The system instructions (48_system.md). -/

namespace Sys2Proof.Machine

/-- `hlt`: it completes, exec_state becomes Halted and the run ends with Halt (48_system.md R270, 60_exceptions.md R286). -/
def execHlt (s : State) : Host.Outcome State Fault Refusal :=
  .next (({ s with execState := .halted }.advance .hlt).endRun .halt)

/-- `swi`: it completes and the run ends with SoftwareInterrupt(imm26); exec_state stays (48_system.md R271). -/
def execSwi (imm : Word) (s : State) : Host.Outcome State Fault Refusal :=
  .next ((s.advance (.swi imm)).endRun (.softwareInterrupt imm))

end Sys2Proof.Machine
end

