-- ==== Sys2Proof/Machine/Dispatch.lean ====
section
/-! DEFINITION. The dispatch of an instruction to its meaning. -/

namespace Sys2Proof.Machine

def exec (i : Instr) (s : State) : Host.Outcome State Fault Refusal :=
  match i with
  | .hlt => Sys2Proof.Machine.execHlt s
  | .swi imm => Sys2Proof.Machine.execSwi imm s
  | .add f xd xn o => Sys2Proof.Machine.execAdd f xd xn o s
  | .sub f xd xn o => Sys2Proof.Machine.execSub f xd xn o s
  | .rsb f xd xn o => Sys2Proof.Machine.execRsb f xd xn o s
  | .adc f xd xn o => Sys2Proof.Machine.execAdc f xd xn o s
  | .sbc f xd xn o => Sys2Proof.Machine.execSbc f xd xn o s
  | .rsc f xd xn o => Sys2Proof.Machine.execRsc f xd xn o s
  | .mul f xd xn o => Sys2Proof.Machine.execMul f xd xn o s
  | .and f xd xn o => Sys2Proof.Machine.execAnd f xd xn o s
  | .orr f xd xn o => Sys2Proof.Machine.execOrr f xd xn o s
  | .eor f xd xn o => Sys2Proof.Machine.execEor f xd xn o s
  | .bic f xd xn o => Sys2Proof.Machine.execBic f xd xn o s
  | .lsl f xd xn amt => Sys2Proof.Machine.execLsl f xd xn amt s
  | .lsr f xd xn amt => Sys2Proof.Machine.execLsr f xd xn amt s
  | .asr f xd xn amt => Sys2Proof.Machine.execAsr f xd xn amt s
  | .ror f xd xn amt => Sys2Proof.Machine.execRor f xd xn amt s
  | .cmp xn o => Sys2Proof.Machine.execCmp xn o s
  | .cmn xn o => Sys2Proof.Machine.execCmn xn o s
  | .tst xn o => Sys2Proof.Machine.execTst xn o s
  | .teq xn o => Sys2Proof.Machine.execTeq xn o s
  | .mov f xd o => Sys2Proof.Machine.execMov f xd o s
  | .mvn f xd o => Sys2Proof.Machine.execMvn f xd o s
  | .ldr xt xn am off => Sys2Proof.Machine.execLdr xt xn am off s
  | .ldrh xt xn am off => Sys2Proof.Machine.execLdrh xt xn am off s
  | .ldrb xt xn am off => Sys2Proof.Machine.execLdrb xt xn am off s
  | .str xt xn am off => Sys2Proof.Machine.execStr xt xn am off s
  | .strh xt xn am off => Sys2Proof.Machine.execStrh xt xn am off s
  | .strb xt xn am off => Sys2Proof.Machine.execStrb xt xn am off s
  | .swp xt xs xn => Sys2Proof.Machine.execSwp xt xs xn s
  | .swph xt xs xn => Sys2Proof.Machine.execSwph xt xs xn s
  | .swpb xt xs xn => Sys2Proof.Machine.execSwpb xt xs xn s
  | .b c off => Sys2Proof.Machine.execB c off s
  | .bl c off => Sys2Proof.Machine.execBl c off s
  | .bx c xn => Sys2Proof.Machine.execBx c xn s
  | .blx c xn => Sys2Proof.Machine.execBlx c xn s
  | .vaddF32 xd xn xm => Sys2Proof.Machine.execVaddF32 xd xn xm s
  | .vsubF32 xd xn xm => Sys2Proof.Machine.execVsubF32 xd xn xm s
  | .vmulF32 xd xn xm => Sys2Proof.Machine.execVmulF32 xd xn xm s
  | .vdivF32 xd xn xm => Sys2Proof.Machine.execVdivF32 xd xn xm s
  | .vcmpF32 xn xm => Sys2Proof.Machine.execVcmpF32 xn xm s

end Sys2Proof.Machine
end

