-- ==== Sys2Proof/Machine/Fetch.lean ====
section
/-! DEFINITION. Fetch and decode (60_exceptions.md R285, R290), and the placing of a word where the next fetch reads it. -/

namespace Sys2Proof.Machine

/-- What fetching and decoding gives: an instruction to execute, with the state after the fetch, or the step's outcome. -/
inductive Fetched where
  | instr (i : Instr) (s : State)
  | stop (o : Host.Outcome State Fault Refusal)

/-- Decode a fetched word; an Invalid one takes InvalidOpcode (60_exceptions.md R285, 30_encoding.md R138). -/
def State.decodeFetched (s : State) (w : Word) : Fetched :=
  match decode w with
  | some i => .instr i s
  | none => .stop (takeFault (.invalidOpcode w) (some w) s)

/-- Fetch the word at the pc and decode it; a fault of the fetch is taken, with no word (60_exceptions.md R281, R285, R290). -/
def State.fetchInstr (s : State) : Fetched :=
  match s.fetch with
  | .ok w s1 => s1.decodeFetched w
  | .fault c s1 => .stop (takeFault c none s1)
  | .stuck e => .stop (.fault e)

/-- Store a word's four bytes at a place of ROM or RAM, as an image load does (20_memory.md R64). -/
def State.placeWord (s : State) (pl : Place) (w : Word) : State :=
  match pl.dev with
  | .rom => { s with rom := s.rom.writeMany pl.offs (leBytes 4 w) }
  | .ram => { s with ram := s.ram.writeMany pl.offs (leBytes 4 w) }
  | .disk => s

/-- Store `w` where the next step fetches it: where a fetch at the pc reads, or, where that fetch would fault, at
RESET_VECTOR_ADDR with the pc moved there; a Halted machine is set Running (log 10). -/
def State.placeFetchWord (s : State) (w : Word) : State :=
  let s0 := if s.execState = .halted then { s with execState := .running } else s
  match s0.resolve s0.pc 4 .fetch with
  | .ok pl s1 => s1.placeWord pl w
  | _ =>
    let s2 := { s0 with pc := BitVec.ofNat 32 s0.cfg.resetVector }
    match s2.resolve s2.pc 4 .fetch with
    | .ok pl s3 => s3.placeWord pl w
    | _ => s2

end Sys2Proof.Machine
end

