-- ==== Sys2Proof/Machine/Step.lean ====
section
/-! DEFINITION. One step of the machine, and the placing of an instruction where the next step fetches it. -/

namespace Sys2Proof.Machine

/-- One step. While Halted nothing executes (60_exceptions.md R287; log 3). Otherwise one iteration of the run loop (R284, R285;
log 2): fetch at the pc, decode, and execute; a fetch that faults or a word that decodes to Invalid takes its fault. -/
def step (s : State) : Host.Outcome State Fault Refusal :=
  match s.execState with
  | .halted => .next s
  | _ =>
    match s.resume.fetchInstr with
    | .instr i s1 => exec i s1
    | .stop o => o

/-- `s` with the `nbits`-bit instruction `w` stored where `step` fetches its next instruction (log 10). -/
def State.withFetchWord (s : State) (nbits w : Nat) : State := s.placeFetchWord (BitVec.ofNat 32 (w % 2 ^ nbits))

end Sys2Proof.Machine
end

