-- ==== Sys2Proof/Machine/Control.lean ====
section
/-! DEFINITION. The MMU control operations of the host (20_memory.md R83, R86 to R102). An operation that fails answers an error
and no state: nothing changes (R102, and "An operation that returns an error changes nothing", 20_memory.md section 4.4). -/

namespace Sys2Proof.Machine

/-- The current process's pid, when there is one and `p` is a virtual page (20_memory.md R93 to R99). -/
def State.currentFor (s : State) (p : Nat) : Option Nat := if p < s.cfg.vpages then s.current else none

/-- `release(loc)` (20_memory.md R88). -/
def State.release (s : State) : Loc → Except CtlError State
  | .frame f =>
    let s1 := s.setFrameRef f (s.frameRefOf f - 1)
    if s1.frameRefOf f = 0 then s1.returnFrame f else .ok s1
  | .disk d =>
    let s1 := s.setDiskRef d (s.diskRefOf d - 1)
    if s1.diskRefOf d = 0 then s1.returnOne .disk d else .ok s1

/-- The bytes of a freshly mapped frame (20_memory.md R93, FRESH_PAGE_FILL of 00_scope.md R7; log 11). -/
def State.fillFresh (s : State) (f : Nat) : State :=
  match s.cfg.freshFill with
  | .zero => { s with ram := s.ram.clear (f * s.cfg.pageSize) s.cfg.pageSize }
  | .anyValue =>
    { s with
      ram := s.ram.fill (f * s.cfg.pageSize) s.cfg.pageSize (Config.freeByte s.freeDraws)
      freeDraws := s.freeDraws + 1 }

/-- `add_vpage(vpage, kernel, write, execute, copy_on_write)` (20_memory.md R93). -/
def State.addVpage (s : State) (p : Nat) (kernel write execute cow : Bool) : Except CtlError State :=
  match s.currentFor p with
  | none => .error .invalidArgument
  | some _ =>
    match s.entry p with
    | some _ => .error (.alreadyMapped p)
    | none =>
      match s.allocateOne (framePool kernel) with
      | .error e => .error e
      | .ok (f, s1) =>
        .ok (((s1.fillFresh f).setFrameRef f 1).setEntry p
          { loc := .frame f, write := write, execute := execute, kernel := kernel, cow := cow })

/-- Invalidate entry `p` of process `pid` and release its page, if it is valid (20_memory.md R94, R101). -/
def State.removeEntryOf (s : State) (pid p : Nat) : Except CtlError State :=
  match assocFind (s.table pid) p with
  | none => .ok s
  | some e => (s.setTable pid (assocDel (s.table pid) p)).release e.loc

/-- `remove_vpage(vpage)` (20_memory.md R94). -/
def State.removeVpage (s : State) (p : Nat) : Except CtlError State :=
  match s.currentFor p with
  | none => .error .invalidArgument
  | some pid => s.removeEntryOf pid p

/-- Remove the listed entries of process `pid`, in order. -/
def State.removeEntries (s : State) (pid : Nat) : List Nat → Except CtlError State
  | [] => .ok s
  | p :: ps =>
    match s.removeEntryOf pid p with
    | .error e => .error e
    | .ok s1 => s1.removeEntries pid ps

/-- Every valid entry of process `pid` removed, in rising order of its page (20_memory.md R95, R101). -/
def State.removeAll (s : State) (pid : Nat) : Except CtlError State := s.removeEntries pid ((s.table pid).map Prod.fst)

/-- `remove_pagedir()` (20_memory.md R95); an Invalid page has nothing to remove (R94). -/
def State.removePagedir (s : State) : Except CtlError State :=
  match s.current with
  | none => .error .invalidArgument
  | some pid => s.removeAll pid

/-- One more reference to a page (20_memory.md R96). -/
def State.addReference (s : State) : Loc → State
  | .frame f => s.setFrameRef f (s.frameRefOf f + 1)
  | .disk d => s.setDiskRef d (s.diskRefOf d + 1)

/-- A live process's entry `p`, where `p` is a virtual page (20_memory.md R96). The host's inspection (R83) reads through it too: outside
the window it shows an Invalid entry, DESIGN CHOICE, where the spec gives no answer (log 20). -/
def State.entryOf (s : State) (pid p : Nat) : Option Pte := if p < s.cfg.vpages then assocFind (s.table pid) p else none

/-- `share_vpage(src_pid, src_vpage, dst_vpage, write, execute, copy_on_write)` (20_memory.md R96). -/
def State.shareVpage (s : State) (srcPid src dst : Nat) (write execute cow : Bool) : Except CtlError State :=
  match s.currentFor dst, s.entryOf srcPid src with
  | some _, some e =>
    match s.entry dst with
    | some _ => .error (.alreadyMapped dst)
    | none =>
      .ok ((s.setEntry dst { loc := e.loc, write := write, execute := execute, kernel := e.kernel, cow := cow }).addReference
        e.loc)
  | _, _ => .error .invalidArgument

/-- `protect_vpage(vpage, write, execute, copy_on_write)` (20_memory.md R97). -/
def State.protectVpage (s : State) (p : Nat) (write execute cow : Bool) : Except CtlError State :=
  match s.currentFor p, s.entry p with
  | some _, some e => .ok (s.setEntry p { e with write := write, execute := execute, cow := cow })
  | _, _ => .error .invalidArgument

/-- Frame `f`'s page moved to a free disk slot, with its reference count (20_memory.md R98). -/
def State.pageOutFrame (s : State) (f : Nat) : Except CtlError State :=
  match s.allocateOne .disk with
  | .error e => .error e
  | .ok (d, s1) =>
    (((s1.copyFrameToSlot f d).relocate (.frame f) (.disk d)).setDiskRef d (s1.frameRefOf f) |>.setFrameRef f 0).returnFrame f

/-- `page_out(vpage)` (20_memory.md R98). -/
def State.pageOut (s : State) (p : Nat) : Except CtlError State :=
  match s.currentFor p, s.entry p with
  | some _, some e =>
    match e.loc with
    | .disk _ => .ok s
    | .frame f => s.pageOutFrame f
  | _, _ => .error .invalidArgument

/-- `page_in(vpage)` (20_memory.md R99). -/
def State.pageIn (s : State) (p : Nat) : Except CtlError State :=
  match s.currentFor p, s.entry p with
  | some _, some e => s.bringIn e
  | _, _ => .error .invalidArgument

/-- `translate(vpage)` as a host operation, for a virtual page: `translate(vpage, read)` of R90 (20_memory.md R99); a page outside the
window is InvalidArgument (60_exceptions.md R280; log 18). -/
def State.hostTranslate (s : State) (p : Nat) : Access Nat :=
  s.translate p .read (BitVec.ofNat 32 (s.cfg.vmBase + p * s.cfg.pageSize))

/-- `begin_process()` (20_memory.md R100). -/
def State.beginProcess (s : State) : Nat × State :=
  (s.nextPid, { s.setTable s.nextPid [] with nextPid := s.nextPid + 1, current := some s.nextPid })

/-- `pid` is live (20_memory.md R84). -/
def State.live (s : State) (pid : Nat) : Bool := (assocFind s.procs pid).isSome

/-- `set_current(pid)` (20_memory.md R100). -/
def State.setCurrent (s : State) (pid : Nat) : Except CtlError State :=
  if s.live pid then .ok { s with current := some pid } else .error .invalidArgument

/-- `end_process(pid)` (20_memory.md R101). -/
def State.endProcess (s : State) (pid : Nat) : Except CtlError State :=
  if s.live pid then
    match s.removeAll pid with
    | .error e => .error e
    | .ok s1 =>
      .ok { s1 with
        procs := assocDel s1.procs pid
        current := if s1.current = some pid then none else s1.current }
  else .error .invalidArgument

/-- The entry's reference count, a view of its frame's or slot's count (20_memory.md R81, R82). -/
def State.refOf (s : State) : Loc → Nat
  | .frame f => s.frameRefOf f
  | .disk d => s.diskRefOf d

/-- The frame or slot number of a location. -/
def Loc.number : Loc → Nat
  | .frame f => f
  | .disk d => d

/-- A location on the disk. -/
def Loc.onDisk : Loc → Bool
  | .frame _ => false
  | .disk _ => true

/-- A page table entry packed for inspection (20_memory.md R83); an invalid entry packs to 0. -/
def State.packEntry (s : State) : Option Pte → BitVec 64
  | none => 0#64
  | some e =>
    BitVec.ofNat 32 (s.refOf e.loc) ++ BitVec.ofNat 24 e.loc.number ++ 0#2 ++ BitVec.ofBool e.cow ++
      BitVec.ofBool e.kernel ++ BitVec.ofBool e.execute ++ BitVec.ofBool e.write ++ BitVec.ofBool e.loc.onDisk ++ 1#1

end Sys2Proof.Machine
end

