-- ==== Sys2Proof/Machine/Run.lean ====
section
/-! DEFINITION. Runs, reset and construction (60_exceptions.md R280 to R289; 70_reset_and_hazards.md R320 to R322). -/

namespace Sys2Proof.Machine

/-! ## Runs -/

/-- The loop of `run` (60_exceptions.md R284): at most `budget` more instructions, until the run ends. -/
def runLoop : Nat → State → Host.Outcome State Fault Refusal
  | 0, s => .next (s.endRun .budgetExhausted)
  | budget + 1, s =>
    match step s with
    | .next s1 => if s1.activeRun.isSome then runLoop budget s1 else .next s1
    | o => o

/-- `run(max_instructions)` (60_exceptions.md R284); its result is the next state's last_result. -/
def run (max : Nat) (s : State) : Host.Outcome State Fault Refusal :=
  match s.execState with
  | .halted => .next { s with lastResult := some { ending := .halt, executed := 0 }, activeRun := none }
  | _ => runLoop max { s with execState := .running, activeRun := some 0 }

/-- The numeric code of a fault (60_exceptions.md R280). -/
def FaultCause.code : FaultCause → Nat
  | .invalidOpcode _ => 16
  | .memoryOutOfBounds _ => 17
  | .writeToReadOnly _ => 18
  | .pageFault _ _ _ _ => 19
  | .resourceExhausted _ => 20

/-- The numeric code of a control operation's error (60_exceptions.md R280). -/
def CtlError.code : CtlError → Nat
  | .resourceExhausted _ => 20
  | .consistencyFault _ => 21
  | .alreadyMapped _ => 22
  | .invalidArgument => 23

/-- The numeric code of a run's result (60_exceptions.md R280). -/
def RunEnd.code : RunEnd → Nat
  | .halt => 0
  | .budgetExhausted => 1
  | .softwareInterrupt _ => 2
  | .fault r => r.cause.code

/-- The sub-code of an access kind (60_exceptions.md R280). -/
def AccessKind.code : AccessKind → Nat
  | .read => 0
  | .write => 1
  | .fetch => 2
  | .swap => 3

/-- The sub-code of a page fault's reason (60_exceptions.md R280). -/
def PageFaultReason.code : PageFaultReason → Nat
  | .unmapped => 0
  | .permission => 1

/-- The sub-code of a pool (60_exceptions.md R280). -/
def Pool.code : Pool → Nat
  | .user => 0
  | .kernel => 1
  | .disk => 2

/-! ## Reset and construction -/

/-- The word at RESET_VECTOR_ADDR, read through the bus (70_reset_and_hazards.md R320, R321). In a constructed machine the read
cannot fault (R321); where it would, the model reads 0 (log 14). -/
def State.resetWord (s : State) : Word :=
  match s.memRead (BitVec.ofNat 32 s.cfg.resetVector) .word .read with
  | .ok w _ => w
  | _ => 0#32

/-- `reset()` (70_reset_and_hazards.md R320): the core state and nothing else. -/
def State.resetCore (s : State) : State :=
  { s with
    regs := Vector.replicate 32 0#32
    flags := { n := false, z := false, c := false, v := false }
    cycles := 0#64
    lastResult := none
    execState := .running
    activeRun := none
    pc := s.resetWord }

/-- Construction (70_reset_and_hazards.md R322): the checks of 20_memory.md R85, the images laid from offset 0 of each device
(log 15), the MMU empty, process 0 current; last, reset. `none`: no machine exists. -/
def construct (cfg : Params) (rom ram disk : List Byte) : Option State :=
  if cfg.ok && rom.length ≤ cfg.romSize && ram.length ≤ cfg.ramSize && disk.length ≤ cfg.diskPages * cfg.pageSize then
    some (State.resetCore
      { cfg := cfg
        regs := Vector.replicate 32 0#32
        pc := 0#32
        flags := { n := false, z := false, c := false, v := false }
        execState := .running
        cycles := 0#64
        lastResult := none
        activeRun := none
        rom := Memory.load [] 0 rom
        ram := Memory.load [] 0 ram
        disk := Memory.load [] 0 disk
        userFree := List.range' cfg.userLow (cfg.userHigh + 1 - cfg.userLow)
        kernelFree := List.range' cfg.kernelLow (cfg.kernelHigh + 1 - cfg.kernelLow)
        diskFree := List.range cfg.diskPages
        frameRef := []
        diskRef := []
        procs := [(0, [])]
        current := some 0
        nextPid := 1
        freeDraws := 0 })
  else none

/-- `load_image(base, bytes)` (20_memory.md R64): ROM or RAM, written directly. -/
def State.loadImage (s : State) (base : Word) (bytes : List Byte) : Except FaultCause State :=
  let a := base.toNat
  if s.cfg.romBase ≤ a && a + bytes.length ≤ s.cfg.romBase + s.cfg.romSize then
    .ok { s with rom := s.rom.load (a - s.cfg.romBase) bytes }
  else if s.cfg.ramBase ≤ a && a + bytes.length ≤ s.cfg.ramBase + s.cfg.ramSize then
    .ok { s with ram := s.ram.load (a - s.cfg.ramBase) bytes }
  else .error (.memoryOutOfBounds base)

end Sys2Proof.Machine
end

