-- ==== Sys2Proof/Machine/HostCalls.lean ====
section
/-! DEFINITION. The host interface (60_exceptions.md R295): every operation the host can do between runs, but construction
(`construct`, Run.lean). -/

namespace Sys2Proof.Machine

/-- One of the four flags (10_state.md R25). -/
inductive FlagName where
  | n | z | c | v
  deriving DecidableEq, Repr

/-- Read one flag. -/
def Flags.get (fl : Flags) : FlagName → Bool
  | .n => fl.n
  | .z => fl.z
  | .c => fl.c
  | .v => fl.v

/-- Write one flag. -/
def Flags.put (fl : Flags) (x : FlagName) (b : Bool) : Flags :=
  match x with
  | .n => { fl with n := b }
  | .z => { fl with z := b }
  | .c => { fl with c := b }
  | .v => { fl with v := b }

/-- The host's operations (60_exceptions.md R295). -/
inductive HostCall where
  | reset
  | run (max : Nat)
  | readReg (r : Reg)
  | writeReg (r : Reg) (v : Word)
  | readPc
  | writePc (v : Word)
  | readFlags
  | writeFlags (v : Word)
  | readFlag (x : FlagName)
  | writeFlag (x : FlagName) (b : Bool)
  | busRead (a : Word) (w : Width)
  | busWrite (a : Word) (w : Width) (v : Word)
  | loadImage (base : Word) (bytes : List Byte)
  | allocateOne (p : Pool)
  | returnOne (p : Pool) (n : Nat)
  | addVpage (p : Nat) (kernel write execute cow : Bool)
  | removeVpage (p : Nat)
  | removePagedir
  | shareVpage (srcPid src dst : Nat) (write execute cow : Bool)
  | protectVpage (p : Nat) (write execute cow : Bool)
  | pageOut (p : Nat)
  | pageIn (p : Nat)
  | translate (p : Nat)
  | beginProcess
  | endProcess (pid : Nat)
  | setCurrent (pid : Nat)
  | inspectEntry (pid p : Nat)
  | inspectFrameRef (f : Nat)
  | inspectDiskRef (d : Nat)
  | inspectPool (p : Pool)
  | inspectCycles
  | inspectLastResult
  deriving DecidableEq, Repr

/-- What an operation answers. -/
inductive HostReply where
  | ok
  | word (v : Word)
  | flag (b : Bool)
  | number (n : Nat)
  | packed (v : BitVec 64)
  | pages (ns : List Nat)
  | result (r : Option RunResult)
  | fault (c : FaultCause)
  | error (e : CtlError)
  /-- the model's stop (log 6) -/
  | stuck (e : Fault)
  /-- a run met an instruction without a meaning; none is without -/
  | refused (r : Refusal)
  /-- a host operation during a run is refused (93_implementation_defined.md I14) -/
  | duringRun
  deriving DecidableEq, Repr

/-- The reply and state of a control operation that answers Ok or an error, which changes nothing (20_memory.md R102). -/
def replyCtl (s : State) : Except CtlError State → HostReply × State
  | .ok s1 => (.ok, s1)
  | .error e => (.error e, s)

/-- The reply and state of an operation that accesses memory through the MMU. -/
def replyAccess {α : Type} (s : State) (answer : α → HostReply) : Access α → HostReply × State
  | .ok v s1 => (answer v, s1)
  | .fault c s1 => (.fault c, s1)
  | .stuck e => (.stuck e, s)

/-- One host operation, between runs (60_exceptions.md R295). The spec gives no answer to an inspection of an entry of a virtual page
outside the window, or of the count of a frame or slot that does not exist: DESIGN CHOICE, they show an Invalid entry and the count 0
(log 20). -/
def hostCallIdle (call : HostCall) (s : State) : HostReply × State :=
  match call with
  | .reset => (.ok, s.resetCore)
  | .run max =>
    match Sys2Proof.Machine.run max s with
    | .next s1 => (.result s1.lastResult, s1)
    | .fault e => (.stuck e, s)
    | .refused r => (.refused r, s)
  | .readReg r => (.word (s.reg r), s)
  | .writeReg r v => (.ok, s.setReg r v)
  | .readPc => (.word s.pc, s)
  | .writePc v => (.ok, { s with pc := v })
  | .readFlags => (.word (flagsWord s.flags), s)
  | .writeFlags v => (.ok, s.setFlags (flagsOfWord v))
  | .readFlag x => (.flag (s.flags.get x), s)
  | .writeFlag x b => (.ok, s.setFlags (s.flags.put x b))
  | .busRead a w => replyAccess s .word (s.memRead a w .read)
  | .busWrite a w v => replyAccess s (fun _ => .ok) (s.memWrite a w v)
  | .loadImage base bytes =>
    match s.loadImage base bytes with
    | .ok s1 => (.ok, s1)
    | .error c => (.fault c, s)
  | .allocateOne p =>
    match s.allocateOne p with
    | .ok (n, s1) => (.number n, s1)
    | .error e => (.error e, s)
  | .returnOne p n => replyCtl s (s.returnOne p n)
  | .addVpage p kernel write execute cow => replyCtl s (s.addVpage p kernel write execute cow)
  | .removeVpage p => replyCtl s (s.removeVpage p)
  | .removePagedir => replyCtl s s.removePagedir
  | .shareVpage srcPid src dst write execute cow => replyCtl s (s.shareVpage srcPid src dst write execute cow)
  | .protectVpage p write execute cow => replyCtl s (s.protectVpage p write execute cow)
  | .pageOut p => replyCtl s (s.pageOut p)
  | .pageIn p => replyCtl s (s.pageIn p)
  | .translate p => if p < s.cfg.vpages then replyAccess s .number (s.hostTranslate p) else (.error .invalidArgument, s)
  | .beginProcess => (.number s.beginProcess.1, s.beginProcess.2)
  | .endProcess pid => replyCtl s (s.endProcess pid)
  | .setCurrent pid => replyCtl s (s.setCurrent pid)
  | .inspectEntry pid p => (.packed (s.packEntry (s.entryOf pid p)), s)
  | .inspectFrameRef f => (.number (s.frameRefOf f), s)
  | .inspectDiskRef d => (.number (s.diskRefOf d), s)
  | .inspectPool p => (.pages (s.pool p), s)
  | .inspectCycles => (.packed s.cycles, s)
  | .inspectLastResult => (.result s.lastResult, s)

/-- One host operation: done between runs, refused while a run is in progress (20_memory.md R104, 93 I14). -/
def hostCall (call : HostCall) (s : State) : HostReply × State :=
  if s.activeRun.isSome then (.duringRun, s) else hostCallIdle call s

end Sys2Proof.Machine
end

