-- ==== Sys2Proof/Safety.lean ====
section
/-! DEFINITION. The terms claims use: the invariant of the machine, frames, what a taken fault leaves, the reserved bits of the
encoding and the places of its fields, accesses that need no work of the MMU, and binary32 values as rational numbers. -/

namespace Sys2Proof.Machine

/-! ## Views of the MMU -/

/-- Every valid entry of every process, with its virtual page. -/
def State.entries (s : State) : List (Nat × Pte) := s.procs.flatMap Prod.snd

/-- The number of valid entries, over every process, with this location (20_memory.md R82). -/
def State.refsTo (s : State) (l : Loc) : Nat := s.entries.countP fun x => x.2.loc = l

/-- Byte `o` of the page at a location (20_memory.md R61, R62). -/
def State.pageByte (s : State) (l : Loc) (o : Nat) : Byte :=
  match l with
  | .frame f => s.byteAt .ram (f * s.cfg.pageSize + o)
  | .disk d => s.byteAt .disk (d * s.cfg.pageSize + o)

/-- Byte `o` of virtual page `p` of process `pid`, wherever the page is; none where the entry is Invalid. -/
def State.virtualByte (s : State) (pid p o : Nat) : Option Byte :=
  (assocFind (s.table pid) p).map fun e => s.pageByte e.loc o

/-! ## The invariant -/

/-- The memories keep their canonical form and lie inside their devices (20_memory.md R60 to R62; log 9). -/
structure MemoryWf (s : State) : Prop where
  romWf : s.rom.wf
  ramWf : s.ram.wf
  diskWf : s.disk.wf
  romInside : s.rom.inside s.cfg.romSize
  ramInside : s.ram.inside s.cfg.ramSize
  diskInside : s.disk.inside (s.cfg.diskPages * s.cfg.pageSize)

/-- The invariants of the MMU: those of 20_memory.md R82, with what R80, R81, R83 and R84 say of pools, entries and processes. -/
structure MmuWf (s : State) : Prop where
  procsSorted : assocSorted s.procs
  tablesSorted : ∀ e ∈ s.procs, assocSorted e.2
  pagesInWindow : ∀ x ∈ s.entries, x.1 < s.cfg.vpages
  pidsBelowNext : ∀ e ∈ s.procs, e.1 < s.nextPid
  currentLive : ∀ pid, s.current = some pid → s.live pid = true
  frameRefWf : assocWf 0 s.frameRef
  diskRefWf : assocWf 0 s.diskRef
  frameCounts : ∀ f, s.frameRefOf f = s.refsTo (.frame f)
  diskCounts : ∀ d, s.diskRefOf d = s.refsTo (.disk d)
  userSorted : s.userFree.Pairwise (· < ·)
  kernelSorted : s.kernelFree.Pairwise (· < ·)
  diskSorted : s.diskFree.Pairwise (· < ·)
  userFreeIff : ∀ f, f ∈ s.userFree ↔ inPoolRange s.cfg .user f = true ∧ s.frameRefOf f = 0
  kernelFreeIff : ∀ f, f ∈ s.kernelFree ↔ inPoolRange s.cfg .kernel f = true ∧ s.frameRefOf f = 0
  diskFreeIff : ∀ d, d ∈ s.diskFree ↔ inPoolRange s.cfg .disk d = true ∧ s.diskRefOf d = 0
  framesOfPool : ∀ x ∈ s.entries, ∀ f, x.2.loc = .frame f → inPoolRange s.cfg (framePool x.2.kernel) f = true
  slotsInRange : ∀ x ∈ s.entries, ∀ d, x.2.loc = .disk d → inPoolRange s.cfg .disk d = true
  sharersAgree : ∀ x ∈ s.entries, ∀ y ∈ s.entries, x.2.loc = y.2.loc → x.2.kernel = y.2.kernel

/-- A run is in progress only while Running (60_exceptions.md R284). -/
def EngineWf (s : State) : Prop := s.activeRun.isSome = true → s.execState = .running

/-- The invariant that every step keeps. -/
structure Inv (s : State) : Prop where
  cfgOk : s.cfg.ok = true
  memory : MemoryWf s
  mmu : MmuWf s
  engine : EngineWf s

/-! ## Frames -/

/-- Every byte of every device reads as before. -/
def SameBytes (s t : State) : Prop := ∀ d off, t.byteAt d off = s.byteAt d off

/-- The MMU's state is as before. -/
def SameMmu (s t : State) : Prop :=
  t.userFree = s.userFree ∧ t.kernelFree = s.kernelFree ∧ t.diskFree = s.diskFree ∧ t.frameRef = s.frameRef ∧
  t.diskRef = s.diskRef ∧ t.procs = s.procs ∧ t.current = s.current ∧ t.nextPid = s.nextPid

/-- Every general register but the listed ones is as before. -/
def SameRegsBut (s t : State) (written : List Reg) : Prop := ∀ r, r ∉ written → t.reg r = s.reg r

/-- The parameters, exec_state, last_result and the free draws are as before. -/
def SameEngine (s t : State) : Prop :=
  t.cfg = s.cfg ∧ t.execState = s.execState ∧ t.lastResult = s.lastResult ∧ t.freeDraws = s.freeDraws

/-- The instruction counts as executed and its cost is added to the cycles (60_exceptions.md R284; `activeRun` holds R284's
`executed`, log 2). -/
def Counted (i : Instr) (s t : State) : Prop :=
  t.cycles = s.cycles + BitVec.ofNat 64 (s.cfg.cost i.opcode) ∧ t.activeRun = some (s.executed + 1)

/-- A completed instruction that touches nothing but registers, flags and the pc. -/
def CoreOnly (i : Instr) (s t : State) : Prop := Counted i s t ∧ SameEngine s t ∧ SameBytes s t ∧ SameMmu s t

/-- Registers, flags, pc and cycles are as before. -/
def SameCore (s t : State) : Prop :=
  (∀ r, t.reg r = s.reg r) ∧ t.flags = s.flags ∧ t.pc = s.pc ∧ t.cycles = s.cycles

/-- `t` is `s` with the fault taken (60_exceptions.md R281, R283, R285): Faulted, the record in last_result, the run ended, and
everything else as it was. -/
def TookFault (cause : FaultCause) (word : Option Word) (s t : State) : Prop :=
  t.execState = .faulted ∧ t.activeRun = none ∧
  t.lastResult = some
    { ending := .fault { cause := cause, faultPc := s.pc, word := word, regs := s.regs, flags := s.flags, pc := s.pc }
      executed := s.executed } ∧
  SameCore s t ∧ t.cfg = s.cfg ∧ t.freeDraws = s.freeDraws ∧ SameBytes s t ∧ SameMmu s t

/-! ## Completed register instructions -/

/-- The format and the opcode an instruction is encoded with (30_encoding.md R122, R123). -/
def EncodedAs (fmt : Format) (op : Nat) (i : Instr) : Prop := i.format = fmt ∧ (encode i).toNat / 2 ^ 26 = op

/-- `i` completes with `v` in x[d] and the flags `fl`: the pc advances, the instruction is counted, and nothing else changes. -/
def Computes (i : Instr) (s : State) (xd : Reg) (v : Word) (fl : Flags) : Prop :=
  ∃ t, exec i s = .next t ∧ t.reg xd = v ∧ SameRegsBut s t [xd] ∧ t.flags = fl ∧ t.pc = s.pc + 4#32 ∧ CoreOnly i s t

/-- `i` completes with the flags `fl` and no register written: the pc advances, the instruction is counted, and nothing else
changes. -/
def Compares (i : Instr) (s : State) (fl : Flags) : Prop :=
  ∃ t, exec i s = .next t ∧ SameRegsBut s t [] ∧ t.flags = fl ∧ t.pc = s.pc + 4#32 ∧ CoreOnly i s t

/-- The flags of the arithmetic policy: N, Z, C and V are written when `f` holds (40_arith.md R161). -/
def arithPolicy (f : Bool) (old : Flags) (r : Word) (c v : Bool) : Flags :=
  if f then { n := decide (r.toInt < 0), z := decide (r.toNat = 0), c := c, v := v } else old

/-- The flags of the logical and shift policy: N and Z are written when `f` holds, C when moreover a shift applied
(41_logical.md R180, 42_shift.md R191). -/
def logicPolicy (f : Bool) (old : Flags) (r : Word) (shifted c : Bool) : Flags :=
  if f then { n := decide (r.toInt < 0), z := decide (r.toNat = 0), c := if shifted then c else old.c, v := old.v } else old

/-! ## What a translation may change -/

/-- What the translations of an access may change (20_memory.md R69, R91, R92): where pages live, reference counts, pools, cow
bits, and the bytes of frames that were free. Everything else is as before. -/
structure TranslationFrame (s t : State) : Prop where
  core : SameCore s t
  engine : SameEngine s t
  run : t.activeRun = s.activeRun
  processes : t.current = s.current ∧ t.nextPid = s.nextPid ∧ ∀ pid, t.live pid = s.live pid
  rom : ∀ off, t.byteAt .rom off = s.byteAt .rom off
  disk : ∀ off, t.byteAt .disk off = s.byteAt .disk off
  userShrinks : ∀ f ∈ t.userFree, f ∈ s.userFree
  kernelShrinks : ∀ f ∈ t.kernelFree, f ∈ s.kernelFree
  ram : ∀ off, off / s.cfg.pageSize ∉ s.userFree → off / s.cfg.pageSize ∉ s.kernelFree →
    t.byteAt .ram off = s.byteAt .ram off
  permissions : ∀ pid p, (assocFind (t.table pid) p).map (fun e => (e.write, e.execute, e.kernel)) =
    (assocFind (s.table pid) p).map fun e => (e.write, e.execute, e.kernel)

/-- Every byte of every mapped virtual page of every process reads as before, wherever the page now lives. -/
def SameView (s t : State) : Prop := ∀ pid p o, o < s.cfg.pageSize → t.virtualByte pid p o = s.virtualByte pid p o

/-- What a control operation of the MMU leaves as it was: the core, the run in progress and the ROM. -/
def ControlFrame (s t : State) : Prop :=
  SameCore s t ∧ t.cfg = s.cfg ∧ t.execState = s.execState ∧ t.lastResult = s.lastResult ∧ t.activeRun = s.activeRun ∧
  ∀ off, t.byteAt .rom off = s.byteAt .rom off

/-- The current process, the next pid and the set of live processes are as before (20_memory.md R84). -/
def SameProcesses (s t : State) : Prop := t.current = s.current ∧ t.nextPid = s.nextPid ∧ ∀ pid, t.live pid = s.live pid

/-- Every page table entry of every process but the listed one is as before. -/
def SameEntriesBut (s t : State) (pid p : Nat) : Prop :=
  ∀ pid' p', (pid', p') ≠ (pid, p) → assocFind (t.table pid') p' = assocFind (s.table pid') p'

/-- Every mapping of process `pid` is gone and its references are dropped; every other process, and every byte, is as before
(20_memory.md R95, R101). -/
def Emptied (s t : State) (pid : Nat) : Prop :=
  ControlFrame s t ∧ SameBytes s t ∧ t.nextPid = s.nextPid ∧ MmuWf t ∧ (∀ p, assocFind (t.table pid) p = none) ∧
  (∀ l, t.refOf l = s.refOf l - (s.table pid).countP fun x => x.2.loc = l) ∧
  ∀ pid', pid' ≠ pid → t.live pid' = s.live pid' ∧ t.table pid' = s.table pid' ∧
    ∀ p o, t.virtualByte pid' p o = s.virtualByte pid' p o

/-! ## Accesses -/

/-- The number that bytes in memory order, least significant first, stand for (20_memory.md R65). -/
def littleEndian : List Byte → Nat
  | [] => 0
  | b :: bs => b.toNat + 256 * littleEndian bs

/-- AN ACCESS THAT IS READY: `n` bytes at `a`, of kind `k`, reach the bytes at `offs` of device `d` with no fault, no page-in and no
copy-on-write break: in ROM (never a write) or RAM directly, or in resident pages of the VM window with the permission the kind
needs (20_memory.md R73, R74, R89, R90). -/
def AccessReady (s : State) (a : Word) (n : Nat) (k : AccessKind) (d : Device) (offs : List Nat) : Prop :=
  a.toNat + n ≤ 2 ^ 32 ∧ offs.length = n ∧
  ((d = .rom ∧ k.writes = false ∧ s.cfg.romBase ≤ a.toNat ∧ a.toNat + n ≤ s.cfg.romBase + s.cfg.romSize ∧
      ∀ j < n, offs[j]? = some (a.toNat + j - s.cfg.romBase)) ∨
   (d = .ram ∧ s.cfg.ramBase ≤ a.toNat ∧ a.toNat + n ≤ s.cfg.ramBase + s.cfg.ramSize ∧
      ∀ j < n, offs[j]? = some (a.toNat + j - s.cfg.ramBase)) ∨
   (d = .ram ∧ s.cfg.vmBase ≤ a.toNat ∧ a.toNat + n ≤ s.cfg.vmBase + s.cfg.vmSize ∧
      ∀ j < n, ∃ e f, s.entry ((a.toNat + j - s.cfg.vmBase) / s.cfg.pageSize) = some e ∧ e.loc = .frame f ∧
        (k.writes = true → e.write = true ∧ e.cow = false) ∧ (k = .fetch → e.execute = true) ∧
        offs[j]? = some (f * s.cfg.pageSize + (a.toNat + j - s.cfg.vmBase) % s.cfg.pageSize)))

/-- The one data access of an instruction: its address, its width in bytes and its kind (20_memory.md R68, 60_exceptions.md R285). -/
def dataAccess (s : State) : Instr → Option (Word × Nat × AccessKind)
  | .ldr _ xn am off => some (s.accessAddr xn am off, 4, .read)
  | .ldrh _ xn am off => some (s.accessAddr xn am off, 2, .read)
  | .ldrb _ xn am off => some (s.accessAddr xn am off, 1, .read)
  | .str _ xn am off => some (s.accessAddr xn am off, 4, .write)
  | .strh _ xn am off => some (s.accessAddr xn am off, 2, .write)
  | .strb _ xn am off => some (s.accessAddr xn am off, 1, .write)
  | .swp _ _ xn => some (s.reg xn, 4, .swap)
  | .swph _ _ xn => some (s.reg xn, 2, .swap)
  | .swpb _ _ xn => some (s.reg xn, 1, .swap)
  | .hlt => none
  | .swi _ => none
  | .add _ _ _ _ => none
  | .sub _ _ _ _ => none
  | .rsb _ _ _ _ => none
  | .adc _ _ _ _ => none
  | .sbc _ _ _ _ => none
  | .rsc _ _ _ _ => none
  | .mul _ _ _ _ => none
  | .and _ _ _ _ => none
  | .orr _ _ _ _ => none
  | .eor _ _ _ _ => none
  | .bic _ _ _ _ => none
  | .lsl _ _ _ _ => none
  | .lsr _ _ _ _ => none
  | .asr _ _ _ _ => none
  | .ror _ _ _ _ => none
  | .cmp _ _ => none
  | .cmn _ _ => none
  | .tst _ _ => none
  | .teq _ _ => none
  | .mov _ _ _ => none
  | .mvn _ _ _ => none
  | .b _ _ => none
  | .bl _ _ => none
  | .bx _ _ => none
  | .blx _ _ => none
  | .vaddF32 _ _ _ => none
  | .vsubF32 _ _ _ => none
  | .vmulF32 _ _ _ => none
  | .vdivF32 _ _ _ => none
  | .vcmpF32 _ _ => none

/-- An instruction that writes the flags (10_state.md R26): a compare always, formats DP, SH and MOV when S = 1. -/
def writesFlags : Instr → Bool
  | .add f _ _ _ => f
  | .sub f _ _ _ => f
  | .rsb f _ _ _ => f
  | .adc f _ _ _ => f
  | .sbc f _ _ _ => f
  | .rsc f _ _ _ => f
  | .mul f _ _ _ => f
  | .and f _ _ _ => f
  | .orr f _ _ _ => f
  | .eor f _ _ _ => f
  | .bic f _ _ _ => f
  | .lsl f _ _ _ => f
  | .lsr f _ _ _ => f
  | .asr f _ _ _ => f
  | .ror f _ _ _ => f
  | .mov f _ _ => f
  | .mvn f _ _ => f
  | .cmp _ _ => true
  | .cmn _ _ => true
  | .tst _ _ => true
  | .teq _ _ => true
  | .vcmpF32 _ _ => true
  | .hlt => false
  | .swi _ => false
  | .ldr _ _ _ _ => false
  | .ldrh _ _ _ _ => false
  | .ldrb _ _ _ _ => false
  | .str _ _ _ _ => false
  | .strh _ _ _ _ => false
  | .strb _ _ _ _ => false
  | .swp _ _ _ => false
  | .swph _ _ _ => false
  | .swpb _ _ _ => false
  | .b _ _ => false
  | .bl _ _ => false
  | .bx _ _ => false
  | .blx _ _ => false
  | .vaddF32 _ _ _ => false
  | .vsubF32 _ _ _ => false
  | .vmulF32 _ _ _ => false
  | .vdivF32 _ _ _ => false

/-! ## The encoding's reserved bits (30_encoding.md R124 to R135, R138) -/

/-- One of the 23 reserved opcodes (30_encoding.md R123, R138). -/
def reservedOpcode (op : Opcode) : Bool :=
  [0x02, 0x03, 0x0B, 0x1A, 0x1B, 0x1C, 0x1D, 0x1E, 0x1F, 0x23, 0x27, 0x2B, 0x2E, 0x2F, 0x32, 0x33, 0x39, 0x3A, 0x3B, 0x3C,
   0x3D, 0x3E, 0x3F].contains op.toNat

/-- The reserved-zero bits of a word's format, for its I value, as a mask (30_encoding.md R124 to R135). -/
def reservedBits (w : Word) : Word :=
  match formatOfTop (w.extractLsb' 28 4) with
  | some .sys => if w.extractLsb' 26 6 = 0#6 then 0x03FFFFFF#32 else 0#32
  | some .dp => if w.getLsbD 14 then 0#32 else 0x00000003#32
  | some .sh => if w.getLsbD 14 then 0x00003FE0#32 else 0x000001FF#32
  | some .cmp => if w.getLsbD 14 then 0x03F00000#32 else 0x03F00003#32
  | some .mov => if w.getLsbD 19 then 0#32 else 0x0000007F#32
  | some .mem => if w.getLsbD 13 then 0#32 else 0x000000FF#32
  | some .atm => 0x000007FF#32
  | some .bi => 0#32
  | some .br => 0x0001FFFF#32
  | some .fp3 => 0x020003FF#32
  | some .fpc => 0x03F003FF#32
  | none => 0#32

/-- The Invalid words of 30_encoding.md R138. -/
def InvalidWord (w : Word) : Prop :=
  reservedOpcode (w.extractLsb' 26 6) = true ∨ w &&& reservedBits w ≠ 0#32 ∨
  (formatOfTop (w.extractLsb' 28 4) = some .mem ∧ w.extractLsb' 14 2 = 0b11#2) ∨
  ((formatOfTop (w.extractLsb' 28 4) = some .bi ∨ formatOfTop (w.extractLsb' 28 4) = some .br) ∧
    w.extractLsb' 22 4 = 0b1111#4)

/-! ## The decoded record's fields (30_encoding.md R124 to R136), as numbers -/

/-- The field of `width` bits from bit `lo` up, as a number (00_scope.md R8). -/
def fieldOf (w : Word) (lo width : Nat) : Nat := w.toNat / 2 ^ lo % 2 ^ width

/-- The two's-complement reading of a field (00_scope.md R8, R9). -/
def signedFieldOf (w : Word) (lo width : Nat) : Int :=
  if fieldOf w lo width < 2 ^ (width - 1) then (fieldOf w lo width : Int) else (fieldOf w lo width : Int) - 2 ^ width

/-- The 2-bit code of a shift type (42_shift.md R190). -/
def shiftTypeCode : ShiftType → Nat
  | .lsl => 0
  | .lsr => 1
  | .asr => 2
  | .ror => 3

/-- The 4-bit code of a condition (46_branch.md R240). -/
def condCode : Cond → Nat
  | .eq => 0
  | .ne => 1
  | .hs => 2
  | .lo => 3
  | .mi => 4
  | .pl => 5
  | .vs => 6
  | .vc => 7
  | .hi => 8
  | .ls => 9
  | .ge => 10
  | .lt => 11
  | .gt => 12
  | .le => 13
  | .al => 14

/-- The 2-bit code of an addressing mode (44_memory.md R210). -/
def addrModeCode : AddrMode → Nat
  | .offsetOnly => 0
  | .preIndexed => 1
  | .postIndexed => 2

/-- Operand2 stands in `w[14:0]` (30_encoding.md R125). -/
def Operand2At (w : Word) : Operand2 → Prop
  | .imm v => fieldOf w 14 1 = 1 ∧ v.toNat = fieldOf w 0 14
  | .reg xm sh shamt =>
    fieldOf w 14 1 = 0 ∧ xm.toNat = fieldOf w 9 5 ∧ shiftTypeCode sh = fieldOf w 7 2 ∧ shamt.toNat = fieldOf w 2 5

/-- Format DP (30_encoding.md R124). -/
def DpAt (w : Word) (f : Bool) (xd xn : Reg) (o : Operand2) : Prop :=
  f.toNat = fieldOf w 25 1 ∧ xd.toNat = fieldOf w 20 5 ∧ xn.toNat = fieldOf w 15 5 ∧ Operand2At w o

/-- Format SH (30_encoding.md R126). -/
def ShAt (w : Word) (f : Bool) (xd xn : Reg) (amt : ShiftAmount) : Prop :=
  f.toNat = fieldOf w 25 1 ∧ xd.toNat = fieldOf w 20 5 ∧ xn.toNat = fieldOf w 15 5 ∧
  match amt with
  | .imm v => fieldOf w 14 1 = 1 ∧ v.toNat = fieldOf w 0 5
  | .reg xm => fieldOf w 14 1 = 0 ∧ xm.toNat = fieldOf w 9 5

/-- Format CMP (30_encoding.md R127). -/
def CmpAt (w : Word) (xn : Reg) (o : Operand2) : Prop := xn.toNat = fieldOf w 15 5 ∧ Operand2At w o

/-- Format MOV (30_encoding.md R128). -/
def MovAt (w : Word) (f : Bool) (xd : Reg) (o : Operand2) : Prop :=
  f.toNat = fieldOf w 25 1 ∧ xd.toNat = fieldOf w 20 5 ∧
  match o with
  | .imm v => fieldOf w 19 1 = 1 ∧ v.toNat = fieldOf w 0 19
  | .reg xm sh shamt =>
    fieldOf w 19 1 = 0 ∧ xm.toNat = fieldOf w 14 5 ∧ shiftTypeCode sh = fieldOf w 12 2 ∧ shamt.toNat = fieldOf w 7 5

/-- Format MEM (30_encoding.md R129). -/
def MemAt (w : Word) (xt xn : Reg) (am : AddrMode) (off : MemOffset) : Prop :=
  xt.toNat = fieldOf w 21 5 ∧ xn.toNat = fieldOf w 16 5 ∧ addrModeCode am = fieldOf w 14 2 ∧
  match off with
  | .imm v => fieldOf w 13 1 = 1 ∧ v.toInt = signedFieldOf w 0 13
  | .reg xm => fieldOf w 13 1 = 0 ∧ xm.toNat = fieldOf w 8 5

/-- Format ATM (30_encoding.md R130). -/
def AtmAt (w : Word) (xt xs xn : Reg) : Prop :=
  xt.toNat = fieldOf w 21 5 ∧ xs.toNat = fieldOf w 16 5 ∧ xn.toNat = fieldOf w 11 5

/-- Format BI (30_encoding.md R131). -/
def BiAt (w : Word) (c : Cond) (off : Word) : Prop := condCode c = fieldOf w 22 4 ∧ off.toInt = signedFieldOf w 0 22 * 4

/-- Format BR (30_encoding.md R132). -/
def BrAt (w : Word) (c : Cond) (xn : Reg) : Prop := condCode c = fieldOf w 22 4 ∧ xn.toNat = fieldOf w 17 5

/-- Format FP3 (30_encoding.md R133). -/
def Fp3At (w : Word) (xd xn xm : Reg) : Prop :=
  xd.toNat = fieldOf w 20 5 ∧ xn.toNat = fieldOf w 15 5 ∧ xm.toNat = fieldOf w 10 5

/-- The opcode of `w` is `op`, and its operand fields are where 30_encoding.md R136 says. -/
def FieldsAt (w : Word) : Instr → Prop
  | .hlt => fieldOf w 26 6 = 0x00
  | .swi imm => fieldOf w 26 6 = 0x01 ∧ imm.toNat = fieldOf w 0 26
  | .add f xd xn o => fieldOf w 26 6 = 0x04 ∧ DpAt w f xd xn o
  | .sub f xd xn o => fieldOf w 26 6 = 0x05 ∧ DpAt w f xd xn o
  | .rsb f xd xn o => fieldOf w 26 6 = 0x06 ∧ DpAt w f xd xn o
  | .adc f xd xn o => fieldOf w 26 6 = 0x07 ∧ DpAt w f xd xn o
  | .sbc f xd xn o => fieldOf w 26 6 = 0x08 ∧ DpAt w f xd xn o
  | .rsc f xd xn o => fieldOf w 26 6 = 0x09 ∧ DpAt w f xd xn o
  | .mul f xd xn o => fieldOf w 26 6 = 0x0A ∧ DpAt w f xd xn o
  | .and f xd xn o => fieldOf w 26 6 = 0x0C ∧ DpAt w f xd xn o
  | .orr f xd xn o => fieldOf w 26 6 = 0x0D ∧ DpAt w f xd xn o
  | .eor f xd xn o => fieldOf w 26 6 = 0x0E ∧ DpAt w f xd xn o
  | .bic f xd xn o => fieldOf w 26 6 = 0x0F ∧ DpAt w f xd xn o
  | .lsl f xd xn amt => fieldOf w 26 6 = 0x10 ∧ ShAt w f xd xn amt
  | .lsr f xd xn amt => fieldOf w 26 6 = 0x11 ∧ ShAt w f xd xn amt
  | .asr f xd xn amt => fieldOf w 26 6 = 0x12 ∧ ShAt w f xd xn amt
  | .ror f xd xn amt => fieldOf w 26 6 = 0x13 ∧ ShAt w f xd xn amt
  | .cmp xn o => fieldOf w 26 6 = 0x14 ∧ CmpAt w xn o
  | .cmn xn o => fieldOf w 26 6 = 0x15 ∧ CmpAt w xn o
  | .tst xn o => fieldOf w 26 6 = 0x16 ∧ CmpAt w xn o
  | .teq xn o => fieldOf w 26 6 = 0x17 ∧ CmpAt w xn o
  | .mov f xd o => fieldOf w 26 6 = 0x18 ∧ MovAt w f xd o
  | .mvn f xd o => fieldOf w 26 6 = 0x19 ∧ MovAt w f xd o
  | .ldr xt xn am off => fieldOf w 26 6 = 0x20 ∧ MemAt w xt xn am off
  | .ldrh xt xn am off => fieldOf w 26 6 = 0x21 ∧ MemAt w xt xn am off
  | .ldrb xt xn am off => fieldOf w 26 6 = 0x22 ∧ MemAt w xt xn am off
  | .str xt xn am off => fieldOf w 26 6 = 0x24 ∧ MemAt w xt xn am off
  | .strh xt xn am off => fieldOf w 26 6 = 0x25 ∧ MemAt w xt xn am off
  | .strb xt xn am off => fieldOf w 26 6 = 0x26 ∧ MemAt w xt xn am off
  | .swp xt xs xn => fieldOf w 26 6 = 0x28 ∧ AtmAt w xt xs xn
  | .swph xt xs xn => fieldOf w 26 6 = 0x29 ∧ AtmAt w xt xs xn
  | .swpb xt xs xn => fieldOf w 26 6 = 0x2A ∧ AtmAt w xt xs xn
  | .b c off => fieldOf w 26 6 = 0x2C ∧ BiAt w c off
  | .bl c off => fieldOf w 26 6 = 0x2D ∧ BiAt w c off
  | .bx c xn => fieldOf w 26 6 = 0x30 ∧ BrAt w c xn
  | .blx c xn => fieldOf w 26 6 = 0x31 ∧ BrAt w c xn
  | .vaddF32 xd xn xm => fieldOf w 26 6 = 0x34 ∧ Fp3At w xd xn xm
  | .vsubF32 xd xn xm => fieldOf w 26 6 = 0x35 ∧ Fp3At w xd xn xm
  | .vmulF32 xd xn xm => fieldOf w 26 6 = 0x36 ∧ Fp3At w xd xn xm
  | .vdivF32 xd xn xm => fieldOf w 26 6 = 0x37 ∧ Fp3At w xd xn xm
  | .vcmpF32 xn xm => fieldOf w 26 6 = 0x38 ∧ xn.toNat = fieldOf w 15 5 ∧ xm.toNat = fieldOf w 10 5

/-! ## Binary32 values as rational numbers (47_float.md R250, R251) -/

/-- A finite binary32 word. -/
def f32Finite (w : Word) : Prop := f32Exp w ≠ 255

/-- The value of a finite binary32 word: (-1)^sign * 2^(exp - 127) * 1.frac, or * 2^(-126) * 0.frac where exp is 0. -/
def f32Value (w : Word) : ℚ :=
  (if f32Sign w then -1 else 1) *
    (if f32Exp w = 0 then (f32Frac w : ℚ) * (2 : ℚ) ^ (-149 : ℤ)
     else (1 + (f32Frac w : ℚ) / 2 ^ 23) * (2 : ℚ) ^ ((f32Exp w : ℤ) - 127))

/-- Halfway between the largest finite binary32 value, (2^24 - 1) * 2^104, and 2^128: from here on a value rounds to infinity. -/
def f32OverflowBound : ℚ := (2 ^ 25 - 1) * 2 ^ 103

/-- `r` is the exact nonzero value `x` rounded to binary32, to nearest, ties to even (47_float.md R251, points 1 and 2). -/
def RoundsTo (x : ℚ) (r : Word) : Prop :=
  f32Sign r = decide (x < 0) ∧
  (f32OverflowBound ≤ |x| → f32IsInf r = true) ∧
  (|x| < f32OverflowBound →
    f32Finite r ∧ ∀ y, f32Finite y →
      |f32Value r - x| ≤ |f32Value y - x| ∧
      (|f32Value y - x| = |f32Value r - x| → f32Value y = f32Value r ∨ r.getLsbD 0 = false))

/-- `r` is a zero of this sign. -/
def IsZeroOf (neg : Bool) (r : Word) : Prop := r = if neg then 0x80000000#32 else 0#32

/-- `r` is an infinity of this sign. -/
def IsInfOf (neg : Bool) (r : Word) : Prop := r = if neg then 0xFF800000#32 else 0x7F800000#32

/-- What 47_float.md R251 and R252 say of the sum of `a` and `b`. -/
def SumSpec (nan a b r : Word) : Prop :=
  (f32IsNan a = true ∨ f32IsNan b = true → r = nan) ∧
  (f32IsInf a = true → f32IsInf b = true → f32Sign a ≠ f32Sign b → r = nan) ∧
  (f32IsInf a = true → f32IsInf b = true → f32Sign a = f32Sign b → r = a) ∧
  (f32IsInf a = true → f32Finite b → r = a) ∧
  (f32Finite a → f32IsInf b = true → r = b) ∧
  (f32Finite a → f32Finite b →
    (f32Value a + f32Value b ≠ 0 → RoundsTo (f32Value a + f32Value b) r) ∧
    (f32Value a + f32Value b = 0 → IsZeroOf (f32Sign a && f32Sign b) r))

/-- What 47_float.md R251 and R253 say of the difference of `a` and `b`. -/
def DifferenceSpec (nan a b r : Word) : Prop :=
  (f32IsNan a = true ∨ f32IsNan b = true → r = nan) ∧
  (f32IsInf a = true → f32IsInf b = true → f32Sign a = f32Sign b → r = nan) ∧
  (f32IsInf a = true → f32IsInf b = true → f32Sign a ≠ f32Sign b → r = a) ∧
  (f32IsInf a = true → f32Finite b → r = a) ∧
  (f32Finite a → f32IsInf b = true → IsInfOf (!f32Sign b) r) ∧
  (f32Finite a → f32Finite b →
    (f32Value a - f32Value b ≠ 0 → RoundsTo (f32Value a - f32Value b) r) ∧
    (f32Value a - f32Value b = 0 → IsZeroOf (f32Sign a && !f32Sign b) r))

/-- What 47_float.md R251 and R254 say of the product of `a` and `b`. -/
def ProductSpec (nan a b r : Word) : Prop :=
  (f32IsNan a = true ∨ f32IsNan b = true → r = nan) ∧
  (f32IsInf a = true → f32Finite b → f32Value b = 0 → r = nan) ∧
  (f32Finite a → f32Value a = 0 → f32IsInf b = true → r = nan) ∧
  (f32IsInf a = true → f32IsInf b = true → IsInfOf (f32Sign a != f32Sign b) r) ∧
  (f32IsInf a = true → f32Finite b → f32Value b ≠ 0 → IsInfOf (f32Sign a != f32Sign b) r) ∧
  (f32Finite a → f32Value a ≠ 0 → f32IsInf b = true → IsInfOf (f32Sign a != f32Sign b) r) ∧
  (f32Finite a → f32Finite b →
    (f32Value a * f32Value b ≠ 0 → RoundsTo (f32Value a * f32Value b) r) ∧
    (f32Value a * f32Value b = 0 → IsZeroOf (f32Sign a != f32Sign b) r))

/-- What 47_float.md R251 and R255 say of the quotient of `a` and `b`. -/
def QuotientSpec (nan a b r : Word) : Prop :=
  (f32IsNan a = true ∨ f32IsNan b = true → r = nan) ∧
  (f32IsInf a = true → f32IsInf b = true → r = nan) ∧
  (f32IsInf a = true → f32Finite b → IsInfOf (f32Sign a != f32Sign b) r) ∧
  (f32Finite a → f32IsInf b = true → IsZeroOf (f32Sign a != f32Sign b) r) ∧
  (f32Finite a → f32Finite b →
    (f32Value a = 0 → f32Value b = 0 → r = nan) ∧
    (f32Value a ≠ 0 → f32Value b = 0 → IsInfOf (f32Sign a != f32Sign b) r) ∧
    (f32Value a = 0 → f32Value b ≠ 0 → IsZeroOf (f32Sign a != f32Sign b) r) ∧
    (f32Value a ≠ 0 → f32Value b ≠ 0 → RoundsTo (f32Value a / f32Value b) r))

/-- Two words that are no NaN read as equal numbers; the two zeros are equal (47_float.md R256). -/
def f32Equal (a b : Word) : Prop :=
  (f32Finite a ∧ f32Finite b ∧ f32Value a = f32Value b) ∨
  (f32IsInf a = true ∧ f32IsInf b = true ∧ f32Sign a = f32Sign b)

/-- `a` reads as a smaller number than `b`, neither being a NaN (47_float.md R256). -/
def f32Less (a b : Word) : Prop :=
  (f32Finite a ∧ f32Finite b ∧ f32Value a < f32Value b) ∨
  (f32IsInf a = true ∧ f32Sign a = true ∧ (f32Finite b ∨ (f32IsInf b = true ∧ f32Sign b = false))) ∨
  (f32Finite a ∧ f32IsInf b = true ∧ f32Sign b = false)

end Sys2Proof.Machine
end

