-- ==== Sys2Proof/Certificates/Slice0/Obligations.lean ====
section
/-! DEFINITION. The statements about the machine, each from the rules of spec/ that its docstring names. -/

open Sys2Proof Sys2Proof.Machine

/-! ## Encoding -/

/-- Every well-formed instruction decodes from the word it encodes to (30_encoding.md R124 to R137). -/
def Obligations.DecodeAfterEncode : Prop := ∀ i : Instr, i.wf = true → decode (encode i) = some i

/-- 30_encoding.md R140: decode answers on every word, it is injective on valid words, and encode gives the word back. -/
def Obligations.EncodeAfterDecode : Prop :=
  (∀ w, (InvalidWord w ∧ decode w = none) ∨ (¬ InvalidWord w ∧ ∃ i, decode w = some i ∧ i.wf = true)) ∧
  (∀ w w' i, decode w = some i → decode w' = some i → w = w') ∧
  (∀ w i, decode w = some i → encode i = w)

/-- 30_encoding.md R138: the Invalid words are exactly those it lists, and executing one takes InvalidOpcode. -/
def Obligations.InvalidWordsExactly : Prop :=
  (∀ w, decode w = none ↔ InvalidWord w) ∧
  ∀ s w s1, s.execState ≠ .halted → s.resume.fetch = .ok w s1 → InvalidWord w →
    ∃ t, step s = .next t ∧ TookFault (.invalidOpcode w) (some w) s1 t

/-- 30_encoding.md R121, R136: the opcode, the format it selects, and every operand field stand at the bits the rules give. -/
def Obligations.DecodedFieldsInPlace : Prop :=
  ∀ w i, decode w = some i → FieldsAt w i ∧ formatOfTop (w.extractLsb' 28 4) = some i.format

/-- Words written out from the formats of 30_encoding.md decode to the instructions they stand for. -/
def Obligations.DecodedWords : Prop :=
  decode 0x00000000#32 = some .hlt ∧
  decode 0x04000005#32 = some (.swi 5#32) ∧
  decode 0x12008400#32 = some (.add true 0#5 1#5 (.reg 2#5 .lsl 0#5)) ∧
  decode 0x08000000#32 = none ∧ decode 0x10000001#32 = none ∧ decode 0x8001C000#32 = none ∧
  decode 0x3200C0FF#32 = some (.and true 0#5 1#5 (.imm 0xFF#32)) ∧
  decode 0x40008400#32 = some (.lsl false 0#5 1#5 (.reg 2#5)) ∧
  decode 0x5000C005#32 = some (.cmp 1#5 (.imm 5#32)) ∧
  decode 0x62080000#32 = some (.mov true 0#5 (.imm 0#32)) ∧
  decode 0x80012004#32 = some (.ldr 0#5 1#5 .offsetOnly (.imm 4#32)) ∧
  decode 0x90017FFC#32 = some (.str 0#5 1#5 .preIndexed (.imm 0xFFFFFFFC#32)) ∧
  decode 0xA0011000#32 = some (.swp 0#5 1#5 2#5) ∧
  decode 0xB07FFFFE#32 = some (.b .ne 0xFFFFFFF8#32) ∧
  decode 0xC3BC0000#32 = some (.bx .al 30#5) ∧
  decode 0xD0008800#32 = some (.vaddF32 0#5 1#5 2#5) ∧
  decode 0xE0008800#32 = some (.vcmpF32 1#5 2#5)

/-! ## Steps -/

/-- 60_exceptions.md R285: a step whose fetched word decodes to `i` is `exec i` on the state after the fetch, which differs from the
resumed state only as a translation may change it. -/
def Obligations.StepRunsDecoded : Prop :=
  ∀ s w i s1, s.execState ≠ .halted → s.resume.fetch = .ok w s1 → decode w = some i →
    step s = exec i s1 ∧ TranslationFrame s.resume s1

/-- 20_memory.md R66, 60_exceptions.md R285: where the four bytes at the pc are an instruction's word, least significant byte
first, and the fetch needs no work of the MMU, the step is `exec` of that instruction on the resumed state. -/
def Obligations.ReadyFetchRuns : Prop :=
  ∀ s i d offs, s.cfg.ok = true → s.execState ≠ .halted → i.wf = true → AccessReady s s.pc 4 .fetch d offs →
    offs.map (s.byteAt d) = [(encode i).extractLsb' 0 8, (encode i).extractLsb' 8 8, (encode i).extractLsb' 16 8,
      (encode i).extractLsb' 24 8] →
    step s = exec i s.resume ∧ s.resume = { s with execState := .running, activeRun := some (s.activeRun.getD 0) }

/-- 60_exceptions.md R281, R285, R290: a fault of the fetch is taken with no word. -/
def Obligations.FetchFaultTaken : Prop :=
  ∀ s c s1, s.execState ≠ .halted → s.resume.fetch = .fault c s1 →
    TranslationFrame s.resume s1 ∧ ∃ t, step s = .next t ∧ TookFault c none s1 t

/-! ## Arithmetic -/

/-- 40_arith.md R160: the adder, and the carry of a subtraction. -/
def Obligations.AdderResult : Prop :=
  (∀ a b : Word, ∀ cin : Bool,
    (addWithCarry a b cin).result.toNat = (a.toNat + b.toNat + cin.toNat) % 2 ^ 32 ∧
    (addWithCarry a b cin).carry = decide (2 ^ 32 ≤ a.toNat + b.toNat + cin.toNat) ∧
    (addWithCarry a b cin).overflow =
      decide ((addWithCarry a b cin).result.toInt ≠ a.toInt + b.toInt + (cin.toNat : Int)) ∧
    ((addWithCarry a b cin).overflow = true ↔ a.msb = b.msb ∧ (addWithCarry a b cin).result.msb ≠ a.msb)) ∧
  ∀ a b : Word, (addWithCarry a (~~~b) true).result = a - b ∧
    ((addWithCarry a (~~~b) true).carry = true ↔ b.toNat ≤ a.toNat)

/-- 40_arith.md R161, R163 to R165: add, sub and rsb. C says that the unsigned sum does not fit, or that a subtraction does not
borrow; V says that the signed result does not fit. -/
def Obligations.AddSubRsbResults : Prop :=
  ∀ (s : State) (f : Bool) (xd xn : Reg) (o : Operand2) (a b : Word), a = s.reg xn → b = (s.operand o).value →
    (EncodedAs .dp 0x04 (.add f xd xn o) ∧
      Computes (.add f xd xn o) s xd (a + b)
        (arithPolicy f s.flags (a + b) (2 ^ 32 ≤ a.toNat + b.toNat) ((a + b).toInt ≠ a.toInt + b.toInt))) ∧
    (EncodedAs .dp 0x05 (.sub f xd xn o) ∧
      Computes (.sub f xd xn o) s xd (a - b)
        (arithPolicy f s.flags (a - b) (b.toNat ≤ a.toNat) ((a - b).toInt ≠ a.toInt - b.toInt))) ∧
    (EncodedAs .dp 0x06 (.rsb f xd xn o) ∧
      Computes (.rsb f xd xn o) s xd (b - a)
        (arithPolicy f s.flags (b - a) (a.toNat ≤ b.toNat) ((b - a).toInt ≠ b.toInt - a.toInt)))

/-- 40_arith.md R161, R166 to R168: adc, sbc and rsc, with the C flag as carry, or as NOT borrow. -/
def Obligations.AdcSbcRscResults : Prop :=
  ∀ (s : State) (f : Bool) (xd xn : Reg) (o : Operand2) (a b : Word) (k : Nat), a = s.reg xn → b = (s.operand o).value →
    k = s.flags.c.toNat →
    (EncodedAs .dp 0x07 (.adc f xd xn o) ∧
      Computes (.adc f xd xn o) s xd (a + b + BitVec.ofNat 32 k)
        (arithPolicy f s.flags (a + b + BitVec.ofNat 32 k) (2 ^ 32 ≤ a.toNat + b.toNat + k)
          ((a + b + BitVec.ofNat 32 k).toInt ≠ a.toInt + b.toInt + k))) ∧
    (EncodedAs .dp 0x08 (.sbc f xd xn o) ∧
      Computes (.sbc f xd xn o) s xd (a - b - BitVec.ofNat 32 (1 - k))
        (arithPolicy f s.flags (a - b - BitVec.ofNat 32 (1 - k)) (b.toNat + (1 - k) ≤ a.toNat)
          ((a - b - BitVec.ofNat 32 (1 - k)).toInt ≠ a.toInt - b.toInt - ((1 - k : Nat) : Int)))) ∧
    (EncodedAs .dp 0x09 (.rsc f xd xn o) ∧
      Computes (.rsc f xd xn o) s xd (b - a - BitVec.ofNat 32 (1 - k))
        (arithPolicy f s.flags (b - a - BitVec.ofNat 32 (1 - k)) (a.toNat + (1 - k) ≤ b.toNat)
          ((b - a - BitVec.ofNat 32 (1 - k)).toInt ≠ b.toInt - a.toInt - ((1 - k : Nat) : Int))))

/-- 40_arith.md R161, R169: mul. -/
def Obligations.MulResult : Prop :=
  ∀ (s : State) (f : Bool) (xd xn : Reg) (o : Operand2) (a b r : Word), a = s.reg xn → b = (s.operand o).value →
    r = BitVec.ofNat 32 (a.toNat * b.toNat) →
    EncodedAs .dp 0x0A (.mul f xd xn o) ∧ r = BitVec.ofInt 32 (a.toInt * b.toInt) ∧
    Computes (.mul f xd xn o) s xd r
      (arithPolicy f s.flags r (2 ^ 32 ≤ a.toNat * b.toNat)
        (a.toInt * b.toInt < -(2 ^ 31) ∨ 2 ^ 31 - 1 < a.toInt * b.toInt))

/-! ## Logic, moves and shifts -/

/-- 41_logical.md R180 to R184: and, orr, eor and bic. -/
def Obligations.LogicalResults : Prop :=
  ∀ (s : State) (f : Bool) (xd xn : Reg) (o : Operand2) (a : Word) (b : Shifted), a = s.reg xn → b = s.operand o →
    (EncodedAs .dp 0x0C (.and f xd xn o) ∧
      Computes (.and f xd xn o) s xd (a &&& b.value) (logicPolicy f s.flags (a &&& b.value) b.shifted b.carry)) ∧
    (EncodedAs .dp 0x0D (.orr f xd xn o) ∧
      Computes (.orr f xd xn o) s xd (a ||| b.value) (logicPolicy f s.flags (a ||| b.value) b.shifted b.carry)) ∧
    (EncodedAs .dp 0x0E (.eor f xd xn o) ∧
      Computes (.eor f xd xn o) s xd (a ^^^ b.value) (logicPolicy f s.flags (a ^^^ b.value) b.shifted b.carry)) ∧
    (EncodedAs .dp 0x0F (.bic f xd xn o) ∧
      Computes (.bic f xd xn o) s xd (a &&& ~~~b.value) (logicPolicy f s.flags (a &&& ~~~b.value) b.shifted b.carry))

/-- 41_logical.md R180, R185, R186: mov and mvn. -/
def Obligations.MoveResults : Prop :=
  ∀ (s : State) (f : Bool) (xd : Reg) (o : Operand2) (b : Shifted), b = s.operand o →
    (EncodedAs .mov 0x18 (.mov f xd o) ∧
      Computes (.mov f xd o) s xd b.value (logicPolicy f s.flags b.value b.shifted b.carry)) ∧
    (EncodedAs .mov 0x19 (.mvn f xd o) ∧
      Computes (.mvn f xd o) s xd (~~~b.value) (logicPolicy f s.flags (~~~b.value) b.shifted b.carry))

/-- 42_shift.md R190: the barrel shifter, for every type and amount. -/
def Obligations.BarrelShifter : Prop :=
  ∀ (v : Word) (c : Bool) (n : Nat),
    (∀ ty, (shift v ty n c).shifted = decide (n ≠ 0)) ∧
    (∀ ty, n = 0 → (shift v ty n c).value = v ∧ (shift v ty n c).carry = c) ∧
    (0 < n → n < 32 →
      ((shift v .lsl n c).value.toNat = v.toNat * 2 ^ n % 2 ^ 32 ∧ (shift v .lsl n c).carry = v.toNat.testBit (32 - n)) ∧
      ((shift v .lsr n c).value.toNat = v.toNat / 2 ^ n ∧ (shift v .lsr n c).carry = v.toNat.testBit (n - 1)) ∧
      ((shift v .asr n c).value.toInt = v.toInt / 2 ^ n ∧ (shift v .asr n c).carry = v.toNat.testBit (n - 1))) ∧
    (n = 32 →
      ((shift v .lsl n c).value = 0#32 ∧ (shift v .lsl n c).carry = v.toNat.testBit 0) ∧
      ((shift v .lsr n c).value = 0#32 ∧ (shift v .lsr n c).carry = v.toNat.testBit 31)) ∧
    (32 < n →
      ((shift v .lsl n c).value = 0#32 ∧ (shift v .lsl n c).carry = false) ∧
      ((shift v .lsr n c).value = 0#32 ∧ (shift v .lsr n c).carry = false)) ∧
    (32 ≤ n →
      (shift v .asr n c).value = (if v.toInt < 0 then 0xFFFFFFFF#32 else 0#32) ∧
      (shift v .asr n c).carry = v.toNat.testBit 31) ∧
    (n ≠ 0 → n % 32 = 0 → (shift v .ror n c).value = v ∧ (shift v .ror n c).carry = v.toNat.testBit 31) ∧
    (n % 32 ≠ 0 →
      (shift v .ror n c).value.toNat = (v.toNat / 2 ^ (n % 32)) ||| (v.toNat * 2 ^ (32 - n % 32) % 2 ^ 32) ∧
      (shift v .ror n c).carry = v.toNat.testBit (n % 32 - 1) ∧
      (shift v .ror n c).carry = (shift v .ror n c).value.msb)

/-- The operand forms: operand2 and the MOV operand (30_encoding.md R125, R128), the shift amount (R126), the offset and the
access address of each addressing mode (R129, 44_memory.md R210). -/
def Obligations.OperandForms : Prop :=
  ∀ s : State,
    (∀ v, (s.operand (.imm v)).value = v ∧ (s.operand (.imm v)).shifted = false) ∧
    (∀ xm ty n, s.operand (.reg xm ty n) = shift (s.reg xm) ty n.toNat s.flags.c ∧
      (n = 0#5 → (s.operand (.reg xm ty n)).value = s.reg xm ∧ (s.operand (.reg xm ty n)).shifted = false)) ∧
    (∀ v, s.shiftAmount (.imm v) = v.toNat) ∧ (∀ xm, s.shiftAmount (.reg xm) = (s.reg xm).toNat % 256) ∧
    (∀ v, s.memOffset (.imm v) = v) ∧ (∀ xm, s.memOffset (.reg xm) = s.reg xm) ∧
    ∀ xn off, s.accessAddr xn .offsetOnly off = s.reg xn + s.memOffset off ∧
      s.accessAddr xn .preIndexed off = s.reg xn + s.memOffset off ∧ s.accessAddr xn .postIndexed off = s.reg xn

/-- 42_shift.md R191 to R195: the shift instructions, by imm5 or by the low 8 bits of x[m]. -/
def Obligations.ShiftResults : Prop :=
  ∀ (s : State) (f : Bool) (xd xn : Reg) (amt : ShiftAmount) (n : Nat),
    (n = match amt with
      | .imm v => v.toNat
      | .reg xm => (s.reg xm).toNat % 256) →
    ∀ (i : Instr) (op : Nat) (ty : ShiftType),
      (i, op, ty) ∈ [(Instr.lsl f xd xn amt, 0x10, ShiftType.lsl), (Instr.lsr f xd xn amt, 0x11, ShiftType.lsr),
        (Instr.asr f xd xn amt, 0x12, ShiftType.asr), (Instr.ror f xd xn amt, 0x13, ShiftType.ror)] →
      EncodedAs .sh op i ∧
      Computes i s xd (shift (s.reg xn) ty n s.flags.c).value
        (logicPolicy f s.flags (shift (s.reg xn) ty n s.flags.c).value (n ≠ 0) (shift (s.reg xn) ty n s.flags.c).carry)

/-! ## Compares, conditions and branches -/

/-- 43_compare.md R200 to R202: cmp and cmn always write N, Z, C and V, as sub and add do, and no register. -/
def Obligations.CmpCmnFlags : Prop :=
  ∀ (s : State) (xn : Reg) (o : Operand2) (a b : Word), a = s.reg xn → b = (s.operand o).value →
    (EncodedAs .cmp 0x14 (.cmp xn o) ∧
      Compares (.cmp xn o) s
        (arithPolicy true s.flags (a - b) (b.toNat ≤ a.toNat) ((a - b).toInt ≠ a.toInt - b.toInt))) ∧
    (EncodedAs .cmp 0x15 (.cmn xn o) ∧
      Compares (.cmn xn o) s
        (arithPolicy true s.flags (a + b) (2 ^ 32 ≤ a.toNat + b.toNat) ((a + b).toInt ≠ a.toInt + b.toInt)))

/-- 43_compare.md R200, R203, R204: tst and teq always write N and Z, C when a shift applied, and no register. -/
def Obligations.TstTeqFlags : Prop :=
  ∀ (s : State) (xn : Reg) (o : Operand2) (a : Word) (b : Shifted), a = s.reg xn → b = s.operand o →
    (EncodedAs .cmp 0x16 (.tst xn o) ∧
      Compares (.tst xn o) s (logicPolicy true s.flags (a &&& b.value) b.shifted b.carry)) ∧
    (EncodedAs .cmp 0x17 (.teq xn o) ∧
      Compares (.teq xn o) s (logicPolicy true s.flags (a ^^^ b.value) b.shifted b.carry))

/-- 46_branch.md R240: the codes of the conditions, when each holds, and what each means after `cmp`. -/
def Obligations.ConditionTable : Prop :=
  (∀ c, decodeCond (BitVec.ofNat 4 (condCode c)) = some c) ∧ decodeCond 0b1111#4 = none ∧
  (∀ fl : Flags,
    (condHolds .eq fl = true ↔ fl.z = true) ∧ (condHolds .ne fl = true ↔ fl.z = false) ∧
    (condHolds .hs fl = true ↔ fl.c = true) ∧ (condHolds .lo fl = true ↔ fl.c = false) ∧
    (condHolds .mi fl = true ↔ fl.n = true) ∧ (condHolds .pl fl = true ↔ fl.n = false) ∧
    (condHolds .vs fl = true ↔ fl.v = true) ∧ (condHolds .vc fl = true ↔ fl.v = false) ∧
    (condHolds .hi fl = true ↔ fl.c = true ∧ fl.z = false) ∧ (condHolds .ls fl = true ↔ fl.c = false ∨ fl.z = true) ∧
    (condHolds .ge fl = true ↔ fl.n = fl.v) ∧ (condHolds .lt fl = true ↔ fl.n ≠ fl.v) ∧
    (condHolds .gt fl = true ↔ fl.z = false ∧ fl.n = fl.v) ∧ (condHolds .le fl = true ↔ fl.z = true ∨ fl.n ≠ fl.v) ∧
    condHolds .al fl = true) ∧
  ∀ (s : State) (xn : Reg) (o : Operand2) (a b : Word), a = s.reg xn → b = (s.operand o).value →
    ∃ t, exec (.cmp xn o) s = .next t ∧
      (condHolds .eq t.flags = true ↔ a = b) ∧ (condHolds .ne t.flags = true ↔ a ≠ b) ∧
      (condHolds .hs t.flags = true ↔ b.toNat ≤ a.toNat) ∧ (condHolds .lo t.flags = true ↔ a.toNat < b.toNat) ∧
      (condHolds .mi t.flags = true ↔ (a - b).toInt < 0) ∧ (condHolds .pl t.flags = true ↔ 0 ≤ (a - b).toInt) ∧
      (condHolds .vs t.flags = true ↔ (a - b).toInt ≠ a.toInt - b.toInt) ∧
      (condHolds .vc t.flags = true ↔ (a - b).toInt = a.toInt - b.toInt) ∧
      (condHolds .hi t.flags = true ↔ b.toNat < a.toNat) ∧ (condHolds .ls t.flags = true ↔ a.toNat ≤ b.toNat) ∧
      (condHolds .ge t.flags = true ↔ b.toInt ≤ a.toInt) ∧ (condHolds .lt t.flags = true ↔ a.toInt < b.toInt) ∧
      (condHolds .gt t.flags = true ↔ b.toInt < a.toInt) ∧ (condHolds .le t.flags = true ↔ a.toInt ≤ b.toInt)

/-- 46_branch.md R241 to R245: the four branches, taken or not. The target of blx is read before x30 is written. -/
def Obligations.BranchResults : Prop :=
  ∀ (s : State) (c : Cond),
    (∀ off, EncodedAs .bi 0x2C (.b c off) ∧
      ∃ t, exec (.b c off) s = .next t ∧ SameRegsBut s t [] ∧ t.flags = s.flags ∧ CoreOnly (.b c off) s t ∧
        t.pc = if condHolds c s.flags then s.pc + off else s.pc + 4#32) ∧
    (∀ off, EncodedAs .bi 0x2D (.bl c off) ∧
      ∃ t, exec (.bl c off) s = .next t ∧ SameRegsBut s t [30#5] ∧ t.flags = s.flags ∧ CoreOnly (.bl c off) s t ∧
        (t.reg 30#5 = if condHolds c s.flags then s.pc + 4#32 else s.reg 30#5) ∧
        t.pc = if condHolds c s.flags then s.pc + off else s.pc + 4#32) ∧
    (∀ xn, EncodedAs .br 0x30 (.bx c xn) ∧
      ∃ t, exec (.bx c xn) s = .next t ∧ SameRegsBut s t [] ∧ t.flags = s.flags ∧ CoreOnly (.bx c xn) s t ∧
        t.pc = if condHolds c s.flags then s.reg xn else s.pc + 4#32) ∧
    ∀ xn, EncodedAs .br 0x31 (.blx c xn) ∧
      ∃ t, exec (.blx c xn) s = .next t ∧ SameRegsBut s t [30#5] ∧ t.flags = s.flags ∧ CoreOnly (.blx c xn) s t ∧
        (t.reg 30#5 = if condHolds c s.flags then s.pc + 4#32 else s.reg 30#5) ∧
        t.pc = if condHolds c s.flags then s.reg xn else s.pc + 4#32

/-! ## Loads, stores and swaps -/

/-- 44_memory.md R210 to R215: a load whose access is ready completes with the little-endian value, zero-extended; the base is
written in the pre- and post-indexed modes, and then x[t]. -/
def Obligations.ReadyLoadsComplete : Prop :=
  ∀ (s : State) (xt xn : Reg) (am : AddrMode) (off : MemOffset) (i : Instr) (op n : Nat) (d : Device) (offs : List Nat),
    s.cfg.ok = true →
    (i, op, n) ∈ [(Instr.ldr xt xn am off, 0x20, 4), (Instr.ldrh xt xn am off, 0x21, 2), (Instr.ldrb xt xn am off, 0x22, 1)] →
    AccessReady s (s.accessAddr xn am off) n .read d offs →
    EncodedAs .mem op i ∧
    ∃ t, exec i s = .next t ∧ (t.reg xt).toNat = littleEndian (offs.map (s.byteAt d)) ∧
      (am = .offsetOnly → SameRegsBut s t [xt]) ∧
      (am ≠ .offsetOnly → SameRegsBut s t [xt, xn] ∧ (xn ≠ xt → t.reg xn = s.reg xn + s.memOffset off)) ∧
      t.flags = s.flags ∧ t.pc = s.pc + 4#32 ∧ CoreOnly i s t

/-- 44_memory.md R210 to R212, R216 to R218: a store whose access is ready completes: the low bytes of the old x[t] at the access
address, least significant first, every other byte as before; the base is written in the pre- and post-indexed modes. -/
def Obligations.ReadyStoresComplete : Prop :=
  ∀ (s : State) (xt xn : Reg) (am : AddrMode) (off : MemOffset) (i : Instr) (op n : Nat) (d : Device) (offs : List Nat),
    s.cfg.ok = true →
    (i, op, n) ∈ [(Instr.str xt xn am off, 0x24, 4), (Instr.strh xt xn am off, 0x25, 2), (Instr.strb xt xn am off, 0x26, 1)] →
    AccessReady s (s.accessAddr xn am off) n .write d offs →
    EncodedAs .mem op i ∧
    ∃ t, exec i s = .next t ∧
      (∀ j < n, ∃ o, offs[j]? = some o ∧ t.byteAt .ram o = (s.reg xt).extractLsb' (8 * j) 8) ∧
      (∀ d' o, (d' = .ram → o ∉ offs) → t.byteAt d' o = s.byteAt d' o) ∧
      (am = .offsetOnly → SameRegsBut s t []) ∧
      (am ≠ .offsetOnly → SameRegsBut s t [xn] ∧ t.reg xn = s.reg xn + s.memOffset off) ∧
      t.flags = s.flags ∧ t.pc = s.pc + 4#32 ∧ Counted i s t ∧ SameEngine s t ∧ SameMmu s t

/-- 45_atomic.md R230 to R233, 20_memory.md R78: a swap whose access is ready completes: x[t] gets the old value, zero-extended, the
bytes get the low bytes of the old x[s]. -/
def Obligations.ReadySwapsComplete : Prop :=
  ∀ (s : State) (xt xs xn : Reg) (i : Instr) (op n : Nat) (d : Device) (offs : List Nat), s.cfg.ok = true →
    (i, op, n) ∈ [(Instr.swp xt xs xn, 0x28, 4), (Instr.swph xt xs xn, 0x29, 2), (Instr.swpb xt xs xn, 0x2A, 1)] →
    AccessReady s (s.reg xn) n .swap d offs →
    EncodedAs .atm op i ∧
    ∃ t, exec i s = .next t ∧ (t.reg xt).toNat = littleEndian (offs.map (s.byteAt .ram)) ∧
      (∀ j < n, ∃ o, offs[j]? = some o ∧ t.byteAt .ram o = (s.reg xs).extractLsb' (8 * j) 8) ∧
      (∀ d' o, (d' = .ram → o ∉ offs) → t.byteAt d' o = s.byteAt d' o) ∧
      SameRegsBut s t [xt] ∧ t.flags = s.flags ∧ t.pc = s.pc + 4#32 ∧ Counted i s t ∧ SameEngine s t ∧ SameMmu s t

/-- 20_memory.md R89 to R92: an access that needs page-ins or copy-on-write breaks runs as if they had been done first: they change only
what a translation may, and leave the access ready. -/
def Obligations.TranslationMakesReady : Prop :=
  ∀ (s : State) (i : Instr) (a : Word) (n : Nat) (k : AccessKind) (pl : Place) (s1 : State), s.cfg.ok = true →
    dataAccess s i = some (a, n, k) → s.resolve a n k = .ok pl s1 →
    TranslationFrame s s1 ∧ AccessReady s1 a n k pl.dev pl.offs ∧ exec i s = exec i s1

/-- 44_memory.md R212, 45_atomic.md R230, 60_exceptions.md R281, R283: an instruction whose data access faults takes the fault with its
word, and commits nothing; only a translation before the fault keeps its effect. -/
def Obligations.DataFaultTaken : Prop :=
  ∀ (s : State) (i : Instr) (a : Word) (n : Nat) (k : AccessKind) (c : FaultCause) (s1 : State),
    dataAccess s i = some (a, n, k) → s.resolve a n k = .fault c s1 →
    TranslationFrame s s1 ∧ ∃ t, exec i s = .next t ∧ TookFault c (some (encode i)) s1 t

/-- Files 40 to 43 and 46 to 48: an instruction without a data access completes, and touches no byte and nothing of the MMU. -/
def Obligations.NoAccessNoFault : Prop :=
  ∀ (s : State) (i : Instr), dataAccess s i = none →
    ∃ t, exec i s = .next t ∧ SameBytes s t ∧ SameMmu s t ∧ t.cycles = s.cycles + BitVec.ofNat 64 (s.cfg.cost i.opcode) ∧
      (t.execState = s.execState ∨ i = .hlt)

/-- 20_memory.md R65, R66, R76: a read or a fetch of n bytes answers the bytes that byte reads answer, least significant first,
zero-extended. -/
def Obligations.LittleEndianReads : Prop :=
  ∀ (s : State) (a : Word) (w : Width) (k : AccessKind) (v : Word) (s1 : State), s.cfg.ok = true → k = .read ∨ k = .fetch →
    s.memRead a w k = .ok v s1 →
    v.toNat < 2 ^ (8 * w.bytes) ∧
    ∀ j < w.bytes, s1.memRead (a + BitVec.ofNat 32 j) .byte k = .ok (zext (v.extractLsb' (8 * j) 8)) s1

/-- 20_memory.md R104: a read after a write of the same bytes answers what was written, at the same address and through every other
path that reaches the same byte of RAM. -/
def Obligations.StoreThenLoad : Prop :=
  ∀ (s : State) (a : Word) (w : Width) (v : Word) (s1 : State), s.cfg.ok = true → s.memWrite a w v = .ok () s1 →
    (∃ x, s1.memRead a w .read = .ok x s1 ∧ x.toNat = v.toNat % 2 ^ (8 * w.bytes)) ∧
    ∀ pl s2, s.resolve a w.bytes .write = .ok pl s2 → ∀ j o a', pl.offs[j]? = some o → AccessReady s1 a' 1 .read .ram [o] →
      s1.memRead a' .byte .read = .ok (zext (v.extractLsb' (8 * j) 8)) s1

/-! ## Floating point -/

/-- 47_float.md R251 to R253: vadd_f32 and vsub_f32 write the correctly rounded sum and difference. -/
def Obligations.FloatSums : Prop :=
  ∀ (s : State) (xd xn xm : Reg),
    (EncodedAs .fp3 0x34 (.vaddF32 xd xn xm) ∧
      ∃ r, Computes (.vaddF32 xd xn xm) s xd r s.flags ∧ SumSpec s.cfg.defaultNan (s.reg xn) (s.reg xm) r) ∧
    (EncodedAs .fp3 0x35 (.vsubF32 xd xn xm) ∧
      ∃ r, Computes (.vsubF32 xd xn xm) s xd r s.flags ∧ DifferenceSpec s.cfg.defaultNan (s.reg xn) (s.reg xm) r)

/-- 47_float.md R251, R254: vmul_f32 writes the correctly rounded product. -/
def Obligations.FloatProduct : Prop :=
  ∀ (s : State) (xd xn xm : Reg), EncodedAs .fp3 0x36 (.vmulF32 xd xn xm) ∧
    ∃ r, Computes (.vmulF32 xd xn xm) s xd r s.flags ∧ ProductSpec s.cfg.defaultNan (s.reg xn) (s.reg xm) r

/-- 47_float.md R251, R255: vdiv_f32 writes the correctly rounded quotient. -/
def Obligations.FloatQuotient : Prop :=
  ∀ (s : State) (xd xn xm : Reg), EncodedAs .fp3 0x37 (.vdivF32 xd xn xm) ∧
    ∃ r, Computes (.vdivF32 xd xn xm) s xd r s.flags ∧ QuotientSpec s.cfg.defaultNan (s.reg xn) (s.reg xm) r

/-- 47_float.md R256: vcmp_f32 writes the flags of the IEEE ordering. -/
def Obligations.FloatCompare : Prop :=
  ∀ (s : State) (xn xm : Reg) (a b : Word), a = s.reg xn → b = s.reg xm →
    EncodedAs .fpc 0x38 (.vcmpF32 xn xm) ∧
    ∃ fl, Compares (.vcmpF32 xn xm) s fl ∧
      (f32IsNan a = true ∨ f32IsNan b = true → fl = { n := false, z := false, c := true, v := true }) ∧
      (f32IsNan a = false → f32IsNan b = false →
        (f32Equal a b → fl = { n := false, z := true, c := true, v := false }) ∧
        (f32Less a b → fl = { n := true, z := false, c := false, v := false }) ∧
        (¬ f32Equal a b → ¬ f32Less a b → fl = { n := false, z := false, c := true, v := false }))

/-! ## The system instructions and runs -/

/-- 48_system.md R270, 60_exceptions.md R286: hlt completes, exec_state is Halted, and the run ends with Halt; a run called
after it executes nothing and returns Halt. -/
def Obligations.HltEndsTheRun : Prop :=
  ∀ s : State, EncodedAs .sys 0x00 .hlt ∧ encode .hlt = 0#32 ∧
    ∃ t, exec .hlt s = .next t ∧ t.pc = s.pc + 4#32 ∧ t.execState = .halted ∧ t.activeRun = none ∧
      t.lastResult = some { ending := .halt, executed := s.executed + 1 } ∧
      t.cycles = s.cycles + BitVec.ofNat 64 (s.cfg.cost Instr.hlt.opcode) ∧
      SameRegsBut s t [] ∧ t.flags = s.flags ∧ SameBytes s t ∧ SameMmu s t ∧ t.cfg = s.cfg ∧ t.freeDraws = s.freeDraws ∧
      ∀ max, run max t = .next { t with lastResult := some { ending := .halt, executed := 0 } }

/-- 48_system.md R271: swi completes, and the run ends with SoftwareInterrupt(imm26); exec_state stays as it is. -/
def Obligations.SwiEndsTheRun : Prop :=
  ∀ (s : State) (imm : Word), EncodedAs .sys 0x01 (.swi imm) ∧
    ∃ t, exec (.swi imm) s = .next t ∧ t.pc = s.pc + 4#32 ∧ t.execState = s.execState ∧ t.activeRun = none ∧
      t.lastResult = some { ending := .softwareInterrupt imm, executed := s.executed + 1 } ∧
      t.cycles = s.cycles + BitVec.ofNat 64 (s.cfg.cost (Instr.swi imm).opcode) ∧
      SameRegsBut s t [] ∧ t.flags = s.flags ∧ SameBytes s t ∧ SameMmu s t ∧ t.cfg = s.cfg ∧ t.freeDraws = s.freeDraws

/-- 60_exceptions.md R287: a Halted machine executes nothing, a run answers Halt with 0 executed, the host's operations still work, and
only reset leaves Halted. -/
def Obligations.HaltedUntilReset : Prop :=
  ∀ s : State, s.execState = .halted → s.activeRun = none →
    (∀ max, run max s = .next { s with lastResult := some { ending := .halt, executed := 0 }, activeRun := none }) ∧
    (∀ call, call ≠ .reset → (hostCall call s).2.execState = .halted) ∧
    (hostCall .reset s).2.execState = .running ∧
    ∀ call, (hostCall call s).1 ≠ .duringRun

/-- 10_state.md R29, 20_memory.md R60, R62, 60_exceptions.md R286, R300: no instruction changes the ROM, the disk, the parameters, the
current process, the set of processes, or a page's permissions, and only hlt halts the machine. -/
def Obligations.BeyondInstructions : Prop :=
  ∀ (s t : State) (i : Instr), exec i s = .next t →
    (∀ off, t.byteAt .rom off = s.byteAt .rom off) ∧ (∀ off, t.byteAt .disk off = s.byteAt .disk off) ∧
    t.cfg = s.cfg ∧ t.current = s.current ∧ t.nextPid = s.nextPid ∧ t.freeDraws = s.freeDraws ∧
    (∀ pid, t.live pid = s.live pid) ∧
    (∀ pid p, (assocFind (t.table pid) p).map (fun e => (e.write, e.execute, e.kernel)) =
      (assocFind (s.table pid) p).map fun e => (e.write, e.execute, e.kernel)) ∧
    (t.execState = .halted → s.execState ≠ .halted → i = .hlt)

/-- 10_state.md R26: only a compare, or an instruction of format DP, SH or MOV with S = 1, changes a flag, and the logical, move, shift
and test instructions keep V. -/
def Obligations.FlagWriters : Prop :=
  ∀ (s t : State) (i : Instr), exec i s = .next t →
    (writesFlags i = false → t.flags = s.flags) ∧
    (i.format = .sh ∨ i.format = .mov ∨ (i.format = .dp ∧ 0x0C#6 ≤ i.opcode) ∨ (i.format = .cmp ∧ 0x16#6 ≤ i.opcode) →
      t.flags.v = s.flags.v)

/-- 60_exceptions.md R281, R283: a step that ends in a fault changes no register, flag, pc, cycle count or byte that a later read returns;
only frames that a translation before the fault took from the pools differ; the record holds the state before the instruction. -/
def Obligations.FaultsPrecise : Prop :=
  ∀ s t : State, Inv s → step s = .next t → t.execState = .faulted →
    SameCore s t ∧ t.cfg = s.cfg ∧ t.activeRun = none ∧
    (∀ off, t.byteAt .rom off = s.byteAt .rom off) ∧ (∀ off, t.byteAt .disk off = s.byteAt .disk off) ∧
    (∀ off, (off / s.cfg.pageSize ∈ s.userFree → off / s.cfg.pageSize ∈ t.userFree) →
      (off / s.cfg.pageSize ∈ s.kernelFree → off / s.cfg.pageSize ∈ t.kernelFree) →
      t.byteAt .ram off = s.byteAt .ram off) ∧
    SameView s t ∧
    ∃ r : FaultRecord, t.lastResult = some { ending := .fault r, executed := s.executed } ∧
      r.faultPc = s.pc ∧ r.regs = s.regs ∧ r.flags = s.flags ∧ r.pc = s.pc ∧
      (r.word = none ↔ ∃ s1, s.resume.fetch = .fault r.cause s1) ∧
      ∀ w, r.word = some w → ∃ s1, s.resume.fetch = .ok w s1

/-- 60_exceptions.md R282, R284, R289: how a run ends, and that it never executes more than its budget. -/
def Obligations.RunWithinBudget : Prop :=
  ∀ (max : Nat) (s t : State), run max s = .next t →
    t.activeRun = none ∧
    ∃ r, t.lastResult = some r ∧ r.executed ≤ max ∧
      (r.ending = .budgetExhausted → r.executed = max ∧ t.execState = .running) ∧
      (r.ending = .halt → t.execState = .halted) ∧
      (∀ imm, r.ending = .softwareInterrupt imm → t.execState = .running) ∧
      ∀ rec, r.ending = .fault rec → t.execState = .faulted ∧ r.executed < max

/-! ## Invariants -/

/-- The memories keep their canonical form, the MMU keeps the invariants of 20_memory.md R82 (with what R80, R81, R83 and R84 say of
pools, entries and processes), and a run is in progress only while Running: every step keeps them. -/
def Obligations.StepKeepsInvariant : Prop := ∀ s t : State, Inv s → step s = .next t → Inv t

/-- The invariant holds after reset. -/
def Obligations.ResetHasInvariant : Prop := Inv State.reset

/-- 60_exceptions.md R285, 93_implementation_defined.md I13: in a state of the invariant every step, every instruction and every run
answers a next state: the model's stops are not reached. -/
def Obligations.StepsNeverStop : Prop :=
  ∀ s : State, Inv s → (∃ t, step s = .next t) ∧ (∀ i, ∃ t, exec i s = .next t) ∧ ∀ max, ∃ t, run max s = .next t ∧ Inv t

/-- 20_memory.md R82: every host operation keeps the invariant, but a host's own allocate_one and return_one (log 7). -/
def Obligations.HostCallsKeepInvariant : Prop :=
  ∀ (s : State) (call : HostCall), Inv s → (∀ p, call ≠ .allocateOne p) → (∀ p n, call ≠ .returnOne p n) →
    Inv (hostCall call s).2

/-! ## The bus and the MMU -/

/-- 20_memory.md R73, R74: where the bus sends an access of n bytes, n at least 1. -/
def Obligations.RouteTable : Prop :=
  ∀ (cfg : Params) (a : Word) (n : Nat) (k : AccessKind) (last : Nat), 1 ≤ n → last = a.toNat + n - 1 →
    (0xFFFFFFFF < last → route cfg a n k = .fault (.memoryOutOfBounds a)) ∧
    (last ≤ 0xFFFFFFFF →
      (cfg.romBase ≤ a.toNat ∧ last < cfg.romBase + cfg.romSize →
        (k = .write ∨ k = .swap → route cfg a n k = .fault (.writeToReadOnly a)) ∧
        (k = .read ∨ k = .fetch → route cfg a n k = .rom (a.toNat - cfg.romBase))) ∧
      (¬ (cfg.romBase ≤ a.toNat ∧ last < cfg.romBase + cfg.romSize) →
        (cfg.ramBase ≤ a.toNat ∧ last < cfg.ramBase + cfg.ramSize → route cfg a n k = .ram (a.toNat - cfg.ramBase)) ∧
        (¬ (cfg.ramBase ≤ a.toNat ∧ last < cfg.ramBase + cfg.ramSize) →
          (cfg.vmBase ≤ a.toNat ∧ last < cfg.vmBase + cfg.vmSize → route cfg a n k = .vm) ∧
          (¬ (cfg.vmBase ≤ a.toNat ∧ last < cfg.vmBase + cfg.vmSize) →
            route cfg a n k = .fault (.memoryOutOfBounds a)))))

/-- 20_memory.md R90: the decisions of a translation. -/
def Obligations.TranslateDecisions : Prop :=
  ∀ (s : State) (p : Nat) (k : AccessKind) (fa : Word),
    (s.current = none → s.translate p k fa = .fault (.pageFault fa p k .unmapped) s) ∧
    (∀ pid, s.current = some pid → assocFind (s.table pid) p = none →
      s.translate p k fa = .fault (.pageFault fa p k .unmapped) s) ∧
    ∀ pid e, s.current = some pid → assocFind (s.table pid) p = some e →
      (k.writes = true → e.write = false → s.translate p k fa = .fault (.pageFault fa p k .permission) s) ∧
      (k = .fetch → e.execute = false → s.translate p k fa = .fault (.pageFault fa p k .permission) s) ∧
      ((k.writes = true → e.write = true) → (k = .fetch → e.execute = true) →
        (∀ f, e.loc = .frame f → (k.writes = true → e.cow = false) → s.translate p k fa = .ok f s) ∧
        (∀ d, e.loc = .disk d → s.pool (framePool e.kernel) = [] →
          s.translate p k fa = .fault (.resourceExhausted (framePool e.kernel)) s) ∧
        (∀ f, e.loc = .frame f → k.writes = true → e.cow = true → 1 < s.frameRefOf f → s.pool (framePool e.kernel) = [] →
          s.translate p k fa = .fault (.resourceExhausted (framePool e.kernel)) s) ∧
        (∀ f t, s.translate p k fa = .ok f t →
          ∃ e', t.entry p = some e' ∧ e'.loc = .frame f ∧ (k.writes = true → e'.cow = false)))

/-- 20_memory.md R91, R99: a page-in of a page on disk slot `d`. -/
def Obligations.PageInEffect : Prop :=
  ∀ (s : State) (p pid : Nat) (e : Pte) (d : Nat), Inv s → s.current = some pid → s.entry p = some e → e.loc = .disk d →
    (s.pool (framePool e.kernel) = [] → s.pageIn p = .error (.resourceExhausted (framePool e.kernel))) ∧
    ∀ f rest, s.pool (framePool e.kernel) = f :: rest →
      ∃ t, s.pageIn p = .ok t ∧ ControlFrame s t ∧ t.pool (framePool e.kernel) = rest ∧
        t.pool (framePool !e.kernel) = s.pool (framePool !e.kernel) ∧
        (∀ o < s.cfg.pageSize, t.pageByte (.frame f) o = s.pageByte (.disk d) o) ∧
        (∀ off, off / s.cfg.pageSize ≠ f → t.byteAt .ram off = s.byteAt .ram off) ∧
        (∀ off, t.byteAt .disk off = s.byteAt .disk off) ∧
        (∀ pid' p', assocFind (t.table pid') p' =
          (assocFind (s.table pid') p').map fun x => if x.loc = .disk d then { x with loc := .frame f } else x) ∧
        t.frameRefOf f = s.diskRefOf d ∧ t.diskRefOf d = 0 ∧
        (∀ g, g ≠ f → t.frameRefOf g = s.frameRefOf g) ∧ (∀ x, x ≠ d → t.diskRefOf x = s.diskRefOf x) ∧
        (∀ x, x ∈ t.diskFree ↔ x = d ∨ x ∈ s.diskFree) ∧
        SameProcesses s t ∧ t.freeDraws = s.freeDraws

/-- 20_memory.md R92: the copy-on-write break that a write or swap to a resident page makes. -/
def Obligations.CowBreakEffect : Prop :=
  ∀ (s : State) (p pid : Nat) (k : AccessKind) (fa : Word) (e : Pte) (f : Nat), Inv s → k.writes = true →
    s.current = some pid → s.entry p = some e → e.loc = .frame f → e.write = true → e.cow = true →
    (s.frameRefOf f = 1 → ∃ t, s.translate p k fa = .ok f t ∧ ControlFrame s t ∧ SameProcesses s t ∧
      t.freeDraws = s.freeDraws ∧ SameBytes s t ∧ t.entry p = some { e with cow := false } ∧
      SameEntriesBut s t pid p ∧ t.frameRef = s.frameRef ∧ t.diskRef = s.diskRef ∧
      t.userFree = s.userFree ∧ t.kernelFree = s.kernelFree ∧ t.diskFree = s.diskFree) ∧
    (1 < s.frameRefOf f → s.pool (framePool e.kernel) = [] →
      s.translate p k fa = .fault (.resourceExhausted (framePool e.kernel)) s) ∧
    (1 < s.frameRefOf f → ∀ g rest, s.pool (framePool e.kernel) = g :: rest →
      ∃ t, s.translate p k fa = .ok g t ∧ ControlFrame s t ∧ SameProcesses s t ∧ t.freeDraws = s.freeDraws ∧ t.entry p = some { e with loc := .frame g, cow := false } ∧
        SameEntriesBut s t pid p ∧ t.pool (framePool e.kernel) = rest ∧
        t.pool (framePool !e.kernel) = s.pool (framePool !e.kernel) ∧ t.diskFree = s.diskFree ∧ t.diskRef = s.diskRef ∧
        t.frameRefOf f = s.frameRefOf f - 1 ∧ t.frameRefOf g = 1 ∧
        (∀ h, h ≠ f → h ≠ g → t.frameRefOf h = s.frameRefOf h) ∧
        (∀ o < s.cfg.pageSize, t.pageByte (.frame g) o = s.pageByte (.frame f) o) ∧
        (∀ off, off / s.cfg.pageSize ≠ g → t.byteAt .ram off = s.byteAt .ram off) ∧
        ∀ off, t.byteAt .disk off = s.byteAt .disk off)

/-- 10_state.md R34, 20_memory.md R69, R104: whatever page-ins and copy-on-write breaks an instruction makes, a byte of a mapped page of
any process changes only where the instruction's own store or swap reaches it. -/
def Obligations.VirtualBytesChangeByStores : Prop :=
  ∀ (s t : State) (i : Instr), Inv s → exec i s = .next t →
    ((∀ a n k, dataAccess s i = some (a, n, k) → k.writes = false) → SameView s t) ∧
    ∀ a n k, dataAccess s i = some (a, n, k) → k.writes = true →
      (∀ c s1, s.resolve a n k = .fault c s1 → SameView s t) ∧
      ∀ pl s1, s.resolve a n k = .ok pl s1 → ∀ pid p o, o < s.cfg.pageSize →
        (∀ e f, assocFind (s1.table pid) p = some e → e.loc = .frame f → f * s.cfg.pageSize + o ∉ pl.offs) →
        t.virtualByte pid p o = s.virtualByte pid p o

/-- 20_memory.md R86, R87: allocate_one and return_one. -/
def Obligations.PoolOperations : Prop :=
  ∀ (s : State) (p : Pool),
    (s.pool p = [] → s.allocateOne p = .error (.resourceExhausted p)) ∧
    (MmuWf s → s.pool p ≠ [] → ∃ n t, s.allocateOne p = .ok (n, t) ∧ n ∈ s.pool p ∧ (∀ m ∈ s.pool p, n ≤ m) ∧
      inPoolRange s.cfg p n = true ∧ (∀ m, m ∈ t.pool p ↔ m ∈ s.pool p ∧ m ≠ n) ∧ (∀ q, q ≠ p → t.pool q = s.pool q) ∧
      SameBytes s t ∧ ControlFrame s t) ∧
    ∀ n, (inPoolRange s.cfg p n = false → s.returnOne p n = .error .invalidArgument) ∧
      (inPoolRange s.cfg p n = true → n ∈ s.pool p → s.returnOne p n = .error (.consistencyFault n)) ∧
      (inPoolRange s.cfg p n = true → n ∉ s.pool p → ∃ t, s.returnOne p n = .ok t ∧
        (∀ m, m ∈ t.pool p ↔ m = n ∨ m ∈ s.pool p) ∧ (∀ q, q ≠ p → t.pool q = s.pool q) ∧ SameBytes s t ∧ ControlFrame s t)

/-- 20_memory.md R93: add_vpage. -/
def Obligations.AddVpageEffect : Prop :=
  ∀ (s : State) (p : Nat) (kernel write execute cow : Bool), Inv s →
    (s.current = none ∨ s.cfg.vpages ≤ p → s.addVpage p kernel write execute cow = .error .invalidArgument) ∧
    ∀ pid, s.current = some pid → p < s.cfg.vpages →
      (∀ e, s.entry p = some e → s.addVpage p kernel write execute cow = .error (.alreadyMapped p)) ∧
      (s.entry p = none → s.pool (framePool kernel) = [] →
        s.addVpage p kernel write execute cow = .error (.resourceExhausted (framePool kernel))) ∧
      (s.entry p = none → ∀ f rest, s.pool (framePool kernel) = f :: rest →
        ∃ t, s.addVpage p kernel write execute cow = .ok t ∧ ControlFrame s t ∧ SameProcesses s t ∧
          t.entry p = some { loc := .frame f, write := write, execute := execute, kernel := kernel, cow := cow } ∧
          SameEntriesBut s t pid p ∧ t.pool (framePool kernel) = rest ∧
          t.pool (framePool !kernel) = s.pool (framePool !kernel) ∧ t.diskFree = s.diskFree ∧
          t.frameRefOf f = 1 ∧ (∀ g, g ≠ f → t.frameRefOf g = s.frameRefOf g) ∧ t.diskRef = s.diskRef ∧
          (s.cfg.freshFill = .zero → t.freeDraws = s.freeDraws ∧ ∀ o < s.cfg.pageSize, t.pageByte (.frame f) o = 0#8) ∧
          (∀ off, off / s.cfg.pageSize ≠ f → t.byteAt .ram off = s.byteAt .ram off) ∧
          ∀ off, t.byteAt .disk off = s.byteAt .disk off)

/-- 20_memory.md R88, R94: remove_vpage; a shared page survives until its last reference is dropped. -/
def Obligations.RemoveVpageEffect : Prop :=
  ∀ (s : State) (p : Nat), Inv s →
    (s.current = none ∨ s.cfg.vpages ≤ p → s.removeVpage p = .error .invalidArgument) ∧
    ∀ pid, s.current = some pid → p < s.cfg.vpages →
      (s.entry p = none → s.removeVpage p = .ok s) ∧
      ∀ e, s.entry p = some e →
        ∃ t, s.removeVpage p = .ok t ∧ ControlFrame s t ∧ SameProcesses s t ∧ t.freeDraws = s.freeDraws ∧ SameBytes s t ∧
          t.entry p = none ∧ SameEntriesBut s t pid p ∧
          t.refOf e.loc = s.refOf e.loc - 1 ∧ (∀ l, l ≠ e.loc → t.refOf l = s.refOf l) ∧
          (1 < s.refOf e.loc →
            t.userFree = s.userFree ∧ t.kernelFree = s.kernelFree ∧ t.diskFree = s.diskFree) ∧
          (s.refOf e.loc = 1 →
            (∀ f, e.loc = .frame f → (∀ m, m ∈ t.pool (framePool e.kernel) ↔ m = f ∨ m ∈ s.pool (framePool e.kernel)) ∧
              t.pool (framePool !e.kernel) = s.pool (framePool !e.kernel) ∧ t.diskFree = s.diskFree) ∧
            (∀ d, e.loc = .disk d → (∀ m, m ∈ t.diskFree ↔ m = d ∨ m ∈ s.diskFree) ∧
              t.userFree = s.userFree ∧ t.kernelFree = s.kernelFree))

/-- 20_memory.md R96, R97: share_vpage and protect_vpage. -/
def Obligations.ShareAndProtectEffect : Prop :=
  ∀ (s : State) (write execute cow : Bool), Inv s →
    (∀ srcPid src dst,
      (s.current = none ∨ s.live srcPid = false ∨ s.cfg.vpages ≤ src ∨ s.cfg.vpages ≤ dst ∨
          assocFind (s.table srcPid) src = none →
        s.shareVpage srcPid src dst write execute cow = .error .invalidArgument) ∧
      ∀ pid e, s.current = some pid → src < s.cfg.vpages → dst < s.cfg.vpages → assocFind (s.table srcPid) src = some e →
        (s.entry dst ≠ none → s.shareVpage srcPid src dst write execute cow = .error (.alreadyMapped dst)) ∧
        (s.entry dst = none → ∃ t, s.shareVpage srcPid src dst write execute cow = .ok t ∧ ControlFrame s t ∧
          SameProcesses s t ∧ t.freeDraws = s.freeDraws ∧ SameBytes s t ∧
          t.entry dst = some { loc := e.loc, write := write, execute := execute, kernel := e.kernel, cow := cow } ∧
          SameEntriesBut s t pid dst ∧ t.refOf e.loc = s.refOf e.loc + 1 ∧ (∀ l, l ≠ e.loc → t.refOf l = s.refOf l) ∧
          t.userFree = s.userFree ∧ t.kernelFree = s.kernelFree ∧ t.diskFree = s.diskFree)) ∧
    ∀ p,
      (s.current = none ∨ s.cfg.vpages ≤ p ∨ s.entry p = none →
        s.protectVpage p write execute cow = .error .invalidArgument) ∧
      ∀ pid e, s.current = some pid → p < s.cfg.vpages → s.entry p = some e →
        ∃ t, s.protectVpage p write execute cow = .ok t ∧ ControlFrame s t ∧ SameProcesses s t ∧
          t.freeDraws = s.freeDraws ∧ SameBytes s t ∧
          t.entry p = some { e with write := write, execute := execute, cow := cow } ∧ SameEntriesBut s t pid p ∧
          t.frameRef = s.frameRef ∧ t.diskRef = s.diskRef ∧
          t.userFree = s.userFree ∧ t.kernelFree = s.kernelFree ∧ t.diskFree = s.diskFree

/-- 20_memory.md R98: page_out. -/
def Obligations.PageOutEffect : Prop :=
  ∀ (s : State) (p : Nat), Inv s →
    (s.current = none ∨ s.cfg.vpages ≤ p ∨ s.entry p = none → s.pageOut p = .error .invalidArgument) ∧
    ∀ pid e, s.current = some pid → s.entry p = some e →
      (∀ d, e.loc = .disk d → s.pageOut p = .ok s) ∧
      ∀ f, e.loc = .frame f →
        (s.diskFree = [] → s.pageOut p = .error (.resourceExhausted .disk)) ∧
        ∀ d rest, s.diskFree = d :: rest →
          ∃ t, s.pageOut p = .ok t ∧ ControlFrame s t ∧ SameProcesses s t ∧ t.freeDraws = s.freeDraws ∧ t.diskFree = rest ∧
            (∀ m, m ∈ t.pool (framePool e.kernel) ↔ m = f ∨ m ∈ s.pool (framePool e.kernel)) ∧
            t.pool (framePool !e.kernel) = s.pool (framePool !e.kernel) ∧
            (∀ o < s.cfg.pageSize, t.pageByte (.disk d) o = s.pageByte (.frame f) o) ∧
            (∀ off, off / s.cfg.pageSize ≠ d → t.byteAt .disk off = s.byteAt .disk off) ∧
            (∀ off, t.byteAt .ram off = s.byteAt .ram off) ∧
            (∀ pid' p', assocFind (t.table pid') p' =
              (assocFind (s.table pid') p').map fun x => if x.loc = .frame f then { x with loc := .disk d } else x) ∧
            t.diskRefOf d = s.frameRefOf f ∧ t.frameRefOf f = 0 ∧
            (∀ g, g ≠ f → t.frameRefOf g = s.frameRefOf g) ∧ (∀ x, x ≠ d → t.diskRefOf x = s.diskRefOf x)

/-- 20_memory.md R84, R95, R100, R101: processes begin, become current, are emptied and end; the pages of the others stay. -/
def Obligations.ProcessOperations : Prop :=
  ∀ s : State, Inv s →
    (s.beginProcess.1 = s.nextPid ∧ s.live s.nextPid = false ∧ s.beginProcess.2.nextPid = s.nextPid + 1 ∧
      s.beginProcess.2.current = some s.nextPid ∧ s.beginProcess.2.live s.nextPid = true ∧
      (∀ p, assocFind (s.beginProcess.2.table s.nextPid) p = none) ∧
      ∀ pid, pid ≠ s.nextPid → s.beginProcess.2.live pid = s.live pid ∧ s.beginProcess.2.table pid = s.table pid) ∧
    (∀ pid, (s.live pid = true → s.setCurrent pid = .ok { s with current := some pid }) ∧
      (s.live pid = false → s.setCurrent pid = .error .invalidArgument)) ∧
    (s.current = none → s.removePagedir = .error .invalidArgument) ∧
    (∀ pid, s.current = some pid → ∃ t, s.removePagedir = .ok t ∧ Emptied s t pid ∧ t.live pid = true ∧ t.current = s.current) ∧
    ∀ pid, (s.live pid = false → s.endProcess pid = .error .invalidArgument) ∧
      (s.live pid = true → ∃ t, s.endProcess pid = .ok t ∧ Emptied s t pid ∧ t.live pid = false ∧
        t.current = if s.current = some pid then none else s.current)

/-! ## Reset, construction and the host's views -/

/-- 70_reset_and_hazards.md R320, R321, 10_state.md R35: reset sets the core state and nothing else; the pc is the little-endian word at
RESET_VECTOR_ADDR. -/
def Obligations.ResetOperation : Prop :=
  ∀ s : State, s.cfg.ok = true →
    (∀ r, s.resetCore.reg r = 0#32) ∧ s.resetCore.flags = { n := false, z := false, c := false, v := false } ∧
    s.resetCore.cycles = 0#64 ∧ s.resetCore.lastResult = none ∧ s.resetCore.execState = .running ∧
    s.resetCore.activeRun = none ∧ SameBytes s s.resetCore ∧ SameMmu s s.resetCore ∧ s.resetCore.cfg = s.cfg ∧
    s.resetCore.freeDraws = s.freeDraws ∧
    (s.cfg.romBase ≤ s.cfg.resetVector ∧ s.cfg.resetVector + 4 ≤ s.cfg.romBase + s.cfg.romSize →
      s.resetCore.pc.toNat =
        littleEndian ((List.range 4).map fun j => s.byteAt .rom (s.cfg.resetVector - s.cfg.romBase + j))) ∧
    (s.cfg.ramBase ≤ s.cfg.resetVector ∧ s.cfg.resetVector + 4 ≤ s.cfg.ramBase + s.cfg.ramSize →
      s.resetCore.pc.toNat =
        littleEndian ((List.range 4).map fun j => s.byteAt .ram (s.cfg.resetVector - s.cfg.ramBase + j)))

/-- 70_reset_and_hazards.md R322, 10_state.md R35: the machine that construction builds. That an image starts at offset 0 of its device
is the model's choice (log 15). -/
def Obligations.ConstructedMachine : Prop :=
  ∀ (cfg : Params) (rom ram disk : List Byte) (s : State), construct cfg rom ram disk = some s →
    s.cfg = cfg ∧ Inv s ∧ s.execState = .running ∧ (∀ r, s.reg r = 0#32) ∧ s.cycles = 0#64 ∧ s.lastResult = none ∧
    s.flags = { n := false, z := false, c := false, v := false } ∧
    (cfg.romBase ≤ cfg.resetVector ∧ cfg.resetVector + 4 ≤ cfg.romBase + cfg.romSize →
      s.pc.toNat = littleEndian ((List.range 4).map fun j => s.byteAt .rom (cfg.resetVector - cfg.romBase + j))) ∧
    (cfg.ramBase ≤ cfg.resetVector ∧ cfg.resetVector + 4 ≤ cfg.ramBase + cfg.ramSize →
      s.pc.toNat = littleEndian ((List.range 4).map fun j => s.byteAt .ram (cfg.resetVector - cfg.ramBase + j))) ∧
    (∀ off, s.byteAt .rom off = rom[off]?.getD 0#8) ∧ (∀ off, s.byteAt .ram off = ram[off]?.getD 0#8) ∧
    (∀ off, s.byteAt .disk off = disk[off]?.getD 0#8) ∧
    (∀ f, f ∈ s.userFree ↔ cfg.userLow ≤ f ∧ f ≤ cfg.userHigh) ∧
    (∀ f, f ∈ s.kernelFree ↔ cfg.kernelLow ≤ f ∧ f ≤ cfg.kernelHigh) ∧ (∀ d, d ∈ s.diskFree ↔ d < cfg.diskPages) ∧
    (∀ f, s.frameRefOf f = 0) ∧ (∀ d, s.diskRefOf d = 0) ∧ s.procs = [(0, [])] ∧ s.current = some 0 ∧ s.nextPid = 1

/-- 20_memory.md R85: the construction checks, and that no machine exists where one fails. -/
def Obligations.ConstructionChecks : Prop :=
  ∀ p : Params,
    (p.ok = true ↔
      (∃ k, p.pageSize = 2 ^ k) ∧ 16 ≤ p.pageSize ∧
      p.pageSize ∣ p.ramBase ∧ p.pageSize ∣ p.ramSize ∧ p.pageSize ∣ p.vmBase ∧ p.pageSize ∣ p.vmSize ∧
      (∀ x, ¬ ((p.romBase ≤ x ∧ x < p.romBase + p.romSize) ∧ (p.ramBase ≤ x ∧ x < p.ramBase + p.ramSize))) ∧
      (∀ x, ¬ ((p.romBase ≤ x ∧ x < p.romBase + p.romSize) ∧ (p.vmBase ≤ x ∧ x < p.vmBase + p.vmSize))) ∧
      (∀ x, ¬ ((p.ramBase ≤ x ∧ x < p.ramBase + p.ramSize) ∧ (p.vmBase ≤ x ∧ x < p.vmBase + p.vmSize))) ∧
      p.romBase + p.romSize ≤ 2 ^ 32 ∧ p.ramBase + p.ramSize ≤ 2 ^ 32 ∧ p.vmBase + p.vmSize ≤ 2 ^ 32 ∧
      p.userLow ≤ p.userHigh ∧ p.userHigh < p.ramSize / p.pageSize ∧
      p.kernelLow ≤ p.kernelHigh ∧ p.kernelHigh < p.ramSize / p.pageSize ∧
      (∀ f, ¬ ((p.userLow ≤ f ∧ f ≤ p.userHigh) ∧ (p.kernelLow ≤ f ∧ f ≤ p.kernelHigh))) ∧
      ((p.romBase ≤ p.resetVector ∧ p.resetVector + 4 ≤ p.romBase + p.romSize) ∨
        (p.ramBase ≤ p.resetVector ∧ p.resetVector + 4 ≤ p.ramBase + p.ramSize))) ∧
    (p.ok = false → ∀ rom ram disk, construct p rom ram disk = none)

/-- 20_memory.md R64: load_image. -/
def Obligations.LoadImageEffect : Prop :=
  ∀ (s : State) (base : Word) (bytes : List Byte) (a hi : Nat), s.cfg.ok = true → a = base.toNat →
    hi = a + bytes.length →
    (s.cfg.romBase ≤ a ∧ hi ≤ s.cfg.romBase + s.cfg.romSize → ∃ t, s.loadImage base bytes = .ok t ∧
      (∀ j < bytes.length, t.byteAt .rom (a - s.cfg.romBase + j) = bytes[j]?.getD 0#8) ∧
      (∀ off, off < a - s.cfg.romBase ∨ a - s.cfg.romBase + bytes.length ≤ off → t.byteAt .rom off = s.byteAt .rom off) ∧
      t = { s with rom := t.rom }) ∧
    (s.cfg.ramBase ≤ a ∧ hi ≤ s.cfg.ramBase + s.cfg.ramSize → ∃ t, s.loadImage base bytes = .ok t ∧
      (∀ j < bytes.length, t.byteAt .ram (a - s.cfg.ramBase + j) = bytes[j]?.getD 0#8) ∧
      (∀ off, off < a - s.cfg.ramBase ∨ a - s.cfg.ramBase + bytes.length ≤ off → t.byteAt .ram off = s.byteAt .ram off) ∧
      t = { s with ram := t.ram }) ∧
    (¬ (s.cfg.romBase ≤ a ∧ hi ≤ s.cfg.romBase + s.cfg.romSize) →
      ¬ (s.cfg.ramBase ≤ a ∧ hi ≤ s.cfg.ramBase + s.cfg.ramSize) →
      s.loadImage base bytes = .error (.memoryOutOfBounds base))

/-- 10_state.md R27, 20_memory.md R83: the flags register and the packed page table entry, as the host sees them. -/
def Obligations.HostViews : Prop :=
  (∀ (s : State) (v : Word), s.activeRun = none →
    hostCall .readFlags s = (.word (flagsWord s.flags), s) ∧
    hostCall (.writeFlags v) s =
      (.ok, { s with flags := { n := v.getLsbD 31, z := v.getLsbD 30, c := v.getLsbD 29, v := v.getLsbD 28 } })) ∧
  (∀ fl : Flags, (flagsWord fl).toNat =
    fl.n.toNat * 2 ^ 31 + fl.z.toNat * 2 ^ 30 + fl.c.toNat * 2 ^ 29 + fl.v.toNat * 2 ^ 28) ∧
  (∀ s : State, s.packEntry none = 0#64) ∧
  ∀ (s : State) (e : Pte), e.loc.number < 2 ^ 24 → s.refOf e.loc < 2 ^ 32 →
    (s.packEntry (some e)).toNat = 1 + e.loc.onDisk.toNat * 2 + e.write.toNat * 4 + e.execute.toNat * 8 + e.kernel.toNat * 16 +
      e.cow.toNat * 32 + e.loc.number * 2 ^ 8 + s.refOf e.loc * 2 ^ 32
end

