-- ==== Sys2Proof/Laws/Assoc.lean ====
section
/-! SUPPORT. The laws of the sorted maps and of sorted insertion. -/

namespace Sys2Proof.Machine

variable {α : Type}

/-! ## Lookup -/

@[simp] theorem assocFind_nil (a : Nat) : assocFind ([] : List (Nat × α)) a = none := rfl

theorem assocFind_cons (k : Nat) (v : α) (m : List (Nat × α)) (a : Nat) :
    assocFind ((k, v) :: m) a = if k = a then some v else assocFind m a := rfl

theorem assocFind_append (m n : List (Nat × α)) (a : Nat) :
    assocFind (m ++ n) a = (assocFind m a).or (assocFind n a) := by
  induction m with
  | nil => simp
  | cons e m ih =>
    obtain ⟨k, v⟩ := e
    simp only [List.cons_append, assocFind_cons, ih]
    split <;> simp

theorem assocFind_filter (p : Nat → Bool) (m : List (Nat × α)) (a : Nat) :
    assocFind (m.filter fun e => p e.1) a = if p a then assocFind m a else none := by
  induction m with
  | nil => simp
  | cons e m ih =>
    obtain ⟨k, v⟩ := e
    by_cases hk : p k
    · rw [List.filter_cons_of_pos (by exact hk), assocFind_cons, ih, assocFind_cons]
      by_cases ha : k = a
      · subst ha; simp [hk]
      · simp [ha]
    · rw [List.filter_cons_of_neg (by exact hk), ih, assocFind_cons]
      by_cases ha : k = a
      · subst ha; simp [hk]
      · simp [ha]

/-- What a written key reads, and that no other key changes. -/
theorem assocFind_put (m : List (Nat × α)) (a : Nat) (v : α) (x : Nat) :
    assocFind (assocPut m a v) x = if x = a then some v else assocFind m x := by
  induction m with
  | nil => simp only [assocPut, assocFind_cons, assocFind_nil, eq_comm]
  | cons e m ih =>
    obtain ⟨k, w⟩ := e
    rw [assocPut]
    by_cases hx : x = a
    · subst hx
      split
      · simp [assocFind_cons]
      · split
        · simp [assocFind_cons]
        · next hk => simp [assocFind_cons, hk, ih]
    · have hax : ¬ a = x := fun h => hx h.symm
      split
      · simp [assocFind_cons, hax]
      · split
        · next hk => subst hk; simp [assocFind_cons, hax]
        · simp [assocFind_cons, hx, ih]

theorem assocFind_del (m : List (Nat × α)) (a x : Nat) :
    assocFind (assocDel m a) x = if x = a then none else assocFind m x := by
  rw [assocDel, assocFind_filter (fun k => k != a)]
  by_cases h : x = a <;> simp [h]

theorem assocFind_set [DecidableEq α] (dflt : α) (m : List (Nat × α)) (a : Nat) (v : α) (x : Nat) :
    (assocFind (assocSet dflt m a v) x).getD dflt = if x = a then v else (assocFind m x).getD dflt := by
  unfold assocSet
  split
  · next h => subst h; rw [assocFind_del]; split <;> simp
  · rw [assocFind_put]; split <;> simp

theorem assocFind_map (g : α → α) (m : List (Nat × α)) (a : Nat) :
    assocFind (assocMap g m) a = (assocFind m a).map g := by
  induction m with
  | nil => rfl
  | cons e m ih =>
    obtain ⟨k, v⟩ := e
    simp only [assocMap, List.map_cons, assocFind_cons] at ih ⊢
    rw [ih]; split <;> simp

/-! ## Membership -/

theorem mem_of_assocFind {m : List (Nat × α)} {a : Nat} {v : α} (h : assocFind m a = some v) : (a, v) ∈ m := by
  induction m with
  | nil => simp at h
  | cons e m ih =>
    obtain ⟨k, w⟩ := e
    rw [assocFind_cons] at h
    split at h
    · next hk => subst hk; simp_all
    · exact List.mem_cons_of_mem _ (ih h)

theorem assocFind_of_mem {m : List (Nat × α)} (hs : assocSorted m) {a : Nat} {v : α} (h : (a, v) ∈ m) :
    assocFind m a = some v := by
  induction m with
  | nil => simp at h
  | cons e m ih =>
    obtain ⟨k, w⟩ := e
    rw [assocFind_cons]
    rcases List.mem_cons.1 h with h | h
    · cases h; simp
    · have hlt := (List.pairwise_cons.1 hs).1 _ h
      rw [if_neg (by simp at hlt; omega)]
      exact ih (List.pairwise_cons.1 hs).2 h

theorem assocFind_eq_some_iff {m : List (Nat × α)} (hs : assocSorted m) (a : Nat) (v : α) :
    assocFind m a = some v ↔ (a, v) ∈ m := ⟨mem_of_assocFind, assocFind_of_mem hs⟩

theorem assocFind_eq_none_iff (m : List (Nat × α)) (a : Nat) : assocFind m a = none ↔ ∀ e ∈ m, e.1 ≠ a := by
  induction m with
  | nil => simp
  | cons e m ih =>
    obtain ⟨k, w⟩ := e
    rw [assocFind_cons]
    split
    · next h => simp [h]
    · next h => simp [h, ih]

theorem mem_assocPut {m : List (Nat × α)} {a : Nat} {v : α} {e : Nat × α} (h : e ∈ assocPut m a v) :
    e = (a, v) ∨ e ∈ m := by
  induction m with
  | nil => left; simpa [assocPut] using h
  | cons c m ih =>
    obtain ⟨k, w⟩ := c
    rw [assocPut] at h
    split at h
    · simpa using h
    · split at h
      · rcases List.mem_cons.1 h with h | h
        · exact .inl h
        · exact .inr (List.mem_cons_of_mem _ h)
      · rcases List.mem_cons.1 h with h | h
        · exact .inr (h ▸ List.mem_cons_self ..)
        · exact (ih h).imp_right (List.mem_cons_of_mem _)

theorem mem_assocDel {m : List (Nat × α)} {a : Nat} {e : Nat × α} : e ∈ assocDel m a ↔ e ∈ m ∧ e.1 ≠ a := by
  simp [assocDel]

theorem mem_assocMap {g : α → α} {m : List (Nat × α)} {e : Nat × α} :
    e ∈ assocMap g m ↔ ∃ v, (e.1, v) ∈ m ∧ e.2 = g v := by
  obtain ⟨k, x⟩ := e
  simp only [assocMap, List.mem_map, Prod.mk.injEq, Prod.exists]
  constructor
  · rintro ⟨a, b, h, rfl, rfl⟩; exact ⟨b, h, rfl⟩
  · rintro ⟨v, h, rfl⟩; exact ⟨k, v, h, rfl, rfl⟩

/-! ## The canonical form is kept -/

theorem assocPut_sorted {m : List (Nat × α)} (hs : assocSorted m) (a : Nat) (v : α) : assocSorted (assocPut m a v) := by
  induction m with
  | nil => simp [assocPut]
  | cons e m ih =>
    obtain ⟨k, w⟩ := e
    have hc := List.pairwise_cons.1 hs
    rw [assocPut]
    split
    · next hlt =>
      refine List.pairwise_cons.2 ⟨fun e he => ?_, hs⟩
      rcases List.mem_cons.1 he with he | he
      · subst he; exact hlt
      · exact lt_trans hlt (hc.1 e he)
    · split
      · next hk => subst hk; exact List.pairwise_cons.2 ⟨hc.1, hc.2⟩
      · refine List.pairwise_cons.2 ⟨fun e he => ?_, ih hc.2⟩
        rcases mem_assocPut he with he | he
        · subst he; simp only; omega
        · exact hc.1 e he

theorem assocDel_sorted {m : List (Nat × α)} (hs : assocSorted m) (a : Nat) : assocSorted (assocDel m a) := hs.filter _

theorem assocMap_sorted {m : List (Nat × α)} (hs : assocSorted m) (g : α → α) : assocSorted (assocMap g m) :=
  List.pairwise_map.2 hs

theorem assocSet_wf [DecidableEq α] {dflt : α} {m : List (Nat × α)} (h : assocWf dflt m) (a : Nat) (v : α) :
    assocWf dflt (assocSet dflt m a v) := by
  unfold assocSet
  split
  · exact ⟨assocDel_sorted h.1 a, fun e he => h.2 e (mem_assocDel.1 he).1⟩
  · next hv =>
    refine ⟨assocPut_sorted h.1 a v, fun e he => ?_⟩
    rcases mem_assocPut he with he | he
    · subst he; exact hv
    · exact h.2 e he

theorem assocSet_mem [DecidableEq α] {dflt : α} {m : List (Nat × α)} {a : Nat} {v : α} {e : Nat × α}
    (h : e ∈ assocSet dflt m a v) : e = (a, v) ∨ e ∈ m := by
  unfold assocSet at h
  split at h
  · exact .inr (mem_assocDel.1 h).1
  · exact mem_assocPut h

/-- Two sorted maps that read alike are the same data. -/
theorem assocSorted_ext {m n : List (Nat × α)} (hm : assocSorted m) (hn : assocSorted n)
    (h : ∀ a, assocFind m a = assocFind n a) : m = n := by
  induction m generalizing n with
  | nil =>
    cases n with
    | nil => rfl
    | cons e n => obtain ⟨k, v⟩ := e; simpa [assocFind_cons] using h k
  | cons e m ih =>
    obtain ⟨k, v⟩ := e
    cases n with
    | nil => simpa [assocFind_cons] using h k
    | cons e' n =>
      obtain ⟨k', v'⟩ := e'
      have cm := List.pairwise_cons.1 hm
      have cn := List.pairwise_cons.1 hn
      have e1 : (k, v) ∈ (k', v') :: n := mem_of_assocFind (by rw [← h k]; simp [assocFind_cons])
      have e2 : (k', v') ∈ (k, v) :: m := mem_of_assocFind (by rw [h k']; simp [assocFind_cons])
      have hkk : (k, v) = (k', v') := by
        rcases List.mem_cons.1 e1 with e1 | e1
        · exact e1
        · rcases List.mem_cons.1 e2 with e2 | e2
          · exact e2.symm
          · have := cn.1 _ e1; have := cm.1 _ e2; simp at *; omega
      cases hkk
      rw [ih cm.2 cn.2 fun a => ?_]
      have := h a
      simp only [assocFind_cons] at this
      split at this
      · next hk =>
        subst hk
        rw [(assocFind_eq_none_iff m k).2 fun e he => ?_, (assocFind_eq_none_iff n k).2 fun e he => ?_]
        · have := cn.1 e he; simp at this; omega
        · have := cm.1 e he; simp at this; omega
      · exact this

/-- Counting the entries of a map after a write, in a sorted map. -/
theorem countP_assocPut (p : Nat × α → Bool) {m : List (Nat × α)} (hs : assocSorted m) (a : Nat) (v : α) :
    (assocPut m a v).countP p + (match assocFind m a with | some w => if p (a, w) then 1 else 0 | none => 0) =
      m.countP p + if p (a, v) then 1 else 0 := by
  induction m with
  | nil => simp [assocPut, List.countP_cons]
  | cons e m ih =>
    obtain ⟨k, w⟩ := e
    have hc := List.pairwise_cons.1 hs
    rw [assocPut]
    split
    · next hlt =>
      rw [(assocFind_eq_none_iff ((k, w) :: m) a).2 fun e he => ?_]
      · simp [List.countP_cons]
      · rcases List.mem_cons.1 he with he | he
        · subst he; simp only; omega
        · have := hc.1 e he; simp at this; omega
    · split
      · next hk => subst hk; simp only [assocFind_cons, List.countP_cons, if_true]; omega
      · next hk =>
        have := ih hc.2
        simp only [assocFind_cons, hk, if_false, List.countP_cons]
        omega

theorem countP_assocDel (p : Nat × α → Bool) {m : List (Nat × α)} (hs : assocSorted m) (a : Nat) :
    (assocDel m a).countP p + (match assocFind m a with | some w => if p (a, w) then 1 else 0 | none => 0) = m.countP p := by
  induction m with
  | nil => simp [assocDel]
  | cons e m ih =>
    obtain ⟨k, w⟩ := e
    have hc := List.pairwise_cons.1 hs
    by_cases hk : k = a
    · subst hk
      have hd : assocDel ((k, w) :: m) k = m := by
        simp only [assocDel, bne_self_eq_false, Bool.false_eq_true, not_false_eq_true, List.filter_cons_of_neg]
        refine List.filter_eq_self.2 fun e he => ?_
        have := hc.1 e he; simp at this ⊢; omega
      rw [hd]; simp [assocFind_cons, List.countP_cons]
    · have hd : assocDel ((k, w) :: m) a = (k, w) :: assocDel m a := by simp [assocDel, hk]
      have := ih hc.2
      rw [hd]; simp only [assocFind_cons, hk, if_false, List.countP_cons]; omega

/-! ## Rising lists of numbers -/

theorem mem_sortedInsert {m : List Nat} {n x : Nat} : x ∈ sortedInsert m n ↔ x = n ∨ x ∈ m := by
  induction m with
  | nil => simp [sortedInsert]
  | cons k m ih =>
    rw [sortedInsert]
    split
    · simp
    · split
      · next h => subst h; simp
      · simp only [List.mem_cons, ih]; tauto

theorem sortedInsert_pairwise {m : List Nat} (h : m.Pairwise (· < ·)) (n : Nat) :
    (sortedInsert m n).Pairwise (· < ·) := by
  induction m with
  | nil => simp [sortedInsert]
  | cons k m ih =>
    have hc := List.pairwise_cons.1 h
    rw [sortedInsert]
    split
    · next hlt =>
      refine List.pairwise_cons.2 ⟨fun x hx => ?_, h⟩
      rcases List.mem_cons.1 hx with hx | hx
      · omega
      · have := hc.1 x hx; omega
    · split
      · exact h
      · refine List.pairwise_cons.2 ⟨fun x hx => ?_, ih hc.2⟩
        rcases mem_sortedInsert.1 hx with hx | hx
        · omega
        · exact hc.1 x hx

end Sys2Proof.Machine
end

