-- ==== Sys2Proof/Laws/Memory.lean ====
section
/-! SUPPORT. The laws of memories: what every operation makes each byte read, and that it keeps the canonical form. -/

namespace Sys2Proof.Machine

/-! ## Reading -/

/-- A byte reads what was last written to it, and no other byte changes. -/
theorem Memory.read_write (m : Memory) (a : Nat) (b : Byte) (x : Nat) :
    (m.write a b).read x = if x = a then b else m.read x := assocFind_set _ _ _ _ _

@[simp] theorem Memory.read_nil (x : Nat) : Memory.read [] x = unlistedByte := rfl

theorem Memory.read_slice (m : Memory) (lo len x : Nat) :
    (m.slice lo len).read x = if lo ≤ x ∧ x < lo + len then m.read x else unlistedByte := by
  have := assocFind_filter (fun k => decide (lo ≤ k) && decide (k < lo + len)) m x
  simp only [Bool.and_eq_true, decide_eq_true_eq] at this
  rw [Memory.slice, Memory.read, this]
  split <;> rfl

theorem Memory.read_splice {m : Memory} {lo len : Nat} {cells : Memory}
    (h : ∀ c ∈ cells, lo ≤ c.1 ∧ c.1 < lo + len) (x : Nat) :
    (m.splice lo len cells).read x = if lo ≤ x ∧ x < lo + len then cells.read x else m.read x := by
  have h1 := assocFind_filter (fun k => decide (k < lo)) m x
  have h2 := assocFind_filter (fun k => decide (lo + len ≤ k)) m x
  simp only [decide_eq_true_eq] at h1 h2
  rw [Memory.splice, Memory.read, assocFind_append, assocFind_append, h1, h2]
  by_cases hx : lo ≤ x ∧ x < lo + len
  · rw [if_neg (by omega), if_neg (by omega), if_pos hx]; simp [Memory.read]
  · have : assocFind cells x = none := (assocFind_eq_none_iff cells x).2 fun c hc hcx => hx (hcx ▸ h c hc)
    rw [if_neg hx, this]
    by_cases hlo : x < lo
    · rw [if_pos hlo, if_neg (by omega)]; simp [Memory.read]
    · rw [if_neg hlo, if_pos (by omega)]; simp [Memory.read]

theorem Memory.mem_slice {m : Memory} {lo len : Nat} {c : Host.Cell} (h : c ∈ m.slice lo len) :
    c ∈ m ∧ lo ≤ c.1 ∧ c.1 < lo + len := by
  simpa [Memory.slice] using h

theorem Memory.find_shift (m : Memory) (a b : Nat) (h : ∀ c ∈ m, a ≤ c.1) (x : Nat) (hx : b ≤ x) :
    assocFind (m.map fun c => (c.1 - a + b, c.2)) x = assocFind m (x - b + a) := by
  induction m with
  | nil => rfl
  | cons c m ih =>
    obtain ⟨k, v⟩ := c
    have hk : a ≤ k := h (k, v) (List.mem_cons_self ..)
    rw [List.map_cons, assocFind_cons, assocFind_cons, ih fun c hc => h c (List.mem_cons_of_mem _ hc)]
    by_cases e : k = x - b + a
    · rw [if_pos e, if_pos (by omega)]
    · rw [if_neg e, if_neg (by omega)]

/-- A copied byte reads what the source byte read, and no other byte changes (20_memory.md R91, R92, R98). -/
theorem Memory.read_copy (dst : Memory) (lo len : Nat) (src : Memory) (srcLo x : Nat) :
    (dst.copy lo len src srcLo).read x = if lo ≤ x ∧ x < lo + len then src.read (x - lo + srcLo) else dst.read x := by
  rw [Memory.copy, Memory.read_splice]
  · by_cases hx : lo ≤ x ∧ x < lo + len
    · rw [if_pos hx, if_pos hx, Memory.read, Memory.find_shift _ _ _ (fun c hc => (Memory.mem_slice hc).2.1) _ hx.1]
      change (src.slice srcLo len).read _ = _
      rw [Memory.read_slice, if_pos (by omega)]
    · rw [if_neg hx, if_neg hx]
  · intro c hc
    obtain ⟨d, hd, rfl⟩ := List.mem_map.1 hc
    have := (Memory.mem_slice hd).2
    simp only; omega

theorem Memory.read_clear (m : Memory) (lo len x : Nat) :
    (m.clear lo len).read x = if lo ≤ x ∧ x < lo + len then unlistedByte else m.read x := by
  rw [Memory.clear, Memory.read_splice (by simp)]; rfl

theorem mem_cellsOf {lo len : Nat} {g : Nat → Byte} {c : Host.Cell} :
    c ∈ cellsOf lo len g ↔ ∃ i < len, c = (lo + i, g i) ∧ g i ≠ unlistedByte := by
  simp only [cellsOf, List.mem_filterMap, List.mem_range]
  constructor
  · rintro ⟨i, hi, h⟩
    split at h
    · cases h
    · next hg => cases h; exact ⟨i, hi, rfl, hg⟩
  · rintro ⟨i, hi, rfl, hg⟩; exact ⟨i, hi, by simp [hg]⟩

theorem cellsOf_wf (lo len : Nat) (g : Nat → Byte) : Memory.wf (cellsOf lo len g) := by
  refine ⟨List.Pairwise.filterMap (R := (· < ·)) _ ?_ List.pairwise_lt_range, fun c hc => ?_⟩
  · intro i j hij c hc d hd
    simp only [Option.ite_none_left_eq_some, Option.some.injEq] at hc hd
    obtain ⟨-, rfl⟩ := hc; obtain ⟨-, rfl⟩ := hd
    simp only; omega
  · obtain ⟨i, -, rfl, hg⟩ := mem_cellsOf.1 hc; exact hg

theorem read_cellsOf (lo len : Nat) (g : Nat → Byte) (x : Nat) (h : lo ≤ x ∧ x < lo + len) :
    Memory.read (cellsOf lo len g) x = g (x - lo) := by
  by_cases hg : g (x - lo) = unlistedByte
  · rw [Memory.read, (assocFind_eq_none_iff _ x).2 fun c hc hcx => ?_, hg]; · rfl
    obtain ⟨i, -, rfl, hgi⟩ := mem_cellsOf.1 hc
    exact hgi (by rw [← hg, ← hcx]; simp)
  · have e := assocFind_of_mem (cellsOf_wf lo len g).1 (mem_cellsOf.2 ⟨x - lo, by omega, rfl, hg⟩)
    rw [show lo + (x - lo) = x by omega] at e
    rw [Memory.read, e]; rfl

theorem Memory.read_fill (m : Memory) (lo len : Nat) (g : Nat → Byte) (x : Nat) :
    (m.fill lo len g).read x = if lo ≤ x ∧ x < lo + len then g (x - lo) else m.read x := by
  rw [Memory.fill, Memory.read_splice]
  · split
    · next h => exact read_cellsOf lo len g x h
    · rfl
  · intro c hc; obtain ⟨i, hi, rfl, -⟩ := mem_cellsOf.1 hc; simp only; omega

theorem Memory.read_writeMany_notMem (m : Memory) (offs : List Nat) (bs : List Byte) (x : Nat) (h : x ∉ offs) :
    (m.writeMany offs bs).read x = m.read x := by
  induction offs generalizing m bs with
  | nil => cases bs <;> rfl
  | cons o offs ih =>
    cases bs with
    | nil => rfl
    | cons b bs =>
      rw [Memory.writeMany, ih _ _ (fun hx => h (List.mem_cons_of_mem _ hx)), Memory.read_write,
        if_neg (fun hx => h (by rw [hx]; exact List.mem_cons_self ..))]

/-- Distinct offsets read back what was written to them. -/
theorem Memory.readMany_writeMany (m : Memory) (offs : List Nat) (bs : List Byte) (hn : offs.Nodup)
    (hl : bs.length = offs.length) : (m.writeMany offs bs).readMany offs = bs := by
  induction offs generalizing m bs with
  | nil => cases bs <;> simp_all [Memory.readMany]
  | cons o offs ih =>
    cases bs with
    | nil => simp at hl
    | cons b bs =>
      have hc := List.nodup_cons.1 hn
      have := ih (m.write o b) bs hc.2 (by simpa using hl)
      simp only [Memory.readMany, List.map_cons, Memory.writeMany] at this ⊢
      rw [this, Memory.read_writeMany_notMem _ _ _ _ hc.1, Memory.read_write, if_pos rfl]

/-! ## The canonical form is kept -/

theorem Memory.write_wf {m : Memory} (h : m.wf) (a : Nat) (b : Byte) : (m.write a b).wf := assocSet_wf h a b

theorem Memory.write_inside {m : Memory} {size : Nat} (h : m.inside size) {a : Nat} (ha : a < size) (b : Byte) :
    (m.write a b).inside size := fun c hc => by
  rcases assocSet_mem hc with rfl | hc
  · exact ha
  · exact h c hc

theorem Memory.writeMany_wf {m : Memory} (h : m.wf) (offs : List Nat) (bs : List Byte) : (m.writeMany offs bs).wf := by
  induction offs generalizing m bs with
  | nil => cases bs <;> exact h
  | cons o offs ih =>
    cases bs with
    | nil => exact h
    | cons b bs => exact ih (Memory.write_wf h o b) bs

theorem Memory.writeMany_inside {m : Memory} {size : Nat} (h : m.inside size) {offs : List Nat}
    (ho : ∀ o ∈ offs, o < size) (bs : List Byte) : (m.writeMany offs bs).inside size := by
  induction offs generalizing m bs with
  | nil => cases bs <;> exact h
  | cons o offs ih =>
    cases bs with
    | nil => exact h
    | cons b bs =>
      exact ih (Memory.write_inside h (ho o (List.mem_cons_self ..)) b) (fun x hx => ho x (List.mem_cons_of_mem _ hx)) bs

theorem Memory.load_wf {m : Memory} (h : m.wf) (lo : Nat) (bs : List Byte) : (m.load lo bs).wf :=
  Memory.writeMany_wf h _ _

theorem Memory.splice_wf {m : Memory} (h : m.wf) {lo len : Nat} {cells : Memory} (hc : cells.wf)
    (hr : ∀ c ∈ cells, lo ≤ c.1 ∧ c.1 < lo + len) : (m.splice lo len cells).wf := by
  have hlo : ∀ c ∈ m.filter (fun c => decide (c.1 < lo)), c ∈ m ∧ c.1 < lo := fun c hc => by simpa using hc
  have hhi : ∀ c ∈ m.filter (fun c => decide (lo + len ≤ c.1)), c ∈ m ∧ lo + len ≤ c.1 := fun c hc => by simpa using hc
  constructor
  · refine List.pairwise_append.2 ⟨List.pairwise_append.2 ⟨h.1.filter _, hc.1, fun a ha b hb => ?_⟩, h.1.filter _,
      fun a ha b hb => ?_⟩
    · have := hlo a ha; have := hr b hb; omega
    · have := hhi b hb
      rcases List.mem_append.1 ha with ha | ha
      · have := hlo a ha; omega
      · have := hr a ha; omega
  · intro c hm
    rcases List.mem_append.1 hm with hm | hm
    · rcases List.mem_append.1 hm with hm | hm
      · exact h.2 c (hlo c hm).1
      · exact hc.2 c hm
    · exact h.2 c (hhi c hm).1

theorem Memory.splice_inside {m : Memory} {size : Nat} (h : m.inside size) {lo len : Nat} {cells : Memory}
    (hc : cells.inside size) : (m.splice lo len cells).inside size := by
  intro c hm
  rcases List.mem_append.1 hm with hm | hm
  · rcases List.mem_append.1 hm with hm | hm
    · exact h c (List.mem_filter.1 hm).1
    · exact hc c hm
  · exact h c (List.mem_filter.1 hm).1

theorem Memory.shift_wf {m : Memory} (h : m.wf) {a : Nat} (b : Nat) (ha : ∀ c ∈ m, a ≤ c.1) :
    Memory.wf (m.map fun c => (c.1 - a + b, c.2)) := by
  constructor
  · refine List.pairwise_map.2 (h.1.imp_of_mem fun {x y} hx hy hlt => ?_)
    have := ha x hx; have := ha y hy; simp only; omega
  · intro c hc
    obtain ⟨d, hd, rfl⟩ := List.mem_map.1 hc
    exact h.2 d hd

theorem Memory.copied_range {src : Memory} {srcLo len lo : Nat} :
    ∀ c ∈ (src.slice srcLo len).map (fun c => (c.1 - srcLo + lo, c.2)), lo ≤ c.1 ∧ c.1 < lo + len := by
  intro c hc
  obtain ⟨d, hd, rfl⟩ := List.mem_map.1 hc
  have := (Memory.mem_slice hd).2
  simp only; omega

theorem Memory.copy_wf {dst src : Memory} (h : dst.wf) (hs : src.wf) (lo len srcLo : Nat) :
    (dst.copy lo len src srcLo).wf := by
  refine Memory.splice_wf h (Memory.shift_wf ?_ lo fun c hc => (Memory.mem_slice hc).2.1) Memory.copied_range
  exact ⟨hs.1.filter _, fun c hc => hs.2 c (Memory.mem_slice hc).1⟩

theorem Memory.copy_inside {dst src : Memory} {size : Nat} (h : dst.inside size) {lo len : Nat} (hr : lo + len ≤ size)
    (srcLo : Nat) : (dst.copy lo len src srcLo).inside size :=
  Memory.splice_inside h fun c hc => by have := Memory.copied_range c hc; omega

theorem Memory.clear_wf {m : Memory} (h : m.wf) (lo len : Nat) : (m.clear lo len).wf :=
  Memory.splice_wf h ⟨.nil, by simp⟩ (by simp)

theorem Memory.clear_inside {m : Memory} {size : Nat} (h : m.inside size) (lo len : Nat) : (m.clear lo len).inside size :=
  Memory.splice_inside h (by simp)

theorem Memory.fill_wf {m : Memory} (h : m.wf) (lo len : Nat) (g : Nat → Byte) : (m.fill lo len g).wf :=
  Memory.splice_wf h (cellsOf_wf lo len g) fun c hc => by
    obtain ⟨i, hi, rfl, -⟩ := mem_cellsOf.1 hc; simp only; omega

theorem Memory.fill_inside {m : Memory} {size : Nat} (h : m.inside size) {lo len : Nat} (hr : lo + len ≤ size)
    (g : Nat → Byte) : (m.fill lo len g).inside size :=
  Memory.splice_inside h fun c hc => by
    obtain ⟨i, hi, rfl, -⟩ := mem_cellsOf.1 hc; simp only; omega

/-- Two memories in canonical form that read alike are the same data. -/
theorem Memory.ext {m n : Memory} (hm : m.wf) (hn : n.wf) (h : ∀ x, m.read x = n.read x) : m = n := by
  refine assocSorted_ext hm.1 hn.1 fun a => ?_
  have := h a
  unfold Memory.read at this
  cases e1 : assocFind m a with
  | none =>
    cases e2 : assocFind n a with
    | none => rfl
    | some b => rw [e1, e2] at this; exact absurd this.symm (hn.2 _ (mem_of_assocFind e2))
  | some b =>
    cases e2 : assocFind n a with
    | none => rw [e1, e2] at this; exact absurd this (hm.2 _ (mem_of_assocFind e1))
    | some c => rw [e1, e2] at this; exact congrArg some this

/-! ## Words and bytes -/

@[simp] theorem length_leBytes (n : Nat) (v : Word) : (leBytes n v).length = n := by simp [leBytes]

/-- Byte `i` of a word that is read little-endian (20_memory.md R65). -/
theorem leWord_leBytes_word (v : Word) : leWord (leBytes 4 v) = v := by
  simp only [leBytes, List.range_succ, List.range_zero, List.nil_append, List.map_cons, List.map_nil,
    List.cons_append, leWord]
  ext i hi
  simp only [BitVec.getElem_or, BitVec.getElem_shiftLeft, BitVec.getElem_setWidth, BitVec.getLsbD_extractLsb']
  interval_cases i <;> simp

theorem leWord_leBytes_half (v : Word) : leWord (leBytes 2 v) = v &&& 0xFFFF#32 := by
  simp only [leBytes, List.range_succ, List.range_zero, List.nil_append, List.map_cons, List.map_nil,
    List.cons_append, leWord]
  ext i hi
  interval_cases i <;> simp

theorem leWord_leBytes_byte (v : Word) : leWord (leBytes 1 v) = v &&& 0xFF#32 := by
  simp only [leBytes, List.range_succ, List.range_zero, List.nil_append, List.map_cons, List.map_nil,
    leWord]
  ext i hi
  interval_cases i <;> simp

end Sys2Proof.Machine
end

