-- ==== Sys2Proof/Laws/State.lean ====
section
/-! SUPPORT. What each update of the state leaves as it was and what it writes: one lemma per field per update. -/

namespace Sys2Proof.Machine

/-! ## `State.setReg` -/

@[simp] theorem State.setReg_cfg (s : State) (r : Reg) (v : Word) : (s.setReg r v).cfg = s.cfg := rfl
@[simp] theorem State.setReg_regs (s : State) (r : Reg) (v : Word) : (s.setReg r v).regs = s.regs.set r.toNat v := rfl
@[simp] theorem State.setReg_pc (s : State) (r : Reg) (v : Word) : (s.setReg r v).pc = s.pc := rfl
@[simp] theorem State.setReg_flags (s : State) (r : Reg) (v : Word) : (s.setReg r v).flags = s.flags := rfl
@[simp] theorem State.setReg_execState (s : State) (r : Reg) (v : Word) : (s.setReg r v).execState = s.execState := rfl
@[simp] theorem State.setReg_cycles (s : State) (r : Reg) (v : Word) : (s.setReg r v).cycles = s.cycles := rfl
@[simp] theorem State.setReg_lastResult (s : State) (r : Reg) (v : Word) : (s.setReg r v).lastResult = s.lastResult := rfl
@[simp] theorem State.setReg_activeRun (s : State) (r : Reg) (v : Word) : (s.setReg r v).activeRun = s.activeRun := rfl
@[simp] theorem State.setReg_rom (s : State) (r : Reg) (v : Word) : (s.setReg r v).rom = s.rom := rfl
@[simp] theorem State.setReg_ram (s : State) (r : Reg) (v : Word) : (s.setReg r v).ram = s.ram := rfl
@[simp] theorem State.setReg_disk (s : State) (r : Reg) (v : Word) : (s.setReg r v).disk = s.disk := rfl
@[simp] theorem State.setReg_userFree (s : State) (r : Reg) (v : Word) : (s.setReg r v).userFree = s.userFree := rfl
@[simp] theorem State.setReg_kernelFree (s : State) (r : Reg) (v : Word) : (s.setReg r v).kernelFree = s.kernelFree := rfl
@[simp] theorem State.setReg_diskFree (s : State) (r : Reg) (v : Word) : (s.setReg r v).diskFree = s.diskFree := rfl
@[simp] theorem State.setReg_frameRef (s : State) (r : Reg) (v : Word) : (s.setReg r v).frameRef = s.frameRef := rfl
@[simp] theorem State.setReg_diskRef (s : State) (r : Reg) (v : Word) : (s.setReg r v).diskRef = s.diskRef := rfl
@[simp] theorem State.setReg_procs (s : State) (r : Reg) (v : Word) : (s.setReg r v).procs = s.procs := rfl
@[simp] theorem State.setReg_current (s : State) (r : Reg) (v : Word) : (s.setReg r v).current = s.current := rfl
@[simp] theorem State.setReg_nextPid (s : State) (r : Reg) (v : Word) : (s.setReg r v).nextPid = s.nextPid := rfl
@[simp] theorem State.setReg_freeDraws (s : State) (r : Reg) (v : Word) : (s.setReg r v).freeDraws = s.freeDraws := rfl
@[simp] theorem State.setReg_executed (s : State) (r : Reg) (v : Word) : (s.setReg r v).executed = s.executed := rfl
@[simp] theorem State.setReg_byteAt (s : State) (r : Reg) (v : Word) (dev : Device) (o : Nat) : (s.setReg r v).byteAt dev o = s.byteAt dev o :=
    by cases dev <;> rfl

/-! ## `State.setFlags` -/

@[simp] theorem State.setFlags_cfg (s : State) (fl : Flags) : (s.setFlags fl).cfg = s.cfg := rfl
@[simp] theorem State.setFlags_regs (s : State) (fl : Flags) : (s.setFlags fl).regs = s.regs := rfl
@[simp] theorem State.setFlags_pc (s : State) (fl : Flags) : (s.setFlags fl).pc = s.pc := rfl
@[simp] theorem State.setFlags_flags (s : State) (fl : Flags) : (s.setFlags fl).flags = fl := rfl
@[simp] theorem State.setFlags_execState (s : State) (fl : Flags) : (s.setFlags fl).execState = s.execState := rfl
@[simp] theorem State.setFlags_cycles (s : State) (fl : Flags) : (s.setFlags fl).cycles = s.cycles := rfl
@[simp] theorem State.setFlags_lastResult (s : State) (fl : Flags) : (s.setFlags fl).lastResult = s.lastResult := rfl
@[simp] theorem State.setFlags_activeRun (s : State) (fl : Flags) : (s.setFlags fl).activeRun = s.activeRun := rfl
@[simp] theorem State.setFlags_rom (s : State) (fl : Flags) : (s.setFlags fl).rom = s.rom := rfl
@[simp] theorem State.setFlags_ram (s : State) (fl : Flags) : (s.setFlags fl).ram = s.ram := rfl
@[simp] theorem State.setFlags_disk (s : State) (fl : Flags) : (s.setFlags fl).disk = s.disk := rfl
@[simp] theorem State.setFlags_userFree (s : State) (fl : Flags) : (s.setFlags fl).userFree = s.userFree := rfl
@[simp] theorem State.setFlags_kernelFree (s : State) (fl : Flags) : (s.setFlags fl).kernelFree = s.kernelFree := rfl
@[simp] theorem State.setFlags_diskFree (s : State) (fl : Flags) : (s.setFlags fl).diskFree = s.diskFree := rfl
@[simp] theorem State.setFlags_frameRef (s : State) (fl : Flags) : (s.setFlags fl).frameRef = s.frameRef := rfl
@[simp] theorem State.setFlags_diskRef (s : State) (fl : Flags) : (s.setFlags fl).diskRef = s.diskRef := rfl
@[simp] theorem State.setFlags_procs (s : State) (fl : Flags) : (s.setFlags fl).procs = s.procs := rfl
@[simp] theorem State.setFlags_current (s : State) (fl : Flags) : (s.setFlags fl).current = s.current := rfl
@[simp] theorem State.setFlags_nextPid (s : State) (fl : Flags) : (s.setFlags fl).nextPid = s.nextPid := rfl
@[simp] theorem State.setFlags_freeDraws (s : State) (fl : Flags) : (s.setFlags fl).freeDraws = s.freeDraws := rfl
@[simp] theorem State.setFlags_reg (s : State) (fl : Flags) (x : Reg) : (s.setFlags fl).reg x = s.reg x := rfl
@[simp] theorem State.setFlags_executed (s : State) (fl : Flags) : (s.setFlags fl).executed = s.executed := rfl
@[simp] theorem State.setFlags_byteAt (s : State) (fl : Flags) (dev : Device) (o : Nat) : (s.setFlags fl).byteAt dev o = s.byteAt dev o :=
    by cases dev <;> rfl

/-! ## `State.retire` -/

@[simp] theorem State.retire_cfg (s : State) (op : Opcode) : (s.retire op).cfg = s.cfg := rfl
@[simp] theorem State.retire_regs (s : State) (op : Opcode) : (s.retire op).regs = s.regs := rfl
@[simp] theorem State.retire_pc (s : State) (op : Opcode) : (s.retire op).pc = s.pc := rfl
@[simp] theorem State.retire_flags (s : State) (op : Opcode) : (s.retire op).flags = s.flags := rfl
@[simp] theorem State.retire_execState (s : State) (op : Opcode) : (s.retire op).execState = s.execState := rfl
@[simp] theorem State.retire_cycles (s : State) (op : Opcode) : (s.retire op).cycles = s.cycles + BitVec.ofNat 64 (s.cfg.cost op) :=
    rfl
@[simp] theorem State.retire_lastResult (s : State) (op : Opcode) : (s.retire op).lastResult = s.lastResult := rfl
@[simp] theorem State.retire_activeRun (s : State) (op : Opcode) : (s.retire op).activeRun = some (s.executed + 1) := rfl
@[simp] theorem State.retire_rom (s : State) (op : Opcode) : (s.retire op).rom = s.rom := rfl
@[simp] theorem State.retire_ram (s : State) (op : Opcode) : (s.retire op).ram = s.ram := rfl
@[simp] theorem State.retire_disk (s : State) (op : Opcode) : (s.retire op).disk = s.disk := rfl
@[simp] theorem State.retire_userFree (s : State) (op : Opcode) : (s.retire op).userFree = s.userFree := rfl
@[simp] theorem State.retire_kernelFree (s : State) (op : Opcode) : (s.retire op).kernelFree = s.kernelFree := rfl
@[simp] theorem State.retire_diskFree (s : State) (op : Opcode) : (s.retire op).diskFree = s.diskFree := rfl
@[simp] theorem State.retire_frameRef (s : State) (op : Opcode) : (s.retire op).frameRef = s.frameRef := rfl
@[simp] theorem State.retire_diskRef (s : State) (op : Opcode) : (s.retire op).diskRef = s.diskRef := rfl
@[simp] theorem State.retire_procs (s : State) (op : Opcode) : (s.retire op).procs = s.procs := rfl
@[simp] theorem State.retire_current (s : State) (op : Opcode) : (s.retire op).current = s.current := rfl
@[simp] theorem State.retire_nextPid (s : State) (op : Opcode) : (s.retire op).nextPid = s.nextPid := rfl
@[simp] theorem State.retire_freeDraws (s : State) (op : Opcode) : (s.retire op).freeDraws = s.freeDraws := rfl
@[simp] theorem State.retire_reg (s : State) (op : Opcode) (x : Reg) : (s.retire op).reg x = s.reg x := rfl
@[simp] theorem State.retire_byteAt (s : State) (op : Opcode) (dev : Device) (o : Nat) : (s.retire op).byteAt dev o = s.byteAt dev o :=
    by cases dev <;> rfl

/-! ## `State.redirect` -/

@[simp] theorem State.redirect_cfg (s : State) (i : Instr) (target : Word) : (s.redirect i target).cfg = s.cfg := rfl
@[simp] theorem State.redirect_regs (s : State) (i : Instr) (target : Word) : (s.redirect i target).regs = s.regs := rfl
@[simp] theorem State.redirect_pc (s : State) (i : Instr) (target : Word) : (s.redirect i target).pc = target := rfl
@[simp] theorem State.redirect_flags (s : State) (i : Instr) (target : Word) : (s.redirect i target).flags = s.flags := rfl
@[simp] theorem State.redirect_execState (s : State) (i : Instr) (target : Word) : (s.redirect i target).execState = s.execState :=
    rfl
@[simp] theorem State.redirect_cycles (s : State) (i : Instr) (target : Word) : (s.redirect i target).cycles = s.cycles + BitVec.ofNat 64 (s.cfg.cost i.opcode) :=
    rfl
@[simp] theorem State.redirect_lastResult (s : State) (i : Instr) (target : Word) : (s.redirect i target).lastResult = s.lastResult :=
    rfl
@[simp] theorem State.redirect_activeRun (s : State) (i : Instr) (target : Word) : (s.redirect i target).activeRun = some (s.executed + 1) :=
    rfl
@[simp] theorem State.redirect_rom (s : State) (i : Instr) (target : Word) : (s.redirect i target).rom = s.rom := rfl
@[simp] theorem State.redirect_ram (s : State) (i : Instr) (target : Word) : (s.redirect i target).ram = s.ram := rfl
@[simp] theorem State.redirect_disk (s : State) (i : Instr) (target : Word) : (s.redirect i target).disk = s.disk := rfl
@[simp] theorem State.redirect_userFree (s : State) (i : Instr) (target : Word) : (s.redirect i target).userFree = s.userFree :=
    rfl
@[simp] theorem State.redirect_kernelFree (s : State) (i : Instr) (target : Word) : (s.redirect i target).kernelFree = s.kernelFree :=
    rfl
@[simp] theorem State.redirect_diskFree (s : State) (i : Instr) (target : Word) : (s.redirect i target).diskFree = s.diskFree :=
    rfl
@[simp] theorem State.redirect_frameRef (s : State) (i : Instr) (target : Word) : (s.redirect i target).frameRef = s.frameRef :=
    rfl
@[simp] theorem State.redirect_diskRef (s : State) (i : Instr) (target : Word) : (s.redirect i target).diskRef = s.diskRef := rfl
@[simp] theorem State.redirect_procs (s : State) (i : Instr) (target : Word) : (s.redirect i target).procs = s.procs := rfl
@[simp] theorem State.redirect_current (s : State) (i : Instr) (target : Word) : (s.redirect i target).current = s.current := rfl
@[simp] theorem State.redirect_nextPid (s : State) (i : Instr) (target : Word) : (s.redirect i target).nextPid = s.nextPid := rfl
@[simp] theorem State.redirect_freeDraws (s : State) (i : Instr) (target : Word) : (s.redirect i target).freeDraws = s.freeDraws :=
    rfl
@[simp] theorem State.redirect_reg (s : State) (i : Instr) (target : Word) (x : Reg) : (s.redirect i target).reg x = s.reg x :=
    rfl
@[simp] theorem State.redirect_byteAt (s : State) (i : Instr) (target : Word) (dev : Device) (o : Nat) : (s.redirect i target).byteAt dev o = s.byteAt dev o :=
    by cases dev <;> rfl

/-! ## `State.advance` -/

@[simp] theorem State.advance_cfg (s : State) (i : Instr) : (s.advance i).cfg = s.cfg := rfl
@[simp] theorem State.advance_regs (s : State) (i : Instr) : (s.advance i).regs = s.regs := rfl
@[simp] theorem State.advance_pc (s : State) (i : Instr) : (s.advance i).pc = s.pc + 4#32 := rfl
@[simp] theorem State.advance_flags (s : State) (i : Instr) : (s.advance i).flags = s.flags := rfl
@[simp] theorem State.advance_execState (s : State) (i : Instr) : (s.advance i).execState = s.execState := rfl
@[simp] theorem State.advance_cycles (s : State) (i : Instr) : (s.advance i).cycles = s.cycles + BitVec.ofNat 64 (s.cfg.cost i.opcode) :=
    rfl
@[simp] theorem State.advance_lastResult (s : State) (i : Instr) : (s.advance i).lastResult = s.lastResult := rfl
@[simp] theorem State.advance_activeRun (s : State) (i : Instr) : (s.advance i).activeRun = some (s.executed + 1) := rfl
@[simp] theorem State.advance_rom (s : State) (i : Instr) : (s.advance i).rom = s.rom := rfl
@[simp] theorem State.advance_ram (s : State) (i : Instr) : (s.advance i).ram = s.ram := rfl
@[simp] theorem State.advance_disk (s : State) (i : Instr) : (s.advance i).disk = s.disk := rfl
@[simp] theorem State.advance_userFree (s : State) (i : Instr) : (s.advance i).userFree = s.userFree := rfl
@[simp] theorem State.advance_kernelFree (s : State) (i : Instr) : (s.advance i).kernelFree = s.kernelFree := rfl
@[simp] theorem State.advance_diskFree (s : State) (i : Instr) : (s.advance i).diskFree = s.diskFree := rfl
@[simp] theorem State.advance_frameRef (s : State) (i : Instr) : (s.advance i).frameRef = s.frameRef := rfl
@[simp] theorem State.advance_diskRef (s : State) (i : Instr) : (s.advance i).diskRef = s.diskRef := rfl
@[simp] theorem State.advance_procs (s : State) (i : Instr) : (s.advance i).procs = s.procs := rfl
@[simp] theorem State.advance_current (s : State) (i : Instr) : (s.advance i).current = s.current := rfl
@[simp] theorem State.advance_nextPid (s : State) (i : Instr) : (s.advance i).nextPid = s.nextPid := rfl
@[simp] theorem State.advance_freeDraws (s : State) (i : Instr) : (s.advance i).freeDraws = s.freeDraws := rfl
@[simp] theorem State.advance_reg (s : State) (i : Instr) (x : Reg) : (s.advance i).reg x = s.reg x := rfl
@[simp] theorem State.advance_byteAt (s : State) (i : Instr) (dev : Device) (o : Nat) : (s.advance i).byteAt dev o = s.byteAt dev o :=
    by cases dev <;> rfl

/-! ## `State.endRun` -/

@[simp] theorem State.endRun_cfg (s : State) (e : RunEnd) : (s.endRun e).cfg = s.cfg := rfl
@[simp] theorem State.endRun_regs (s : State) (e : RunEnd) : (s.endRun e).regs = s.regs := rfl
@[simp] theorem State.endRun_pc (s : State) (e : RunEnd) : (s.endRun e).pc = s.pc := rfl
@[simp] theorem State.endRun_flags (s : State) (e : RunEnd) : (s.endRun e).flags = s.flags := rfl
@[simp] theorem State.endRun_execState (s : State) (e : RunEnd) : (s.endRun e).execState = s.execState := rfl
@[simp] theorem State.endRun_cycles (s : State) (e : RunEnd) : (s.endRun e).cycles = s.cycles := rfl
@[simp] theorem State.endRun_lastResult (s : State) (e : RunEnd) : (s.endRun e).lastResult = some { ending := e, executed := s.executed } :=
    rfl
@[simp] theorem State.endRun_activeRun (s : State) (e : RunEnd) : (s.endRun e).activeRun = none := rfl
@[simp] theorem State.endRun_rom (s : State) (e : RunEnd) : (s.endRun e).rom = s.rom := rfl
@[simp] theorem State.endRun_ram (s : State) (e : RunEnd) : (s.endRun e).ram = s.ram := rfl
@[simp] theorem State.endRun_disk (s : State) (e : RunEnd) : (s.endRun e).disk = s.disk := rfl
@[simp] theorem State.endRun_userFree (s : State) (e : RunEnd) : (s.endRun e).userFree = s.userFree := rfl
@[simp] theorem State.endRun_kernelFree (s : State) (e : RunEnd) : (s.endRun e).kernelFree = s.kernelFree := rfl
@[simp] theorem State.endRun_diskFree (s : State) (e : RunEnd) : (s.endRun e).diskFree = s.diskFree := rfl
@[simp] theorem State.endRun_frameRef (s : State) (e : RunEnd) : (s.endRun e).frameRef = s.frameRef := rfl
@[simp] theorem State.endRun_diskRef (s : State) (e : RunEnd) : (s.endRun e).diskRef = s.diskRef := rfl
@[simp] theorem State.endRun_procs (s : State) (e : RunEnd) : (s.endRun e).procs = s.procs := rfl
@[simp] theorem State.endRun_current (s : State) (e : RunEnd) : (s.endRun e).current = s.current := rfl
@[simp] theorem State.endRun_nextPid (s : State) (e : RunEnd) : (s.endRun e).nextPid = s.nextPid := rfl
@[simp] theorem State.endRun_freeDraws (s : State) (e : RunEnd) : (s.endRun e).freeDraws = s.freeDraws := rfl
@[simp] theorem State.endRun_reg (s : State) (e : RunEnd) (x : Reg) : (s.endRun e).reg x = s.reg x := rfl
@[simp] theorem State.endRun_byteAt (s : State) (e : RunEnd) (dev : Device) (o : Nat) : (s.endRun e).byteAt dev o = s.byteAt dev o :=
    by cases dev <;> rfl

/-! ## `State.resume` -/

@[simp] theorem State.resume_cfg (s : State) : s.resume.cfg = s.cfg := rfl
@[simp] theorem State.resume_regs (s : State) : s.resume.regs = s.regs := rfl
@[simp] theorem State.resume_pc (s : State) : s.resume.pc = s.pc := rfl
@[simp] theorem State.resume_flags (s : State) : s.resume.flags = s.flags := rfl
@[simp] theorem State.resume_execState (s : State) : s.resume.execState = .running := rfl
@[simp] theorem State.resume_cycles (s : State) : s.resume.cycles = s.cycles := rfl
@[simp] theorem State.resume_lastResult (s : State) : s.resume.lastResult = s.lastResult := rfl
@[simp] theorem State.resume_activeRun (s : State) : s.resume.activeRun = some s.executed := rfl
@[simp] theorem State.resume_rom (s : State) : s.resume.rom = s.rom := rfl
@[simp] theorem State.resume_ram (s : State) : s.resume.ram = s.ram := rfl
@[simp] theorem State.resume_disk (s : State) : s.resume.disk = s.disk := rfl
@[simp] theorem State.resume_userFree (s : State) : s.resume.userFree = s.userFree := rfl
@[simp] theorem State.resume_kernelFree (s : State) : s.resume.kernelFree = s.kernelFree := rfl
@[simp] theorem State.resume_diskFree (s : State) : s.resume.diskFree = s.diskFree := rfl
@[simp] theorem State.resume_frameRef (s : State) : s.resume.frameRef = s.frameRef := rfl
@[simp] theorem State.resume_diskRef (s : State) : s.resume.diskRef = s.diskRef := rfl
@[simp] theorem State.resume_procs (s : State) : s.resume.procs = s.procs := rfl
@[simp] theorem State.resume_current (s : State) : s.resume.current = s.current := rfl
@[simp] theorem State.resume_nextPid (s : State) : s.resume.nextPid = s.nextPid := rfl
@[simp] theorem State.resume_freeDraws (s : State) : s.resume.freeDraws = s.freeDraws := rfl
@[simp] theorem State.resume_reg (s : State) (x : Reg) : s.resume.reg x = s.reg x := rfl
@[simp] theorem State.resume_byteAt (s : State) (dev : Device) (o : Nat) : s.resume.byteAt dev o = s.byteAt dev o :=
    by cases dev <;> rfl

/-! ## `State.writeBack` -/

@[simp] theorem State.writeBack_cfg (s : State) (xn : Reg) (am : AddrMode) (v : Word) : (s.writeBack xn am v).cfg = s.cfg :=
    by cases am <;> rfl
@[simp] theorem State.writeBack_pc (s : State) (xn : Reg) (am : AddrMode) (v : Word) : (s.writeBack xn am v).pc = s.pc :=
    by cases am <;> rfl
@[simp] theorem State.writeBack_flags (s : State) (xn : Reg) (am : AddrMode) (v : Word) : (s.writeBack xn am v).flags = s.flags :=
    by cases am <;> rfl
@[simp] theorem State.writeBack_execState (s : State) (xn : Reg) (am : AddrMode) (v : Word) : (s.writeBack xn am v).execState = s.execState :=
    by cases am <;> rfl
@[simp] theorem State.writeBack_cycles (s : State) (xn : Reg) (am : AddrMode) (v : Word) : (s.writeBack xn am v).cycles = s.cycles :=
    by cases am <;> rfl
@[simp] theorem State.writeBack_lastResult (s : State) (xn : Reg) (am : AddrMode) (v : Word) : (s.writeBack xn am v).lastResult = s.lastResult :=
    by cases am <;> rfl
@[simp] theorem State.writeBack_activeRun (s : State) (xn : Reg) (am : AddrMode) (v : Word) : (s.writeBack xn am v).activeRun = s.activeRun :=
    by cases am <;> rfl
@[simp] theorem State.writeBack_rom (s : State) (xn : Reg) (am : AddrMode) (v : Word) : (s.writeBack xn am v).rom = s.rom :=
    by cases am <;> rfl
@[simp] theorem State.writeBack_ram (s : State) (xn : Reg) (am : AddrMode) (v : Word) : (s.writeBack xn am v).ram = s.ram :=
    by cases am <;> rfl
@[simp] theorem State.writeBack_disk (s : State) (xn : Reg) (am : AddrMode) (v : Word) : (s.writeBack xn am v).disk = s.disk :=
    by cases am <;> rfl
@[simp] theorem State.writeBack_userFree (s : State) (xn : Reg) (am : AddrMode) (v : Word) : (s.writeBack xn am v).userFree = s.userFree :=
    by cases am <;> rfl
@[simp] theorem State.writeBack_kernelFree (s : State) (xn : Reg) (am : AddrMode) (v : Word) : (s.writeBack xn am v).kernelFree = s.kernelFree :=
    by cases am <;> rfl
@[simp] theorem State.writeBack_diskFree (s : State) (xn : Reg) (am : AddrMode) (v : Word) : (s.writeBack xn am v).diskFree = s.diskFree :=
    by cases am <;> rfl
@[simp] theorem State.writeBack_frameRef (s : State) (xn : Reg) (am : AddrMode) (v : Word) : (s.writeBack xn am v).frameRef = s.frameRef :=
    by cases am <;> rfl
@[simp] theorem State.writeBack_diskRef (s : State) (xn : Reg) (am : AddrMode) (v : Word) : (s.writeBack xn am v).diskRef = s.diskRef :=
    by cases am <;> rfl
@[simp] theorem State.writeBack_procs (s : State) (xn : Reg) (am : AddrMode) (v : Word) : (s.writeBack xn am v).procs = s.procs :=
    by cases am <;> rfl
@[simp] theorem State.writeBack_current (s : State) (xn : Reg) (am : AddrMode) (v : Word) : (s.writeBack xn am v).current = s.current :=
    by cases am <;> rfl
@[simp] theorem State.writeBack_nextPid (s : State) (xn : Reg) (am : AddrMode) (v : Word) : (s.writeBack xn am v).nextPid = s.nextPid :=
    by cases am <;> rfl
@[simp] theorem State.writeBack_freeDraws (s : State) (xn : Reg) (am : AddrMode) (v : Word) : (s.writeBack xn am v).freeDraws = s.freeDraws :=
    by cases am <;> rfl
@[simp] theorem State.writeBack_executed (s : State) (xn : Reg) (am : AddrMode) (v : Word) : (s.writeBack xn am v).executed = s.executed :=
    by cases am <;> rfl
@[simp] theorem State.writeBack_byteAt (s : State) (xn : Reg) (am : AddrMode) (v : Word) (dev : Device) (o : Nat) : (s.writeBack xn am v).byteAt dev o = s.byteAt dev o :=
    by cases am <;> rfl

/-! ## `State.setPool` -/

@[simp] theorem State.setPool_cfg (s : State) (p : Pool) (free : List Nat) : (s.setPool p free).cfg = s.cfg := by cases p <;> rfl
@[simp] theorem State.setPool_regs (s : State) (p : Pool) (free : List Nat) : (s.setPool p free).regs = s.regs :=
    by cases p <;> rfl
@[simp] theorem State.setPool_pc (s : State) (p : Pool) (free : List Nat) : (s.setPool p free).pc = s.pc := by cases p <;> rfl
@[simp] theorem State.setPool_flags (s : State) (p : Pool) (free : List Nat) : (s.setPool p free).flags = s.flags :=
    by cases p <;> rfl
@[simp] theorem State.setPool_execState (s : State) (p : Pool) (free : List Nat) : (s.setPool p free).execState = s.execState :=
    by cases p <;> rfl
@[simp] theorem State.setPool_cycles (s : State) (p : Pool) (free : List Nat) : (s.setPool p free).cycles = s.cycles :=
    by cases p <;> rfl
@[simp] theorem State.setPool_lastResult (s : State) (p : Pool) (free : List Nat) : (s.setPool p free).lastResult = s.lastResult :=
    by cases p <;> rfl
@[simp] theorem State.setPool_activeRun (s : State) (p : Pool) (free : List Nat) : (s.setPool p free).activeRun = s.activeRun :=
    by cases p <;> rfl
@[simp] theorem State.setPool_rom (s : State) (p : Pool) (free : List Nat) : (s.setPool p free).rom = s.rom := by cases p <;> rfl
@[simp] theorem State.setPool_ram (s : State) (p : Pool) (free : List Nat) : (s.setPool p free).ram = s.ram := by cases p <;> rfl
@[simp] theorem State.setPool_disk (s : State) (p : Pool) (free : List Nat) : (s.setPool p free).disk = s.disk :=
    by cases p <;> rfl
@[simp] theorem State.setPool_frameRef (s : State) (p : Pool) (free : List Nat) : (s.setPool p free).frameRef = s.frameRef :=
    by cases p <;> rfl
@[simp] theorem State.setPool_diskRef (s : State) (p : Pool) (free : List Nat) : (s.setPool p free).diskRef = s.diskRef :=
    by cases p <;> rfl
@[simp] theorem State.setPool_procs (s : State) (p : Pool) (free : List Nat) : (s.setPool p free).procs = s.procs :=
    by cases p <;> rfl
@[simp] theorem State.setPool_current (s : State) (p : Pool) (free : List Nat) : (s.setPool p free).current = s.current :=
    by cases p <;> rfl
@[simp] theorem State.setPool_nextPid (s : State) (p : Pool) (free : List Nat) : (s.setPool p free).nextPid = s.nextPid :=
    by cases p <;> rfl
@[simp] theorem State.setPool_freeDraws (s : State) (p : Pool) (free : List Nat) : (s.setPool p free).freeDraws = s.freeDraws :=
    by cases p <;> rfl
@[simp] theorem State.setPool_reg (s : State) (p : Pool) (free : List Nat) (x : Reg) : (s.setPool p free).reg x = s.reg x :=
    by cases p <;> rfl
@[simp] theorem State.setPool_executed (s : State) (p : Pool) (free : List Nat) : (s.setPool p free).executed = s.executed :=
    by cases p <;> rfl
@[simp] theorem State.setPool_byteAt (s : State) (p : Pool) (free : List Nat) (dev : Device) (o : Nat) : (s.setPool p free).byteAt dev o = s.byteAt dev o :=
    by cases p <;> rfl

/-! ## `State.setFrameRef` -/

@[simp] theorem State.setFrameRef_cfg (s : State) (f n : Nat) : (s.setFrameRef f n).cfg = s.cfg := rfl
@[simp] theorem State.setFrameRef_regs (s : State) (f n : Nat) : (s.setFrameRef f n).regs = s.regs := rfl
@[simp] theorem State.setFrameRef_pc (s : State) (f n : Nat) : (s.setFrameRef f n).pc = s.pc := rfl
@[simp] theorem State.setFrameRef_flags (s : State) (f n : Nat) : (s.setFrameRef f n).flags = s.flags := rfl
@[simp] theorem State.setFrameRef_execState (s : State) (f n : Nat) : (s.setFrameRef f n).execState = s.execState := rfl
@[simp] theorem State.setFrameRef_cycles (s : State) (f n : Nat) : (s.setFrameRef f n).cycles = s.cycles := rfl
@[simp] theorem State.setFrameRef_lastResult (s : State) (f n : Nat) : (s.setFrameRef f n).lastResult = s.lastResult := rfl
@[simp] theorem State.setFrameRef_activeRun (s : State) (f n : Nat) : (s.setFrameRef f n).activeRun = s.activeRun := rfl
@[simp] theorem State.setFrameRef_rom (s : State) (f n : Nat) : (s.setFrameRef f n).rom = s.rom := rfl
@[simp] theorem State.setFrameRef_ram (s : State) (f n : Nat) : (s.setFrameRef f n).ram = s.ram := rfl
@[simp] theorem State.setFrameRef_disk (s : State) (f n : Nat) : (s.setFrameRef f n).disk = s.disk := rfl
@[simp] theorem State.setFrameRef_userFree (s : State) (f n : Nat) : (s.setFrameRef f n).userFree = s.userFree := rfl
@[simp] theorem State.setFrameRef_kernelFree (s : State) (f n : Nat) : (s.setFrameRef f n).kernelFree = s.kernelFree := rfl
@[simp] theorem State.setFrameRef_diskFree (s : State) (f n : Nat) : (s.setFrameRef f n).diskFree = s.diskFree := rfl
@[simp] theorem State.setFrameRef_frameRef (s : State) (f n : Nat) : (s.setFrameRef f n).frameRef = assocSet 0 s.frameRef f n :=
    rfl
@[simp] theorem State.setFrameRef_diskRef (s : State) (f n : Nat) : (s.setFrameRef f n).diskRef = s.diskRef := rfl
@[simp] theorem State.setFrameRef_procs (s : State) (f n : Nat) : (s.setFrameRef f n).procs = s.procs := rfl
@[simp] theorem State.setFrameRef_current (s : State) (f n : Nat) : (s.setFrameRef f n).current = s.current := rfl
@[simp] theorem State.setFrameRef_nextPid (s : State) (f n : Nat) : (s.setFrameRef f n).nextPid = s.nextPid := rfl
@[simp] theorem State.setFrameRef_freeDraws (s : State) (f n : Nat) : (s.setFrameRef f n).freeDraws = s.freeDraws := rfl
@[simp] theorem State.setFrameRef_reg (s : State) (f n : Nat) (x : Reg) : (s.setFrameRef f n).reg x = s.reg x := rfl
@[simp] theorem State.setFrameRef_executed (s : State) (f n : Nat) : (s.setFrameRef f n).executed = s.executed := rfl
@[simp] theorem State.setFrameRef_byteAt (s : State) (f n : Nat) (dev : Device) (o : Nat) : (s.setFrameRef f n).byteAt dev o = s.byteAt dev o :=
    by cases dev <;> rfl

/-! ## `State.setDiskRef` -/

@[simp] theorem State.setDiskRef_cfg (s : State) (d n : Nat) : (s.setDiskRef d n).cfg = s.cfg := rfl
@[simp] theorem State.setDiskRef_regs (s : State) (d n : Nat) : (s.setDiskRef d n).regs = s.regs := rfl
@[simp] theorem State.setDiskRef_pc (s : State) (d n : Nat) : (s.setDiskRef d n).pc = s.pc := rfl
@[simp] theorem State.setDiskRef_flags (s : State) (d n : Nat) : (s.setDiskRef d n).flags = s.flags := rfl
@[simp] theorem State.setDiskRef_execState (s : State) (d n : Nat) : (s.setDiskRef d n).execState = s.execState := rfl
@[simp] theorem State.setDiskRef_cycles (s : State) (d n : Nat) : (s.setDiskRef d n).cycles = s.cycles := rfl
@[simp] theorem State.setDiskRef_lastResult (s : State) (d n : Nat) : (s.setDiskRef d n).lastResult = s.lastResult := rfl
@[simp] theorem State.setDiskRef_activeRun (s : State) (d n : Nat) : (s.setDiskRef d n).activeRun = s.activeRun := rfl
@[simp] theorem State.setDiskRef_rom (s : State) (d n : Nat) : (s.setDiskRef d n).rom = s.rom := rfl
@[simp] theorem State.setDiskRef_ram (s : State) (d n : Nat) : (s.setDiskRef d n).ram = s.ram := rfl
@[simp] theorem State.setDiskRef_disk (s : State) (d n : Nat) : (s.setDiskRef d n).disk = s.disk := rfl
@[simp] theorem State.setDiskRef_userFree (s : State) (d n : Nat) : (s.setDiskRef d n).userFree = s.userFree := rfl
@[simp] theorem State.setDiskRef_kernelFree (s : State) (d n : Nat) : (s.setDiskRef d n).kernelFree = s.kernelFree := rfl
@[simp] theorem State.setDiskRef_diskFree (s : State) (d n : Nat) : (s.setDiskRef d n).diskFree = s.diskFree := rfl
@[simp] theorem State.setDiskRef_frameRef (s : State) (d n : Nat) : (s.setDiskRef d n).frameRef = s.frameRef := rfl
@[simp] theorem State.setDiskRef_diskRef (s : State) (d n : Nat) : (s.setDiskRef d n).diskRef = assocSet 0 s.diskRef d n := rfl
@[simp] theorem State.setDiskRef_procs (s : State) (d n : Nat) : (s.setDiskRef d n).procs = s.procs := rfl
@[simp] theorem State.setDiskRef_current (s : State) (d n : Nat) : (s.setDiskRef d n).current = s.current := rfl
@[simp] theorem State.setDiskRef_nextPid (s : State) (d n : Nat) : (s.setDiskRef d n).nextPid = s.nextPid := rfl
@[simp] theorem State.setDiskRef_freeDraws (s : State) (d n : Nat) : (s.setDiskRef d n).freeDraws = s.freeDraws := rfl
@[simp] theorem State.setDiskRef_reg (s : State) (d n : Nat) (x : Reg) : (s.setDiskRef d n).reg x = s.reg x := rfl
@[simp] theorem State.setDiskRef_executed (s : State) (d n : Nat) : (s.setDiskRef d n).executed = s.executed := rfl
@[simp] theorem State.setDiskRef_byteAt (s : State) (d n : Nat) (dev : Device) (o : Nat) : (s.setDiskRef d n).byteAt dev o = s.byteAt dev o :=
    by cases dev <;> rfl

/-! ## `State.setTable` -/

@[simp] theorem State.setTable_cfg (s : State) (pid : Nat) (t : PageTable) : (s.setTable pid t).cfg = s.cfg := rfl
@[simp] theorem State.setTable_regs (s : State) (pid : Nat) (t : PageTable) : (s.setTable pid t).regs = s.regs := rfl
@[simp] theorem State.setTable_pc (s : State) (pid : Nat) (t : PageTable) : (s.setTable pid t).pc = s.pc := rfl
@[simp] theorem State.setTable_flags (s : State) (pid : Nat) (t : PageTable) : (s.setTable pid t).flags = s.flags := rfl
@[simp] theorem State.setTable_execState (s : State) (pid : Nat) (t : PageTable) : (s.setTable pid t).execState = s.execState :=
    rfl
@[simp] theorem State.setTable_cycles (s : State) (pid : Nat) (t : PageTable) : (s.setTable pid t).cycles = s.cycles := rfl
@[simp] theorem State.setTable_lastResult (s : State) (pid : Nat) (t : PageTable) : (s.setTable pid t).lastResult = s.lastResult :=
    rfl
@[simp] theorem State.setTable_activeRun (s : State) (pid : Nat) (t : PageTable) : (s.setTable pid t).activeRun = s.activeRun :=
    rfl
@[simp] theorem State.setTable_rom (s : State) (pid : Nat) (t : PageTable) : (s.setTable pid t).rom = s.rom := rfl
@[simp] theorem State.setTable_ram (s : State) (pid : Nat) (t : PageTable) : (s.setTable pid t).ram = s.ram := rfl
@[simp] theorem State.setTable_disk (s : State) (pid : Nat) (t : PageTable) : (s.setTable pid t).disk = s.disk := rfl
@[simp] theorem State.setTable_userFree (s : State) (pid : Nat) (t : PageTable) : (s.setTable pid t).userFree = s.userFree := rfl
@[simp] theorem State.setTable_kernelFree (s : State) (pid : Nat) (t : PageTable) : (s.setTable pid t).kernelFree = s.kernelFree :=
    rfl
@[simp] theorem State.setTable_diskFree (s : State) (pid : Nat) (t : PageTable) : (s.setTable pid t).diskFree = s.diskFree := rfl
@[simp] theorem State.setTable_frameRef (s : State) (pid : Nat) (t : PageTable) : (s.setTable pid t).frameRef = s.frameRef := rfl
@[simp] theorem State.setTable_diskRef (s : State) (pid : Nat) (t : PageTable) : (s.setTable pid t).diskRef = s.diskRef := rfl
@[simp] theorem State.setTable_procs (s : State) (pid : Nat) (t : PageTable) : (s.setTable pid t).procs = assocPut s.procs pid t :=
    rfl
@[simp] theorem State.setTable_current (s : State) (pid : Nat) (t : PageTable) : (s.setTable pid t).current = s.current := rfl
@[simp] theorem State.setTable_nextPid (s : State) (pid : Nat) (t : PageTable) : (s.setTable pid t).nextPid = s.nextPid := rfl
@[simp] theorem State.setTable_freeDraws (s : State) (pid : Nat) (t : PageTable) : (s.setTable pid t).freeDraws = s.freeDraws :=
    rfl
@[simp] theorem State.setTable_reg (s : State) (pid : Nat) (t : PageTable) (x : Reg) : (s.setTable pid t).reg x = s.reg x := rfl
@[simp] theorem State.setTable_executed (s : State) (pid : Nat) (t : PageTable) : (s.setTable pid t).executed = s.executed := rfl
@[simp] theorem State.setTable_byteAt (s : State) (pid : Nat) (t : PageTable) (dev : Device) (o : Nat) : (s.setTable pid t).byteAt dev o = s.byteAt dev o :=
    by cases dev <;> rfl

/-! ## `State.setEntry` -/

@[simp] theorem State.setEntry_cfg (s : State) (p : Nat) (e : Pte) : (s.setEntry p e).cfg = s.cfg :=
    by unfold State.setEntry; split <;> rfl
@[simp] theorem State.setEntry_regs (s : State) (p : Nat) (e : Pte) : (s.setEntry p e).regs = s.regs :=
    by unfold State.setEntry; split <;> rfl
@[simp] theorem State.setEntry_pc (s : State) (p : Nat) (e : Pte) : (s.setEntry p e).pc = s.pc :=
    by unfold State.setEntry; split <;> rfl
@[simp] theorem State.setEntry_flags (s : State) (p : Nat) (e : Pte) : (s.setEntry p e).flags = s.flags :=
    by unfold State.setEntry; split <;> rfl
@[simp] theorem State.setEntry_execState (s : State) (p : Nat) (e : Pte) : (s.setEntry p e).execState = s.execState :=
    by unfold State.setEntry; split <;> rfl
@[simp] theorem State.setEntry_cycles (s : State) (p : Nat) (e : Pte) : (s.setEntry p e).cycles = s.cycles :=
    by unfold State.setEntry; split <;> rfl
@[simp] theorem State.setEntry_lastResult (s : State) (p : Nat) (e : Pte) : (s.setEntry p e).lastResult = s.lastResult :=
    by unfold State.setEntry; split <;> rfl
@[simp] theorem State.setEntry_activeRun (s : State) (p : Nat) (e : Pte) : (s.setEntry p e).activeRun = s.activeRun :=
    by unfold State.setEntry; split <;> rfl
@[simp] theorem State.setEntry_rom (s : State) (p : Nat) (e : Pte) : (s.setEntry p e).rom = s.rom :=
    by unfold State.setEntry; split <;> rfl
@[simp] theorem State.setEntry_ram (s : State) (p : Nat) (e : Pte) : (s.setEntry p e).ram = s.ram :=
    by unfold State.setEntry; split <;> rfl
@[simp] theorem State.setEntry_disk (s : State) (p : Nat) (e : Pte) : (s.setEntry p e).disk = s.disk :=
    by unfold State.setEntry; split <;> rfl
@[simp] theorem State.setEntry_userFree (s : State) (p : Nat) (e : Pte) : (s.setEntry p e).userFree = s.userFree :=
    by unfold State.setEntry; split <;> rfl
@[simp] theorem State.setEntry_kernelFree (s : State) (p : Nat) (e : Pte) : (s.setEntry p e).kernelFree = s.kernelFree :=
    by unfold State.setEntry; split <;> rfl
@[simp] theorem State.setEntry_diskFree (s : State) (p : Nat) (e : Pte) : (s.setEntry p e).diskFree = s.diskFree :=
    by unfold State.setEntry; split <;> rfl
@[simp] theorem State.setEntry_frameRef (s : State) (p : Nat) (e : Pte) : (s.setEntry p e).frameRef = s.frameRef :=
    by unfold State.setEntry; split <;> rfl
@[simp] theorem State.setEntry_diskRef (s : State) (p : Nat) (e : Pte) : (s.setEntry p e).diskRef = s.diskRef :=
    by unfold State.setEntry; split <;> rfl
@[simp] theorem State.setEntry_current (s : State) (p : Nat) (e : Pte) : (s.setEntry p e).current = s.current :=
    by unfold State.setEntry; split <;> rfl
@[simp] theorem State.setEntry_nextPid (s : State) (p : Nat) (e : Pte) : (s.setEntry p e).nextPid = s.nextPid :=
    by unfold State.setEntry; split <;> rfl
@[simp] theorem State.setEntry_freeDraws (s : State) (p : Nat) (e : Pte) : (s.setEntry p e).freeDraws = s.freeDraws :=
    by unfold State.setEntry; split <;> rfl
@[simp] theorem State.setEntry_reg (s : State) (p : Nat) (e : Pte) (x : Reg) : (s.setEntry p e).reg x = s.reg x :=
    by unfold State.setEntry; split <;> rfl
@[simp] theorem State.setEntry_executed (s : State) (p : Nat) (e : Pte) : (s.setEntry p e).executed = s.executed :=
    by unfold State.setEntry; split <;> rfl
@[simp] theorem State.setEntry_byteAt (s : State) (p : Nat) (e : Pte) (dev : Device) (o : Nat) : (s.setEntry p e).byteAt dev o = s.byteAt dev o :=
    by unfold State.setEntry; split <;> rfl

/-! ## `State.relocate` -/

@[simp] theorem State.relocate_cfg (s : State) (old new : Loc) : (s.relocate old new).cfg = s.cfg := rfl
@[simp] theorem State.relocate_regs (s : State) (old new : Loc) : (s.relocate old new).regs = s.regs := rfl
@[simp] theorem State.relocate_pc (s : State) (old new : Loc) : (s.relocate old new).pc = s.pc := rfl
@[simp] theorem State.relocate_flags (s : State) (old new : Loc) : (s.relocate old new).flags = s.flags := rfl
@[simp] theorem State.relocate_execState (s : State) (old new : Loc) : (s.relocate old new).execState = s.execState := rfl
@[simp] theorem State.relocate_cycles (s : State) (old new : Loc) : (s.relocate old new).cycles = s.cycles := rfl
@[simp] theorem State.relocate_lastResult (s : State) (old new : Loc) : (s.relocate old new).lastResult = s.lastResult := rfl
@[simp] theorem State.relocate_activeRun (s : State) (old new : Loc) : (s.relocate old new).activeRun = s.activeRun := rfl
@[simp] theorem State.relocate_rom (s : State) (old new : Loc) : (s.relocate old new).rom = s.rom := rfl
@[simp] theorem State.relocate_ram (s : State) (old new : Loc) : (s.relocate old new).ram = s.ram := rfl
@[simp] theorem State.relocate_disk (s : State) (old new : Loc) : (s.relocate old new).disk = s.disk := rfl
@[simp] theorem State.relocate_userFree (s : State) (old new : Loc) : (s.relocate old new).userFree = s.userFree := rfl
@[simp] theorem State.relocate_kernelFree (s : State) (old new : Loc) : (s.relocate old new).kernelFree = s.kernelFree := rfl
@[simp] theorem State.relocate_diskFree (s : State) (old new : Loc) : (s.relocate old new).diskFree = s.diskFree := rfl
@[simp] theorem State.relocate_frameRef (s : State) (old new : Loc) : (s.relocate old new).frameRef = s.frameRef := rfl
@[simp] theorem State.relocate_diskRef (s : State) (old new : Loc) : (s.relocate old new).diskRef = s.diskRef := rfl
@[simp] theorem State.relocate_current (s : State) (old new : Loc) : (s.relocate old new).current = s.current := rfl
@[simp] theorem State.relocate_nextPid (s : State) (old new : Loc) : (s.relocate old new).nextPid = s.nextPid := rfl
@[simp] theorem State.relocate_freeDraws (s : State) (old new : Loc) : (s.relocate old new).freeDraws = s.freeDraws := rfl
@[simp] theorem State.relocate_reg (s : State) (old new : Loc) (x : Reg) : (s.relocate old new).reg x = s.reg x := rfl
@[simp] theorem State.relocate_executed (s : State) (old new : Loc) : (s.relocate old new).executed = s.executed := rfl
@[simp] theorem State.relocate_byteAt (s : State) (old new : Loc) (dev : Device) (o : Nat) : (s.relocate old new).byteAt dev o = s.byteAt dev o :=
    by cases dev <;> rfl

/-! ## `State.copySlotToFrame` -/

@[simp] theorem State.copySlotToFrame_cfg (s : State) (d f : Nat) : (s.copySlotToFrame d f).cfg = s.cfg := rfl
@[simp] theorem State.copySlotToFrame_regs (s : State) (d f : Nat) : (s.copySlotToFrame d f).regs = s.regs := rfl
@[simp] theorem State.copySlotToFrame_pc (s : State) (d f : Nat) : (s.copySlotToFrame d f).pc = s.pc := rfl
@[simp] theorem State.copySlotToFrame_flags (s : State) (d f : Nat) : (s.copySlotToFrame d f).flags = s.flags := rfl
@[simp] theorem State.copySlotToFrame_execState (s : State) (d f : Nat) : (s.copySlotToFrame d f).execState = s.execState := rfl
@[simp] theorem State.copySlotToFrame_cycles (s : State) (d f : Nat) : (s.copySlotToFrame d f).cycles = s.cycles := rfl
@[simp] theorem State.copySlotToFrame_lastResult (s : State) (d f : Nat) : (s.copySlotToFrame d f).lastResult = s.lastResult :=
    rfl
@[simp] theorem State.copySlotToFrame_activeRun (s : State) (d f : Nat) : (s.copySlotToFrame d f).activeRun = s.activeRun := rfl
@[simp] theorem State.copySlotToFrame_rom (s : State) (d f : Nat) : (s.copySlotToFrame d f).rom = s.rom := rfl
@[simp] theorem State.copySlotToFrame_ram (s : State) (d f : Nat) : (s.copySlotToFrame d f).ram = s.ram.copy (f * s.cfg.pageSize) s.cfg.pageSize s.disk (d * s.cfg.pageSize) :=
    rfl
@[simp] theorem State.copySlotToFrame_disk (s : State) (d f : Nat) : (s.copySlotToFrame d f).disk = s.disk := rfl
@[simp] theorem State.copySlotToFrame_userFree (s : State) (d f : Nat) : (s.copySlotToFrame d f).userFree = s.userFree := rfl
@[simp] theorem State.copySlotToFrame_kernelFree (s : State) (d f : Nat) : (s.copySlotToFrame d f).kernelFree = s.kernelFree :=
    rfl
@[simp] theorem State.copySlotToFrame_diskFree (s : State) (d f : Nat) : (s.copySlotToFrame d f).diskFree = s.diskFree := rfl
@[simp] theorem State.copySlotToFrame_frameRef (s : State) (d f : Nat) : (s.copySlotToFrame d f).frameRef = s.frameRef := rfl
@[simp] theorem State.copySlotToFrame_diskRef (s : State) (d f : Nat) : (s.copySlotToFrame d f).diskRef = s.diskRef := rfl
@[simp] theorem State.copySlotToFrame_procs (s : State) (d f : Nat) : (s.copySlotToFrame d f).procs = s.procs := rfl
@[simp] theorem State.copySlotToFrame_current (s : State) (d f : Nat) : (s.copySlotToFrame d f).current = s.current := rfl
@[simp] theorem State.copySlotToFrame_nextPid (s : State) (d f : Nat) : (s.copySlotToFrame d f).nextPid = s.nextPid := rfl
@[simp] theorem State.copySlotToFrame_freeDraws (s : State) (d f : Nat) : (s.copySlotToFrame d f).freeDraws = s.freeDraws := rfl
@[simp] theorem State.copySlotToFrame_reg (s : State) (d f : Nat) (x : Reg) : (s.copySlotToFrame d f).reg x = s.reg x := rfl
@[simp] theorem State.copySlotToFrame_executed (s : State) (d f : Nat) : (s.copySlotToFrame d f).executed = s.executed := rfl

/-! ## `State.copyFrameToSlot` -/

@[simp] theorem State.copyFrameToSlot_cfg (s : State) (f d : Nat) : (s.copyFrameToSlot f d).cfg = s.cfg := rfl
@[simp] theorem State.copyFrameToSlot_regs (s : State) (f d : Nat) : (s.copyFrameToSlot f d).regs = s.regs := rfl
@[simp] theorem State.copyFrameToSlot_pc (s : State) (f d : Nat) : (s.copyFrameToSlot f d).pc = s.pc := rfl
@[simp] theorem State.copyFrameToSlot_flags (s : State) (f d : Nat) : (s.copyFrameToSlot f d).flags = s.flags := rfl
@[simp] theorem State.copyFrameToSlot_execState (s : State) (f d : Nat) : (s.copyFrameToSlot f d).execState = s.execState := rfl
@[simp] theorem State.copyFrameToSlot_cycles (s : State) (f d : Nat) : (s.copyFrameToSlot f d).cycles = s.cycles := rfl
@[simp] theorem State.copyFrameToSlot_lastResult (s : State) (f d : Nat) : (s.copyFrameToSlot f d).lastResult = s.lastResult :=
    rfl
@[simp] theorem State.copyFrameToSlot_activeRun (s : State) (f d : Nat) : (s.copyFrameToSlot f d).activeRun = s.activeRun := rfl
@[simp] theorem State.copyFrameToSlot_rom (s : State) (f d : Nat) : (s.copyFrameToSlot f d).rom = s.rom := rfl
@[simp] theorem State.copyFrameToSlot_ram (s : State) (f d : Nat) : (s.copyFrameToSlot f d).ram = s.ram := rfl
@[simp] theorem State.copyFrameToSlot_disk (s : State) (f d : Nat) : (s.copyFrameToSlot f d).disk = s.disk.copy (d * s.cfg.pageSize) s.cfg.pageSize s.ram (f * s.cfg.pageSize) :=
    rfl
@[simp] theorem State.copyFrameToSlot_userFree (s : State) (f d : Nat) : (s.copyFrameToSlot f d).userFree = s.userFree := rfl
@[simp] theorem State.copyFrameToSlot_kernelFree (s : State) (f d : Nat) : (s.copyFrameToSlot f d).kernelFree = s.kernelFree :=
    rfl
@[simp] theorem State.copyFrameToSlot_diskFree (s : State) (f d : Nat) : (s.copyFrameToSlot f d).diskFree = s.diskFree := rfl
@[simp] theorem State.copyFrameToSlot_frameRef (s : State) (f d : Nat) : (s.copyFrameToSlot f d).frameRef = s.frameRef := rfl
@[simp] theorem State.copyFrameToSlot_diskRef (s : State) (f d : Nat) : (s.copyFrameToSlot f d).diskRef = s.diskRef := rfl
@[simp] theorem State.copyFrameToSlot_procs (s : State) (f d : Nat) : (s.copyFrameToSlot f d).procs = s.procs := rfl
@[simp] theorem State.copyFrameToSlot_current (s : State) (f d : Nat) : (s.copyFrameToSlot f d).current = s.current := rfl
@[simp] theorem State.copyFrameToSlot_nextPid (s : State) (f d : Nat) : (s.copyFrameToSlot f d).nextPid = s.nextPid := rfl
@[simp] theorem State.copyFrameToSlot_freeDraws (s : State) (f d : Nat) : (s.copyFrameToSlot f d).freeDraws = s.freeDraws := rfl
@[simp] theorem State.copyFrameToSlot_reg (s : State) (f d : Nat) (x : Reg) : (s.copyFrameToSlot f d).reg x = s.reg x := rfl
@[simp] theorem State.copyFrameToSlot_executed (s : State) (f d : Nat) : (s.copyFrameToSlot f d).executed = s.executed := rfl

/-! ## `State.copyFrame` -/

@[simp] theorem State.copyFrame_cfg (s : State) (f g : Nat) : (s.copyFrame f g).cfg = s.cfg := rfl
@[simp] theorem State.copyFrame_regs (s : State) (f g : Nat) : (s.copyFrame f g).regs = s.regs := rfl
@[simp] theorem State.copyFrame_pc (s : State) (f g : Nat) : (s.copyFrame f g).pc = s.pc := rfl
@[simp] theorem State.copyFrame_flags (s : State) (f g : Nat) : (s.copyFrame f g).flags = s.flags := rfl
@[simp] theorem State.copyFrame_execState (s : State) (f g : Nat) : (s.copyFrame f g).execState = s.execState := rfl
@[simp] theorem State.copyFrame_cycles (s : State) (f g : Nat) : (s.copyFrame f g).cycles = s.cycles := rfl
@[simp] theorem State.copyFrame_lastResult (s : State) (f g : Nat) : (s.copyFrame f g).lastResult = s.lastResult := rfl
@[simp] theorem State.copyFrame_activeRun (s : State) (f g : Nat) : (s.copyFrame f g).activeRun = s.activeRun := rfl
@[simp] theorem State.copyFrame_rom (s : State) (f g : Nat) : (s.copyFrame f g).rom = s.rom := rfl
@[simp] theorem State.copyFrame_ram (s : State) (f g : Nat) : (s.copyFrame f g).ram = s.ram.copy (g * s.cfg.pageSize) s.cfg.pageSize s.ram (f * s.cfg.pageSize) :=
    rfl
@[simp] theorem State.copyFrame_disk (s : State) (f g : Nat) : (s.copyFrame f g).disk = s.disk := rfl
@[simp] theorem State.copyFrame_userFree (s : State) (f g : Nat) : (s.copyFrame f g).userFree = s.userFree := rfl
@[simp] theorem State.copyFrame_kernelFree (s : State) (f g : Nat) : (s.copyFrame f g).kernelFree = s.kernelFree := rfl
@[simp] theorem State.copyFrame_diskFree (s : State) (f g : Nat) : (s.copyFrame f g).diskFree = s.diskFree := rfl
@[simp] theorem State.copyFrame_frameRef (s : State) (f g : Nat) : (s.copyFrame f g).frameRef = s.frameRef := rfl
@[simp] theorem State.copyFrame_diskRef (s : State) (f g : Nat) : (s.copyFrame f g).diskRef = s.diskRef := rfl
@[simp] theorem State.copyFrame_procs (s : State) (f g : Nat) : (s.copyFrame f g).procs = s.procs := rfl
@[simp] theorem State.copyFrame_current (s : State) (f g : Nat) : (s.copyFrame f g).current = s.current := rfl
@[simp] theorem State.copyFrame_nextPid (s : State) (f g : Nat) : (s.copyFrame f g).nextPid = s.nextPid := rfl
@[simp] theorem State.copyFrame_freeDraws (s : State) (f g : Nat) : (s.copyFrame f g).freeDraws = s.freeDraws := rfl
@[simp] theorem State.copyFrame_reg (s : State) (f g : Nat) (x : Reg) : (s.copyFrame f g).reg x = s.reg x := rfl
@[simp] theorem State.copyFrame_executed (s : State) (f g : Nat) : (s.copyFrame f g).executed = s.executed := rfl

/-! ## `State.storeAt` -/

@[simp] theorem State.storeAt_cfg (s : State) (pl : Place) (v : Word) : (s.storeAt pl v).cfg = s.cfg := rfl
@[simp] theorem State.storeAt_regs (s : State) (pl : Place) (v : Word) : (s.storeAt pl v).regs = s.regs := rfl
@[simp] theorem State.storeAt_pc (s : State) (pl : Place) (v : Word) : (s.storeAt pl v).pc = s.pc := rfl
@[simp] theorem State.storeAt_flags (s : State) (pl : Place) (v : Word) : (s.storeAt pl v).flags = s.flags := rfl
@[simp] theorem State.storeAt_execState (s : State) (pl : Place) (v : Word) : (s.storeAt pl v).execState = s.execState := rfl
@[simp] theorem State.storeAt_cycles (s : State) (pl : Place) (v : Word) : (s.storeAt pl v).cycles = s.cycles := rfl
@[simp] theorem State.storeAt_lastResult (s : State) (pl : Place) (v : Word) : (s.storeAt pl v).lastResult = s.lastResult := rfl
@[simp] theorem State.storeAt_activeRun (s : State) (pl : Place) (v : Word) : (s.storeAt pl v).activeRun = s.activeRun := rfl
@[simp] theorem State.storeAt_rom (s : State) (pl : Place) (v : Word) : (s.storeAt pl v).rom = s.rom := rfl
@[simp] theorem State.storeAt_ram (s : State) (pl : Place) (v : Word) : (s.storeAt pl v).ram = s.ram.writeMany pl.offs (leBytes pl.offs.length v) :=
    rfl
@[simp] theorem State.storeAt_disk (s : State) (pl : Place) (v : Word) : (s.storeAt pl v).disk = s.disk := rfl
@[simp] theorem State.storeAt_userFree (s : State) (pl : Place) (v : Word) : (s.storeAt pl v).userFree = s.userFree := rfl
@[simp] theorem State.storeAt_kernelFree (s : State) (pl : Place) (v : Word) : (s.storeAt pl v).kernelFree = s.kernelFree := rfl
@[simp] theorem State.storeAt_diskFree (s : State) (pl : Place) (v : Word) : (s.storeAt pl v).diskFree = s.diskFree := rfl
@[simp] theorem State.storeAt_frameRef (s : State) (pl : Place) (v : Word) : (s.storeAt pl v).frameRef = s.frameRef := rfl
@[simp] theorem State.storeAt_diskRef (s : State) (pl : Place) (v : Word) : (s.storeAt pl v).diskRef = s.diskRef := rfl
@[simp] theorem State.storeAt_procs (s : State) (pl : Place) (v : Word) : (s.storeAt pl v).procs = s.procs := rfl
@[simp] theorem State.storeAt_current (s : State) (pl : Place) (v : Word) : (s.storeAt pl v).current = s.current := rfl
@[simp] theorem State.storeAt_nextPid (s : State) (pl : Place) (v : Word) : (s.storeAt pl v).nextPid = s.nextPid := rfl
@[simp] theorem State.storeAt_freeDraws (s : State) (pl : Place) (v : Word) : (s.storeAt pl v).freeDraws = s.freeDraws := rfl
@[simp] theorem State.storeAt_reg (s : State) (pl : Place) (v : Word) (x : Reg) : (s.storeAt pl v).reg x = s.reg x := rfl
@[simp] theorem State.storeAt_executed (s : State) (pl : Place) (v : Word) : (s.storeAt pl v).executed = s.executed := rfl

/-! ## `State.fillFresh` -/

@[simp] theorem State.fillFresh_cfg (s : State) (f : Nat) : (s.fillFresh f).cfg = s.cfg :=
    by unfold State.fillFresh; split <;> rfl
@[simp] theorem State.fillFresh_regs (s : State) (f : Nat) : (s.fillFresh f).regs = s.regs :=
    by unfold State.fillFresh; split <;> rfl
@[simp] theorem State.fillFresh_pc (s : State) (f : Nat) : (s.fillFresh f).pc = s.pc := by unfold State.fillFresh; split <;> rfl
@[simp] theorem State.fillFresh_flags (s : State) (f : Nat) : (s.fillFresh f).flags = s.flags :=
    by unfold State.fillFresh; split <;> rfl
@[simp] theorem State.fillFresh_execState (s : State) (f : Nat) : (s.fillFresh f).execState = s.execState :=
    by unfold State.fillFresh; split <;> rfl
@[simp] theorem State.fillFresh_cycles (s : State) (f : Nat) : (s.fillFresh f).cycles = s.cycles :=
    by unfold State.fillFresh; split <;> rfl
@[simp] theorem State.fillFresh_lastResult (s : State) (f : Nat) : (s.fillFresh f).lastResult = s.lastResult :=
    by unfold State.fillFresh; split <;> rfl
@[simp] theorem State.fillFresh_activeRun (s : State) (f : Nat) : (s.fillFresh f).activeRun = s.activeRun :=
    by unfold State.fillFresh; split <;> rfl
@[simp] theorem State.fillFresh_rom (s : State) (f : Nat) : (s.fillFresh f).rom = s.rom :=
    by unfold State.fillFresh; split <;> rfl
@[simp] theorem State.fillFresh_disk (s : State) (f : Nat) : (s.fillFresh f).disk = s.disk :=
    by unfold State.fillFresh; split <;> rfl
@[simp] theorem State.fillFresh_userFree (s : State) (f : Nat) : (s.fillFresh f).userFree = s.userFree :=
    by unfold State.fillFresh; split <;> rfl
@[simp] theorem State.fillFresh_kernelFree (s : State) (f : Nat) : (s.fillFresh f).kernelFree = s.kernelFree :=
    by unfold State.fillFresh; split <;> rfl
@[simp] theorem State.fillFresh_diskFree (s : State) (f : Nat) : (s.fillFresh f).diskFree = s.diskFree :=
    by unfold State.fillFresh; split <;> rfl
@[simp] theorem State.fillFresh_frameRef (s : State) (f : Nat) : (s.fillFresh f).frameRef = s.frameRef :=
    by unfold State.fillFresh; split <;> rfl
@[simp] theorem State.fillFresh_diskRef (s : State) (f : Nat) : (s.fillFresh f).diskRef = s.diskRef :=
    by unfold State.fillFresh; split <;> rfl
@[simp] theorem State.fillFresh_procs (s : State) (f : Nat) : (s.fillFresh f).procs = s.procs :=
    by unfold State.fillFresh; split <;> rfl
@[simp] theorem State.fillFresh_current (s : State) (f : Nat) : (s.fillFresh f).current = s.current :=
    by unfold State.fillFresh; split <;> rfl
@[simp] theorem State.fillFresh_nextPid (s : State) (f : Nat) : (s.fillFresh f).nextPid = s.nextPid :=
    by unfold State.fillFresh; split <;> rfl
@[simp] theorem State.fillFresh_reg (s : State) (f : Nat) (x : Reg) : (s.fillFresh f).reg x = s.reg x :=
    by unfold State.fillFresh; split <;> rfl
@[simp] theorem State.fillFresh_executed (s : State) (f : Nat) : (s.fillFresh f).executed = s.executed :=
    by unfold State.fillFresh; split <;> rfl

/-! ## `State.addReference` -/

@[simp] theorem State.addReference_cfg (s : State) (l : Loc) : (s.addReference l).cfg = s.cfg := by cases l <;> rfl
@[simp] theorem State.addReference_regs (s : State) (l : Loc) : (s.addReference l).regs = s.regs := by cases l <;> rfl
@[simp] theorem State.addReference_pc (s : State) (l : Loc) : (s.addReference l).pc = s.pc := by cases l <;> rfl
@[simp] theorem State.addReference_flags (s : State) (l : Loc) : (s.addReference l).flags = s.flags := by cases l <;> rfl
@[simp] theorem State.addReference_execState (s : State) (l : Loc) : (s.addReference l).execState = s.execState :=
    by cases l <;> rfl
@[simp] theorem State.addReference_cycles (s : State) (l : Loc) : (s.addReference l).cycles = s.cycles := by cases l <;> rfl
@[simp] theorem State.addReference_lastResult (s : State) (l : Loc) : (s.addReference l).lastResult = s.lastResult :=
    by cases l <;> rfl
@[simp] theorem State.addReference_activeRun (s : State) (l : Loc) : (s.addReference l).activeRun = s.activeRun :=
    by cases l <;> rfl
@[simp] theorem State.addReference_rom (s : State) (l : Loc) : (s.addReference l).rom = s.rom := by cases l <;> rfl
@[simp] theorem State.addReference_ram (s : State) (l : Loc) : (s.addReference l).ram = s.ram := by cases l <;> rfl
@[simp] theorem State.addReference_disk (s : State) (l : Loc) : (s.addReference l).disk = s.disk := by cases l <;> rfl
@[simp] theorem State.addReference_userFree (s : State) (l : Loc) : (s.addReference l).userFree = s.userFree := by cases l <;> rfl
@[simp] theorem State.addReference_kernelFree (s : State) (l : Loc) : (s.addReference l).kernelFree = s.kernelFree :=
    by cases l <;> rfl
@[simp] theorem State.addReference_diskFree (s : State) (l : Loc) : (s.addReference l).diskFree = s.diskFree := by cases l <;> rfl
@[simp] theorem State.addReference_procs (s : State) (l : Loc) : (s.addReference l).procs = s.procs := by cases l <;> rfl
@[simp] theorem State.addReference_current (s : State) (l : Loc) : (s.addReference l).current = s.current := by cases l <;> rfl
@[simp] theorem State.addReference_nextPid (s : State) (l : Loc) : (s.addReference l).nextPid = s.nextPid := by cases l <;> rfl
@[simp] theorem State.addReference_freeDraws (s : State) (l : Loc) : (s.addReference l).freeDraws = s.freeDraws :=
    by cases l <;> rfl
@[simp] theorem State.addReference_reg (s : State) (l : Loc) (x : Reg) : (s.addReference l).reg x = s.reg x := by cases l <;> rfl
@[simp] theorem State.addReference_executed (s : State) (l : Loc) : (s.addReference l).executed = s.executed := by cases l <;> rfl
@[simp] theorem State.addReference_byteAt (s : State) (l : Loc) (dev : Device) (o : Nat) : (s.addReference l).byteAt dev o = s.byteAt dev o :=
    by cases l <;> rfl

/-! ## Derived reads of updates that write them -/

@[simp] theorem State.retire_executed (s : State) (op : Opcode) : (s.retire op).executed = s.executed + 1 := rfl
@[simp] theorem State.redirect_executed (s : State) (i : Instr) (target : Word) :
    (s.redirect i target).executed = s.executed + 1 := rfl
@[simp] theorem State.advance_executed (s : State) (i : Instr) : (s.advance i).executed = s.executed + 1 := rfl
@[simp] theorem State.resume_executed (s : State) : s.resume.executed = s.executed := rfl
@[simp] theorem State.endRun_executed (s : State) (e : RunEnd) : (s.endRun e).executed = 0 := rfl

/-- A register reads what was last written to it, and no other register changes (10_state.md R20). -/
theorem State.reg_setReg (s : State) (r : Reg) (v : Word) (x : Reg) :
    (s.setReg r v).reg x = if x = r then v else s.reg x := by
  simp only [State.reg, State.setReg, Vector.getElem_set]
  by_cases h : x = r
  · subst h; simp
  · have : ¬ r.toNat = x.toNat := fun e => h (BitVec.eq_of_toNat_eq e.symm)
    simp [h, this]

@[simp] theorem State.reg_setReg_same (s : State) (r : Reg) (v : Word) : (s.setReg r v).reg r = v := by
  simp [State.reg_setReg]

theorem State.reg_setReg_ne (s : State) {r x : Reg} (v : Word) (h : x ≠ r) : (s.setReg r v).reg x = s.reg x := by
  simp [State.reg_setReg, h]

/-- The base register after a load or store (44_memory.md R210). -/
theorem State.reg_writeBack (s : State) (xn : Reg) (am : AddrMode) (v : Word) (x : Reg) :
    (s.writeBack xn am v).reg x = if x = xn ∧ am ≠ .offsetOnly then v else s.reg x := by
  cases am <;> simp [State.writeBack, State.reg_setReg]

end Sys2Proof.Machine
end

