-- ==== Sys2Proof/Laws/Ops.lean ====
section
/-! SUPPORT. What each shared way of completing an instruction does, and what taking a fault does. -/

namespace Sys2Proof.Machine

/-! ## Frames -/

theorem SameBytes.refl (s : State) : SameBytes s s := fun _ _ => rfl

theorem SameMmu.refl (s : State) : SameMmu s s := ⟨rfl, rfl, rfl, rfl, rfl, rfl, rfl, rfl⟩

theorem SameCore.refl (s : State) : SameCore s s := ⟨fun _ => rfl, rfl, rfl, rfl⟩

/-- Completing an instruction without a target: the pc advances, the instruction is counted, nothing else changes. -/
theorem advance_coreOnly (s : State) (i : Instr) : CoreOnly i s (s.advance i) :=
  ⟨⟨rfl, rfl⟩, ⟨rfl, rfl, rfl, rfl⟩, fun d _ => by cases d <;> rfl, ⟨rfl, rfl, rfl, rfl, rfl, rfl, rfl, rfl⟩⟩

theorem redirect_coreOnly (s : State) (i : Instr) (target : Word) : CoreOnly i s (s.redirect i target) :=
  ⟨⟨rfl, rfl⟩, ⟨rfl, rfl, rfl, rfl⟩, fun d _ => by cases d <;> rfl, ⟨rfl, rfl, rfl, rfl, rfl, rfl, rfl, rfl⟩⟩

/-- A register and the flags written, and the instruction completed: the whole effect of the register instructions. -/
theorem writeback_coreOnly (s : State) (i : Instr) (xd : Reg) (v : Word) (fl : Flags) :
    CoreOnly i s (((s.setReg xd v).setFlags fl).advance i) :=
  ⟨⟨rfl, rfl⟩, ⟨rfl, rfl, rfl, rfl⟩, fun d _ => by cases d <;> rfl, ⟨rfl, rfl, rfl, rfl, rfl, rfl, rfl, rfl⟩⟩

theorem writeback_sameRegsBut (s : State) (i : Instr) (xd : Reg) (v : Word) (fl : Flags) :
    SameRegsBut s (((s.setReg xd v).setFlags fl).advance i) [xd] := by
  intro r hr
  rw [State.advance_reg, State.setFlags_reg, State.reg_setReg_ne s v (by simpa using hr)]

/-- The one shape of a register instruction's completion, for `Computes`. -/
theorem computes_of_eq {i : Instr} {s : State} {xd : Reg} {v : Word} {fl : Flags}
    (h : exec i s = .next (((s.setReg xd v).setFlags fl).advance i)) : Computes i s xd v fl :=
  ⟨_, h, by simp, writeback_sameRegsBut s i xd v fl, rfl, rfl, writeback_coreOnly s i xd v fl⟩

/-- The one shape of a compare's completion, for `Compares`. -/
theorem compares_of_eq {i : Instr} {s : State} {fl : Flags} (h : exec i s = .next ((s.setFlags fl).advance i)) :
    Compares i s fl :=
  ⟨_, h, fun r _ => by simp, rfl, rfl, ⟨rfl, rfl⟩, ⟨rfl, rfl, rfl, rfl⟩, fun d _ => by cases d <;> rfl,
    ⟨rfl, rfl, rfl, rfl, rfl, rfl, rfl, rfl⟩⟩

/-! ## Taking a fault -/

/-- Taking a fault answers a next state, with the fault taken and nothing else changed. -/
theorem takeFault_spec (c : FaultCause) (w : Option Word) (s : State) :
    ∃ t, takeFault c w s = .next t ∧ TookFault c w s t :=
  ⟨_, rfl, rfl, rfl, rfl, ⟨fun _ => rfl, rfl, rfl, rfl⟩, rfl, rfl, fun d _ => by cases d <;> rfl,
    ⟨rfl, rfl, rfl, rfl, rfl, rfl, rfl, rfl⟩⟩

theorem takeFault_next {c : FaultCause} {w : Option Word} {s t : State} (h : takeFault c w s = .next t) :
    TookFault c w s t := by
  obtain ⟨u, hu, ht⟩ := takeFault_spec c w s
  rw [hu] at h; cases h; exact ht

end Sys2Proof.Machine
end

