-- ==== Sys2Proof/Laws/Mmu.lean ====
section
/-! SUPPORT. What each shared operation of the MMU can do: one lemma that says all of it, and what every translation leaves. -/

namespace Sys2Proof.Machine

/-! ## Reads of written MMU data -/

theorem State.pool_setPool (s : State) (p q : Pool) (free : List Nat) :
    (s.setPool p free).pool q = if q = p then free else s.pool q := by
  cases p <;> cases q <;> rfl

theorem State.frameRefOf_setFrameRef (s : State) (f n g : Nat) :
    (s.setFrameRef f n).frameRefOf g = if g = f then n else s.frameRefOf g := assocFind_set 0 s.frameRef f n g

theorem State.diskRefOf_setDiskRef (s : State) (d n x : Nat) :
    (s.setDiskRef d n).diskRefOf x = if x = d then n else s.diskRefOf x := assocFind_set 0 s.diskRef d n x

theorem State.table_setTable (s : State) (pid : Nat) (t : PageTable) (pid' : Nat) :
    (s.setTable pid t).table pid' = if pid' = pid then t else s.table pid' := by
  unfold State.table State.setTable
  rw [assocFind_put]; split <;> rfl

theorem State.live_setTable (s : State) (pid : Nat) (t : PageTable) (pid' : Nat) :
    (s.setTable pid t).live pid' = if pid' = pid then true else s.live pid' := by
  unfold State.live State.setTable
  rw [assocFind_put]; split <;> rfl

/-- The entry of page `p'` of process `pid'` after an entry of the current process is written. -/
theorem State.find_setEntry (s : State) (p : Nat) (e : Pte) (pid' p' : Nat) :
    assocFind ((s.setEntry p e).table pid') p' =
      if s.current = some pid' ∧ p' = p then some e else assocFind (s.table pid') p' := by
  unfold State.setEntry
  split
  · next h => simp [h]
  · next pid h =>
    rw [State.table_setTable]
    by_cases hp : pid' = pid
    · subst hp; rw [if_pos rfl, assocFind_put]; simp [h]
    · have hn : ¬ pid = pid' := fun h => hp h.symm
      simp [hp, h, hn]

/-- The new location of an entry when every entry at `old` moves to `new` (20_memory.md R91, R98). -/
def movedTo (old new : Loc) (e : Pte) : Pte := if e.loc = old then { e with loc := new } else e

theorem State.find_relocate (s : State) (old new : Loc) (pid p : Nat) :
    assocFind ((s.relocate old new).table pid) p = (assocFind (s.table pid) p).map (movedTo old new) := by
  unfold State.table State.relocate
  rw [assocFind_map]
  cases assocFind s.procs pid with
  | none => rfl
  | some t => simp only [Option.map_some, Option.getD_some]; exact assocFind_map (movedTo old new) t p

theorem State.live_relocate (s : State) (old new : Loc) (pid : Nat) : (s.relocate old new).live pid = s.live pid := by
  unfold State.live State.relocate
  rw [assocFind_map]; cases assocFind s.procs pid <;> rfl

@[simp] theorem movedTo_write (old new : Loc) (e : Pte) : (movedTo old new e).write = e.write := by
  unfold movedTo; split <;> rfl
@[simp] theorem movedTo_execute (old new : Loc) (e : Pte) : (movedTo old new e).execute = e.execute := by
  unfold movedTo; split <;> rfl
@[simp] theorem movedTo_kernel (old new : Loc) (e : Pte) : (movedTo old new e).kernel = e.kernel := by
  unfold movedTo; split <;> rfl
@[simp] theorem movedTo_cow (old new : Loc) (e : Pte) : (movedTo old new e).cow = e.cow := by
  unfold movedTo; split <;> rfl

theorem State.entry_of_current {s : State} {pid : Nat} (h : s.current = some pid) (p : Nat) :
    s.entry p = assocFind (s.table pid) p := by simp [State.entry, h]

theorem State.entry_some {s : State} {p : Nat} {e : Pte} (h : s.entry p = some e) :
    ∃ pid, s.current = some pid ∧ s.live pid = true ∧ assocFind (s.table pid) p = some e := by
  unfold State.entry at h
  split at h
  · cases h
  · next pid hc =>
    refine ⟨pid, hc, ?_, h⟩
    unfold State.table at h
    unfold State.live
    cases hp : assocFind s.procs pid with
    | none => rw [hp] at h; simp at h
    | some t => rfl

/-! ## Pools -/

/-- `allocate_one` that answers takes the head of the pool. -/
theorem State.allocateOne_ok {s t : State} {p : Pool} {n : Nat} (h : s.allocateOne p = .ok (n, t)) :
    ∃ free, s.pool p = n :: free ∧ t = s.setPool p free := by
  unfold State.allocateOne at h
  split at h
  · cases h
  · next m free hp => cases h; exact ⟨free, hp, rfl⟩

theorem State.allocateOne_error {s : State} {p : Pool} {e : CtlError} (h : s.allocateOne p = .error e) :
    s.pool p = [] ∧ e = .resourceExhausted p := by
  unfold State.allocateOne at h
  split at h
  · next hp => cases h; exact ⟨hp, rfl⟩
  · cases h

/-- `return_one` that answers puts a page of the range that was not free into the pool. -/
theorem State.returnOne_ok {s t : State} {p : Pool} {n : Nat} (h : s.returnOne p n = .ok t) :
    inPoolRange s.cfg p n = true ∧ n ∉ s.pool p ∧ t = s.setPool p (sortedInsert (s.pool p) n) := by
  unfold State.returnOne at h
  split at h
  · next hr =>
    split at h
    · cases h
    · next hn => cases h; exact ⟨hr, hn, rfl⟩
  · cases h

theorem State.returnOne_error {s : State} {p : Pool} {n : Nat} {e : CtlError} (h : s.returnOne p n = .error e) :
    (inPoolRange s.cfg p n = false ∧ e = .invalidArgument) ∨
    (inPoolRange s.cfg p n = true ∧ n ∈ s.pool p ∧ e = .consistencyFault n) := by
  unfold State.returnOne at h
  split at h
  · next hr =>
    split at h
    · next hn => cases h; exact .inr ⟨hr, hn, rfl⟩
    · cases h
  · next hr => cases h; exact .inl ⟨by simpa using hr, rfl⟩

/-! ## Page-in and copy-on-write break -/

/-- The state a page-in of slot `d` into frame `f` leaves, before the slot returns to its pool (20_memory.md R91). -/
def State.paged (s : State) (kernel : Bool) (d f : Nat) (free : List Nat) : State :=
  ((((s.setPool (framePool kernel) free).copySlotToFrame d f).relocate (.disk d) (.frame f)).setFrameRef f
    (s.diskRefOf d)).setDiskRef d 0

/-- The entries after a page-in: every one on slot `d` is in frame `f`. -/
theorem State.find_paged (s : State) (kernel : Bool) (d f : Nat) (free : List Nat) (pid p : Nat) :
    assocFind ((s.paged kernel d f free).table pid) p =
      (assocFind (s.table pid) p).map (movedTo (.disk d) (.frame f)) := by
  have := State.find_relocate ((s.setPool (framePool kernel) free).copySlotToFrame d f) (.disk d) (.frame f) pid p
  simpa [State.paged, State.table] using this

/-- A page-in that answers: a frame of the pool is taken, and the slot returned. -/
theorem State.pageInSlot_ok {s t : State} {kernel : Bool} {d : Nat} (h : s.pageInSlot kernel d = .ok t) :
    ∃ f free, s.pool (framePool kernel) = f :: free ∧ (s.paged kernel d f free).returnOne .disk d = .ok t := by
  unfold State.pageInSlot at h
  split at h
  · cases h
  · next f s1 ha =>
    obtain ⟨free, hp, rfl⟩ := State.allocateOne_ok ha
    refine ⟨f, free, hp, ?_⟩
    simpa [State.paged, State.diskRefOf, State.setPool_diskRef] using h

theorem State.pageInSlot_error {s : State} {kernel : Bool} {d : Nat} {e : CtlError} (h : s.pageInSlot kernel d = .error e) :
    (s.pool (framePool kernel) = [] ∧ e = .resourceExhausted (framePool kernel)) ∨
    ∃ f free, s.pool (framePool kernel) = f :: free ∧ (s.paged kernel d f free).returnOne .disk d = .error e := by
  unfold State.pageInSlot at h
  split at h
  · next e' ha => cases h; exact .inl (State.allocateOne_error ha)
  · next f s1 ha =>
    obtain ⟨free, hp, rfl⟩ := State.allocateOne_ok ha
    refine .inr ⟨f, free, hp, ?_⟩
    simpa [State.paged, State.diskRefOf, State.setPool_diskRef] using h

/-- The page-in of an access: nothing for a resident page. -/
theorem State.bringIn_ok {s t : State} {e : Pte} (h : s.bringIn e = .ok t) :
    (∃ f, e.loc = .frame f ∧ t = s) ∨ ∃ d, e.loc = .disk d ∧ s.pageInSlot e.kernel d = .ok t := by
  unfold State.bringIn at h
  split at h
  · next f hf => cases h; exact .inl ⟨f, hf, rfl⟩
  · next d hd => exact .inr ⟨d, hd, h⟩

/-- The state a copy-on-write break into frame `g` leaves (20_memory.md R92). -/
def State.broken (s : State) (p : Nat) (e : Pte) (f g : Nat) (free : List Nat) : State :=
  ((((s.setPool (framePool e.kernel) free).copyFrame f g).setFrameRef f (s.frameRefOf f - 1)).setFrameRef g 1).setEntry p
    { e with loc := .frame g, cow := false }

/-- A copy-on-write break that answers: the last reference only loses its cow bit; another is copied to a frame of the pool. -/
theorem State.cowBreak_ok {s t : State} {p : Nat} {e : Pte} {f : Nat} (h : s.cowBreak p e f = .ok t) :
    (s.frameRefOf f ≤ 1 ∧ t = s.setEntry p { e with cow := false }) ∨
    (1 < s.frameRefOf f ∧ ∃ g free, s.pool (framePool e.kernel) = g :: free ∧ t = s.broken p e f g free) := by
  unfold State.cowBreak at h
  split at h
  · next hr =>
    split at h
    · cases h
    · next g s1 ha =>
      obtain ⟨free, hp, rfl⟩ := State.allocateOne_ok ha
      cases h
      refine .inr ⟨hr, g, free, hp, ?_⟩
      simp [State.broken, State.frameRefOf, State.setPool_frameRef]
  · next hr => cases h; exact .inl ⟨by omega, rfl⟩

theorem State.cowBreak_error {s : State} {p : Nat} {e : Pte} {f : Nat} {err : CtlError} (h : s.cowBreak p e f = .error err) :
    1 < s.frameRefOf f ∧ s.pool (framePool e.kernel) = [] ∧ err = .resourceExhausted (framePool e.kernel) := by
  unfold State.cowBreak at h
  split at h
  · next hr =>
    split at h
    · next e' ha => cases h; exact ⟨hr, State.allocateOne_error ha⟩
    · cases h
  · cases h

/-- The copy-on-write break of an access: nothing unless it writes to a resident cow entry. -/
theorem State.breakIfCow_ok {s t : State} {p : Nat} {writes : Bool} (h : s.breakIfCow p writes = .ok t) :
    (t = s ∧ ∀ e f, s.entry p = some e → e.loc = .frame f → writes = true → e.cow = false) ∨
    ∃ e f, s.entry p = some e ∧ e.loc = .frame f ∧ writes = true ∧ e.cow = true ∧ s.cowBreak p e f = .ok t := by
  unfold State.breakIfCow at h
  split at h
  · next e he =>
    split at h
    · next f hf =>
      split at h
      · next hc =>
        rw [Bool.and_eq_true] at hc
        exact .inr ⟨e, f, he, hf, hc.1, hc.2, h⟩
      · next hc =>
        cases h
        refine .inl ⟨rfl, fun e' f' he' _ hw => ?_⟩
        rw [he] at he'; cases he'; simpa [hw] using hc
    · next d hd =>
      cases h
      refine .inl ⟨rfl, fun e' f' he' hf' _ => ?_⟩
      rw [he] at he'; cases he'; rw [hd] at hf'; cases hf'
  · next hn => cases h; exact .inl ⟨rfl, fun e f he => by rw [hn] at he; cases he⟩

theorem State.breakIfCow_error {s : State} {p : Nat} {writes : Bool} {err : CtlError} (h : s.breakIfCow p writes = .error err) :
    ∃ e f, s.entry p = some e ∧ e.loc = .frame f ∧ writes = true ∧ e.cow = true ∧ s.cowBreak p e f = .error err := by
  unfold State.breakIfCow at h
  split at h
  · next e he =>
    split at h
    · next f hf =>
      split at h
      · next hc =>
        rw [Bool.and_eq_true] at hc
        exact ⟨e, f, he, hf, hc.1, hc.2, h⟩
      · cases h
    · cases h
  · cases h

/-! ## Translation -/

theorem mmuFailed_fault {α : Type} {s0 t : State} {e : CtlError} {c : FaultCause}
    (h : (mmuFailed s0 e : Access α) = .fault c t) : ∃ p, e = .resourceExhausted p ∧ c = .resourceExhausted p ∧ t = s0 := by
  cases e <;> simp only [mmuFailed] at h <;> first | (cases h; exact ⟨_, rfl, rfl, rfl⟩) | cases h

theorem mmuFailed_ne_ok {α : Type} {s0 t : State} {e : CtlError} {v : α} : (mmuFailed s0 e : Access α) ≠ .ok v t := by
  cases e <;> simp [mmuFailed]

/-- Making a page resident, when it answers: the page-in, then the break, and the entry's frame. -/
theorem State.makeResident_ok {s t : State} {p : Nat} {k : AccessKind} {e : Pte} {f : Nat}
    (h : s.makeResident p k e = .ok f t) :
    ∃ s1, s.bringIn e = .ok s1 ∧ s1.breakIfCow p k.writes = .ok t ∧ ∃ e', t.entry p = some e' ∧ e'.loc = .frame f := by
  unfold State.makeResident at h
  split at h
  · exact absurd h mmuFailed_ne_ok
  · next s1 h1 =>
    split at h
    · exact absurd h mmuFailed_ne_ok
    · next s2 h2 =>
      split at h
      · next f' _ _ _ _ he => cases h; exact ⟨s1, h1, h2, _, he, rfl⟩
      · cases h

/-- Making a page resident, when it faults: an empty pool, and the state as it was. -/
theorem State.makeResident_fault {s t : State} {p : Nat} {k : AccessKind} {e : Pte} {c : FaultCause}
    (h : s.makeResident p k e = .fault c t) : t = s ∧ ∃ q, c = .resourceExhausted q := by
  unfold State.makeResident at h
  split at h
  · obtain ⟨q, -, hc, ht⟩ := mmuFailed_fault h; exact ⟨ht, q, hc⟩
  · split at h
    · obtain ⟨q, -, hc, ht⟩ := mmuFailed_fault h; exact ⟨ht, q, hc⟩
    · split at h <;> cases h

/-- A translation that answers: a valid entry with the permission the kind needs, made resident. -/
theorem State.translate_ok {s t : State} {p : Nat} {k : AccessKind} {fa : Word} {f : Nat} (h : s.translate p k fa = .ok f t) :
    ∃ e, s.entry p = some e ∧ (k.writes = true → e.write = true) ∧ (k = .fetch → e.execute = true) ∧
      s.makeResident p k e = .ok f t := by
  unfold State.translate at h
  split at h
  · cases h
  · next e he =>
    split at h
    · cases h
    · next hw =>
      split at h
      · cases h
      · next hx =>
        refine ⟨e, he, fun hk => ?_, fun hk => ?_, h⟩
        · simpa [hk] using hw
        · subst hk; simpa using hx

/-- A translation that faults leaves the state as it was. -/
theorem State.translate_fault {s t : State} {p : Nat} {k : AccessKind} {fa : Word} {c : FaultCause}
    (h : s.translate p k fa = .fault c t) : t = s := by
  unfold State.translate at h
  split at h
  · cases h; rfl
  · split at h
    · cases h; rfl
    · split at h
      · cases h; rfl
      · exact (State.makeResident_fault h).1

/-! ## What a translation leaves -/

theorem TranslationFrame.refl (s : State) : TranslationFrame s s :=
  ⟨SameCore.refl s, ⟨rfl, rfl, rfl, rfl⟩, rfl, ⟨rfl, rfl, fun _ => rfl⟩, fun _ => rfl, fun _ => rfl, fun _ h => h,
    fun _ h => h, fun _ _ _ => rfl, fun _ _ => rfl⟩

theorem TranslationFrame.trans {s t u : State} (h : TranslationFrame s t) (k : TranslationFrame t u) : TranslationFrame s u where
  core := ⟨fun r => (k.core.1 r).trans (h.core.1 r), k.core.2.1.trans h.core.2.1, k.core.2.2.1.trans h.core.2.2.1,
    k.core.2.2.2.trans h.core.2.2.2⟩
  engine := ⟨k.engine.1.trans h.engine.1, k.engine.2.1.trans h.engine.2.1, k.engine.2.2.1.trans h.engine.2.2.1,
    k.engine.2.2.2.trans h.engine.2.2.2⟩
  run := k.run.trans h.run
  processes := ⟨k.processes.1.trans h.processes.1, k.processes.2.1.trans h.processes.2.1,
    fun pid => (k.processes.2.2 pid).trans (h.processes.2.2 pid)⟩
  rom := fun o => (k.rom o).trans (h.rom o)
  disk := fun o => (k.disk o).trans (h.disk o)
  userShrinks := fun f hf => h.userShrinks f (k.userShrinks f hf)
  kernelShrinks := fun f hf => h.kernelShrinks f (k.kernelShrinks f hf)
  ram := fun o hu hk => by
    rw [k.ram o, h.ram o hu hk]
    · rw [h.engine.1]; exact fun hf => hu (h.userShrinks _ hf)
    · rw [h.engine.1]; exact fun hf => hk (h.kernelShrinks _ hf)
  permissions := fun pid p => (k.permissions pid p).trans (h.permissions pid p)

/-- A copy of a page into frame `f` changes the bytes of frame `f` only. -/
theorem read_copy_ne_frame {m src : Memory} {ps f lo off : Nat} (h : off / ps ≠ f) :
    (m.copy (f * ps) ps src lo).read off = m.read off := by
  rw [Memory.read_copy, if_neg]
  rintro ⟨h1, h2⟩
  exact h (Nat.div_eq_of_lt_le h1 (by rwa [Nat.add_mul, Nat.one_mul]))

theorem mem_setPool_user {s : State} {q : Pool} {n f : Nat} {free : List Nat} (hp : s.pool q = n :: free)
    (h : f ∈ (s.setPool q free).userFree) : f ∈ s.userFree := by
  cases q <;> simp_all [State.pool, State.setPool]

theorem mem_setPool_kernel {s : State} {q : Pool} {n f : Nat} {free : List Nat} (hp : s.pool q = n :: free)
    (h : f ∈ (s.setPool q free).kernelFree) : f ∈ s.kernelFree := by
  cases q <;> simp_all [State.pool, State.setPool]

/-- The head of a frame pool is a free frame. -/
theorem head_mem_free {s : State} {k : Bool} {n : Nat} {free : List Nat} (hp : s.pool (framePool k) = n :: free) :
    n ∈ s.userFree ∨ n ∈ s.kernelFree := by
  cases k <;> simp_all [State.pool, framePool]

theorem setPool_disk_frames (s : State) (free : List Nat) :
    (s.setPool .disk free).userFree = s.userFree ∧ (s.setPool .disk free).kernelFree = s.kernelFree := ⟨rfl, rfl⟩

/-- A page-in changes only what a translation may (20_memory.md R69, R91). -/
theorem State.pageInSlot_frame {s t : State} {kernel : Bool} {d : Nat} (h : s.pageInSlot kernel d = .ok t) :
    TranslationFrame s t := by
  obtain ⟨f, free, hp, hr⟩ := State.pageInSlot_ok h
  obtain ⟨-, -, rfl⟩ := State.returnOne_ok hr
  refine ⟨⟨fun r => ?_, ?_, ?_, ?_⟩, ⟨?_, ?_, ?_, ?_⟩, ?_, ⟨?_, ?_, fun pid => ?_⟩, fun o => ?_, fun o => ?_, fun g hg => ?_,
    fun g hg => ?_, fun o hu hk => ?_, fun pid p => ?_⟩
  all_goals try simp only [State.paged, State.setPool_reg, State.setDiskRef_reg, State.setFrameRef_reg, State.relocate_reg,
    State.copySlotToFrame_reg]
  all_goals try (simp; done)
  · simp only [State.live, State.setPool_procs, State.setDiskRef_procs, State.setFrameRef_procs]
    change State.live _ pid = State.live _ pid
    rw [State.live_relocate]; simp [State.live]
  · simp [State.byteAt, State.device]
  · simp [State.byteAt, State.device]
  · exact mem_setPool_user hp (by simpa [State.paged, State.setPool] using hg)
  · exact mem_setPool_kernel hp (by simpa [State.paged, State.setPool] using hg)
  · simp only [State.byteAt, State.device, State.setPool_ram, State.setDiskRef_ram, State.setFrameRef_ram,
      State.relocate_ram, State.copySlotToFrame_ram, State.setPool_cfg]
    refine read_copy_ne_frame fun he => ?_
    rcases head_mem_free hp with hf | hf
    · exact hu (he ▸ hf)
    · exact hk (he ▸ hf)
  · change Option.map _ (assocFind ((s.paged kernel d f free).table pid) p) = _
    rw [State.find_paged]
    cases assocFind (s.table pid) p <;> simp

/-- Writing the current process's entry of a mapped page keeps every permission and every process. -/
theorem setEntry_permissions {s u : State} {p : Nat} {e e' : Pte} (hp : u.procs = s.procs) (hc : u.current = s.current)
    (he : s.entry p = some e) (hw : (e'.write, e'.execute, e'.kernel) = (e.write, e.execute, e.kernel)) :
    (∀ pid, (u.setEntry p e').live pid = s.live pid) ∧
    ∀ pid x, (assocFind ((u.setEntry p e').table pid) x).map (fun e => (e.write, e.execute, e.kernel)) =
      (assocFind (s.table pid) x).map fun e => (e.write, e.execute, e.kernel) := by
  obtain ⟨pid0, hcur, hlive, hfind⟩ := State.entry_some he
  have ht : ∀ pid, u.table pid = s.table pid := fun pid => by simp [State.table, hp]
  constructor
  · intro pid
    unfold State.setEntry
    rw [hc, hcur]
    simp only
    rw [State.live_setTable]
    split
    · next h => rw [h, hlive]
    · simp [State.live, hp]
  · intro pid x
    rw [State.find_setEntry, hc, hcur, ht]
    split
    · next h => obtain ⟨h1, rfl⟩ := h; cases h1; rw [hfind]; simpa using hw
    · rfl

/-- A copy-on-write break changes only what a translation may (20_memory.md R69, R92). -/
theorem State.cowBreak_frame {s t : State} {p : Nat} {e : Pte} {f : Nat} (he : s.entry p = some e)
    (h : s.cowBreak p e f = .ok t) : TranslationFrame s t := by
  rcases State.cowBreak_ok h with ⟨-, rfl⟩ | ⟨-, g, free, hp, rfl⟩
  · obtain ⟨h1, h2⟩ := setEntry_permissions (s := s) (u := s) (e' := { e with cow := false }) rfl rfl he rfl
    exact ⟨⟨fun r => by simp, by simp, by simp, by simp⟩, ⟨by simp, by simp, by simp, by simp⟩, by simp, ⟨by simp, by simp, h1⟩,
      fun o => by simp, fun o => by simp, fun x hx => by simpa using hx, fun x hx => by simpa using hx,
      fun o _ _ => by simp, h2⟩
  · obtain ⟨h1, h2⟩ := setEntry_permissions (s := s)
      (u := (((s.setPool (framePool e.kernel) free).copyFrame f g).setFrameRef f (s.frameRefOf f - 1)).setFrameRef g 1)
      (e' := { e with loc := .frame g, cow := false }) (by simp) (by simp) he rfl
    refine ⟨⟨fun r => by simp [State.broken], by simp [State.broken], by simp [State.broken], by simp [State.broken]⟩,
      ⟨by simp [State.broken], by simp [State.broken], by simp [State.broken], by simp [State.broken]⟩, by simp [State.broken],
      ⟨by simp [State.broken], by simp [State.broken], h1⟩, fun o => ?_, fun o => ?_, fun x hx => ?_, fun x hx => ?_,
      fun o hu hk => ?_, h2⟩
    · simp [State.byteAt, State.device, State.broken]
    · simp [State.byteAt, State.device, State.broken]
    · exact mem_setPool_user hp (by simpa [State.broken] using hx)
    · exact mem_setPool_kernel hp (by simpa [State.broken] using hx)
    · simp only [State.byteAt, State.device, State.broken, State.setEntry_ram, State.setFrameRef_ram, State.copyFrame_ram,
        State.setPool_cfg, State.setPool_ram]
      refine read_copy_ne_frame fun hg => ?_
      rcases head_mem_free hp with hf | hf
      · exact hu (hg ▸ hf)
      · exact hk (hg ▸ hf)

theorem State.makeResident_frame {s t : State} {p : Nat} {k : AccessKind} {e : Pte} {f : Nat}
    (h : s.makeResident p k e = .ok f t) : TranslationFrame s t := by
  obtain ⟨s1, h1, h2, -⟩ := State.makeResident_ok h
  refine TranslationFrame.trans (t := s1) ?_ ?_
  · rcases State.bringIn_ok h1 with ⟨-, -, rfl⟩ | ⟨d, -, hd⟩
    · exact .refl _
    · exact State.pageInSlot_frame hd
  · rcases State.breakIfCow_ok h2 with ⟨rfl, -⟩ | ⟨e', f', he', -, -, -, hb⟩
    · exact .refl _
    · exact State.cowBreak_frame he' hb

/-- A translation, whether it answers or faults, changes only what a translation may. -/
theorem State.translate_frame {s t : State} {p : Nat} {k : AccessKind} {fa : Word} {f : Nat}
    (h : s.translate p k fa = .ok f t) : TranslationFrame s t := by
  obtain ⟨e, -, -, -, hm⟩ := State.translate_ok h
  exact State.makeResident_frame hm

theorem State.translate_fault_frame {s t : State} {p : Nat} {k : AccessKind} {fa : Word} {c : FaultCause}
    (h : s.translate p k fa = .fault c t) : TranslationFrame s t := by
  rw [State.translate_fault h]; exact .refl s

end Sys2Proof.Machine
end

