-- ==== Sys2Proof/Laws/Bus.lean ====
section
/-! SUPPORT. What each shared operation of the bus can do: where an access goes, what it answers, and what it leaves. -/

namespace Sys2Proof.Machine

/-! ## The construction checks, one by one -/

theorem cfg_pageSize_ge {p : Params} (h : p.ok = true) : 16 ≤ p.pageSize := by
  simp only [Params.ok, Bool.and_eq_true, decide_eq_true_eq] at h; omega

theorem cfg_ram_multiple {p : Params} (h : p.ok = true) : p.ramSize % p.pageSize = 0 := by
  simp only [Params.ok, Bool.and_eq_true, decide_eq_true_eq, beq_iff_eq] at h; omega

theorem cfg_vm_multiple {p : Params} (h : p.ok = true) : p.vmSize % p.pageSize = 0 := by
  simp only [Params.ok, Bool.and_eq_true, decide_eq_true_eq, beq_iff_eq] at h; omega

/-- The three ranges are disjoint and end at 2^32 at the latest. -/
theorem cfg_ranges {p : Params} (h : p.ok = true) :
    (p.romBase + p.romSize ≤ p.ramBase ∨ p.ramBase + p.ramSize ≤ p.romBase ∨ p.romSize = 0 ∨ p.ramSize = 0) ∧
    (p.romBase + p.romSize ≤ p.vmBase ∨ p.vmBase + p.vmSize ≤ p.romBase ∨ p.romSize = 0 ∨ p.vmSize = 0) ∧
    (p.ramBase + p.ramSize ≤ p.vmBase ∨ p.vmBase + p.vmSize ≤ p.ramBase ∨ p.ramSize = 0 ∨ p.vmSize = 0) ∧
    p.romBase + p.romSize ≤ 2 ^ 32 ∧ p.ramBase + p.ramSize ≤ 2 ^ 32 ∧ p.vmBase + p.vmSize ≤ 2 ^ 32 := by
  simp only [Params.ok, disjointRanges, Bool.and_eq_true, Bool.or_eq_true, decide_eq_true_eq, beq_iff_eq] at h
  omega

/-- The frame ranges of the pools lie inside RAM and are disjoint. -/
theorem cfg_pools {p : Params} (h : p.ok = true) :
    p.userLow ≤ p.userHigh ∧ p.userHigh < p.ramPages ∧ p.kernelLow ≤ p.kernelHigh ∧ p.kernelHigh < p.ramPages ∧
    (p.userHigh < p.kernelLow ∨ p.kernelHigh < p.userLow) := by
  simp only [Params.ok, Bool.and_eq_true, Bool.or_eq_true, decide_eq_true_eq] at h
  omega

/-! ## Routing -/

/-- Every answer of `route`, with what it says of the address (20_memory.md R73). -/
theorem route_cases (cfg : Params) (a : Word) (n : Nat) (k : AccessKind) :
    (∃ off, route cfg a n k = .rom off ∧ k.writes = false ∧ a.toNat + n - 1 ≤ 0xFFFFFFFF ∧
      cfg.romBase ≤ a.toNat ∧ a.toNat + n - 1 < cfg.romBase + cfg.romSize ∧ off = a.toNat - cfg.romBase) ∨
    (∃ off, route cfg a n k = .ram off ∧ a.toNat + n - 1 ≤ 0xFFFFFFFF ∧
      cfg.ramBase ≤ a.toNat ∧ a.toNat + n - 1 < cfg.ramBase + cfg.ramSize ∧ off = a.toNat - cfg.ramBase) ∨
    (route cfg a n k = .vm ∧ a.toNat + n - 1 ≤ 0xFFFFFFFF ∧
      cfg.vmBase ≤ a.toNat ∧ a.toNat + n - 1 < cfg.vmBase + cfg.vmSize) ∨
    ∃ c, route cfg a n k = .fault c ∧
      (c = .memoryOutOfBounds a ∨ (c = .writeToReadOnly a ∧ k.writes = true ∧ cfg.romBase ≤ a.toNat ∧
        a.toNat + n - 1 < cfg.romBase + cfg.romSize)) := by
  unfold route insideRange
  split
  · exact .inr (.inr (.inr ⟨_, rfl, .inl rfl⟩))
  · next hl =>
    split
    · next hr =>
      simp only [Bool.and_eq_true, decide_eq_true_eq] at hr
      split
      · next hw => exact .inr (.inr (.inr ⟨_, rfl, .inr ⟨rfl, hw, hr⟩⟩))
      · next hw => exact .inl ⟨_, rfl, by simpa using hw, by omega, hr.1, hr.2, rfl⟩
    · split
      · next hr =>
        simp only [Bool.and_eq_true, decide_eq_true_eq] at hr
        exact .inr (.inl ⟨_, rfl, by omega, hr.1, hr.2, rfl⟩)
      · split
        · next hr =>
          simp only [Bool.and_eq_true, decide_eq_true_eq] at hr
          exact .inr (.inr (.inl ⟨rfl, by omega, hr.1, hr.2⟩))
        · exact .inr (.inr (.inr ⟨_, rfl, .inl rfl⟩))

theorem route_rom {cfg : Params} {a : Word} {n : Nat} {k : AccessKind} (h1 : a.toNat + n - 1 ≤ 0xFFFFFFFF)
    (h2 : cfg.romBase ≤ a.toNat) (h3 : a.toNat + n - 1 < cfg.romBase + cfg.romSize) (hk : k.writes = false) :
    route cfg a n k = .rom (a.toNat - cfg.romBase) := by
  unfold route insideRange
  rw [if_neg (by omega), if_pos (by simp [h2, h3]), if_neg (by simp [hk])]

theorem route_ram {cfg : Params} (hok : cfg.ok = true) {a : Word} {n : Nat} {k : AccessKind} (hn : 1 ≤ n)
    (h1 : a.toNat + n - 1 ≤ 0xFFFFFFFF) (h2 : cfg.ramBase ≤ a.toNat) (h3 : a.toNat + n - 1 < cfg.ramBase + cfg.ramSize) :
    route cfg a n k = .ram (a.toNat - cfg.ramBase) := by
  have hr := cfg_ranges hok
  unfold route insideRange
  rw [if_neg (by omega), if_neg (by simp only [Bool.and_eq_true, decide_eq_true_eq]; omega), if_pos (by simp [h2, h3])]

theorem route_vm {cfg : Params} (hok : cfg.ok = true) {a : Word} {n : Nat} {k : AccessKind} (hn : 1 ≤ n)
    (h1 : a.toNat + n - 1 ≤ 0xFFFFFFFF) (h2 : cfg.vmBase ≤ a.toNat) (h3 : a.toNat + n - 1 < cfg.vmBase + cfg.vmSize) :
    route cfg a n k = .vm := by
  have hr := cfg_ranges hok
  unfold route insideRange
  rw [if_neg (by omega), if_neg (by simp only [Bool.and_eq_true, decide_eq_true_eq]; omega),
    if_neg (by simp only [Bool.and_eq_true, decide_eq_true_eq]; omega), if_pos (by simp [h2, h3])]

/-! ## Where an access goes -/

/-- An access in the VM window that answers: one translation, or two, and the offsets of its bytes (20_memory.md R89). -/
theorem State.resolveVm_ok {s t : State} {a : Word} {n : Nat} {k : AccessKind} {pl : Place}
    (h : s.resolveVm a n k = .ok pl t) :
    ∃ f0 s1, s.translate (vpageOf s.cfg a.toNat) k a = .ok f0 s1 ∧
      ((vpageOf s.cfg (a.toNat + n - 1) = vpageOf s.cfg a.toNat ∧ t = s1 ∧
          pl = { dev := .ram, offs := vmOffsets s.cfg a.toNat n (vpageOf s.cfg a.toNat) f0 f0 }) ∨
       (vpageOf s.cfg (a.toNat + n - 1) ≠ vpageOf s.cfg a.toNat ∧
        ∃ f1, s1.translate (vpageOf s.cfg (a.toNat + n - 1)) k
            (BitVec.ofNat 32 (s.cfg.vmBase + vpageOf s.cfg (a.toNat + n - 1) * s.cfg.pageSize)) = .ok f1 t ∧
          pl = { dev := .ram, offs := vmOffsets s.cfg a.toNat n (vpageOf s.cfg a.toNat) f0 f1 })) := by
  unfold State.resolveVm at h
  simp only at h
  split at h
  · cases h
  · cases h
  · next f0 s1 h0 =>
    have hc : s1.cfg = s.cfg := (State.translate_frame h0).engine.1
    split at h
    · next hp => cases h; exact ⟨f0, _, h0, .inl ⟨hp, rfl, rfl⟩⟩
    · next hp =>
      split at h
      · cases h
      · cases h
      · next f1 s2 h1 => cases h; exact ⟨f0, s1, h0, .inr ⟨hp, f1, h1, rfl⟩⟩

/-- Whatever an access in the VM window translates, it changes only what a translation may. -/
theorem State.resolveVm_frame {s : State} {a : Word} {n : Nat} {k : AccessKind} :
    (∀ pl t, s.resolveVm a n k = .ok pl t → TranslationFrame s t) ∧
    (∀ c t, s.resolveVm a n k = .fault c t → TranslationFrame s t) := by
  constructor
  · intro pl t h
    obtain ⟨f0, s1, h0, ⟨-, rfl, -⟩ | ⟨-, f1, h1, -⟩⟩ := State.resolveVm_ok h
    · exact State.translate_frame h0
    · exact (State.translate_frame h0).trans (State.translate_frame h1)
  · intro c t h
    unfold State.resolveVm at h
    simp only at h
    split at h
    · next h0 => cases h; exact State.translate_fault_frame h0
    · cases h
    · next f0 s1 h0 =>
      split at h
      · cases h
      · split at h
        · next h1 => cases h; exact (State.translate_frame h0).trans (State.translate_fault_frame h1)
        · cases h
        · cases h

/-- An access, whether it answers or faults, changes only what a translation may before its bytes are touched. -/
theorem State.resolve_frame {s : State} {a : Word} {n : Nat} {k : AccessKind} :
    (∀ pl t, s.resolve a n k = .ok pl t → TranslationFrame s t) ∧
    (∀ c t, s.resolve a n k = .fault c t → TranslationFrame s t) := by
  constructor
  · intro pl t h
    unfold State.resolve at h
    split at h
    · cases h
    · cases h; exact .refl s
    · cases h; exact .refl s
    · exact State.resolveVm_frame.1 _ _ h
  · intro c t h
    unfold State.resolve at h
    split at h
    · cases h; exact .refl s
    · cases h
    · cases h
    · exact State.resolveVm_frame.2 _ _ h

@[simp] theorem length_vmOffsets (cfg : Params) (a n p0 f0 f1 : Nat) : (vmOffsets cfg a n p0 f0 f1).length = n := by
  simp [vmOffsets]

/-- The place of an access has its `n` bytes, and the place of a write is in RAM. -/
theorem State.resolve_place {s t : State} {a : Word} {n : Nat} {k : AccessKind} {pl : Place} (h : s.resolve a n k = .ok pl t) :
    pl.offs.length = n ∧ (pl.dev = .ram ∨ (pl.dev = .rom ∧ k.writes = false)) := by
  unfold State.resolve at h
  rcases route_cases s.cfg a n k with ⟨off, hr, hk, -⟩ | ⟨off, hr, -⟩ | ⟨hr, -⟩ | ⟨c, hr, -⟩ <;> rw [hr] at h <;> simp only at h
  · cases h; exact ⟨by simp, .inr ⟨rfl, hk⟩⟩
  · cases h; exact ⟨by simp, .inl rfl⟩
  · obtain ⟨f0, s1, -, ⟨-, -, rfl⟩ | ⟨-, f1, -, rfl⟩⟩ := State.resolveVm_ok h <;> exact ⟨by simp, .inl rfl⟩
  · cases h

/-- A resident page with the permission the kind needs, and no copy-on-write break to make, translates to its frame and changes
nothing (20_memory.md R90). -/
theorem State.translate_resident {s : State} {p : Nat} {k : AccessKind} {e : Pte} {f : Nat} (he : s.entry p = some e)
    (hf : e.loc = .frame f) (hw : k.writes = true → e.write = true ∧ e.cow = false) (hx : k = .fetch → e.execute = true)
    (fa : Word) : s.translate p k fa = .ok f s := by
  have h1 : (k.writes && !e.write) = false := by
    cases hk : k.writes
    · rfl
    · simp [(hw hk).1]
  have h2 : (k == .fetch && !e.execute) = false := by
    cases hk : (k == AccessKind.fetch)
    · rfl
    · simp [hx (by simpa using hk)]
  have h3 : (k.writes && e.cow) = false := by
    cases hk : k.writes
    · rfl
    · simp [(hw hk).2]
  obtain ⟨loc, w, x, kn, c⟩ := e
  simp only at hf; subst hf
  simp only at h1 h2 h3
  unfold State.translate
  simp only [he, h1, h2, Bool.false_eq_true, if_false]
  unfold State.makeResident State.bringIn
  simp only [State.breakIfCow, he, h3, Bool.false_eq_true, if_false]

/-- After a translation the page is resident, with its permissions, and a write leaves it without its cow bit. -/
theorem State.translate_resident_after {s t : State} {p : Nat} {k : AccessKind} {fa : Word} {f : Nat}
    (h : s.translate p k fa = .ok f t) :
    ∃ e, t.entry p = some e ∧ e.loc = .frame f ∧ (k.writes = true → e.write = true ∧ e.cow = false) ∧
      (k = .fetch → e.execute = true) := by
  obtain ⟨e0, he0, hw, hx, hm⟩ := State.translate_ok h
  have hfr := State.makeResident_frame hm
  obtain ⟨s1, h1, h2, e, he, hf⟩ := State.makeResident_ok hm
  obtain ⟨pid, hc, -, hfind⟩ := State.entry_some he0
  have hce : t.current = some pid := hfr.processes.1.trans hc
  have hperm := hfr.permissions pid p
  rw [hfind, ← State.entry_of_current hce, he] at hperm
  simp only [Option.map_some, Option.some.injEq, Prod.mk.injEq] at hperm
  refine ⟨e, he, hf, fun hk => ⟨by rw [hperm.1]; exact hw hk, ?_⟩, fun hk => by rw [hperm.2.1]; exact hx hk⟩
  rcases State.breakIfCow_ok h2 with ⟨rfl, hn⟩ | ⟨e', f', he', hf', -, -, hb⟩
  · exact hn e f he hf hk
  · obtain ⟨pid', hc', -, -⟩ := State.entry_some he'
    have key : ∀ (u : State) (x : Pte), u.current = some pid' → (u.setEntry p x).entry p = some x := fun u x hu => by
      rw [State.entry_of_current (pid := pid') (by simpa using hu), State.find_setEntry, if_pos ⟨hu, rfl⟩]
    rcases State.cowBreak_ok hb with ⟨-, rfl⟩ | ⟨-, g, free, -, rfl⟩
    · rw [key _ _ hc'] at he; cases he; rfl
    · rw [State.broken, key _ _ (by simpa using hc')] at he; cases he; rfl

/-- A translation of one page leaves another resident page as it was. -/
theorem State.translate_other {s t : State} {p q : Nat} {k : AccessKind} {fa : Word} {f g : Nat} {e : Pte}
    (h : s.translate p k fa = .ok f t) (hq : q ≠ p) (he : s.entry q = some e) (hg : e.loc = .frame g) :
    t.entry q = some e := by
  obtain ⟨e0, -, -, -, hm⟩ := State.translate_ok h
  obtain ⟨s1, h1, h2, -⟩ := State.makeResident_ok hm
  obtain ⟨pid, hc, -, hfind⟩ := State.entry_some he
  have hs1 : s1.entry q = some e ∧ s1.current = some pid := by
    rcases State.bringIn_ok h1 with ⟨-, -, rfl⟩ | ⟨d, -, hd⟩
    · exact ⟨he, hc⟩
    · have hc1 := (State.pageInSlot_frame hd).processes.1.trans hc
      refine ⟨?_, hc1⟩
      obtain ⟨f', free, -, hr⟩ := State.pageInSlot_ok hd
      obtain ⟨-, -, rfl⟩ := State.returnOne_ok hr
      rw [State.entry_of_current hc1]
      change assocFind ((s.paged e0.kernel d f' free).table pid) q = some e
      rw [State.find_paged, hfind]
      simp [movedTo, hg]
  have hset : ∀ (u : State) (x : Pte), u.entry q = some e → u.current = some pid → (u.setEntry p x).entry q = some e := by
    intro u x hu hcu
    rw [State.entry_of_current (pid := pid) (by simpa using hcu), State.find_setEntry, if_neg (fun hh => hq hh.2),
      ← State.entry_of_current hcu, hu]
  rcases State.breakIfCow_ok h2 with ⟨rfl, -⟩ | ⟨e', f', -, -, -, -, hb⟩
  · exact hs1.1
  · rcases State.cowBreak_ok hb with ⟨-, rfl⟩ | ⟨-, g', free, -, rfl⟩
    · exact hset _ _ hs1.1 hs1.2
    · refine hset _ _ ?_ (by simpa using hs1.2)
      have := hs1.1
      simpa [State.entry, State.table] using this

/-- AN ACCESS THAT IS READY resolves to its bytes, with no fault and no change. -/
theorem State.resolve_ready {s : State} {a : Word} {n : Nat} {k : AccessKind} {d : Device} {offs : List Nat}
    (hok : s.cfg.ok = true) (h1 : 1 ≤ n) (h4 : n ≤ 4) (h : AccessReady s a n k d offs) :
    s.resolve a n k = .ok { dev := d, offs := offs } s := by
  obtain ⟨hw, hlen, h | h | h⟩ := h
  · obtain ⟨rfl, hk, hb, hs, ho⟩ := h
    unfold State.resolve
    rw [route_rom (by omega) hb (by omega) hk]
    have : List.range' (a.toNat - s.cfg.romBase) n = offs := by
      refine List.ext_getElem? fun j => ?_
      by_cases hj : j < n
      · rw [ho j hj, List.getElem?_range' hj]; congr 1; omega
      · rw [List.getElem?_eq_none (by simp; omega), List.getElem?_eq_none (by omega)]
    simp only [this]
  · obtain ⟨rfl, hb, hs, ho⟩ := h
    unfold State.resolve
    rw [route_ram hok h1 (by omega) hb (by omega)]
    have : List.range' (a.toNat - s.cfg.ramBase) n = offs := by
      refine List.ext_getElem? fun j => ?_
      by_cases hj : j < n
      · rw [ho j hj, List.getElem?_range' hj]; congr 1; omega
      · rw [List.getElem?_eq_none (by simp; omega), List.getElem?_eq_none (by omega)]
    simp only [this]
  · obtain ⟨rfl, hb, hs, ho⟩ := h
    have hps := cfg_pageSize_ge hok
    unfold State.resolve
    rw [route_vm hok h1 (by omega) hb (by omega)]
    simp only
    obtain ⟨e0, f0, he0, hf0, hw0, hx0, ho0⟩ := ho 0 (by omega)
    obtain ⟨e1, f1, he1, hf1, hw1, hx1, ho1⟩ := ho (n - 1) (by omega)
    have hp0 : vpageOf s.cfg a.toNat = (a.toNat + 0 - s.cfg.vmBase) / s.cfg.pageSize := by simp [vpageOf]
    have hp1 : vpageOf s.cfg (a.toNat + n - 1) = (a.toNat + (n - 1) - s.cfg.vmBase) / s.cfg.pageSize := by
      simp only [vpageOf]; congr 1; omega
    rw [← hp0] at he0
    rw [← hp1] at he1
    have hoffs : ∀ fa fb, (∀ j < n, ∃ e f, s.entry ((a.toNat + j - s.cfg.vmBase) / s.cfg.pageSize) = some e ∧
        e.loc = .frame f ∧ f = (if vpageOf s.cfg (a.toNat + j) = vpageOf s.cfg a.toNat then fa else fb)) →
        vmOffsets s.cfg a.toNat n (vpageOf s.cfg a.toNat) fa fb = offs := by
      intro fa fb hh
      refine List.ext_getElem? fun j => ?_
      by_cases hj : j < n
      · obtain ⟨e, f, he, hf, -, -, hoj⟩ := ho j hj
        obtain ⟨e', f', he', hf', hff⟩ := hh j hj
        rw [he] at he'; cases he'
        rw [hf] at hf'; cases hf'
        rw [hoj, vmOffsets, List.getElem?_map, List.getElem?_range' hj]
        simp only [Option.map_some, frameOffset, Nat.one_mul]
        rw [← hff]
      · rw [List.getElem?_eq_none (by simp; omega), List.getElem?_eq_none (by omega)]
    have hpage : ∀ j < n, vpageOf s.cfg (a.toNat + j) = vpageOf s.cfg a.toNat ∨
        vpageOf s.cfg (a.toNat + j) = vpageOf s.cfg (a.toNat + n - 1) := by
      intro j hj
      simp only [vpageOf]
      have e1 : a.toNat + j - s.cfg.vmBase = (a.toNat - s.cfg.vmBase) + j := by omega
      have e2 : a.toNat + n - 1 - s.cfg.vmBase = (a.toNat - s.cfg.vmBase) + (n - 1) := by omega
      rw [e1, e2]
      generalize a.toNat - s.cfg.vmBase = x
      have hd := Nat.div_add_mod x s.cfg.pageSize
      have hm := Nat.mod_lt x (show 0 < s.cfg.pageSize by omega)
      have hq : ∀ i ≤ 3, (x + i) / s.cfg.pageSize =
          if x % s.cfg.pageSize + i < s.cfg.pageSize then x / s.cfg.pageSize else x / s.cfg.pageSize + 1 := by
        intro i hi
        split
        · next hlt =>
          refine Nat.div_eq_of_lt_le ?_ ?_
          · rw [Nat.mul_comm]; omega
          · rw [Nat.add_mul, Nat.one_mul, Nat.mul_comm]; omega
        · next hge =>
          refine Nat.div_eq_of_lt_le ?_ ?_
          · rw [Nat.add_mul, Nat.one_mul, Nat.mul_comm]; omega
          · rw [Nat.add_mul, Nat.add_mul, Nat.one_mul, Nat.mul_comm]; omega
      rw [hq j (by omega), hq (n - 1) (by omega)]
      split
      · exact .inl rfl
      · rw [if_neg (by omega)]; exact .inr rfl
    unfold State.resolveVm
    simp only [State.translate_resident he0 hf0 hw0 hx0]
    split
    · next heq =>
      rw [hoffs f0 f0 fun j hj => ?_]
      obtain ⟨e, f, he, hf, -⟩ := ho j hj
      have hpj : (a.toNat + j - s.cfg.vmBase) / s.cfg.pageSize = vpageOf s.cfg a.toNat := by
        rcases hpage j hj with h | h
        · exact h
        · exact h.trans heq
      rw [hpj, he0] at he; cases he
      rw [hf0] at hf; cases hf
      exact ⟨e0, f0, by rw [hpj, he0], hf0, by simp⟩
    · next hne =>
      simp only [State.translate_resident he1 hf1 hw1 hx1]
      rw [hoffs f0 f1 fun j hj => ?_]
      obtain ⟨e, f, he, hf, -⟩ := ho j hj
      rcases hpage j hj with h | h
      · have hpj : (a.toNat + j - s.cfg.vmBase) / s.cfg.pageSize = vpageOf s.cfg a.toNat := h
        exact ⟨e0, f0, by rw [hpj, he0], hf0, by rw [if_pos h]⟩
      · have hpj : (a.toNat + j - s.cfg.vmBase) / s.cfg.pageSize = vpageOf s.cfg (a.toNat + n - 1) := h
        exact ⟨e1, f1, by rw [hpj, he1], hf1, by rw [if_neg (by rw [h]; exact hne)]⟩

/-! ## Reading and writing -/

/-- A read or fetch that answers: the bytes at its place, and only a translation's changes. -/
theorem State.memRead_ok {s t : State} {a : Word} {w : Width} {k : AccessKind} {v : Word} (h : s.memRead a w k = .ok v t) :
    ∃ pl, s.resolve a w.bytes k = .ok pl t ∧ v = t.valueAt pl ∧ TranslationFrame s t := by
  unfold State.memRead at h
  split at h
  · next pl s1 hr => cases h; exact ⟨pl, hr, rfl, State.resolve_frame.1 _ _ hr⟩
  · cases h
  · cases h

theorem State.memRead_fault {s t : State} {a : Word} {w : Width} {k : AccessKind} {c : FaultCause}
    (h : s.memRead a w k = .fault c t) : s.resolve a w.bytes k = .fault c t ∧ TranslationFrame s t := by
  unfold State.memRead at h
  split at h
  · cases h
  · next hr => cases h; exact ⟨hr, State.resolve_frame.2 _ _ hr⟩
  · cases h

/-- A write that answers: the bytes of its place written in the state its translations leave. -/
theorem State.memWrite_ok {s t : State} {a : Word} {w : Width} {v : Word} {x : Unit} (h : s.memWrite a w v = .ok x t) :
    ∃ pl s1, s.resolve a w.bytes .write = .ok pl s1 ∧ t = s1.storeAt pl v ∧ TranslationFrame s s1 := by
  unfold State.memWrite at h
  split at h
  · next pl s1 hr => cases h; exact ⟨pl, s1, hr, rfl, State.resolve_frame.1 _ _ hr⟩
  · cases h
  · cases h

theorem State.memWrite_fault {s t : State} {a : Word} {w : Width} {v : Word} {c : FaultCause}
    (h : s.memWrite a w v = .fault c t) : s.resolve a w.bytes .write = .fault c t ∧ TranslationFrame s t := by
  unfold State.memWrite at h
  split at h
  · cases h
  · next hr => cases h; exact ⟨hr, State.resolve_frame.2 _ _ hr⟩
  · cases h

/-- A swap that answers: the old bytes of its place read, then written. -/
theorem State.busSwap_ok {s t : State} {a : Word} {w : Width} {v old : Word} (h : s.busSwap a w v = .ok old t) :
    ∃ pl s1, s.resolve a w.bytes .swap = .ok pl s1 ∧ old = s1.valueAt pl ∧ t = s1.storeAt pl v ∧ TranslationFrame s s1 := by
  unfold State.busSwap at h
  split at h
  · next pl s1 hr => cases h; exact ⟨pl, s1, hr, rfl, rfl, State.resolve_frame.1 _ _ hr⟩
  · cases h
  · cases h

theorem State.busSwap_fault {s t : State} {a : Word} {w : Width} {v : Word} {c : FaultCause}
    (h : s.busSwap a w v = .fault c t) : s.resolve a w.bytes .swap = .fault c t ∧ TranslationFrame s t := by
  unfold State.busSwap at h
  split at h
  · cases h
  · next hr => cases h; exact ⟨hr, State.resolve_frame.2 _ _ hr⟩
  · cases h

/-- A store changes no byte outside its place. -/
theorem State.byteAt_storeAt_other (s : State) (pl : Place) (v : Word) (d : Device) (o : Nat) (h : d = .ram → o ∉ pl.offs) :
    (s.storeAt pl v).byteAt d o = s.byteAt d o := by
  cases d with
  | rom => rfl
  | disk => rfl
  | ram => exact Memory.read_writeMany_notMem _ _ _ _ (h rfl)

/-- The bytes of a store's place read back the value's bytes, least significant first. -/
theorem State.byteAt_storeAt (s : State) (pl : Place) (v : Word) (hn : pl.offs.Nodup) :
    pl.offs.map ((s.storeAt pl v).byteAt .ram) = leBytes pl.offs.length v :=
  Memory.readMany_writeMany _ _ _ hn (by simp)

end Sys2Proof.Machine
end

