-- ==== Sys2Proof/Laws/Entries.lean ====
section
/-! SUPPORT. The entries of every page table, counted by location, and how the updates of the MMU change them. -/

namespace Sys2Proof.Machine

/-! ## Entries and their counts -/

theorem mem_entries_of_find {s : State} {pid p : Nat} {e : Pte} (h : assocFind (s.table pid) p = some e) :
    (p, e) ∈ s.entries := by
  unfold State.table at h
  cases hp : assocFind s.procs pid with
  | none => rw [hp] at h; simp at h
  | some t => rw [hp] at h; exact List.mem_flatMap.2 ⟨(pid, t), mem_of_assocFind hp, mem_of_assocFind h⟩

theorem mem_entries_of_entry {s : State} {p : Nat} {e : Pte} (h : s.entry p = some e) : (p, e) ∈ s.entries := by
  obtain ⟨pid, -, -, hf⟩ := State.entry_some h
  exact mem_entries_of_find hf

theorem find_of_mem_entries {s : State} (h1 : assocSorted s.procs) (h2 : ∀ e ∈ s.procs, assocSorted e.2) {x : Nat × Pte}
    (h : x ∈ s.entries) : ∃ pid, s.live pid = true ∧ assocFind (s.table pid) x.1 = some x.2 := by
  obtain ⟨⟨pid, t⟩, ht, hx⟩ := List.mem_flatMap.1 h
  have hp := assocFind_of_mem h1 ht
  refine ⟨pid, by simp [State.live, hp], ?_⟩
  unfold State.table
  rw [hp]
  exact assocFind_of_mem (h2 _ ht) hx

theorem refsTo_pos {s : State} {x : Nat × Pte} (h : x ∈ s.entries) : 0 < s.refsTo x.2.loc :=
  List.countP_pos_iff.2 ⟨x, h, by simp⟩

theorem refsTo_eq_zero_iff {s : State} {l : Loc} : s.refsTo l = 0 ↔ ∀ x ∈ s.entries, x.2.loc ≠ l := by
  simp [State.refsTo, List.countP_eq_zero]

/-- Counting over every table of a process map after one table is written. -/
theorem countP_flatMap_assocPut (P : Nat × Pte → Bool) {m : List (Nat × PageTable)} (hs : assocSorted m) (pid : Nat)
    (t : PageTable) :
    ((assocPut m pid t).flatMap Prod.snd).countP P + ((assocFind m pid).getD []).countP P =
      (m.flatMap Prod.snd).countP P + t.countP P := by
  induction m with
  | nil => simp [assocPut]
  | cons e m ih =>
    obtain ⟨k, w⟩ := e
    have hc := List.pairwise_cons.1 hs
    rw [assocPut]
    split
    · next hlt =>
      rw [(assocFind_eq_none_iff ((k, w) :: m) pid).2 fun e he => ?_]
      · simp only [List.flatMap_cons, List.countP_append, Option.getD_none, List.countP_nil]; omega
      · rcases List.mem_cons.1 he with he | he
        · subst he; simp only; omega
        · have := hc.1 e he; simp at this; omega
    · split
      · next hk =>
        subst hk
        simp only [assocFind_cons, if_true, Option.getD_some, List.flatMap_cons, List.countP_append]; omega
      · next hk =>
        have := ih hc.2
        simp only [assocFind_cons, hk, if_false, List.flatMap_cons, List.countP_append] at this ⊢; omega

/-- 1 where the entry of the current process's page `p` is at `l`, 0 elsewhere. -/
def State.oldAt (s : State) (p : Nat) (l : Loc) : Nat :=
  match s.entry p with
  | some e => if e.loc = l then 1 else 0
  | none => 0

theorem table_sorted {s : State} (h : ∀ e ∈ s.procs, assocSorted e.2) (pid : Nat) : assocSorted (s.table pid) := by
  unfold State.table
  cases hp : assocFind s.procs pid with
  | none => exact .nil
  | some t => exact h _ (mem_of_assocFind hp)

/-- The references after one entry of the current process is written. -/
theorem refsTo_setEntry {s : State} (h1 : assocSorted s.procs) (h2 : ∀ e ∈ s.procs, assocSorted e.2) {pid : Nat}
    (hc : s.current = some pid) (p : Nat) (e : Pte) (l : Loc) :
    (s.setEntry p e).refsTo l + s.oldAt p l = s.refsTo l + if e.loc = l then 1 else 0 := by
  have ha := countP_flatMap_assocPut (fun x : Nat × Pte => decide (x.2.loc = l)) h1 pid (assocPut (s.table pid) p e)
  have hb := countP_assocPut (fun x : Nat × Pte => decide (x.2.loc = l)) (table_sorted h2 pid) p e
  have e1 : (s.setEntry p e).refsTo l =
      ((assocPut s.procs pid (assocPut (s.table pid) p e)).flatMap Prod.snd).countP fun x => decide (x.2.loc = l) := by
    simp [State.refsTo, State.entries, State.setEntry, hc, State.setTable]
  have e2 : s.oldAt p l = match assocFind (s.table pid) p with
      | some w => if decide (w.loc = l) = true then 1 else 0
      | none => 0 := by
    simp only [State.oldAt, State.entry_of_current hc, decide_eq_true_eq]
  rw [e1, e2]
  have e3 : ((assocFind s.procs pid).getD []) = s.table pid := rfl
  rw [e3] at ha
  simp only [State.refsTo, State.entries] at ha hb ⊢
  cases hf : assocFind (s.table pid) p with
  | none => rw [hf] at hb; simp only [decide_eq_true_eq] at ha hb ⊢; omega
  | some w => rw [hf] at hb; simp only [decide_eq_true_eq] at ha hb ⊢; omega

theorem mem_entries_setEntry {s : State} {p : Nat} {e : Pte} {x : Nat × Pte} (h : x ∈ (s.setEntry p e).entries) :
    x = (p, e) ∨ x ∈ s.entries := by
  unfold State.setEntry at h
  split at h
  · exact .inr h
  · next pid hc =>
    obtain ⟨⟨k, t⟩, ht, hx⟩ := List.mem_flatMap.1 h
    rcases mem_assocPut ht with ht | ht
    · cases ht
      rcases mem_assocPut hx with hx | hx
      · exact .inl hx
      · right
        unfold State.table at hx
        cases hp : assocFind s.procs pid with
        | none => rw [hp] at hx; simp at hx
        | some t => rw [hp] at hx; exact List.mem_flatMap.2 ⟨(pid, t), mem_of_assocFind hp, hx⟩
    · exact .inr (List.mem_flatMap.2 ⟨(k, t), ht, hx⟩)

/-! ## Relocation -/

theorem entries_relocate (s : State) (old new : Loc) :
    (s.relocate old new).entries = s.entries.map fun x => (x.1, movedTo old new x.2) := by
  simp only [State.entries, State.relocate, assocMap]
  rw [List.flatMap_map, List.map_flatMap]
  rfl

theorem movedTo_loc (old new : Loc) (e : Pte) : (movedTo old new e).loc = if e.loc = old then new else e.loc := by
  unfold movedTo; split <;> simp_all

/-- The references after every entry at `old` moves to `new`, where nothing was. -/
theorem refsTo_relocate {s : State} {old new : Loc} (hn : s.refsTo new = 0) (hne : old ≠ new) (l : Loc) :
    (s.relocate old new).refsTo l = if l = new then s.refsTo old else if l = old then 0 else s.refsTo l := by
  have hnone := refsTo_eq_zero_iff.1 hn
  simp only [State.refsTo, entries_relocate, List.countP_map]
  split
  · next h =>
    subst h
    refine List.countP_congr fun x hx => ?_
    have := hnone x hx
    simp only [Function.comp, movedTo_loc, decide_eq_true_eq]
    split <;> simp_all
  · next h =>
    split
    · next h2 =>
      subst h2
      rw [List.countP_eq_zero]
      intro x hx
      simp only [Function.comp, movedTo_loc, decide_eq_true_eq]
      split
      · exact fun hh => hne hh.symm
      · assumption
    · next h2 =>
      refine List.countP_congr fun x hx => ?_
      simp only [Function.comp, movedTo_loc, decide_eq_true_eq]
      split
      · next h3 => rw [h3]; exact ⟨fun hh => absurd hh.symm h, fun hh => absurd hh.symm h2⟩
      · exact Iff.rfl

/-! ## The invariant of the MMU after each kind of update -/

/-- Writing one entry of the current process, where the counts, pools and constraints of the state around it fit. -/
theorem mmuWf_setEntry {s u : State} {pid p : Nat} {e : Pte} (h : MmuWf s) (hprocs : u.procs = s.procs)
    (hcur : u.current = s.current) (hnext : u.nextPid = s.nextPid) (hcfg : u.cfg = s.cfg) (hc : s.current = some pid)
    (hp : p < s.cfg.vpages) (hfw : assocWf 0 u.frameRef) (hdw : assocWf 0 u.diskRef)
    (hcounts : ∀ l, u.refOf l + s.oldAt p l = s.refOf l + if e.loc = l then 1 else 0)
    (hus : u.userFree.Pairwise (· < ·)) (hks : u.kernelFree.Pairwise (· < ·)) (hds : u.diskFree.Pairwise (· < ·))
    (hu : ∀ f, f ∈ u.userFree ↔ inPoolRange s.cfg .user f = true ∧ u.frameRefOf f = 0)
    (hk : ∀ f, f ∈ u.kernelFree ↔ inPoolRange s.cfg .kernel f = true ∧ u.frameRefOf f = 0)
    (hd : ∀ d, d ∈ u.diskFree ↔ inPoolRange s.cfg .disk d = true ∧ u.diskRefOf d = 0)
    (hfr : ∀ f, e.loc = .frame f → inPoolRange s.cfg (framePool e.kernel) f = true)
    (hsl : ∀ d, e.loc = .disk d → inPoolRange s.cfg .disk d = true)
    (hag : ∀ x ∈ s.entries, x.2.loc = e.loc → x.2.kernel = e.kernel) : MmuWf (u.setEntry p e) := by
  have hcu : u.current = some pid := hcur.trans hc
  have hent : u.entries = s.entries := by simp [State.entries, hprocs]
  have htab : ∀ q, u.table q = s.table q := fun q => by simp [State.table, hprocs]
  have hold : ∀ l, u.oldAt p l = s.oldAt p l := fun l => by
    simp only [State.oldAt, State.entry, hcur, htab]
  have hsu : assocSorted u.procs := hprocs ▸ h.procsSorted
  have htu : ∀ e ∈ u.procs, assocSorted e.2 := hprocs ▸ h.tablesSorted
  have hlive : u.live pid = true := by
    have := h.currentLive pid hc
    simpa [State.live, hprocs] using this
  have hset : (u.setEntry p e).procs = assocPut u.procs pid (assocPut (u.table pid) p e) := by
    simp [State.setEntry, hcu, State.setTable]
  have hmem : ∀ x ∈ (u.setEntry p e).entries, x = (p, e) ∨ x ∈ s.entries := fun x hx => hent ▸ mem_entries_setEntry hx
  have hrefs : ∀ l, (u.setEntry p e).refsTo l = u.refOf l := fun l => by
    have h1 := refsTo_setEntry hsu htu hcu p e l
    have h2 := hcounts l
    have h3 : s.refOf l = s.refsTo l := by cases l <;> simp [State.refOf, h.frameCounts, h.diskCounts]
    have h4 : u.refsTo l = s.refsTo l := by simp [State.refsTo, hent]
    rw [hold] at h1; omega
  constructor
  · rw [hset]; exact assocPut_sorted hsu _ _
  · rw [hset]
    intro x hx
    rcases mem_assocPut hx with rfl | hx
    · exact assocPut_sorted (table_sorted htu pid) _ _
    · exact htu x hx
  · intro x hx
    simp only [State.setEntry_cfg, hcfg]
    rcases hmem x hx with rfl | hx
    · exact hp
    · exact h.pagesInWindow x hx
  · rw [hset]
    intro x hx
    simp only [State.setEntry_nextPid, hnext]
    rcases mem_assocPut hx with rfl | hx
    · have hl := hlive
      unfold State.live at hl
      obtain ⟨t, ht⟩ := Option.isSome_iff_exists.1 hl
      have hm : (pid, t) ∈ s.procs := by rw [← hprocs]; exact mem_of_assocFind ht
      have := h.pidsBelowNext _ hm
      exact this
    · exact h.pidsBelowNext x (hprocs ▸ hx)
  · intro q hq
    simp only [State.setEntry_current] at hq
    rw [hcu] at hq; cases hq
    simp [State.setEntry, hcu, State.live_setTable]
  · simpa using hfw
  · simpa using hdw
  · intro f
    rw [hrefs]; simp [State.refOf, State.frameRefOf]
  · intro d
    rw [hrefs]; simp [State.refOf, State.diskRefOf]
  · simpa using hus
  · simpa using hks
  · simpa using hds
  · intro f; simpa [State.frameRefOf, hcfg] using hu f
  · intro f; simpa [State.frameRefOf, hcfg] using hk f
  · intro f; simpa [State.diskRefOf, hcfg] using hd f
  · intro x hx f hf
    simp only [State.setEntry_cfg, hcfg]
    rcases hmem x hx with rfl | hx
    · exact hfr f hf
    · exact h.framesOfPool x hx f hf
  · intro x hx d hd'
    simp only [State.setEntry_cfg, hcfg]
    rcases hmem x hx with rfl | hx
    · exact hsl d hd'
    · exact h.slotsInRange x hx d hd'
  · intro x hx y hy hxy
    rcases hmem x hx with rfl | hx
    · rcases hmem y hy with rfl | hy
      · rfl
      · exact (hag y hy hxy.symm).symm
    · rcases hmem y hy with rfl | hy
      · exact hag x hx hxy
      · exact h.sharersAgree x hx y hy hxy

/-- Moving every entry at `old` to `new`, where nothing was and the counts, pools and ranges fit. -/
theorem mmuWf_relocate {s u : State} {old new : Loc} (h : MmuWf s) (hprocs : u.procs = s.procs)
    (hcur : u.current = s.current) (hnext : u.nextPid = s.nextPid) (hcfg : u.cfg = s.cfg) (hn : s.refsTo new = 0)
    (hne : old ≠ new) (hfw : assocWf 0 u.frameRef) (hdw : assocWf 0 u.diskRef)
    (hcounts : ∀ l, u.refOf l = if l = new then s.refOf old else if l = old then 0 else s.refOf l)
    (hus : u.userFree.Pairwise (· < ·)) (hks : u.kernelFree.Pairwise (· < ·)) (hds : u.diskFree.Pairwise (· < ·))
    (hu : ∀ f, f ∈ u.userFree ↔ inPoolRange s.cfg .user f = true ∧ u.frameRefOf f = 0)
    (hk : ∀ f, f ∈ u.kernelFree ↔ inPoolRange s.cfg .kernel f = true ∧ u.frameRefOf f = 0)
    (hd : ∀ d, d ∈ u.diskFree ↔ inPoolRange s.cfg .disk d = true ∧ u.diskRefOf d = 0)
    (hfr : ∀ x ∈ s.entries, x.2.loc = old → ∀ f, new = .frame f → inPoolRange s.cfg (framePool x.2.kernel) f = true)
    (hsl : ∀ d, new = .disk d → inPoolRange s.cfg .disk d = true) : MmuWf (u.relocate old new) := by
  have hent : u.entries = s.entries := by simp [State.entries, hprocs]
  have hnone := refsTo_eq_zero_iff.1 hn
  have hrefs : ∀ l, (u.relocate old new).refsTo l = u.refOf l := fun l => by
    have hr : ∀ l, s.refOf l = s.refsTo l := fun l => by cases l <;> simp [State.refOf, h.frameCounts, h.diskCounts]
    have h4 : ∀ l, u.refsTo l = s.refsTo l := fun l => by simp [State.refsTo, hent]
    rw [refsTo_relocate (by rw [h4]; exact hn) hne, hcounts l, h4, h4, hr, hr]
  have hmem : ∀ x ∈ (u.relocate old new).entries, ∃ y ∈ s.entries, x = (y.1, movedTo old new y.2) := fun x hx => by
    rw [entries_relocate, hent] at hx
    obtain ⟨y, hy, rfl⟩ := List.mem_map.1 hx
    exact ⟨y, hy, rfl⟩
  have hproc : (u.relocate old new).procs = assocMap (assocMap (movedTo old new)) s.procs := by
    rw [← hprocs]; rfl
  constructor
  · rw [hproc]; exact assocMap_sorted h.procsSorted _
  · rw [hproc]
    intro x hx
    obtain ⟨t, ht, hx2⟩ := mem_assocMap.1 hx
    rw [hx2]; exact assocMap_sorted (h.tablesSorted _ ht) _
  · intro x hx
    obtain ⟨y, hy, rfl⟩ := hmem x hx
    simpa [hcfg] using h.pagesInWindow y hy
  · rw [hproc]
    intro x hx
    obtain ⟨t, ht, -⟩ := mem_assocMap.1 hx
    simpa [hnext] using h.pidsBelowNext _ ht
  · intro q hq
    rw [State.live_relocate]
    simpa [State.live, hprocs] using h.currentLive q (by simpa [hcur] using hq)
  · simpa using hfw
  · simpa using hdw
  · intro f; rw [hrefs]; simp [State.refOf, State.frameRefOf]
  · intro d; rw [hrefs]; simp [State.refOf, State.diskRefOf]
  · simpa using hus
  · simpa using hks
  · simpa using hds
  · intro f; simpa [State.frameRefOf, hcfg] using hu f
  · intro f; simpa [State.frameRefOf, hcfg] using hk f
  · intro f; simpa [State.diskRefOf, hcfg] using hd f
  · intro x hx f hf
    obtain ⟨y, hy, rfl⟩ := hmem x hx
    simp only [State.relocate_cfg, hcfg, movedTo_kernel, movedTo_loc] at hf ⊢
    split at hf
    · next hl => exact hfr y hy hl f hf
    · exact h.framesOfPool y hy f hf
  · intro x hx d hd'
    obtain ⟨y, hy, rfl⟩ := hmem x hx
    simp only [State.relocate_cfg, hcfg, movedTo_loc] at hd' ⊢
    split at hd'
    · exact hsl d hd'
    · exact h.slotsInRange y hy d hd'
  · intro x hx y hy hxy
    obtain ⟨a, ha, rfl⟩ := hmem x hx
    obtain ⟨b, hb, rfl⟩ := hmem y hy
    simp only [movedTo_kernel, movedTo_loc] at hxy ⊢
    have h1 := hnone a ha
    have h2 := hnone b hb
    refine h.sharersAgree a ha b hb ?_
    split at hxy <;> split at hxy <;> simp_all

/-- Removing one valid entry of a live process, where the counts and pools of the state around it fit. -/
theorem mmuWf_removeEntry {s u : State} {pid p : Nat} {e : Pte} (h : MmuWf s) (hprocs : u.procs = s.procs)
    (hcur : u.current = s.current) (hnext : u.nextPid = s.nextPid) (hcfg : u.cfg = s.cfg)
    (he : assocFind (s.table pid) p = some e) (hfw : assocWf 0 u.frameRef) (hdw : assocWf 0 u.diskRef)
    (hcounts : ∀ l, u.refOf l + (if e.loc = l then 1 else 0) = s.refOf l)
    (hus : u.userFree.Pairwise (· < ·)) (hks : u.kernelFree.Pairwise (· < ·)) (hds : u.diskFree.Pairwise (· < ·))
    (hu : ∀ f, f ∈ u.userFree ↔ inPoolRange s.cfg .user f = true ∧ u.frameRefOf f = 0)
    (hk : ∀ f, f ∈ u.kernelFree ↔ inPoolRange s.cfg .kernel f = true ∧ u.frameRefOf f = 0)
    (hd : ∀ d, d ∈ u.diskFree ↔ inPoolRange s.cfg .disk d = true ∧ u.diskRefOf d = 0) :
    MmuWf (u.setTable pid (assocDel (s.table pid) p)) := by
  have hsu : assocSorted u.procs := hprocs ▸ h.procsSorted
  have hts := table_sorted h.tablesSorted pid
  have hfind : (assocFind u.procs pid).getD [] = s.table pid := by rw [hprocs]; rfl
  have hmem : ∀ x ∈ (u.setTable pid (assocDel (s.table pid) p)).entries, x ∈ s.entries := fun x hx => by
    obtain ⟨⟨k, t⟩, ht, hx⟩ := List.mem_flatMap.1 hx
    rcases mem_assocPut ht with ht | ht
    · cases ht
      have hx' := (mem_assocDel.1 hx).1
      unfold State.table at hx'
      cases hp : assocFind s.procs pid with
      | none => rw [hp] at hx'; simp at hx'
      | some t => rw [hp] at hx'; exact List.mem_flatMap.2 ⟨(pid, t), mem_of_assocFind hp, hx'⟩
    · exact List.mem_flatMap.2 ⟨(k, t), hprocs ▸ ht, hx⟩
  have hrefs : ∀ l, (u.setTable pid (assocDel (s.table pid) p)).refsTo l = u.refOf l := fun l => by
    have h1 := countP_flatMap_assocPut (fun x : Nat × Pte => decide (x.2.loc = l)) hsu pid (assocDel (s.table pid) p)
    have h2 := countP_assocDel (fun x : Nat × Pte => decide (x.2.loc = l)) hts p
    have h3 : s.refOf l = s.refsTo l := by cases l <;> simp [State.refOf, h.frameCounts, h.diskCounts]
    have h4 := hcounts l
    rw [hfind] at h1
    rw [he] at h2
    rw [h3] at h4
    simp only [State.refsTo, State.entries, State.setTable_procs, decide_eq_true_eq, hprocs] at h1 h2 h4 ⊢
    omega
  constructor
  · rw [State.setTable_procs]; exact assocPut_sorted hsu _ _
  · rw [State.setTable_procs]
    intro x hx
    rcases mem_assocPut hx with rfl | hx
    · exact assocDel_sorted hts _
    · exact h.tablesSorted x (hprocs ▸ hx)
  · intro x hx
    simpa [hcfg] using h.pagesInWindow x (hmem x hx)
  · rw [State.setTable_procs]
    intro x hx
    simp only [State.setTable_nextPid, hnext]
    rcases mem_assocPut hx with rfl | hx
    · unfold State.table at he
      cases hp : assocFind s.procs pid with
      | none => rw [hp] at he; simp at he
      | some t =>
        have := h.pidsBelowNext _ (mem_of_assocFind hp)
        exact this
    · exact h.pidsBelowNext x (hprocs ▸ hx)
  · intro q hq
    rw [State.live_setTable]
    split
    · rfl
    · simpa [State.live, hprocs] using h.currentLive q (by simpa [hcur] using hq)
  · simpa using hfw
  · simpa using hdw
  · intro f; rw [hrefs]; simp [State.refOf, State.frameRefOf]
  · intro d; rw [hrefs]; simp [State.refOf, State.diskRefOf]
  · simpa using hus
  · simpa using hks
  · simpa using hds
  · intro f; simpa [State.frameRefOf, hcfg] using hu f
  · intro f; simpa [State.frameRefOf, hcfg] using hk f
  · intro f; simpa [State.diskRefOf, hcfg] using hd f
  · intro x hx f hf
    simpa [hcfg] using h.framesOfPool x (hmem x hx) f hf
  · intro x hx d hd'
    simpa [hcfg] using h.slotsInRange x (hmem x hx) d hd'
  · intro x hx y hy hxy
    exact h.sharersAgree x (hmem x hx) y (hmem y hy) hxy

/-! ## Pools after a page leaves or joins them -/

theorem sorted_tail {n : Nat} {free : List Nat} (h : (n :: free).Pairwise (· < ·)) :
    free.Pairwise (· < ·) ∧ n ∉ free := by
  have hc := List.pairwise_cons.1 h
  exact ⟨hc.2, fun hm => absurd (hc.1 n hm) (lt_irrefl n)⟩

/-- The head of a frame pool is free, in its range, and in no other pool's range. -/
theorem head_of_pool {s : State} (hi : MmuWf s) {k : Bool} {n : Nat} {free : List Nat}
    (hp : s.pool (framePool k) = n :: free) : inPoolRange s.cfg (framePool k) n = true ∧ s.frameRefOf n = 0 := by
  cases k
  · exact (hi.userFreeIff n).1 (by simp_all [State.pool, framePool])
  · exact (hi.kernelFreeIff n).1 (by simp_all [State.pool, framePool])

theorem pool_ranges_disjoint {p : Params} (h : p.ok = true) {k : Bool} {f : Nat}
    (hf : inPoolRange p (framePool k) f = true) : inPoolRange p (framePool !k) f = false := by
  have := cfg_pools h
  cases k <;> simp [framePool, inPoolRange] at * <;> omega

/-- The frame pools after the head of one is taken and given references, and every other frame's count kept free or not. -/
theorem taken_pools {s u : State} (hi : MmuWf s) (hok : s.cfg.ok = true) {k : Bool} {n : Nat} {free : List Nat}
    (hp : s.pool (framePool k) = n :: free) (hu : u.userFree = (s.setPool (framePool k) free).userFree)
    (hk : u.kernelFree = (s.setPool (framePool k) free).kernelFree) (hn : u.frameRefOf n ≠ 0)
    (hother : ∀ g, g ≠ n → (u.frameRefOf g = 0 ↔ s.frameRefOf g = 0)) :
    u.userFree.Pairwise (· < ·) ∧ u.kernelFree.Pairwise (· < ·) ∧
    (∀ f, f ∈ u.userFree ↔ inPoolRange s.cfg .user f = true ∧ u.frameRefOf f = 0) ∧
    (∀ f, f ∈ u.kernelFree ↔ inPoolRange s.cfg .kernel f = true ∧ u.frameRefOf f = 0) := by
  have hr := (head_of_pool hi hp).1
  have hx := pool_ranges_disjoint hok hr
  rw [hu, hk]
  cases k
  · have e1 : s.userFree = n :: free := hp
    have hs := sorted_tail (e1 ▸ hi.userSorted)
    refine ⟨hs.1, hi.kernelSorted, fun f => ?_, fun f => ?_⟩
    · change f ∈ free ↔ _
      by_cases hf : f = n
      · subst hf; exact ⟨fun h => absurd h hs.2, fun h => absurd h.2 hn⟩
      · rw [hother f hf, ← hi.userFreeIff f, e1]; simp [hf]
    · change f ∈ s.kernelFree ↔ _
      by_cases hf : f = n
      · subst hf
        rw [hi.kernelFreeIff]
        exact ⟨fun h => absurd h.1 (by rw [show inPoolRange s.cfg Pool.kernel f = false from hx]; simp), fun h => absurd h.2 hn⟩
      · rw [hother f hf, ← hi.kernelFreeIff f]
  · have e1 : s.kernelFree = n :: free := hp
    have hs := sorted_tail (e1 ▸ hi.kernelSorted)
    refine ⟨hi.userSorted, hs.1, fun f => ?_, fun f => ?_⟩
    · change f ∈ s.userFree ↔ _
      by_cases hf : f = n
      · subst hf
        rw [hi.userFreeIff]
        exact ⟨fun h => absurd h.1 (by rw [show inPoolRange s.cfg Pool.user f = false from hx]; simp), fun h => absurd h.2 hn⟩
      · rw [hother f hf, ← hi.userFreeIff f]
    · change f ∈ free ↔ _
      by_cases hf : f = n
      · subst hf; exact ⟨fun h => absurd h hs.2, fun h => absurd h.2 hn⟩
      · rw [hother f hf, ← hi.kernelFreeIff f, e1]; simp [hf]

end Sys2Proof.Machine
end

