-- ==== Sys2Proof/Laws/Check.lean ====
section
/-! SUPPORT. The invariant of a concrete state, checked by evaluation: `Inv` is over all frames and slots, `invCheck` over those below a
bound. So is the readiness of an access. -/

namespace Sys2Proof.Machine

/-- What `MmuWf` asks of the pids, tables and counts, over the frames and slots below `bound`. -/
def State.tablesCheck (s : State) (bound : Nat) : Bool :=
  decide (assocSorted s.procs) && s.procs.all (fun e => decide (assocSorted e.2)) &&
  s.entries.all (fun x => decide (x.1 < s.cfg.vpages)) && s.procs.all (fun e => decide (e.1 < s.nextPid)) &&
  s.current.all (fun pid => s.live pid) && decide (assocWf 0 s.frameRef) && decide (assocWf 0 s.diskRef) &&
  s.frameRef.all (fun e => decide (e.1 < bound)) && s.diskRef.all (fun e => decide (e.1 < bound)) &&
  s.entries.all (fun x => decide (x.2.loc.number < bound)) &&
  (List.range bound).all (fun n => s.frameRefOf n == s.refsTo (.frame n) && s.diskRefOf n == s.refsTo (.disk n))

/-- One pool holds exactly the pages of its range whose count is 0. -/
def poolCheck (range : Nat → Bool) (count : Nat → Nat) (free : List Nat) (bound : Nat) : Bool :=
  decide (free.Pairwise (· < ·)) && free.all (fun n => decide (n < bound)) &&
  (List.range bound).all (fun n => free.contains n == (range n && count n == 0))

/-- What `MmuWf` asks of where entries point. -/
def State.placesCheck (s : State) : Bool :=
  s.entries.all fun x =>
    (match x.2.loc with
      | .frame f => inPoolRange s.cfg (framePool x.2.kernel) f
      | .disk d => inPoolRange s.cfg .disk d) &&
    s.entries.all fun y => decide (x.2.loc = y.2.loc → x.2.kernel = y.2.kernel)

/-- The whole invariant, over frames and slots below `bound`. -/
def State.invCheck (s : State) (bound : Nat) : Bool :=
  s.cfg.ok && decide (s.cfg.userHigh < bound) && decide (s.cfg.kernelHigh < bound) && decide (s.cfg.diskPages ≤ bound) &&
  decide (s.rom.wf ∧ s.ram.wf ∧ s.disk.wf) &&
  decide (s.rom.inside s.cfg.romSize ∧ s.ram.inside s.cfg.ramSize ∧ s.disk.inside (s.cfg.diskPages * s.cfg.pageSize)) &&
  s.tablesCheck bound && poolCheck (inPoolRange s.cfg .user) s.frameRefOf s.userFree bound &&
  poolCheck (inPoolRange s.cfg .kernel) s.frameRefOf s.kernelFree bound &&
  poolCheck (inPoolRange s.cfg .disk) s.diskRefOf s.diskFree bound && s.placesCheck &&
  (s.activeRun.isNone || s.execState == .running)

theorem poolCheck_sound {range : Nat → Bool} {count : Nat → Nat} {free : List Nat} {bound : Nat}
    (h : poolCheck range count free bound = true) (hr : ∀ n, range n = true → n < bound) :
    free.Pairwise (· < ·) ∧ ∀ n, n ∈ free ↔ range n = true ∧ count n = 0 := by
  simp only [poolCheck, Bool.and_eq_true, decide_eq_true_eq, List.all_eq_true, List.mem_range, beq_iff_eq] at h
  obtain ⟨⟨h1, h2⟩, h3⟩ := h
  refine ⟨h1, fun n => ?_⟩
  by_cases hn : n < bound
  · have := h3 n hn
    rw [← List.contains_iff_mem, this]; simp
  · exact ⟨fun h => absurd (h2 n h) hn, fun h => absurd (hr n h.1) hn⟩

theorem assocFind_none_of_lt {α : Type} {m : List (Nat × α)} {bound : Nat} (h : ∀ e ∈ m, e.1 < bound) {n : Nat}
    (hn : ¬ n < bound) : assocFind m n = none := by
  induction m with
  | nil => rfl
  | cons e m ih =>
    obtain ⟨k, v⟩ := e
    have hk : k < bound := h (k, v) (by simp)
    simp only [assocFind]
    rw [if_neg (by omega)]
    exact ih fun e he => h e (by simp [he])

theorem invCheck_sound {s : State} {bound : Nat} (h : s.invCheck bound = true) : Inv s := by
  simp only [State.invCheck, Bool.and_eq_true, decide_eq_true_eq] at h
  obtain ⟨⟨⟨⟨⟨⟨⟨⟨⟨⟨⟨hok, hu⟩, hk⟩, hd⟩, hw⟩, hin⟩, ht⟩, hpu⟩, hpk⟩, hpd⟩, hpl⟩, he⟩ := h
  simp only [State.tablesCheck, Bool.and_eq_true, decide_eq_true_eq, List.all_eq_true, List.mem_range, beq_iff_eq,
    Option.all_eq_true] at ht
  obtain ⟨⟨⟨⟨⟨⟨⟨⟨⟨⟨t1, t2⟩, t3⟩, t4⟩, t5⟩, t6⟩, t7⟩, t8⟩, t9⟩, t10⟩, t11⟩ := ht
  simp only [State.placesCheck, Bool.and_eq_true, List.all_eq_true, decide_eq_true_eq] at hpl
  have pu := poolCheck_sound hpu fun n hn => by simp [inPoolRange] at hn; omega
  have pk := poolCheck_sound hpk fun n hn => by simp [inPoolRange] at hn; omega
  have pd := poolCheck_sound hpd fun n hn => by simp [inPoolRange] at hn; omega
  have hzero : ∀ (l : Loc), ¬ l.number < bound → s.refsTo l = 0 := fun l hl => by
    refine refsTo_eq_zero_iff.2 fun x hx e => hl ?_
    rw [← e]; exact t10 x hx
  refine ⟨hok, ⟨hw.1, hw.2.1, hw.2.2, hin.1, hin.2.1, hin.2.2⟩, ?_, fun hrun => ?_⟩
  · exact
      { procsSorted := t1, tablesSorted := t2, pagesInWindow := t3, pidsBelowNext := t4, currentLive := t5
        frameRefWf := t6, diskRefWf := t7
        frameCounts := fun f => by
          by_cases hf : f < bound
          · exact (t11 f hf).1
          · rw [hzero (.frame f) hf, State.frameRefOf, assocFind_none_of_lt t8 hf]; rfl
        diskCounts := fun d => by
          by_cases hf : d < bound
          · exact (t11 d hf).2
          · rw [hzero (.disk d) hf, State.diskRefOf, assocFind_none_of_lt t9 hf]; rfl
        userSorted := pu.1, kernelSorted := pk.1, diskSorted := pd.1
        userFreeIff := pu.2, kernelFreeIff := pk.2, diskFreeIff := pd.2
        framesOfPool := fun x hx f hl => by have := (hpl x hx).1; rw [hl] at this; exact this
        slotsInRange := fun x hx d hl => by have := (hpl x hx).1; rw [hl] at this; exact this
        sharersAgree := fun x hx y hy => (hpl x hx).2 y hy }
  · cases hr : s.activeRun with
    | none => simp [hr] at hrun
    | some n => simpa [hr] using he

/-! ## Ready accesses and answers -/

/-- Byte `off` of the VM window is resident, permits the access, and stands at RAM offset `o`. -/
def State.vmByteCheck (s : State) (k : AccessKind) (off o : Nat) : Bool :=
  match s.entry (off / s.cfg.pageSize) with
  | none => false
  | some e =>
    match e.loc with
    | .disk _ => false
    | .frame f =>
      decide (k.writes = true → e.write = true ∧ e.cow = false) && decide (k = .fetch → e.execute = true) &&
      o == f * s.cfg.pageSize + off % s.cfg.pageSize

theorem vmByteCheck_sound {s : State} {k : AccessKind} {off o : Nat} (h : s.vmByteCheck k off o = true) :
    ∃ e f, s.entry (off / s.cfg.pageSize) = some e ∧ e.loc = .frame f ∧
      (k.writes = true → e.write = true ∧ e.cow = false) ∧ (k = .fetch → e.execute = true) ∧
      o = f * s.cfg.pageSize + off % s.cfg.pageSize := by
  unfold State.vmByteCheck at h
  split at h
  · cases h
  · next e he =>
    split at h
    · cases h
    · next f hf =>
      simp only [Bool.and_eq_true, decide_eq_true_eq, beq_iff_eq] at h
      exact ⟨e, f, he, hf, h.1.1, h.1.2, h.2⟩

/-- An access in the VM window is ready, byte by byte. -/
theorem vm_ready {s : State} {a : Word} {n : Nat} {k : AccessKind} {offs : List Nat}
    (h : a.toNat + n ≤ 2 ^ 32 ∧ offs.length = n ∧ s.cfg.vmBase ≤ a.toNat ∧ a.toNat + n ≤ s.cfg.vmBase + s.cfg.vmSize)
    (hb : ∀ j < n, ∃ o, offs[j]? = some o ∧ s.vmByteCheck k (a.toNat + j - s.cfg.vmBase) o = true) :
    AccessReady s a n k .ram offs := by
  refine ⟨h.1, h.2.1, .inr (.inr ⟨rfl, h.2.2.1, h.2.2.2, fun j hj => ?_⟩)⟩
  obtain ⟨o, ho, hc⟩ := hb j hj
  obtain ⟨e, f, h1, h2, h3, h4, h5⟩ := vmByteCheck_sound hc
  exact ⟨e, f, h1, h2, h3, h4, h5 ▸ ho⟩

/-- The value and state of an access that succeeds. -/
def Access.okOf {α : Type} : Access α → Option (α × State)
  | .ok v s => some (v, s)
  | .fault _ _ => none
  | .stuck _ => none

/-- The fault of an access that faults. -/
def Access.faultOf {α : Type} : Access α → Option FaultCause
  | .ok _ _ => none
  | .fault c _ => some c
  | .stuck _ => none

theorem Access.exists_ok {α : Type} {x : Access α} {v : α} (h : x.okOf.map Prod.fst = some v) : ∃ s, x = .ok v s := by
  cases x with
  | ok w s => cases h; exact ⟨s, rfl⟩
  | fault c s => cases h
  | stuck e => cases h

theorem Access.exists_fault {α : Type} {x : Access α} {c : FaultCause} (h : x.faultOf = some c) : ∃ s, x = .fault c s := by
  cases x with
  | ok w s => cases h
  | fault c s => cases h; exact ⟨s, rfl⟩
  | stuck e => cases h

/-- The next state, where the outcome is one. -/
def nextOf : Host.Outcome State Fault Refusal → Option State
  | .next s => some s
  | .fault _ => none
  | .refused _ => none

theorem exists_next {o : Host.Outcome State Fault Refusal} (h : (nextOf o).isSome = true) : ∃ s, o = .next s := by
  cases o with
  | next s => exact ⟨s, rfl⟩
  | fault e => cases h
  | refused r => cases h

/-- An outcome is a next state with this property. -/
theorem exists_next_and {o : Host.Outcome State Fault Refusal} {p : State → Bool} (h : (nextOf o).any p = true) :
    ∃ s, o = .next s ∧ p s = true := by
  cases o with
  | next s => exact ⟨s, rfl, h⟩
  | fault e => cases h
  | refused r => cases h

end Sys2Proof.Machine
end

