-- ==== Sys2Proof/Laws/Encoding.lean ====
section
/-! SUPPORT. Fields of a concatenation: how a field of an encoded word is read back. -/

namespace Sys2Proof

/-- A field that lies wholly in the upper part. -/
theorem extract_append_hi {n m : Nat} (x : BitVec n) (y : BitVec m) (lo len : Nat) (h : m ≤ lo) :
    (x ++ y).extractLsb' lo len = x.extractLsb' (lo - m) len := by
  ext j hj
  simp only [BitVec.getElem_extractLsb', BitVec.getLsbD_append]
  rw [if_neg (by omega), show lo + j - m = lo - m + j by omega]

/-- A field that lies wholly in the lower part. -/
theorem extract_append_lo {n m : Nat} (x : BitVec n) (y : BitVec m) (lo len : Nat) (h : lo + len ≤ m) :
    (x ++ y).extractLsb' lo len = y.extractLsb' lo len := by
  ext j hj
  simp only [BitVec.getElem_extractLsb', BitVec.getLsbD_append]
  rw [if_pos (by omega)]

/-- The whole of a bit vector as a field. -/
theorem extract_all {n : Nat} (x : BitVec n) : x.extractLsb' 0 n = x := by
  ext j hj
  simp only [BitVec.getElem_extractLsb', Nat.zero_add]
  exact BitVec.getLsbD_eq_getElem hj

/-- A field of a field. -/
theorem extract_extract {n : Nat} (x : BitVec n) (a b lo len : Nat) (h : lo + len ≤ b) :
    (x.extractLsb' a b).extractLsb' lo len = x.extractLsb' (a + lo) len := by
  ext j hj
  simp only [BitVec.getElem_extractLsb', BitVec.getLsbD_extractLsb']
  rw [decide_eq_true (by omega), Bool.true_and, show a + (lo + j) = a + lo + j by omega]

/-! ## The opcode of each format's word -/

theorem encodeDp_opcode (op : Opcode) (f : Bool) (xd xn : Reg) (o : Operand2) :
    (encodeDp op f xd xn o).extractLsb' 26 6 = op := by
  unfold encodeDp
  rw [extract_append_hi _ _ _ _ (by decide), extract_append_hi _ _ _ _ (by decide), extract_append_hi _ _ _ _ (by decide),
    extract_append_hi _ _ _ _ (by decide)]
  exact extract_all op

theorem encodeSh_opcode (op : Opcode) (f : Bool) (xd xn : Reg) (amt : ShiftAmount) :
    (encodeSh op f xd xn amt).extractLsb' 26 6 = op := by
  unfold encodeSh
  rw [extract_append_hi _ _ _ _ (by decide), extract_append_hi _ _ _ _ (by decide), extract_append_hi _ _ _ _ (by decide),
    extract_append_hi _ _ _ _ (by decide)]
  exact extract_all op

theorem encodeCmp_opcode (op : Opcode) (xn : Reg) (o : Operand2) : (encodeCmp op xn o).extractLsb' 26 6 = op := by
  unfold encodeCmp
  rw [extract_append_hi _ _ _ _ (by decide), extract_append_hi _ _ _ _ (by decide), extract_append_hi _ _ _ _ (by decide)]
  exact extract_all op

theorem encodeMov_opcode (op : Opcode) (f : Bool) (xd : Reg) (o : Operand2) :
    (encodeMov op f xd o).extractLsb' 26 6 = op := by
  unfold encodeMov
  rw [extract_append_hi _ _ _ _ (by decide), extract_append_hi _ _ _ _ (by decide), extract_append_hi _ _ _ _ (by decide)]
  exact extract_all op

theorem encodeMem_opcode (op : Opcode) (xt xn : Reg) (am : AddrMode) (off : MemOffset) :
    (encodeMem op xt xn am off).extractLsb' 26 6 = op := by
  unfold encodeMem
  rw [extract_append_hi _ _ _ _ (by decide), extract_append_hi _ _ _ _ (by decide), extract_append_hi _ _ _ _ (by decide),
    extract_append_hi _ _ _ _ (by decide)]
  exact extract_all op

theorem encodeAtm_opcode (op : Opcode) (xt xs xn : Reg) : (encodeAtm op xt xs xn).extractLsb' 26 6 = op := by
  unfold encodeAtm
  rw [extract_append_hi _ _ _ _ (by decide), extract_append_hi _ _ _ _ (by decide), extract_append_hi _ _ _ _ (by decide),
    extract_append_hi _ _ _ _ (by decide)]
  exact extract_all op

theorem encodeBi_opcode (op : Opcode) (c : Cond) (off : Word) : (encodeBi op c off).extractLsb' 26 6 = op := by
  unfold encodeBi
  rw [extract_append_hi _ _ _ _ (by decide), extract_append_hi _ _ _ _ (by decide)]
  exact extract_all op

theorem encodeBr_opcode (op : Opcode) (c : Cond) (xn : Reg) : (encodeBr op c xn).extractLsb' 26 6 = op := by
  unfold encodeBr
  rw [extract_append_hi _ _ _ _ (by decide), extract_append_hi _ _ _ _ (by decide), extract_append_hi _ _ _ _ (by decide)]
  exact extract_all op

theorem encodeFp3_opcode (op : Opcode) (xd xn xm : Reg) : (encodeFp3 op xd xn xm).extractLsb' 26 6 = op := by
  unfold encodeFp3
  rw [extract_append_hi _ _ _ _ (by decide), extract_append_hi _ _ _ _ (by decide), extract_append_hi _ _ _ _ (by decide),
    extract_append_hi _ _ _ _ (by decide), extract_append_hi _ _ _ _ (by decide)]
  exact extract_all op

theorem encodeFpc_opcode (op : Opcode) (xn xm : Reg) : (encodeFpc op xn xm).extractLsb' 26 6 = op := by
  unfold encodeFpc
  rw [extract_append_hi _ _ _ _ (by decide), extract_append_hi _ _ _ _ (by decide), extract_append_hi _ _ _ _ (by decide),
    extract_append_hi _ _ _ _ (by decide)]
  exact extract_all op

/-- The opcode of an instruction selects its format (30_encoding.md R122, R123). -/
theorem formatOfTop_opcode (i : Instr) : formatOfTop (i.opcode.extractLsb' 2 4) = some i.format := by
  cases i <;> simp only [Instr.opcode, Instr.format] <;> decide

end Sys2Proof
end

