-- ==== Sys2Proof/Laws/Invariant.lean ====
section
/-! SUPPORT. The page-in and the copy-on-write break keep the invariants of the memories and of the MMU, and the bytes that every
virtual page reads; so does every translation and every access before its bytes are touched. -/

namespace Sys2Proof.Machine

/-! ## Frames and offsets -/

theorem frame_div {ps f o : Nat} (ho : o < ps) : (f * ps + o) / ps = f := by
  rw [Nat.mul_comm, Nat.mul_add_div (by omega), Nat.div_eq_of_lt ho, Nat.add_zero]

/-- A frame below RAM_PAGES lies inside RAM. -/
theorem frame_inside {p : Params} (h : p.ok = true) {f : Nat} (hf : f < p.ramPages) : f * p.pageSize + p.pageSize ≤ p.ramSize := by
  have hps := cfg_pageSize_ge h
  have hm := cfg_ram_multiple h
  have hd := Nat.div_add_mod p.ramSize p.pageSize
  have : (f + 1) * p.pageSize ≤ p.ramPages * p.pageSize := Nat.mul_le_mul_right _ hf
  rw [Nat.add_mul, Nat.one_mul] at this
  rw [hm, Nat.add_zero, Nat.mul_comm] at hd
  unfold Params.ramPages at this
  omega

theorem slot_inside {p : Params} {d : Nat} (hd : d < p.diskPages) :
    d * p.pageSize + p.pageSize ≤ p.diskPages * p.pageSize := by
  have : (d + 1) * p.pageSize ≤ p.diskPages * p.pageSize := Nat.mul_le_mul_right _ hd
  rwa [Nat.add_mul, Nat.one_mul] at this

/-- A frame of a pool's range is a frame of RAM. -/
theorem pool_frame_lt {p : Params} (h : p.ok = true) {k : Bool} {f : Nat} (hf : inPoolRange p (framePool k) f = true) :
    f < p.ramPages := by
  have := cfg_pools h
  cases k <;> simp [framePool, inPoolRange] at hf <;> omega

theorem State.virtualByte_eq (s : State) (pid p o : Nat) :
    s.virtualByte pid p o = (assocFind (s.table pid) p).map fun e => s.pageByte e.loc o := rfl

/-! ## Page-in -/

/-- The state a page-in leaves. -/
def State.pagedIn (s : State) (kernel : Bool) (d f : Nat) (free : List Nat) : State :=
  (s.paged kernel d f free).setPool .disk (sortedInsert s.diskFree d)

theorem State.pagedIn_pool_disk (s : State) (kernel : Bool) (d f : Nat) (free : List Nat) :
    (s.paged kernel d f free).pool .disk = s.diskFree := by cases kernel <;> rfl

theorem State.pageInSlot_pagedIn {s t : State} {kernel : Bool} {d : Nat} (h : s.pageInSlot kernel d = .ok t) :
    ∃ f free, s.pool (framePool kernel) = f :: free ∧ t = s.pagedIn kernel d f free := by
  obtain ⟨f, free, hp, hr⟩ := State.pageInSlot_ok h
  obtain ⟨-, -, rfl⟩ := State.returnOne_ok hr
  exact ⟨f, free, hp, by rw [State.pagedIn_pool_disk]; rfl⟩

/-- A page-in of an entry's slot answers when its pool has a frame. -/
theorem State.pageInSlot_answers {s : State} (hi : MmuWf s) {x : Nat × Pte} (hx : x ∈ s.entries) {d : Nat}
    (hl : x.2.loc = .disk d) {kernel : Bool} {f : Nat} {free : List Nat} (hp : s.pool (framePool kernel) = f :: free) :
    s.pageInSlot kernel d = .ok (s.pagedIn kernel d f free) := by
  have hpos := refsTo_pos hx
  rw [hl, ← hi.diskCounts] at hpos
  have hfree : d ∉ s.diskFree := fun hm => by have := ((hi.diskFreeIff d).1 hm).2; omega
  have hr : (s.paged kernel d f free).returnOne .disk d = .ok (s.pagedIn kernel d f free) := by
    unfold State.returnOne
    rw [State.pagedIn_pool_disk, if_neg hfree, if_pos]
    · rfl
    · simpa [State.paged] using hi.slotsInRange x hx d hl
  rw [← hr]
  simp [State.pageInSlot, State.allocateOne, hp, State.paged, State.diskRefOf, State.setPool_diskRef]

theorem State.find_pagedIn (s : State) (kernel : Bool) (d f : Nat) (free : List Nat) (pid p : Nat) :
    assocFind ((s.pagedIn kernel d f free).table pid) p =
      (assocFind (s.table pid) p).map (movedTo (.disk d) (.frame f)) := State.find_paged s kernel d f free pid p

theorem State.pagedIn_ram (s : State) (kernel : Bool) (d f : Nat) (free : List Nat) :
    (s.pagedIn kernel d f free).ram =
      s.ram.copy (f * s.cfg.pageSize) s.cfg.pageSize s.disk (d * s.cfg.pageSize) := by
  simp [State.pagedIn, State.paged]

theorem State.pagedIn_cfg (s : State) (kernel : Bool) (d f : Nat) (free : List Nat) :
    (s.pagedIn kernel d f free).cfg = s.cfg := by simp [State.pagedIn, State.paged]

theorem State.pagedIn_disk (s : State) (kernel : Bool) (d f : Nat) (free : List Nat) :
    (s.pagedIn kernel d f free).disk = s.disk := by simp [State.pagedIn, State.paged]

theorem State.pagedIn_rom (s : State) (kernel : Bool) (d f : Nat) (free : List Nat) :
    (s.pagedIn kernel d f free).rom = s.rom := by simp [State.pagedIn, State.paged]

/-- The state around the relocation of a page-in. -/
def State.pageAround (s : State) (kernel : Bool) (d f : Nat) (free : List Nat) : State :=
  ((((s.setPool (framePool kernel) free).copySlotToFrame d f).setFrameRef f (s.diskRefOf d)).setDiskRef d 0).setPool .disk
    (sortedInsert s.diskFree d)

theorem State.pagedIn_relocate (s : State) (kernel : Bool) (d f : Nat) (free : List Nat) :
    s.pagedIn kernel d f free = (s.pageAround kernel d f free).relocate (.disk d) (.frame f) := by cases kernel <;> rfl

theorem State.pageAround_frameRefOf (s : State) (kernel : Bool) (d f : Nat) (free : List Nat) (g : Nat) :
    (s.pageAround kernel d f free).frameRefOf g = if g = f then s.diskRefOf d else s.frameRefOf g := by
  have := assocFind_set 0 s.frameRef f (s.diskRefOf d) g
  cases kernel <;> exact this

theorem State.pageAround_diskRefOf (s : State) (kernel : Bool) (d f : Nat) (free : List Nat) (x : Nat) :
    (s.pageAround kernel d f free).diskRefOf x = if x = d then 0 else s.diskRefOf x := by
  have := assocFind_set 0 s.diskRef d 0 x
  cases kernel <;> exact this

theorem State.setPool_disk_userFree (s : State) (l : List Nat) : (s.setPool .disk l).userFree = s.userFree := rfl

theorem State.setPool_disk_kernelFree (s : State) (l : List Nat) : (s.setPool .disk l).kernelFree = s.kernelFree := rfl

theorem State.setPool_disk_diskFree (s : State) (l : List Nat) : (s.setPool .disk l).diskFree = l := rfl

theorem State.pageAround_same (s : State) (kernel : Bool) (d f : Nat) (free : List Nat) :
    (s.pageAround kernel d f free).procs = s.procs ∧ (s.pageAround kernel d f free).current = s.current ∧
    (s.pageAround kernel d f free).nextPid = s.nextPid ∧ (s.pageAround kernel d f free).cfg = s.cfg ∧
    (s.pageAround kernel d f free).diskFree = sortedInsert s.diskFree d := by
  simp [State.pageAround, State.setPool_disk_diskFree]

theorem State.pageAround_pools (s : State) (kernel : Bool) (d f : Nat) (free : List Nat) :
    (s.pageAround kernel d f free).userFree = (s.setPool (framePool kernel) free).userFree ∧
    (s.pageAround kernel d f free).kernelFree = (s.setPool (framePool kernel) free).kernelFree := by
  simp [State.pageAround, State.setPool_disk_userFree, State.setPool_disk_kernelFree]

/-- A page-in of an entry's slot keeps the invariants of the MMU. -/
theorem pagedIn_mmuWf {s : State} (hok : s.cfg.ok = true) (hi : MmuWf s) {x : Nat × Pte} (hx : x ∈ s.entries) {d : Nat}
    (hl : x.2.loc = .disk d) {f : Nat} {free : List Nat} (hp : s.pool (framePool x.2.kernel) = f :: free) :
    MmuWf (s.pagedIn x.2.kernel d f free) := by
  obtain ⟨hr, hz⟩ := head_of_pool hi hp
  have hpos := refsTo_pos hx
  rw [hl, ← hi.diskCounts] at hpos
  have hdr := hi.slotsInRange x hx d hl
  obtain ⟨ep, ec, en, eg, ed⟩ := State.pageAround_same s x.2.kernel d f free
  obtain ⟨eu, ek⟩ := State.pageAround_pools s x.2.kernel d f free
  have hpools := taken_pools (u := s.pageAround x.2.kernel d f free) hi hok hp eu ek
    (by rw [State.pageAround_frameRefOf, if_pos rfl]; omega)
    (fun g hg => by rw [State.pageAround_frameRefOf, if_neg hg])
  rw [State.pagedIn_relocate]
  refine mmuWf_relocate hi ep ec en eg (by rw [← hi.frameCounts]; exact hz) (by simp) ?_ ?_ (fun l => ?_) hpools.1 hpools.2.1 ?_
    hpools.2.2.1 hpools.2.2.2 (fun y => ?_) (fun y hy hyl g hg => ?_) (fun y hy => by cases hy)
  · have e1 : (s.pageAround x.2.kernel d f free).frameRef = assocSet 0 s.frameRef f (s.diskRefOf d) := by
      simp [State.pageAround]
    rw [e1]; exact assocSet_wf hi.frameRefWf _ _
  · have e1 : (s.pageAround x.2.kernel d f free).diskRef = assocSet 0 s.diskRef d 0 := by simp [State.pageAround]
    rw [e1]; exact assocSet_wf hi.diskRefWf _ _
  · cases l with
    | frame g =>
      simp only [State.refOf, State.pageAround_frameRefOf, Loc.frame.injEq, reduceCtorEq, if_false]
    | disk y =>
      simp only [State.refOf, State.pageAround_diskRefOf, Loc.disk.injEq, reduceCtorEq, if_false]
  · rw [ed]; exact sortedInsert_pairwise hi.diskSorted _
  · rw [ed, mem_sortedInsert, State.pageAround_diskRefOf, hi.diskFreeIff]
    by_cases hy : y = d
    · subst hy; simp [hdr]
    · simp [hy]
  · cases hg
    rw [hi.sharersAgree y hy x hx (hyl.trans hl.symm)]; exact hr

/-- A page-in keeps the memories' form. -/
theorem pagedIn_memoryWf {s : State} (hok : s.cfg.ok = true) (hm : MemoryWf s) (hi : MmuWf s) {kernel : Bool} {d f : Nat}
    {free : List Nat} (hp : s.pool (framePool kernel) = f :: free) : MemoryWf (s.pagedIn kernel d f free) where
  romWf := by rw [State.pagedIn_rom]; exact hm.romWf
  ramWf := by rw [State.pagedIn_ram]; exact Memory.copy_wf hm.ramWf hm.diskWf _ _ _
  diskWf := by rw [State.pagedIn_disk]; exact hm.diskWf
  romInside := by rw [State.pagedIn_rom, State.pagedIn_cfg]; exact hm.romInside
  ramInside := by
    rw [State.pagedIn_ram, State.pagedIn_cfg]
    exact Memory.copy_inside hm.ramInside (frame_inside hok (pool_frame_lt hok (head_of_pool hi hp).1)) _
  diskInside := by rw [State.pagedIn_disk, State.pagedIn_cfg]; exact hm.diskInside

/-- A page-in changes no byte that a virtual page reads. -/
theorem pagedIn_view {s : State} (hi : MmuWf s) {kernel : Bool} {d f : Nat} {free : List Nat}
    (hp : s.pool (framePool kernel) = f :: free) : SameView s (s.pagedIn kernel d f free) := by
  intro pid p o ho
  have hz := (head_of_pool hi hp).2
  rw [State.virtualByte_eq, State.virtualByte_eq, State.find_pagedIn]
  cases hf : assocFind (s.table pid) p with
  | none => rfl
  | some e =>
    have hpos := refsTo_pos (mem_entries_of_find hf)
    simp only [Option.map_some, Option.some.injEq, movedTo_loc]
    split
    · next hl =>
      rw [hl]
      simp only [State.pageByte, State.byteAt, State.device, State.pagedIn_ram, State.pagedIn_cfg]
      rw [Memory.read_copy, if_pos ⟨by omega, by omega⟩]; congr 1; omega
    · cases hl : e.loc with
      | frame g =>
        simp only [State.pageByte, State.byteAt, State.device, State.pagedIn_ram, State.pagedIn_cfg]
        refine read_copy_ne_frame ?_
        rw [frame_div ho]
        rintro rfl
        simp only [hl, ← hi.frameCounts] at hpos; omega
      | disk x => simp only [State.pageByte, State.byteAt, State.device, State.pagedIn_disk, State.pagedIn_cfg]

/-! ## Copy-on-write break -/

theorem State.oldAt_of_entry {s : State} {p : Nat} {e : Pte} (h : s.entry p = some e) (l : Loc) :
    s.oldAt p l = if e.loc = l then 1 else 0 := by simp [State.oldAt, h]

/-- Rewriting an entry's permission bits and cow bit keeps the invariants of the MMU. -/
theorem reflag_mmuWf {s : State} (hi : MmuWf s) {p : Nat} {e : Pte} (he : s.entry p = some e) (w x c : Bool) :
    MmuWf (s.setEntry p { e with write := w, execute := x, cow := c }) := by
  obtain ⟨pid, hc, -, hf⟩ := State.entry_some he
  have hm := mem_entries_of_find hf
  exact mmuWf_setEntry hi rfl rfl rfl rfl hc (hi.pagesInWindow _ hm) hi.frameRefWf hi.diskRefWf
    (fun l => by rw [State.oldAt_of_entry he]) hi.userSorted hi.kernelSorted hi.diskSorted hi.userFreeIff
    hi.kernelFreeIff hi.diskFreeIff (fun f hl => hi.framesOfPool _ hm f hl) (fun d hl => hi.slotsInRange _ hm d hl)
    (fun y hy hyl => hi.sharersAgree y hy _ hm hyl)

/-- The state around the entry that a copy-on-write break writes. -/
def State.breakAround (s : State) (kernel : Bool) (f g : Nat) (free : List Nat) : State :=
  (((s.setPool (framePool kernel) free).copyFrame f g).setFrameRef f (s.frameRefOf f - 1)).setFrameRef g 1

theorem State.breakAround_frameRefOf (s : State) (kernel : Bool) (f g : Nat) (free : List Nat) (h : Nat) :
    (s.breakAround kernel f g free).frameRefOf h =
      if h = g then 1 else if h = f then s.frameRefOf f - 1 else s.frameRefOf h := by
  unfold State.breakAround
  rw [State.frameRefOf_setFrameRef, State.frameRefOf_setFrameRef]
  simp [State.frameRefOf, State.setPool_frameRef]

/-- A copy-on-write break of a shared page keeps the invariants of the MMU. -/
theorem broken_mmuWf {s : State} (hok : s.cfg.ok = true) (hi : MmuWf s) {p : Nat} {e : Pte} (he : s.entry p = some e) {f : Nat}
    (hl : e.loc = .frame f) (hshared : 1 < s.frameRefOf f) {g : Nat} {free : List Nat}
    (hp : s.pool (framePool e.kernel) = g :: free) : MmuWf (s.broken p e f g free) := by
  obtain ⟨pid, hc, -, hf⟩ := State.entry_some he
  have hm := mem_entries_of_find hf
  obtain ⟨hr, hz⟩ := head_of_pool hi hp
  have hgf : g ≠ f := by rintro rfl; omega
  have hpools := taken_pools (u := s.breakAround e.kernel f g free) hi hok hp (by simp [State.breakAround])
    (by simp [State.breakAround]) (by rw [State.breakAround_frameRefOf, if_pos rfl]; omega)
    (fun h hh => by
      rw [State.breakAround_frameRefOf, if_neg hh]
      split
      · next hhf => subst hhf; omega
      · exact Iff.rfl)
  have hwf : assocWf 0 (s.breakAround e.kernel f g free).frameRef := by
    simp only [State.breakAround, State.setFrameRef_frameRef, State.copyFrame_frameRef, State.setPool_frameRef]
    exact assocSet_wf (assocSet_wf hi.frameRefWf _ _) _ _
  refine mmuWf_setEntry (u := s.breakAround e.kernel f g free) hi (by simp [State.breakAround]) (by simp [State.breakAround])
    (by simp [State.breakAround]) (by simp [State.breakAround]) hc (hi.pagesInWindow _ hm) hwf ?_ (fun l => ?_) hpools.1
    hpools.2.1 ?_ hpools.2.2.1 hpools.2.2.2 (fun d => ?_) (fun h hh => ?_) (fun d hd => by cases hd) (fun y hy hyl => ?_)
  · simpa [State.breakAround] using hi.diskRefWf
  · rw [State.oldAt_of_entry he, hl]
    cases l with
    | frame h =>
      simp only [State.refOf, State.breakAround_frameRefOf, Loc.frame.injEq]
      by_cases h1 : h = g
      · subst h1; simp [hgf.symm, hz]
      · by_cases h2 : h = f
        · subst h2; simp [h1, Ne.symm h1]; omega
        · simp [h1, h2, Ne.symm h1, Ne.symm h2]
    | disk d => simp [State.refOf, State.diskRefOf, State.breakAround]
  · cases hk : e.kernel <;> exact hi.diskSorted
  · have e1 : (s.breakAround e.kernel f g free).diskFree = s.diskFree := by cases e.kernel <;> rfl
    rw [e1, hi.diskFreeIff]; simp [State.diskRefOf, State.breakAround]
  · cases hh; exact hr
  · exfalso
    have := refsTo_pos hy
    rw [hyl, ← hi.frameCounts] at this; omega

theorem broken_memoryWf {s : State} (hok : s.cfg.ok = true) (hm : MemoryWf s) (hi : MmuWf s) {p : Nat} {e : Pte} {f g : Nat}
    {free : List Nat} (hp : s.pool (framePool e.kernel) = g :: free) : MemoryWf (s.broken p e f g free) where
  romWf := by simpa [State.broken] using hm.romWf
  ramWf := by
    simp only [State.broken, State.setEntry_ram, State.setFrameRef_ram, State.copyFrame_ram, State.setPool_ram]
    exact Memory.copy_wf hm.ramWf hm.ramWf _ _ _
  diskWf := by simpa [State.broken] using hm.diskWf
  romInside := by simpa [State.broken] using hm.romInside
  ramInside := by
    simp only [State.broken, State.setEntry_ram, State.setFrameRef_ram, State.copyFrame_ram, State.setPool_ram,
      State.setEntry_cfg, State.setFrameRef_cfg, State.copyFrame_cfg, State.setPool_cfg]
    exact Memory.copy_inside hm.ramInside (frame_inside hok (pool_frame_lt hok (head_of_pool hi hp).1)) _
  diskInside := by simpa [State.broken] using hm.diskInside

/-- A copy-on-write break changes no byte that a virtual page reads. -/
theorem broken_view {s : State} (hi : MmuWf s) {p : Nat} {e : Pte} (he : s.entry p = some e) {f : Nat} (hl : e.loc = .frame f)
    {g : Nat} {free : List Nat} (hp : s.pool (framePool e.kernel) = g :: free) : SameView s (s.broken p e f g free) := by
  intro pid q o ho
  obtain ⟨pid0, hc, -, hf⟩ := State.entry_some he
  have hz := (head_of_pool hi hp).2
  have hfind : assocFind ((s.broken p e f g free).table pid) q =
      if s.current = some pid ∧ q = p then some { e with loc := .frame g, cow := false } else assocFind (s.table pid) q := by
    rw [State.broken, State.find_setEntry]; simp [State.table]
  have hram : (s.broken p e f g free).ram = s.ram.copy (g * s.cfg.pageSize) s.cfg.pageSize s.ram (f * s.cfg.pageSize) := by
    simp [State.broken]
  have hdisk : (s.broken p e f g free).disk = s.disk := by simp [State.broken]
  have hcfg : (s.broken p e f g free).cfg = s.cfg := by simp [State.broken]
  rw [State.virtualByte_eq, State.virtualByte_eq, hfind]
  split
  · next h =>
    obtain ⟨h1, rfl⟩ := h
    rw [hc] at h1; cases h1
    rw [hf]
    simp only [Option.map_some, Option.some.injEq, hl, State.pageByte, State.byteAt, State.device, hram, hcfg]
    rw [Memory.read_copy, if_pos ⟨by omega, by omega⟩]; congr 1; omega
  · cases hf' : assocFind (s.table pid) q with
    | none => rfl
    | some e' =>
      have hpos := refsTo_pos (mem_entries_of_find hf')
      simp only [Option.map_some, Option.some.injEq]
      cases hl' : e'.loc with
      | frame h =>
        simp only [State.pageByte, State.byteAt, State.device, hram, hcfg]
        refine read_copy_ne_frame ?_
        rw [frame_div ho]
        rintro rfl
        simp only [hl', ← hi.frameCounts] at hpos; omega
      | disk x => simp only [State.pageByte, State.byteAt, State.device, hdisk, hcfg]

theorem reflag_view {s : State} {p : Nat} {e e' : Pte} (he : s.entry p = some e) (hl : e'.loc = e.loc) :
    SameView s (s.setEntry p e') := by
  intro pid q o _
  obtain ⟨pid0, hc, -, hf⟩ := State.entry_some he
  have hb : ∀ l, (s.setEntry p e').pageByte l o = s.pageByte l o := fun l => by cases l <;> simp [State.pageByte]
  rw [State.virtualByte_eq, State.virtualByte_eq, State.find_setEntry]
  simp only [hb]
  split
  · next h =>
    obtain ⟨h1, rfl⟩ := h
    rw [hc] at h1; cases h1
    rw [hf]; simp [hl]
  · rfl

/-! ## Translations and accesses -/

/-- What translations keep: the construction checks, the memories' form and the invariants of the MMU, with the bytes that every
virtual page reads. -/
structure Kept (s t : State) : Prop where
  memory : MemoryWf t
  mmu : MmuWf t
  view : SameView s t
  frame : TranslationFrame s t

theorem SameView.refl (s : State) : SameView s s := fun _ _ _ _ => rfl

theorem SameView.trans {s t u : State} (h : SameView s t) (k : SameView t u) (hc : t.cfg = s.cfg) : SameView s u :=
  fun pid p o ho => (k pid p o (by rw [hc]; exact ho)).trans (h pid p o ho)

theorem Kept.trans {s t u : State} (h : Kept s t) (k : Kept t u) : Kept s u :=
  ⟨k.memory, k.mmu, h.view.trans k.view h.frame.engine.1, h.frame.trans k.frame⟩

theorem bringIn_kept {s t : State} (hok : s.cfg.ok = true) (hm : MemoryWf s) (hi : MmuWf s) {p : Nat} {e : Pte}
    (he : s.entry p = some e) (h : s.bringIn e = .ok t) : Kept s t := by
  rcases State.bringIn_ok h with ⟨-, -, rfl⟩ | ⟨d, hl, hd⟩
  · exact ⟨hm, hi, .refl _, .refl _⟩
  · have hf := State.pageInSlot_frame hd
    obtain ⟨f, free, hp, rfl⟩ := State.pageInSlot_pagedIn hd
    exact ⟨pagedIn_memoryWf hok hm hi hp, pagedIn_mmuWf hok hi (mem_entries_of_entry he) hl hp, pagedIn_view hi hp, hf⟩

theorem breakIfCow_kept {s t : State} (hok : s.cfg.ok = true) (hm : MemoryWf s) (hi : MmuWf s) {p : Nat} {w : Bool}
    (h : s.breakIfCow p w = .ok t) : Kept s t := by
  rcases State.breakIfCow_ok h with ⟨rfl, -⟩ | ⟨e, f, he, hl, -, -, hb⟩
  · exact ⟨hm, hi, .refl _, .refl _⟩
  · have hf := State.cowBreak_frame he hb
    rcases State.cowBreak_ok hb with ⟨-, rfl⟩ | ⟨hs, g, free, hp, rfl⟩
    · refine ⟨⟨?_, ?_, ?_, ?_, ?_, ?_⟩, reflag_mmuWf hi he _ _ _, reflag_view he rfl, hf⟩
      · simpa using hm.romWf
      · simpa using hm.ramWf
      · simpa using hm.diskWf
      · simpa using hm.romInside
      · simpa using hm.ramInside
      · simpa using hm.diskInside
    · exact ⟨broken_memoryWf hok hm hi hp, broken_mmuWf hok hi he hl hs hp, broken_view hi he hl hp, hf⟩

/-- A translation that answers keeps the invariants. -/
theorem translate_kept {s t : State} (hok : s.cfg.ok = true) (hm : MemoryWf s) (hi : MmuWf s) {p : Nat} {k : AccessKind}
    {fa : Word} {f : Nat} (h : s.translate p k fa = .ok f t) : Kept s t := by
  obtain ⟨e, he, -, -, hr⟩ := State.translate_ok h
  obtain ⟨s1, h1, h2, -⟩ := State.makeResident_ok hr
  have k1 := bringIn_kept hok hm hi he h1
  exact k1.trans (breakIfCow_kept (k1.frame.engine.1 ▸ hok) k1.memory k1.mmu h2)

/-- In a state of the invariants a translation never gets stuck. -/
theorem translate_not_stuck {s : State} (hok : s.cfg.ok = true) (hm : MemoryWf s) (hi : MmuWf s) {p : Nat} {k : AccessKind}
    {fa : Word} {w : Fault} : s.translate p k fa ≠ .stuck w := by
  intro h
  unfold State.translate at h
  split at h
  · cases h
  · next e he =>
    split at h
    · cases h
    · split at h
      · cases h
      · unfold State.makeResident at h
        split at h
        · next err hb =>
          unfold State.bringIn at hb
          split at hb
          · cases hb
          · next d hd =>
            rcases State.pageInSlot_error hb with ⟨-, rfl⟩ | ⟨f, free, hp, hr⟩
            · simp [mmuFailed] at h
            · have ha := State.pageInSlot_answers hi (mem_entries_of_entry he) hd hp
              rw [hb] at ha; cases ha
        · next s1 h1 =>
          have k1 := bringIn_kept hok hm hi he h1
          split at h
          · next err hb =>
            obtain ⟨e', f', -, -, -, -, hc⟩ := State.breakIfCow_error hb
            obtain ⟨-, -, rfl⟩ := State.cowBreak_error hc
            simp [mmuFailed] at h
          · next s2 h2 =>
            obtain ⟨pid, hcur, -, hf⟩ := State.entry_some he
            have hc1 : s1.current = some pid := k1.frame.processes.1.trans hcur
            have hres : ∃ e1 f1, s1.entry p = some e1 ∧ e1.loc = .frame f1 := by
              rcases State.bringIn_ok h1 with ⟨f, hl, rfl⟩ | ⟨d, hl, hd⟩
              · exact ⟨e, f, he, hl⟩
              · obtain ⟨f, free, hp, rfl⟩ := State.pageInSlot_pagedIn hd
                refine ⟨movedTo (.disk d) (.frame f) e, f, ?_, ?_⟩
                · rw [State.entry_of_current hc1, State.find_pagedIn, hf]; rfl
                · simp [movedTo_loc, hl]
            obtain ⟨e1, f1, he1, hf1⟩ := hres
            have hset : ∀ (u : State) (x : Pte), u.current = some pid → (u.setEntry p x).entry p = some x := fun u x hu => by
              rw [State.entry_of_current (pid := pid) (by simpa using hu), State.find_setEntry, if_pos ⟨hu, rfl⟩]
            split at h
            · cases h
            · next hno =>
              rcases State.breakIfCow_ok h2 with ⟨rfl, -⟩ | ⟨e', f', he', hl', -, -, hb⟩
              · exact hno f1 e1.write e1.execute e1.kernel e1.cow (by rw [he1, ← hf1])
              · rw [he1] at he'; cases he'
                rcases State.cowBreak_ok hb with ⟨-, rfl⟩ | ⟨-, g, free, -, rfl⟩
                · exact hno f1 e1.write e1.execute e1.kernel false (by rw [hset _ _ hc1, ← hf1])
                · exact hno g e1.write e1.execute e1.kernel false
                    (by rw [State.broken, hset _ _ (by simpa using hc1)])

/-- An access keeps the invariants up to the touching of its bytes, whether it answers or faults. -/
theorem resolve_kept {s : State} (hok : s.cfg.ok = true) (hm : MemoryWf s) (hi : MmuWf s) {a : Word} {n : Nat} {k : AccessKind} :
    (∀ pl t, s.resolve a n k = .ok pl t → Kept s t) ∧ (∀ c t, s.resolve a n k = .fault c t → Kept s t) ∧
    ∀ w, s.resolve a n k ≠ .stuck w := by
  have hrefl : Kept s s := ⟨hm, hi, .refl _, .refl _⟩
  have direct : ∀ pl, s.resolve a n k = .ok pl s → (∀ pl t, s.resolve a n k = .ok pl t → Kept s t) ∧
      (∀ c t, s.resolve a n k = .fault c t → Kept s t) ∧ ∀ w, s.resolve a n k ≠ .stuck w := by
    intro pl hx
    rw [hx]
    refine ⟨fun _ _ h => ?_, fun _ _ h => ?_, fun _ h => ?_⟩ <;> cases h
    exact hrefl
  rcases route_cases s.cfg a n k with ⟨off, hx, -⟩ | ⟨off, hx, -⟩ | ⟨hx, -⟩ | ⟨c, hx, -⟩
  · exact direct _ (by unfold State.resolve; rw [hx])
  · exact direct _ (by unfold State.resolve; rw [hx])
  · have hv : s.resolve a n k = s.resolveVm a n k := by unfold State.resolve; rw [hx]
    rw [hv]
    refine ⟨fun pl t h => ?_, fun c t h => ?_, fun w h => ?_⟩
    · obtain ⟨f0, s1, h0, ⟨-, rfl, -⟩ | ⟨-, f1, h1, -⟩⟩ := State.resolveVm_ok h
      · exact translate_kept hok hm hi h0
      · have k1 := translate_kept hok hm hi h0
        exact k1.trans (translate_kept (k1.frame.engine.1 ▸ hok) k1.memory k1.mmu h1)
    · unfold State.resolveVm at h
      simp only at h
      split at h
      · next h0 => cases h; rw [State.translate_fault h0]; exact hrefl
      · cases h
      · next f0 s1 h0 =>
        have k1 := translate_kept hok hm hi h0
        split at h
        · cases h
        · split at h
          · next h1 => cases h; rw [State.translate_fault h1]; exact k1
          · cases h
          · cases h
    · unfold State.resolveVm at h
      simp only at h
      split at h
      · cases h
      · next h0 => exact translate_not_stuck hok hm hi h0
      · next f0 s1 h0 =>
        have k1 := translate_kept hok hm hi h0
        split at h
        · cases h
        · split at h
          · cases h
          · next h1 => exact translate_not_stuck (k1.frame.engine.1 ▸ hok) k1.memory k1.mmu h1
          · cases h
  · have hf : s.resolve a n k = .fault c s := by unfold State.resolve; rw [hx]
    rw [hf]
    refine ⟨fun _ _ h => ?_, fun _ _ h => ?_, fun _ h => ?_⟩ <;> cases h
    exact hrefl

end Sys2Proof.Machine
end

