-- ==== Sys2Proof/Laws/PerInstr.lean ====
section
/-! SUPPORT. Families of lemmas with one lemma per instruction. -/

namespace Sys2Proof.Laws

/-- The word an instruction encodes to carries its opcode (30_encoding.md R121, R123), and the opcode selects its format (R122). -/
def EncodedOpcode.Statement (i : Instr) : Prop :=
  (encode i).extractLsb' 26 6 = i.opcode ∧ formatOfTop (i.opcode.extractLsb' 2 4) = some i.format

theorem EncodedOpcode.hlt : EncodedOpcode.Statement .hlt :=
  ⟨by decide, formatOfTop_opcode _⟩

theorem EncodedOpcode.swi (imm : Word) : EncodedOpcode.Statement (.swi imm) :=
  ⟨(extract_append_hi _ _ _ _ (by decide)).trans (extract_all _), formatOfTop_opcode _⟩

theorem EncodedOpcode.add (f : Bool) (xd xn : Reg) (o : Operand2) : EncodedOpcode.Statement (.add f xd xn o) :=
  ⟨encodeDp_opcode .., formatOfTop_opcode _⟩

theorem EncodedOpcode.sub (f : Bool) (xd xn : Reg) (o : Operand2) : EncodedOpcode.Statement (.sub f xd xn o) :=
  ⟨encodeDp_opcode .., formatOfTop_opcode _⟩

theorem EncodedOpcode.rsb (f : Bool) (xd xn : Reg) (o : Operand2) : EncodedOpcode.Statement (.rsb f xd xn o) :=
  ⟨encodeDp_opcode .., formatOfTop_opcode _⟩

theorem EncodedOpcode.adc (f : Bool) (xd xn : Reg) (o : Operand2) : EncodedOpcode.Statement (.adc f xd xn o) :=
  ⟨encodeDp_opcode .., formatOfTop_opcode _⟩

theorem EncodedOpcode.sbc (f : Bool) (xd xn : Reg) (o : Operand2) : EncodedOpcode.Statement (.sbc f xd xn o) :=
  ⟨encodeDp_opcode .., formatOfTop_opcode _⟩

theorem EncodedOpcode.rsc (f : Bool) (xd xn : Reg) (o : Operand2) : EncodedOpcode.Statement (.rsc f xd xn o) :=
  ⟨encodeDp_opcode .., formatOfTop_opcode _⟩

theorem EncodedOpcode.mul (f : Bool) (xd xn : Reg) (o : Operand2) : EncodedOpcode.Statement (.mul f xd xn o) :=
  ⟨encodeDp_opcode .., formatOfTop_opcode _⟩

theorem EncodedOpcode.and (f : Bool) (xd xn : Reg) (o : Operand2) : EncodedOpcode.Statement (.and f xd xn o) :=
  ⟨encodeDp_opcode .., formatOfTop_opcode _⟩

theorem EncodedOpcode.orr (f : Bool) (xd xn : Reg) (o : Operand2) : EncodedOpcode.Statement (.orr f xd xn o) :=
  ⟨encodeDp_opcode .., formatOfTop_opcode _⟩

theorem EncodedOpcode.eor (f : Bool) (xd xn : Reg) (o : Operand2) : EncodedOpcode.Statement (.eor f xd xn o) :=
  ⟨encodeDp_opcode .., formatOfTop_opcode _⟩

theorem EncodedOpcode.bic (f : Bool) (xd xn : Reg) (o : Operand2) : EncodedOpcode.Statement (.bic f xd xn o) :=
  ⟨encodeDp_opcode .., formatOfTop_opcode _⟩

theorem EncodedOpcode.lsl (f : Bool) (xd xn : Reg) (amt : ShiftAmount) : EncodedOpcode.Statement (.lsl f xd xn amt) :=
  ⟨encodeSh_opcode .., formatOfTop_opcode _⟩

theorem EncodedOpcode.lsr (f : Bool) (xd xn : Reg) (amt : ShiftAmount) : EncodedOpcode.Statement (.lsr f xd xn amt) :=
  ⟨encodeSh_opcode .., formatOfTop_opcode _⟩

theorem EncodedOpcode.asr (f : Bool) (xd xn : Reg) (amt : ShiftAmount) : EncodedOpcode.Statement (.asr f xd xn amt) :=
  ⟨encodeSh_opcode .., formatOfTop_opcode _⟩

theorem EncodedOpcode.ror (f : Bool) (xd xn : Reg) (amt : ShiftAmount) : EncodedOpcode.Statement (.ror f xd xn amt) :=
  ⟨encodeSh_opcode .., formatOfTop_opcode _⟩

theorem EncodedOpcode.cmp (xn : Reg) (o : Operand2) : EncodedOpcode.Statement (.cmp xn o) :=
  ⟨encodeCmp_opcode .., formatOfTop_opcode _⟩

theorem EncodedOpcode.cmn (xn : Reg) (o : Operand2) : EncodedOpcode.Statement (.cmn xn o) :=
  ⟨encodeCmp_opcode .., formatOfTop_opcode _⟩

theorem EncodedOpcode.tst (xn : Reg) (o : Operand2) : EncodedOpcode.Statement (.tst xn o) :=
  ⟨encodeCmp_opcode .., formatOfTop_opcode _⟩

theorem EncodedOpcode.teq (xn : Reg) (o : Operand2) : EncodedOpcode.Statement (.teq xn o) :=
  ⟨encodeCmp_opcode .., formatOfTop_opcode _⟩

theorem EncodedOpcode.mov (f : Bool) (xd : Reg) (o : Operand2) : EncodedOpcode.Statement (.mov f xd o) :=
  ⟨encodeMov_opcode .., formatOfTop_opcode _⟩

theorem EncodedOpcode.mvn (f : Bool) (xd : Reg) (o : Operand2) : EncodedOpcode.Statement (.mvn f xd o) :=
  ⟨encodeMov_opcode .., formatOfTop_opcode _⟩

theorem EncodedOpcode.ldr (xt xn : Reg) (am : AddrMode) (off : MemOffset) : EncodedOpcode.Statement (.ldr xt xn am off) :=
  ⟨encodeMem_opcode .., formatOfTop_opcode _⟩

theorem EncodedOpcode.ldrh (xt xn : Reg) (am : AddrMode) (off : MemOffset) : EncodedOpcode.Statement (.ldrh xt xn am off) :=
  ⟨encodeMem_opcode .., formatOfTop_opcode _⟩

theorem EncodedOpcode.ldrb (xt xn : Reg) (am : AddrMode) (off : MemOffset) : EncodedOpcode.Statement (.ldrb xt xn am off) :=
  ⟨encodeMem_opcode .., formatOfTop_opcode _⟩

theorem EncodedOpcode.str (xt xn : Reg) (am : AddrMode) (off : MemOffset) : EncodedOpcode.Statement (.str xt xn am off) :=
  ⟨encodeMem_opcode .., formatOfTop_opcode _⟩

theorem EncodedOpcode.strh (xt xn : Reg) (am : AddrMode) (off : MemOffset) : EncodedOpcode.Statement (.strh xt xn am off) :=
  ⟨encodeMem_opcode .., formatOfTop_opcode _⟩

theorem EncodedOpcode.strb (xt xn : Reg) (am : AddrMode) (off : MemOffset) : EncodedOpcode.Statement (.strb xt xn am off) :=
  ⟨encodeMem_opcode .., formatOfTop_opcode _⟩

theorem EncodedOpcode.swp (xt xs xn : Reg) : EncodedOpcode.Statement (.swp xt xs xn) :=
  ⟨encodeAtm_opcode .., formatOfTop_opcode _⟩

theorem EncodedOpcode.swph (xt xs xn : Reg) : EncodedOpcode.Statement (.swph xt xs xn) :=
  ⟨encodeAtm_opcode .., formatOfTop_opcode _⟩

theorem EncodedOpcode.swpb (xt xs xn : Reg) : EncodedOpcode.Statement (.swpb xt xs xn) :=
  ⟨encodeAtm_opcode .., formatOfTop_opcode _⟩

theorem EncodedOpcode.b (c : Cond) (off : Word) : EncodedOpcode.Statement (.b c off) :=
  ⟨encodeBi_opcode .., formatOfTop_opcode _⟩

theorem EncodedOpcode.bl (c : Cond) (off : Word) : EncodedOpcode.Statement (.bl c off) :=
  ⟨encodeBi_opcode .., formatOfTop_opcode _⟩

theorem EncodedOpcode.bx (c : Cond) (xn : Reg) : EncodedOpcode.Statement (.bx c xn) :=
  ⟨encodeBr_opcode .., formatOfTop_opcode _⟩

theorem EncodedOpcode.blx (c : Cond) (xn : Reg) : EncodedOpcode.Statement (.blx c xn) :=
  ⟨encodeBr_opcode .., formatOfTop_opcode _⟩

theorem EncodedOpcode.vaddF32 (xd xn xm : Reg) : EncodedOpcode.Statement (.vaddF32 xd xn xm) :=
  ⟨encodeFp3_opcode .., formatOfTop_opcode _⟩

theorem EncodedOpcode.vsubF32 (xd xn xm : Reg) : EncodedOpcode.Statement (.vsubF32 xd xn xm) :=
  ⟨encodeFp3_opcode .., formatOfTop_opcode _⟩

theorem EncodedOpcode.vmulF32 (xd xn xm : Reg) : EncodedOpcode.Statement (.vmulF32 xd xn xm) :=
  ⟨encodeFp3_opcode .., formatOfTop_opcode _⟩

theorem EncodedOpcode.vdivF32 (xd xn xm : Reg) : EncodedOpcode.Statement (.vdivF32 xd xn xm) :=
  ⟨encodeFp3_opcode .., formatOfTop_opcode _⟩

theorem EncodedOpcode.vcmpF32 (xn xm : Reg) : EncodedOpcode.Statement (.vcmpF32 xn xm) :=
  ⟨encodeFpc_opcode .., formatOfTop_opcode _⟩

end Sys2Proof.Laws
end

