-- ==== Sys2Proof/Tests/Slice0.lean ====
section
/-! SUPPORT. Tests of the model: ill-formed terms refused, words written out from the formats, one step on small states with values
from the spec's own examples, and for every obligation with hypotheses a state and operands that meet them. -/

namespace Sys2Proof.Machine

set_option Elab.async false

/-! ## Well-formed terms -/

theorem test_wf_operand2_immediate : (Instr.add true 0#5 1#5 (.imm 0x3FFF#32)).wf = true ∧
    (Instr.add true 0#5 1#5 (.imm 0x4000#32)).wf = false ∧ (Instr.cmp 1#5 (.imm 0x4000#32)).wf = false := by decide +kernel

theorem test_wf_mov_immediate : (Instr.mov false 31#5 (.imm 0x7FFFF#32)).wf = true ∧
    (Instr.mvn false 0#5 (.imm 0x80000#32)).wf = false := by decide +kernel

theorem test_wf_shift_amount : (Instr.lsr true 0#5 1#5 (.imm 31#32)).wf = true ∧
    (Instr.lsr true 0#5 1#5 (.imm 32#32)).wf = false := by decide +kernel

theorem test_wf_memory_offset : (Instr.ldr 0#5 1#5 .offsetOnly (.imm 0xFFFFF000#32)).wf = true ∧
    (Instr.ldr 0#5 1#5 .offsetOnly (.imm 0xFFFFEFFF#32)).wf = false ∧
    (Instr.strb 0#5 1#5 .preIndexed (.imm 0x00000FFF#32)).wf = true ∧
    (Instr.strb 0#5 1#5 .preIndexed (.imm 0x00001000#32)).wf = false := by decide +kernel

theorem test_wf_branch_offset : (Instr.b .al 0x007FFFFC#32).wf = true ∧ (Instr.b .al 0xFF800000#32).wf = true ∧
    (Instr.b .al 0x00800000#32).wf = false ∧ (Instr.bl .eq 2#32).wf = false := by decide +kernel

theorem test_wf_service_number : (Instr.swi 0x03FFFFFF#32).wf = true ∧ (Instr.swi 0x04000000#32).wf = false := by decide +kernel

/-! ## Words, field by field from 30_encoding.md R124 to R135; the hexadecimal forms stand in 95_test_vectors.md -/

theorem test_decode_sys : decode 0b000000_00000000000000000000000000#32 = some .hlt ∧
    decode 0b000001_00000000000000000000000101#32 = some (.swi 5#32) := by decide +kernel

theorem test_decode_arith :
    decode 0b000100_1_00000_00001_0_00010_00_00000_00#32 = some (.add true 0#5 1#5 (.reg 2#5 .lsl 0#5)) ∧
    decode 0b000100_0_00011_00100_1_11111111111111#32 = some (.add false 3#5 4#5 (.imm 16383#32)) ∧
    decode 0b000100_0_00101_00110_0_00111_11_11111_00#32 = some (.add false 5#5 6#5 (.reg 7#5 .ror 31#5)) ∧
    decode 0b000101_1_00000_00001_1_00000000000111#32 = some (.sub true 0#5 1#5 (.imm 7#32)) ∧
    decode 0b000110_1_00000_00001_1_00000000000000#32 = some (.rsb true 0#5 1#5 (.imm 0#32)) ∧
    decode 0b000111_1_00000_00001_1_00000000000010#32 = some (.adc true 0#5 1#5 (.imm 2#32)) ∧
    decode 0b001000_1_00000_00001_1_00000000000011#32 = some (.sbc true 0#5 1#5 (.imm 3#32)) ∧
    decode 0b001001_1_00000_00001_1_00000000001010#32 = some (.rsc true 0#5 1#5 (.imm 10#32)) ∧
    decode 0b001010_1_00000_00001_0_00010_00_00000_00#32 = some (.mul true 0#5 1#5 (.reg 2#5 .lsl 0#5)) := by decide +kernel

theorem test_decode_logic :
    decode 0b001100_1_00000_00001_1_00000011111111#32 = some (.and true 0#5 1#5 (.imm 0xFF#32)) ∧
    decode 0b001101_1_00000_00001_0_00010_00_00100_00#32 = some (.orr true 0#5 1#5 (.reg 2#5 .lsl 4#5)) ∧
    decode 0b001110_1_00000_00001_0_00001_00_00000_00#32 = some (.eor true 0#5 1#5 (.reg 1#5 .lsl 0#5)) ∧
    decode 0b001111_1_00000_00001_1_00000000001111#32 = some (.bic true 0#5 1#5 (.imm 0xF#32)) ∧
    decode 0b011000_1_00000_1_0000000000000000000#32 = some (.mov true 0#5 (.imm 0#32)) ∧
    decode 0b011000_0_00000_0_00001_01_00011_0000000#32 = some (.mov false 0#5 (.reg 1#5 .lsr 3#5)) ∧
    decode 0b011001_1_00000_1_0000000000000000000#32 = some (.mvn true 0#5 (.imm 0#32)) := by decide +kernel

theorem test_decode_shift :
    decode 0b010000_0_00000_00001_0_00010_000000000#32 = some (.lsl false 0#5 1#5 (.reg 2#5)) ∧
    decode 0b010001_1_00000_00001_1_000000000_00001#32 = some (.lsr true 0#5 1#5 (.imm 1#32)) ∧
    decode 0b010010_1_00000_00001_1_000000000_00100#32 = some (.asr true 0#5 1#5 (.imm 4#32)) ∧
    decode 0b010011_0_00000_00001_1_000000000_10000#32 = some (.ror false 0#5 1#5 (.imm 16#32)) := by decide +kernel

theorem test_decode_compare :
    decode 0b010100_000000_00001_1_00000000000101#32 = some (.cmp 1#5 (.imm 5#32)) ∧
    decode 0b010100_000000_00011_0_00100_10_00010_00#32 = some (.cmp 3#5 (.reg 4#5 .asr 2#5)) ∧
    decode 0b010101_000000_00001_1_00000000000011#32 = some (.cmn 1#5 (.imm 3#32)) ∧
    decode 0b010110_000000_00001_1_00000000000001#32 = some (.tst 1#5 (.imm 1#32)) ∧
    decode 0b010111_000000_00001_0_00010_00_00000_00#32 = some (.teq 1#5 (.reg 2#5 .lsl 0#5)) := by decide +kernel

theorem test_decode_memory :
    decode 0b100000_00000_00001_00_1_0000000000100#32 = some (.ldr 0#5 1#5 .offsetOnly (.imm 4#32)) ∧
    decode 0b100001_00000_00001_01_1_0000000000011#32 = some (.ldrh 0#5 1#5 .preIndexed (.imm 3#32)) ∧
    decode 0b100010_00000_00001_10_1_0000000000001#32 = some (.ldrb 0#5 1#5 .postIndexed (.imm 1#32)) ∧
    decode 0b100100_00000_00001_01_1_1111111111100#32 = some (.str 0#5 1#5 .preIndexed (.imm 0xFFFFFFFC#32)) ∧
    decode 0b100101_00000_00001_00_1_0000000000000#32 = some (.strh 0#5 1#5 .offsetOnly (.imm 0#32)) ∧
    decode 0b100110_00000_00001_00_0_00010_00000000#32 = some (.strb 0#5 1#5 .offsetOnly (.reg 2#5)) := by decide +kernel

theorem test_decode_atomic :
    decode 0b101000_00000_00001_00010_00000000000#32 = some (.swp 0#5 1#5 2#5) ∧
    decode 0b101001_00000_00001_00010_00000000000#32 = some (.swph 0#5 1#5 2#5) ∧
    decode 0b101010_00000_00001_00010_00000000000#32 = some (.swpb 0#5 1#5 2#5) := by decide +kernel

theorem test_decode_branch :
    decode 0b101100_0001_1111111111111111111110#32 = some (.b .ne 0xFFFFFFF8#32) ∧
    decode 0b101101_1110_0000000000000001000000#32 = some (.bl .al 0x100#32) ∧
    decode 0b110000_1110_11110_00000000000000000#32 = some (.bx .al 30#5) ∧
    decode 0b110001_1110_00101_00000000000000000#32 = some (.blx .al 5#5) := by decide +kernel

theorem test_decode_float :
    decode 0b110100_0_00000_00001_00010_0000000000#32 = some (.vaddF32 0#5 1#5 2#5) ∧
    decode 0b110101_0_00000_00001_00010_0000000000#32 = some (.vsubF32 0#5 1#5 2#5) ∧
    decode 0b110110_0_00000_00001_00010_0000000000#32 = some (.vmulF32 0#5 1#5 2#5) ∧
    decode 0b110111_0_00000_00001_00010_0000000000#32 = some (.vdivF32 0#5 1#5 2#5) ∧
    decode 0b111000_000000_00001_00010_0000000000#32 = some (.vcmpF32 1#5 2#5) := by decide +kernel

/-- 95_test_vectors.md section 2.2: a word of each kind of Invalid. -/
theorem test_decode_invalid : [0x00000001#32, 0x08000000#32, 0x2C000000#32, 0x10000201#32, 0x40204023#32, 0x40108201#32,
    0x50100200#32, 0x60004001#32, 0x68000000#32, 0x70000000#32, 0x80000001#32, 0x8000C000#32, 0x8C000000#32, 0xA1244001#32,
    0xB3C00000#32, 0xB8000000#32, 0xFFFFFFFF#32].all (fun w => decode w == none) = true := by decide +kernel

theorem test_decodeTableWord : decodeTableWord 32 0x12008400 = some (.add true 0#5 1#5 (.reg 2#5 .lsl 0#5)) ∧
    decodeTableWord 32 0x08000000 = none := by decide +kernel

/-! ## One step -/

/-- N, Z, C and V as the spec's vectors write them. -/
def nzcv (n z c v : Nat) : Flags := { n := n == 1, z := z == 1, c := c == 1, v := v == 1 }

/-- The reset machine with x1, x2, the flags and the pc set, and the bytes of RAM from 0x00010000 on. -/
def machine (x1 x2 : Word) (fl : Flags) (pc : Word := 0#32) (ram : List Byte := []) : State :=
  { State.reset with
    regs := ((Vector.replicate 32 0#32).set 1 x1).set 2 x2
    flags := fl
    pc := pc
    ram := Memory.load [] 0 ram }

/-- The next state's view after the word `w` runs as the next instruction. -/
def after {α : Type} (w : Nat) (s : State) (view : State → α) : Option α := (nextOf (step (s.withFetchWord 32 w))).map view

/-- x0 and the flags after `w`. -/
def result (w : Nat) (s : State) : Option (Word × Flags) := after w s fun t => (t.reg 0#5, t.flags)

theorem test_add_carry : result 0x12008400 (machine 0xFFFFFFFF#32 1#32 (nzcv 0 0 0 0)) = some (0#32, nzcv 0 1 1 0) := by
  decide +kernel

theorem test_add_overflow : result 0x12008400 (machine 0x7FFFFFFF#32 1#32 (nzcv 0 0 0 0)) = some (0x80000000#32, nzcv 1 0 0 1) := by
  decide +kernel

theorem test_sub_borrow : result 0x1600C007 (machine 5#32 0#32 (nzcv 0 0 0 0)) = some (0xFFFFFFFE#32, nzcv 1 0 0 0) := by
  decide +kernel

theorem test_rsb_negates : result 0x1A00C000 (machine 1#32 0#32 (nzcv 0 0 0 0)) = some (0xFFFFFFFF#32, nzcv 1 0 0 0) := by
  decide +kernel

theorem test_adc_adds_carry : result 0x1E00C002 (machine 1#32 0#32 (nzcv 0 0 1 0)) = some (4#32, nzcv 0 0 0 0) := by decide +kernel

theorem test_sbc_borrows : result 0x2200C003 (machine 10#32 0#32 (nzcv 0 0 0 0)) = some (6#32, nzcv 0 0 1 0) := by decide +kernel

theorem test_rsc_reverses : result 0x2600C00A (machine 3#32 0#32 (nzcv 0 0 1 0)) = some (7#32, nzcv 0 0 1 0) := by decide +kernel

theorem test_mul_small : result 0x2A008400 (machine 6#32 7#32 (nzcv 0 0 0 0)) = some (42#32, nzcv 0 0 0 0) := by decide +kernel

theorem test_mul_carry_no_overflow :
    result 0x2A008400 (machine 0xFFFFFFFF#32 0xFFFFFFFF#32 (nzcv 0 0 0 0)) = some (1#32, nzcv 0 0 1 0) := by decide +kernel

theorem test_and_keeps_c_v : result 0x3200C0FF (machine 0x12345678#32 0#32 (nzcv 1 1 1 1)) = some (0x78#32, nzcv 0 0 1 1) := by
  decide +kernel

theorem test_orr_shifter_carry :
    result 0x36008410 (machine 0x0F#32 0x10000001#32 (nzcv 0 0 0 1)) = some (0x1F#32, nzcv 0 0 1 1) := by decide +kernel

theorem test_eor_zero : result 0x3A008200 (machine 0xDEADBEEF#32 0#32 (nzcv 0 0 1 1)) = some (0#32, nzcv 0 1 1 1) := by
  decide +kernel

theorem test_bic_negative : result 0x3E00C00F (machine 0x8000000F#32 0#32 (nzcv 0 0 1 0)) = some (0x80000000#32, nzcv 1 0 1 0) := by
  decide +kernel

theorem test_mov_zero : result 0x62080000 (machine 0#32 0#32 (nzcv 1 0 1 1)) = some (0#32, nzcv 0 1 1 1) := by decide +kernel

theorem test_mvn_zero : result 0x66080000 (machine 0#32 0#32 (nzcv 0 1 0 0)) = some (0xFFFFFFFF#32, nzcv 1 0 0 0) := by decide +kernel

theorem test_lsl_register : result 0x40008400 (machine 1#32 5#32 (nzcv 1 1 1 1)) = some (32#32, nzcv 1 1 1 1) := by decide +kernel

/-- 95_test_vectors.md E4: only the low byte of the amount register is used, and 33 is out of range. -/
theorem test_lsl_amounts : result 0x42008400 (machine 3#32 0x100#32 (nzcv 0 0 1 1)) = some (3#32, nzcv 0 0 1 1) ∧
    result 0x42008400 (machine 3#32 0x101#32 (nzcv 0 0 1 1)) = some (6#32, nzcv 0 0 0 1) ∧
    result 0x42008400 (machine 3#32 0x21#32 (nzcv 0 0 1 1)) = some (0#32, nzcv 0 1 0 1) := by decide +kernel

theorem test_lsr_carry : result 0x4600C001 (machine 3#32 0#32 (nzcv 0 0 0 0)) = some (1#32, nzcv 0 0 1 0) := by decide +kernel

theorem test_asr_sign : result 0x4A00C004 (machine 0x80000000#32 0#32 (nzcv 0 0 1 0)) = some (0xF8000000#32, nzcv 1 0 0 0) := by
  decide +kernel

theorem test_ror_wraps : result 0x4C00C010 (machine 0x8000#32 0#32 (nzcv 0 0 0 0)) = some (0x80000000#32, nzcv 0 0 0 0) ∧
    result 0x4E00C010 (machine 0x8000#32 0#32 (nzcv 0 0 0 0)) = some (0x80000000#32, nzcv 1 0 1 0) := by decide +kernel

theorem test_cmp_equal : result 0x5000C005 (machine 5#32 0#32 (nzcv 0 0 0 0)) = some (0#32, nzcv 0 1 1 0) := by decide +kernel

theorem test_cmn_wraps : result 0x5400C003 (machine 0xFFFFFFFD#32 0#32 (nzcv 0 0 0 0)) = some (0#32, nzcv 0 1 1 0) := by decide +kernel

theorem test_tst_keeps_c_v : result 0x5800C001 (machine 2#32 0#32 (nzcv 0 0 1 1)) = some (0#32, nzcv 0 1 1 1) := by decide +kernel

theorem test_teq_sign : result 0x5C008400 (machine 0x80000000#32 0#32 (nzcv 0 0 0 1)) = some (0#32, nzcv 1 0 0 1) := by decide +kernel

theorem test_ldr_offset : after 0x80012004
    (machine 0x00010000#32 0#32 (nzcv 1 1 1 1) 0#32 [0#8, 0#8, 0#8, 0#8, 0x78#8, 0x56#8, 0x34#8, 0x12#8])
    (fun t => (t.reg 0#5, t.reg 1#5, t.pc, t.flags)) =
    some (0x12345678#32, 0x00010000#32, 4#32, nzcv 1 1 1 1) := by decide +kernel

/-- A pre-indexed load into its own base keeps the loaded value (44_memory.md R212). -/
theorem test_ldr_into_base : (nextOf (exec (.ldr 1#5 1#5 .preIndexed (.imm 4#32))
    (machine 0x00010000#32 0#32 (nzcv 0 0 0 0) 0#32 [0#8, 0#8, 0#8, 0#8, 9#8]))).map (fun t => t.reg 1#5) = some 9#32 := by
  decide +kernel

theorem test_ldrh_pre_indexed : after 0x84016003
    (machine 0x0000FFFE#32 0#32 (nzcv 0 0 0 0) 0#32 [0#8, 0xCD#8, 0xAB#8, 0xFF#8]) (fun t => (t.reg 0#5, t.reg 1#5)) =
    some (0xABCD#32, 0x00010001#32) := by decide +kernel

theorem test_ldrb_post_indexed : after 0x8801A001 (machine 0x00010000#32 0#32 (nzcv 0 0 0 0) 0#32 [0xAB#8])
    (fun t => (t.reg 0#5, t.reg 1#5)) = some (0xAB#32, 0x00010001#32) := by decide +kernel

/-- `str x2, [x1, #-4]!`, the bytes of R216's example. -/
theorem test_str_pre_indexed : after 0x90417FFC (machine 0x00010010#32 0xCAFEBABE#32 (nzcv 0 0 0 0))
    (fun t => (t.ram, t.reg 1#5)) =
    some ([(12, 0xBE#8), (13, 0xBA#8), (14, 0xFE#8), (15, 0xCA#8)], 0x0001000C#32) := by decide +kernel

/-- `strh x2, [x1]`. -/
theorem test_strh_low_half : after 0x94412000 (machine 0x00010000#32 0x12345678#32 (nzcv 0 0 0 0)) (fun t => t.ram) =
    some [(0, 0x78#8), (1, 0x56#8)] := by decide +kernel

/-- `strb x2, [x1, x0]`, x0 = 0. -/
theorem test_strb_low_byte : after 0x98410000 (machine 0x00010002#32 0x1FF#32 (nzcv 0 0 0 0)) (fun t => t.ram) =
    some [(2, 0xFF#8)] := by decide +kernel

/-- A store into ROM takes WriteToReadOnly and commits nothing (20_memory.md R74, 44_memory.md R212). -/
theorem test_str_rom_faults : after 0x90417FFC (machine 0x00000104#32 7#32 (nzcv 0 0 0 0))
    (fun t => (t.reg 1#5, t.pc, t.execState, t.lastResult.map fun r => (r.ending.code, r.executed))) =
    some (0x104#32, 0#32, .faulted, some (18, 0)) := by decide +kernel

theorem test_swp_word : after 0xA0011000
    (machine 0x76543210#32 0x00010000#32 (nzcv 0 0 0 0) 0#32 [0x07#8, 0x16#8, 0x25#8, 0x34#8])
    (fun t => (t.reg 0#5, t.reg 1#5, t.reg 2#5, t.ram)) =
    some (0x34251607#32, 0x76543210#32, 0x00010000#32, [(0, 0x10#8), (1, 0x32#8), (2, 0x54#8), (3, 0x76#8)]) := by decide +kernel

theorem test_swph_half : after 0xA4011000 (machine 0x76543210#32 0x00010000#32 (nzcv 0 0 0 0) 0#32 [0x07#8, 0x16#8])
    (fun t => (t.reg 0#5, t.ram)) = some (0x1607#32, [(0, 0x10#8), (1, 0x32#8)]) := by decide +kernel

theorem test_swpb_byte : after 0xA8011000 (machine 0x76543210#32 0x00010000#32 (nzcv 0 0 0 0) 0#32 [0x07#8])
    (fun t => (t.reg 0#5, t.ram)) = some (0x07#32, [(0, 0x10#8)]) := by decide +kernel

/-- `b.ne` at 0x110 to 0x108, taken and not (46_branch.md R242). -/
theorem test_b_conditional : after 0xB07FFFFE (machine 0#32 0#32 (nzcv 0 0 0 0) 0x110#32) (fun t => t.pc) = some 0x108#32 ∧
    after 0xB07FFFFE (machine 0#32 0#32 (nzcv 0 1 0 0) 0x110#32) (fun t => t.pc) = some 0x114#32 := by decide +kernel

theorem test_bl_links : after 0xB7800040 (machine 0#32 0#32 (nzcv 0 0 0 0) 0x100#32) (fun t => (t.reg 30#5, t.pc)) =
    some (0x104#32, 0x200#32) := by decide +kernel

/-- `bx x1` to an address that is no multiple of 4. -/
theorem test_bx_any_target : after 0xC3820000 (machine 0x105#32 0#32 (nzcv 0 0 0 0)) (fun t => (t.reg 30#5, t.pc)) =
    some (0#32, 0x105#32) := by decide +kernel

/-- `blx x30` reads its target before it writes x30 (46_branch.md R245). -/
theorem test_blx_lr : (nextOf (exec (.blx .al 30#5) ((machine 0#32 0#32 (nzcv 0 0 0 0) 0x120#32).setReg 30#5 0x300#32))).map
    (fun t => (t.reg 30#5, t.pc)) = some (0x124#32, 0x300#32) := by decide +kernel

theorem test_vadd : result 0xD0008800 (machine 0x3FC00000#32 0x40100000#32 (nzcv 1 0 1 0)) = some (0x40700000#32, nzcv 1 0 1 0) ∧
    result 0xD0008800 (machine 0x7F7FFFFF#32 0x7F7FFFFF#32 (nzcv 0 0 0 0)) = some (0x7F800000#32, nzcv 0 0 0 0) := by decide +kernel

theorem test_vsub : result 0xD4008800 (machine 0x3F800000#32 0x40000000#32 (nzcv 0 0 0 0)) = some (0xBF800000#32, nzcv 0 0 0 0) ∧
    result 0xD4008800 (machine 0xBF800000#32 0xBF800000#32 (nzcv 0 0 0 0)) = some (0#32, nzcv 0 0 0 0) := by decide +kernel

theorem test_vmul : result 0xD8008800 (machine 0x40400000#32 0xC0000000#32 (nzcv 0 0 0 0)) = some (0xC0C00000#32, nzcv 0 0 0 0) ∧
    result 0xD8008800 (machine 0#32 0xFF800000#32 (nzcv 0 0 0 0)) = some (0x7FC00000#32, nzcv 0 0 0 0) := by decide +kernel

theorem test_vdiv : result 0xDC008800 (machine 0x3F800000#32 0x40400000#32 (nzcv 0 0 0 0)) = some (0x3EAAAAAB#32, nzcv 0 0 0 0) ∧
    result 0xDC008800 (machine 0x3F800000#32 0x80000000#32 (nzcv 0 0 0 0)) = some (0xFF800000#32, nzcv 0 0 0 0) := by decide +kernel

theorem test_vcmp : result 0xE0008800 (machine 0x3F800000#32 0x40000000#32 (nzcv 0 0 0 0)) = some (0#32, nzcv 1 0 0 0) ∧
    result 0xE0008800 (machine 0x7FC00000#32 0x40000000#32 (nzcv 1 1 0 0)) = some (0#32, nzcv 0 0 1 1) := by decide +kernel

theorem test_hlt : after 0x00000000 (machine 0#32 0#32 (nzcv 0 0 0 0) 0x40#32)
    (fun t => (t.pc, t.execState, t.cycles, t.lastResult.map fun r => (r.ending.code, r.executed))) =
    some (0x44#32, .halted, 1#64, some (0, 1)) := by decide +kernel

theorem test_swi : after 0x04000005 (machine 0#32 0#32 (nzcv 0 0 0 0) 0x100#32) (fun t => (t.pc, t.execState, t.lastResult)) =
    some (0x104#32, .running, some { ending := .softwareInterrupt 5#32, executed := 1 }) := by decide +kernel

theorem test_invalid_word_faults : after 0x10000001 (machine 0#32 0#32 (nzcv 0 0 0 0))
    (fun t => (t.pc, t.execState, t.lastResult.map fun r => r.ending.code)) = some (0#32, .faulted, some 16) := by decide +kernel

/-! ## Witnesses: a state and operands that meet the hypotheses of each obligation that has some

`small` is a machine of 16-byte pages. Process 0 maps pages 0 and 15 to frame 4, page 1 to slot 0, pages 2 and 3 (copy-on-write) to
frame 5, page 4 (copy-on-write) to frame 6, page 5 (read-only) to frame 7, page 6 (kernel) to frame 2 and page 7 (kernel) to slot 1.
`full` is the same machine with every pool empty. -/

/-- A mapped page. -/
def pte (loc : Loc) (write execute kernel cow : Bool) : Pte :=
  { loc := loc, write := write, execute := execute, kernel := kernel, cow := cow }

/-- The parameters of `small`: ROM 0 to 0xFF, RAM 0x100 to 0x1FF, the VM window 0x200 to 0x2FF. -/
def smallCfg : Params :=
  { Params.defaults with
    pageSize := 16, romSize := 256, ramBase := 256, ramSize := 256, vmBase := 512, vmSize := 256, diskPages := 4
    userLow := 4, userHigh := 11, kernelLow := 2, kernelHigh := 3 }

def small : State :=
  { State.reset with
    cfg := smallCfg
    rom := Memory.load [] 0 [0x00#8, 0x84#8, 0x00#8, 0x12#8]
    ram := Memory.load [] 64 [0x05#8, 0x00#8, 0x00#8, 0x04#8]
    disk := Memory.load [] 0 [0xAA#8, 0xBB#8]
    userFree := [8, 9, 10, 11]
    kernelFree := [3]
    diskFree := [2, 3]
    frameRef := [(2, 1), (4, 2), (5, 2), (6, 1), (7, 1)]
    diskRef := [(0, 1), (1, 1)]
    procs := [(0, [(0, pte (.frame 4) true true false false), (1, pte (.disk 0) true true false false),
      (2, pte (.frame 5) true false false true), (3, pte (.frame 5) true false false true),
      (4, pte (.frame 6) true false false true), (5, pte (.frame 7) false false false false),
      (6, pte (.frame 2) true false true false), (7, pte (.disk 1) true true true false),
      (15, pte (.frame 4) true true false false)]), (1, [])]
    nextPid := 2 }

def full : State :=
  { small with
    cfg := { smallCfg with userHigh := 7, kernelHigh := 2, diskPages := 2 }
    userFree := []
    kernelFree := []
    diskFree := [] }

/-- `s` with a register and the pc set. -/
def State.put (s : State) (r : Reg) (v : Word) (pc : Word := 0#32) : State := { s.setReg r v with pc := pc }

theorem test_small_inv : Inv small := invCheck_sound (bound := 16) (by decide +kernel)

theorem test_full_inv : Inv full := invCheck_sound (bound := 16) (by decide +kernel)

theorem test_DecodeAfterEncode_witness : (Instr.str 31#5 30#5 .postIndexed (.imm 0xFFFFF000#32)).wf = true := by decide +kernel

theorem test_EncodeAfterDecode_witness : ∃ i, decode 0x13FFFFFF#32 = some i ∧ encode i = 0x13FFFFFF#32 :=
  ⟨.add true 31#5 31#5 (.imm 0x3FFF#32), by decide +kernel⟩

theorem test_InvalidWordsExactly_witness : (∃ s1, (small.withFetchWord 32 0x10000001).resume.fetch = .ok 0x10000001#32 s1) ∧
    InvalidWord 0x10000001#32 ∧ small.execState ≠ .halted :=
  ⟨Access.exists_ok (by decide +kernel), .inr (.inl (by decide +kernel)), by decide⟩

theorem test_DecodedFieldsInPlace_witness : ∃ i, decode 0xC3BC0000#32 = some i := ⟨.bx .al 30#5, by decide +kernel⟩

theorem test_StepRunsDecoded_witness : small.execState ≠ .halted ∧ (∃ s1, small.resume.fetch = .ok 0x12008400#32 s1) ∧
    decode 0x12008400#32 = some (.add true 0#5 1#5 (.reg 2#5 .lsl 0#5)) :=
  ⟨by decide, Access.exists_ok (by decide +kernel), by decide +kernel⟩

/-- The hypotheses of ReadyFetchRuns at the first word of ROM and in a resident page. -/
theorem test_ReadyFetchRuns_witness : small.cfg.ok = true ∧ AccessReady small small.pc 4 .fetch .rom [0, 1, 2, 3] ∧
    [0, 1, 2, 3].map (small.byteAt .rom) = [0x00#8, 0x84#8, 0x00#8, 0x12#8] ∧
    AccessReady (small.put 0#5 0#32 0x200#32) 0x200#32 4 .fetch .ram [64, 65, 66, 67] ∧
    [64, 65, 66, 67].map (small.byteAt .ram) = [(encode (.swi 5#32)).extractLsb' 0 8, (encode (.swi 5#32)).extractLsb' 8 8,
      (encode (.swi 5#32)).extractLsb' 16 8, (encode (.swi 5#32)).extractLsb' 24 8] :=
  ⟨by decide, ⟨by decide, rfl, .inl ⟨rfl, rfl, by decide +kernel⟩⟩, by decide +kernel,
    vm_ready (by decide) (by
      intro j hj
      interval_cases j <;> exact ⟨_, rfl, by decide +kernel⟩), by decide +kernel⟩

/-- Fetches that fault: outside every range, unmapped, without execute, and with no free frame. -/
theorem test_FetchFaultTaken_witness :
    (∃ s1, (small.put 0#5 0#32 0xFD#32).resume.fetch = .fault (.memoryOutOfBounds 0xFD#32) s1) ∧
    (∃ s1, (small.put 0#5 0#32 0x280#32).resume.fetch = .fault (.pageFault 0x280#32 8 .fetch .unmapped) s1) ∧
    (∃ s1, (small.put 0#5 0#32 0x250#32).resume.fetch = .fault (.pageFault 0x250#32 5 .fetch .permission) s1) ∧
    (∃ s1, (full.put 0#5 0#32 0x210#32).resume.fetch = .fault (.resourceExhausted .user) s1) ∧
    (∃ s1, (small.put 0#5 0#32 0x27E#32).resume.fetch = .fault (.pageFault 0x280#32 8 .fetch .unmapped) s1) :=
  ⟨Access.exists_fault (by decide +kernel), Access.exists_fault (by decide +kernel), Access.exists_fault (by decide +kernel),
    Access.exists_fault (by decide +kernel), Access.exists_fault (by decide +kernel)⟩

theorem test_AddSubRsbResults_witness : 0xFFFFFFFF#32 = (small.put 1#5 0xFFFFFFFF#32).reg 1#5 ∧
    16383#32 = (small.operand (.imm 16383#32)).value := by decide +kernel

theorem test_AdcSbcRscResults_witness : 5#32 = (small.put 1#5 5#32).reg 1#5 ∧ 0#32 = (small.operand (.reg 2#5 .ror 31#5)).value ∧
    1 = (small.setFlags (nzcv 0 0 1 0)).flags.c.toNat ∧ 0 = small.flags.c.toNat := by decide +kernel

theorem test_MulResult_witness : 0x10000#32 = (small.put 1#5 0x10000#32).reg 1#5 ∧
    0#32 = BitVec.ofNat 32 ((0x10000#32).toNat * (0x10000#32).toNat) := by decide +kernel

theorem test_LogicalResults_witness : 0x80000001#32 = (small.put 1#5 0x80000001#32).reg 1#5 ∧
    { value := 2#32, carry := true, shifted := true } = (small.put 1#5 0x80000001#32).operand (.reg 1#5 .lsl 1#5) := by
  decide +kernel

theorem test_MoveResults_witness : { value := 7#32, carry := false, shifted := false } = small.operand (.imm 7#32) := by
  decide +kernel

/-- The shifter where its clauses meet: amounts 0, 1, 31, 32, 33, 64 and 255. -/
theorem test_BarrelShifter_witness :
    shift 0x80000001#32 .lsl 0 true = ⟨0x80000001#32, true, false⟩ ∧
    shift 0x80000001#32 .lsl 1 false = ⟨2#32, true, true⟩ ∧ shift 0x80000001#32 .lsl 31 true = ⟨0x80000000#32, false, true⟩ ∧
    shift 0x80000001#32 .lsl 32 false = ⟨0#32, true, true⟩ ∧ shift 0x80000001#32 .lsl 33 true = ⟨0#32, false, true⟩ ∧
    shift 0x80000001#32 .lsr 31 true = ⟨1#32, false, true⟩ ∧ shift 0x80000001#32 .lsr 32 false = ⟨0#32, true, true⟩ ∧
    shift 0x80000001#32 .lsr 33 true = ⟨0#32, false, true⟩ ∧
    shift 0x80000001#32 .asr 31 true = ⟨0xFFFFFFFF#32, false, true⟩ ∧ shift 0x80000001#32 .asr 32 false = ⟨0xFFFFFFFF#32, true, true⟩ ∧
    shift 0x80000001#32 .asr 255 false = ⟨0xFFFFFFFF#32, true, true⟩ ∧
    shift 0x80000001#32 .ror 1 false = ⟨0xC0000000#32, true, true⟩ ∧ shift 0x80000001#32 .ror 32 false = ⟨0x80000001#32, true, true⟩ ∧
    shift 0x80000001#32 .ror 33 false = ⟨0xC0000000#32, true, true⟩ ∧ shift 1#32 .ror 64 true = ⟨1#32, false, true⟩ := by
  decide +kernel

theorem test_OperandForms_witness : (small.put 2#5 9#32).operand (.reg 2#5 .asr 0#5) =
    { value := 9#32, carry := false, shifted := false } := by decide +kernel

theorem test_ShiftResults_witness : 255 = ((small.put 2#5 0x1FF#32).reg 2#5).toNat % 256 ∧ 31 = (31#32).toNat ∧
    (Instr.ror true 0#5 1#5 (.reg 2#5), 0x13, ShiftType.ror) ∈
      [(Instr.lsl true 0#5 1#5 (.reg 2#5), 0x10, ShiftType.lsl), (Instr.lsr true 0#5 1#5 (.reg 2#5), 0x11, ShiftType.lsr),
        (Instr.asr true 0#5 1#5 (.reg 2#5), 0x12, ShiftType.asr), (Instr.ror true 0#5 1#5 (.reg 2#5), 0x13, ShiftType.ror)] := by
  decide +kernel

theorem test_CmpCmnFlags_witness : 0x80000000#32 = (small.put 1#5 0x80000000#32).reg 1#5 ∧
    1#32 = (small.operand (.imm 1#32)).value := by decide +kernel

theorem test_TstTeqFlags_witness : 2#32 = (small.put 1#5 2#32).reg 1#5 ∧
    { value := 1#32, carry := false, shifted := true } = (small.put 1#5 2#32).operand (.reg 1#5 .lsr 1#5) := by decide +kernel

theorem test_ConditionTable_witness : 3#32 = (small.put 1#5 3#32).reg 1#5 ∧ 3#32 = (small.operand (.imm 3#32)).value := by
  decide +kernel

/-- Ready loads: the last word of ROM, the last word of RAM, a halfword across two resident pages, a byte of a kernel page. -/
theorem test_ReadyLoadsComplete_witness : small.cfg.ok = true ∧
    AccessReady (small.put 1#5 0xFC#32) ((small.put 1#5 0xFC#32).accessAddr 1#5 .offsetOnly (.imm 0#32)) 4 .read .rom
      [252, 253, 254, 255] ∧
    AccessReady (small.put 1#5 0x1FC#32) ((small.put 1#5 0x1FC#32).accessAddr 1#5 .postIndexed (.imm 4#32)) 4 .read .ram
      [252, 253, 254, 255] ∧
    AccessReady (small.put 1#5 0x240#32) ((small.put 1#5 0x240#32).accessAddr 1#5 .preIndexed (.imm 0xFFFFFFFF#32)) 2 .read .ram
      [95, 96] ∧
    AccessReady (small.put 1#5 0x26F#32) ((small.put 1#5 0x26F#32).accessAddr 1#5 .offsetOnly (.reg 2#5)) 1 .read .ram [47] :=
  ⟨by decide, ⟨by decide +kernel, rfl, .inl ⟨rfl, rfl, by decide +kernel⟩⟩,
    ⟨by decide +kernel, rfl, .inr (.inl ⟨rfl, by decide +kernel⟩)⟩,
    vm_ready (by decide +kernel) (by intro j hj; interval_cases j <;> exact ⟨_, rfl, by decide +kernel⟩),
    vm_ready (by decide +kernel) (by intro j hj; interval_cases j; exact ⟨_, rfl, by decide +kernel⟩)⟩

/-- Ready stores: the first word of RAM, and a word across a resident page's end. -/
theorem test_ReadyStoresComplete_witness : small.cfg.ok = true ∧
    AccessReady (small.put 1#5 0x100#32) ((small.put 1#5 0x100#32).accessAddr 1#5 .preIndexed (.imm 0#32)) 4 .write .ram
      [0, 1, 2, 3] ∧
    AccessReady (small.put 1#5 0x20E#32) ((small.put 1#5 0x20E#32).accessAddr 1#5 .postIndexed (.imm 0#32)) 2 .write .ram
      [78, 79] ∧
    (Instr.strh 0#5 1#5 .postIndexed (.imm 0#32), 0x25, 2) ∈ [(Instr.str 0#5 1#5 .postIndexed (.imm 0#32), 0x24, 4),
      (Instr.strh 0#5 1#5 .postIndexed (.imm 0#32), 0x25, 2), (Instr.strb 0#5 1#5 .postIndexed (.imm 0#32), 0x26, 1)] :=
  ⟨by decide, ⟨by decide +kernel, rfl, .inr (.inl ⟨rfl, by decide +kernel⟩)⟩,
    vm_ready (by decide +kernel) (by intro j hj; interval_cases j <;> exact ⟨_, rfl, by decide +kernel⟩), by decide +kernel⟩

theorem test_ReadySwapsComplete_witness : small.cfg.ok = true ∧
    AccessReady (small.put 1#5 0x1FC#32) ((small.put 1#5 0x1FC#32).reg 1#5) 4 .swap .ram [252, 253, 254, 255] ∧
    AccessReady (small.put 1#5 0x2FF#32) ((small.put 1#5 0x2FF#32).reg 1#5) 1 .swap .ram [79] :=
  ⟨by decide, ⟨by decide +kernel, rfl, .inr (.inl ⟨rfl, by decide +kernel⟩)⟩,
    vm_ready (by decide +kernel) (by intro j hj; interval_cases j; exact ⟨_, rfl, by decide +kernel⟩)⟩

/-- Accesses that need a page-in, a copy-on-write break, and one of each across two pages. -/
theorem test_TranslationMakesReady_witness :
    (∃ s1, (small.put 1#5 0x210#32).resolve 0x210#32 4 .read = .ok { dev := .ram, offs := [128, 129, 130, 131] } s1) ∧
    (∃ s1, (small.put 1#5 0x220#32).resolve 0x220#32 1 .swap = .ok { dev := .ram, offs := [128] } s1) ∧
    (∃ s1, (small.put 1#5 0x21F#32).resolve 0x21F#32 2 .write = .ok { dev := .ram, offs := [143, 144] } s1) ∧
    dataAccess (small.put 1#5 0x21F#32) (.strh 0#5 1#5 .offsetOnly (.imm 0#32)) = some (0x21F#32, 2, .write) :=
  ⟨Access.exists_ok (by decide +kernel), Access.exists_ok (by decide +kernel), Access.exists_ok (by decide +kernel),
    by decide +kernel⟩

/-- Data accesses that fault, one for each cause, the last after a page-in. -/
theorem test_DataFaultTaken_witness :
    dataAccess (small.put 1#5 0xFD#32) (.ldr 0#5 1#5 .offsetOnly (.imm 0#32)) = some (0xFD#32, 4, .read) ∧
    (∃ s1, (small.put 1#5 0xFD#32).resolve 0xFD#32 4 .read = .fault (.memoryOutOfBounds 0xFD#32) s1) ∧
    (∃ s1, small.resolve 0xFF#32 1 .swap = .fault (.writeToReadOnly 0xFF#32) s1) ∧
    (∃ s1, small.resolve 0x280#32 2 .write = .fault (.pageFault 0x280#32 8 .write .unmapped) s1) ∧
    (∃ s1, small.resolve 0x250#32 4 .write = .fault (.pageFault 0x250#32 5 .write .permission) s1) ∧
    (∃ s1, full.resolve 0x220#32 4 .write = .fault (.resourceExhausted .user) s1) ∧
    (∃ s1, small.resolve 0x27E#32 4 .read = .fault (.pageFault 0x280#32 8 .read .unmapped) s1) :=
  ⟨by decide +kernel, Access.exists_fault (by decide +kernel), Access.exists_fault (by decide +kernel),
    Access.exists_fault (by decide +kernel), Access.exists_fault (by decide +kernel), Access.exists_fault (by decide +kernel),
    Access.exists_fault (by decide +kernel)⟩

theorem test_NoAccessNoFault_witness : dataAccess small .hlt = none ∧ dataAccess small (.vdivF32 0#5 1#5 2#5) = none := by
  decide +kernel

theorem test_LittleEndianReads_witness : (∃ s1, small.memRead 0#32 .word .fetch = .ok 0x12008400#32 s1) ∧
    (∃ s1, small.memRead 0x1FF#32 .byte .read = .ok 0#32 s1) ∧ (∃ s1, small.memRead 0x210#32 .half .read = .ok 0xBBAA#32 s1) :=
  ⟨Access.exists_ok (by decide +kernel), Access.exists_ok (by decide +kernel), Access.exists_ok (by decide +kernel)⟩

/-- A store through page 0 is seen through page 15 and in RAM, which reach the same frame. -/
theorem test_StoreThenLoad_witness : ∃ s1, small.memWrite 0x200#32 .word 0xCAFEBABE#32 = .ok () s1 ∧
    (∃ s2, s1.resolve 0x200#32 4 .write = .ok { dev := .ram, offs := [64, 65, 66, 67] } s2) ∧
    AccessReady s1 0x143#32 1 .read .ram [67] ∧ AccessReady s1 0x2F0#32 1 .read .ram [64] :=
  ⟨small.storeAt { dev := .ram, offs := [64, 65, 66, 67] } 0xCAFEBABE#32, rfl, Access.exists_ok (by decide +kernel),
    ⟨by decide, rfl, .inr (.inl ⟨rfl, by decide +kernel⟩)⟩,
    vm_ready (by decide +kernel) (by intro j hj; interval_cases j; exact ⟨_, rfl, by decide +kernel⟩)⟩

/-- 47_float.md R251 to R255: a value for each special case of the sum, difference, product and quotient. -/
theorem test_float_special_cases :
    f32Add 0x7FC00000#32 0x7F800001#32 0#32 = 0x7FC00000#32 ∧ f32Add 0x7FC00000#32 0x7F800000#32 0xFF800000#32 = 0x7FC00000#32 ∧
    f32Add 0x7FC00000#32 0x7F800000#32 0x7F800000#32 = 0x7F800000#32 ∧ f32Add 0x7FC00000#32 0xFF800000#32 1#32 = 0xFF800000#32 ∧
    f32Add 0x7FC00000#32 0x80000000#32 0x80000000#32 = 0x80000000#32 ∧ f32Add 0x7FC00000#32 1#32 1#32 = 2#32 ∧
    f32Sub 0x7FC00000#32 0x7F800000#32 0x7F800000#32 = 0x7FC00000#32 ∧ f32Sub 0x7FC00000#32 1#32 0x7F800000#32 = 0xFF800000#32 ∧
    f32Mul 0x7FC00000#32 0x80000000#32 0x40A00000#32 = 0x80000000#32 ∧ f32Mul 0x7FC00000#32 1#32 0x3F000000#32 = 0#32 ∧
    f32Mul 0x7FC00000#32 0x7F800000#32 0xBF800000#32 = 0xFF800000#32 ∧ f32Div 0x7FC00000#32 0#32 0#32 = 0x7FC00000#32 ∧
    f32Div 0x7FC00000#32 0x7F800000#32 0x7F800000#32 = 0x7FC00000#32 ∧ f32Div 0x7FC00000#32 0x3F800000#32 0#32 = 0x7F800000#32 ∧
    f32Div 0x7FC00000#32 0xBF800000#32 0x7F800000#32 = 0x80000000#32 := by decide +kernel

theorem test_FloatCompare_witness : 0x80000000#32 = (small.put 1#5 0x80000000#32).reg 1#5 ∧ 0#32 = small.reg 2#5 ∧
    f32IsNan 0x80000000#32 = false ∧ f32IsNan 0#32 = false ∧ f32IsNan 0x7F800001#32 = true ∧
    f32Compare 0x80000000#32 0#32 = nzcv 0 1 1 0 ∧ f32Compare 0xFF800000#32 0xFF7FFFFF#32 = nzcv 1 0 0 0 ∧
    f32Compare 1#32 0x80000001#32 = nzcv 0 0 1 0 := by decide +kernel

theorem test_HaltedUntilReset_witness : { small with execState := .halted }.execState = .halted ∧
    { small with execState := .halted }.activeRun = none := by decide

theorem test_BeyondInstructions_witness : (∃ t, exec .hlt small = .next t) ∧
    ∃ t, exec (.strb 0#5 1#5 .offsetOnly (.imm 0#32)) (small.put 1#5 0x220#32) = .next t ∧ (t.frameRef == small.frameRef) = false :=
  ⟨exists_next (by decide +kernel), by
    obtain ⟨t, h, hp⟩ := exists_next_and (o := exec (.strb 0#5 1#5 .offsetOnly (.imm 0#32)) (small.put 1#5 0x220#32))
      (p := fun t => (t.frameRef == small.frameRef) == false) (by decide +kernel)
    exact ⟨t, h, by simpa using hp⟩⟩

theorem test_FlagWriters_witness : (∃ t, exec (.mov true 0#5 (.imm 0#32)) small = .next t) ∧
    (Instr.mov true 0#5 (.imm 0#32)).format = .mov ∧ writesFlags (.add false 0#5 1#5 (.imm 1#32)) = false ∧
    (∃ t, exec (.add false 0#5 1#5 (.imm 1#32)) small = .next t) :=
  ⟨exists_next (by decide +kernel), rfl, rfl, exists_next (by decide +kernel)⟩

/-- Steps that fault from states of the invariant: at the fetch, at decoding, and at the data access after a page-in. -/
theorem test_FaultsPrecise_witness :
    (∃ t, step { full with pc := 0x210#32 } = .next t ∧ (t.execState == .faulted) = true) ∧
    (∃ t, step { small with pc := 4#32, rom := Memory.load [] 4 [1#8] } = .next t ∧ (t.execState == .faulted) = true) ∧
    ∃ t, step { small.put 1#5 0x27E#32 with rom := Memory.load [] 0 [0#8, 0x20#8, 0x01#8, 0x80#8] } = .next t ∧
      (t.execState == .faulted) = true :=
  ⟨exists_next_and (by decide +kernel), exists_next_and (by decide +kernel), exists_next_and (by decide +kernel)⟩

theorem test_FaultsPrecise_invariant : Inv { full with pc := 0x210#32 } ∧
    Inv { small with pc := 4#32, rom := Memory.load [] 4 [1#8] } ∧
    Inv { small.put 1#5 0x27E#32 with rom := Memory.load [] 0 [0#8, 0x20#8, 0x01#8, 0x80#8] } :=
  ⟨invCheck_sound (bound := 16) (by decide +kernel), invCheck_sound (bound := 16) (by decide +kernel),
    invCheck_sound (bound := 16) (by decide +kernel)⟩

/-- Runs that end by the budget, by hlt, by swi and by a fault. -/
theorem test_RunWithinBudget_witness :
    (∃ t, run 0 small = .next t ∧ (t.lastResult == some { ending := .budgetExhausted, executed := 0 }) = true) ∧
    (∃ t, run 2 small = .next t ∧ (t.lastResult == some { ending := .halt, executed := 2 }) = true) ∧
    (∃ t, run 1 { small with pc := 0x200#32 } = .next t ∧
      (t.lastResult == some { ending := .softwareInterrupt 5#32, executed := 1 }) = true) ∧
    ∃ t, run 1 { full with pc := 0x210#32 } = .next t ∧ (t.execState == .faulted) = true :=
  ⟨exists_next_and (by decide +kernel), exists_next_and (by decide +kernel), exists_next_and (by decide +kernel),
    exists_next_and (by decide +kernel)⟩

theorem test_StepKeepsInvariant_witness : Inv { small with pc := 0x210#32 } ∧ ∃ t, step { small with pc := 0x210#32 } = .next t :=
  ⟨invCheck_sound (bound := 16) (by decide +kernel), exists_next (by decide +kernel)⟩

theorem test_StepsNeverStop_witness : Inv small ∧ Inv full := ⟨test_small_inv, test_full_inv⟩

theorem test_HostCallsKeepInvariant_witness : Inv small ∧ (∀ p, HostCall.pageOut 0 ≠ .allocateOne p) ∧
    ∀ p n, HostCall.pageOut 0 ≠ .returnOne p n :=
  ⟨test_small_inv, by simp, by simp⟩

/-- The routes where the ranges meet and end. -/
theorem test_RouteTable_witness :
    route smallCfg 0xFFFFFFFD#32 4 .read = .fault (.memoryOutOfBounds 0xFFFFFFFD#32) ∧ route smallCfg 0#32 4 .fetch = .rom 0 ∧
    route smallCfg 0xFC#32 4 .write = .fault (.writeToReadOnly 0xFC#32) ∧
    route smallCfg 0xFD#32 4 .write = .fault (.memoryOutOfBounds 0xFD#32) ∧ route smallCfg 0x100#32 1 .swap = .ram 0 ∧
    route smallCfg 0x1FF#32 1 .read = .ram 255 ∧ route smallCfg 0x200#32 4 .write = .vm ∧ route smallCfg 0x2FC#32 4 .fetch = .vm ∧
    route smallCfg 0x2FD#32 4 .fetch = .fault (.memoryOutOfBounds 0x2FD#32) := by decide +kernel

/-- Each decision of a translation has a page that takes it. -/
theorem test_TranslateDecisions_witness :
    small.entry 8 = none ∧ small.entry 5 = some (pte (.frame 7) false false false false) ∧
    small.entry 0 = some (pte (.frame 4) true true false false) ∧ full.entry 1 = some (pte (.disk 0) true true false false) ∧
    full.pool .user = [] ∧ full.entry 2 = some (pte (.frame 5) true false false true) ∧ full.frameRefOf 5 = 2 ∧
    { small with current := none }.current = none := by decide +kernel

/-- A page-in from the user pool, from the kernel pool, and with both pools empty. -/
theorem test_PageInEffect_witness : Inv small ∧ Inv full ∧ small.current = some 0 ∧
    small.entry 1 = some (pte (.disk 0) true true false false) ∧ small.pool (framePool false) = [8, 9, 10, 11] ∧
    small.entry 7 = some (pte (.disk 1) true true true false) ∧ small.pool (framePool true) = [3] ∧
    full.entry 1 = some (pte (.disk 0) true true false false) ∧ full.pool (framePool false) = [] :=
  ⟨test_small_inv, test_full_inv, by decide +kernel⟩

/-- A copy-on-write page that only one entry holds, and one that two hold. -/
theorem test_CowBreakEffect_witness : Inv small ∧ small.current = some 0 ∧
    small.entry 4 = some (pte (.frame 6) true false false true) ∧ small.frameRefOf 6 = 1 ∧
    small.entry 2 = some (pte (.frame 5) true false false true) ∧ small.frameRefOf 5 = 2 ∧
    small.pool (framePool false) = 8 :: [9, 10, 11] ∧ Inv full ∧ full.entry 2 = small.entry 2 ∧ full.frameRefOf 5 = 2 ∧
    full.pool (framePool false) = [] :=
  ⟨test_small_inv, by decide +kernel, by decide +kernel, by decide +kernel, by decide +kernel, by decide +kernel, by decide +kernel,
    test_full_inv, by decide +kernel⟩

/-- An instruction with no store, a store that faults, and a store that breaks copy-on-write. -/
theorem test_VirtualBytesChangeByStores_witness : Inv (small.put 1#5 0x220#32) ∧
    dataAccess (small.put 1#5 0x220#32) (.ldr 0#5 1#5 .offsetOnly (.imm 0#32)) = some (0x220#32, 4, .read) ∧
    (∃ t, exec (.str 0#5 1#5 .offsetOnly (.imm 0#32)) (small.put 1#5 0x220#32) = .next t) ∧
    dataAccess (small.put 1#5 0x220#32) (.str 0#5 1#5 .offsetOnly (.imm 0#32)) = some (0x220#32, 4, .write) ∧
    (∃ s1, (small.put 1#5 0x220#32).resolve 0x220#32 4 .write = .ok { dev := .ram, offs := [128, 129, 130, 131] } s1) ∧
    Inv (small.put 1#5 0x250#32) ∧ (∃ t, exec (.str 0#5 1#5 .offsetOnly (.imm 0#32)) (small.put 1#5 0x250#32) = .next t) ∧
    ∃ s1, (small.put 1#5 0x250#32).resolve 0x250#32 4 .write = .fault (.pageFault 0x250#32 5 .write .permission) s1 :=
  ⟨invCheck_sound (bound := 16) (by decide +kernel), by decide +kernel, exists_next (by decide +kernel), by decide +kernel,
    Access.exists_ok (by decide +kernel), invCheck_sound (bound := 16) (by decide +kernel), exists_next (by decide +kernel),
    Access.exists_fault (by decide +kernel)⟩

theorem test_PoolOperations_witness : full.pool .disk = [] ∧ MmuWf small ∧ small.pool .user ≠ [] ∧
    inPoolRange small.cfg .user 3 = false ∧ inPoolRange small.cfg .user 12 = false ∧
    (inPoolRange small.cfg .user 4 = true ∧ 4 ∉ small.pool .user) ∧ (inPoolRange small.cfg .user 11 = true ∧ 11 ∈ small.pool .user) :=
  ⟨by decide, test_small_inv.mmu, by decide +kernel⟩

theorem test_AddVpageEffect_witness : Inv small ∧ Inv full ∧ small.cfg.vpages = 16 ∧ small.current = some 0 ∧
    small.entry 14 = none ∧ small.pool (framePool true) = 3 :: [] ∧ small.entry 15 ≠ none ∧ full.entry 8 = none ∧
    full.pool (framePool true) = [] ∧ small.cfg.freshFill = .zero := ⟨test_small_inv, test_full_inv, by decide +kernel⟩

/-- Pages whose frame or slot has one reference, and a page whose frame has two. -/
theorem test_RemoveVpageEffect_witness : Inv small ∧ small.current = some 0 ∧ small.entry 14 = none ∧
    small.entry 4 = some (pte (.frame 6) true false false true) ∧ small.refOf (.frame 6) = 1 ∧
    small.entry 1 = some (pte (.disk 0) true true false false) ∧ small.refOf (.disk 0) = 1 ∧
    small.entry 0 = some (pte (.frame 4) true true false false) ∧ small.refOf (.frame 4) = 2 := ⟨test_small_inv, by decide +kernel⟩

theorem test_ShareAndProtectEffect_witness : Inv small ∧ small.current = some 0 ∧ small.live 2 = false ∧
    assocFind (small.table 0) 1 = some (pte (.disk 0) true true false false) ∧ small.entry 14 = none ∧ small.entry 15 ≠ none ∧
    assocFind (small.table 1) 0 = none := ⟨test_small_inv, by decide +kernel⟩

theorem test_PageOutEffect_witness : Inv small ∧ Inv full ∧ small.current = some 0 ∧
    small.entry 1 = some (pte (.disk 0) true true false false) ∧ small.entry 6 = some (pte (.frame 2) true false true false) ∧
    small.diskFree = 2 :: [3] ∧ full.entry 6 = some (pte (.frame 2) true false true false) ∧ full.diskFree = [] :=
  ⟨test_small_inv, test_full_inv, by decide +kernel⟩

theorem test_ProcessOperations_witness : Inv small ∧ small.live 0 = true ∧ small.live 1 = true ∧ small.live 2 = false ∧
    small.current = some 0 ∧ Inv { small with current := none } :=
  ⟨test_small_inv, by decide +kernel, by decide +kernel, by decide +kernel, by decide +kernel,
    invCheck_sound (bound := 16) (by decide +kernel)⟩

/-- A reset vector in ROM, at its last word, and one in RAM. -/
theorem test_ResetOperation_witness : { smallCfg with resetVector := 252 }.ok = true ∧ { smallCfg with resetVector := 253 }.ok = false ∧
    { smallCfg with resetVector := 256 }.ok = true ∧ small.resetCore.pc = 0x12008400#32 := by decide +kernel

/-- Construction with the reset vector at the last word of ROM, and at the first word of RAM. -/
theorem test_ConstructedMachine_witness :
    (construct { smallCfg with resetVector := 252 } (List.replicate 252 0#8 ++ [4#8, 3#8, 2#8, 1#8]) [] [3#8]).map (fun s => s.pc) =
      some 0x01020304#32 ∧
    (construct { smallCfg with resetVector := 256 } [1#8] [2#8] [3#8]).map (fun s => (s.pc, s.flags)) =
      some (2#32, nzcv 0 0 0 0) := by decide +kernel

theorem test_ConstructionChecks_witness : smallCfg.ok = true ∧ { smallCfg with pageSize := 8 }.ok = false ∧
    { smallCfg with ramBase := 240 }.ok = false ∧ { smallCfg with kernelHigh := 4 }.ok = false ∧
    { smallCfg with userHigh := 16 }.ok = false := by decide +kernel

/-- Images that end at the last byte of ROM and of RAM, and one past. -/
theorem test_LoadImageEffect_witness : small.cfg.ok = true ∧
    (small.loadImage 0xFE#32 [1#8, 2#8]).toOption.map (fun t => (t.byteAt .rom 254, t.byteAt .rom 255)) = some (1#8, 2#8) ∧
    (small.loadImage 0x1FE#32 [1#8, 2#8]).toOption.map (fun t => (t.byteAt .ram 254, t.byteAt .ram 255)) = some (1#8, 2#8) ∧
    (small.loadImage 0xFF#32 [1#8, 2#8]).toOption = none := by decide +kernel

theorem test_HostViews_witness : small.activeRun = none ∧ (Loc.frame 4).number < 2 ^ 24 ∧ small.refOf (.frame 4) < 2 ^ 32 ∧
    small.packEntry (small.entryOf 0 2) = 0x0000000200000525#64 ∧ small.packEntry (small.entryOf 0 1) = 0x000000010000000F#64 := by
  decide +kernel

end Sys2Proof.Machine
end

/-! SUPPORT. The ways an instruction runs: every instruction is one of nine shapes, and what any of them leaves as it was is one lemma
on the outcome of `exec`. -/

namespace Sys2Proof.Machine

/-! ## The flags an instruction may write (10_state.md R26) -/

/-- The instructions whose flag policy keeps V: formats SH and MOV, and the logical and test rows of DP and CMP (41_logical.md R180,
42_shift.md R191, 43_compare.md R203, R204). -/
def keepsV (i : Instr) : Bool :=
  i.format == .sh || i.format == .mov || (i.format == .dp && 0x0C#6 ≤ i.opcode) || (i.format == .cmp && 0x16#6 ≤ i.opcode)

theorem keepsV_iff (i : Instr) : keepsV i = true ↔
    i.format = .sh ∨ i.format = .mov ∨ (i.format = .dp ∧ 0x0C#6 ≤ i.opcode) ∨ (i.format = .cmp ∧ 0x16#6 ≤ i.opcode) := by
  simp [keepsV, or_assoc]

/-- The flags `fl` are ones that instruction `i` may leave in a state whose flags are `old`. -/
structure FlagPolicy (i : Instr) (old fl : Flags) : Prop where
  unwritten : writesFlags i = false → fl = old
  vKept : keepsV i = true → fl.v = old.v

theorem FlagPolicy.refl (i : Instr) (old : Flags) : FlagPolicy i old old := ⟨fun _ => rfl, fun _ => rfl⟩

/-- The policy of 40_arith.md R161, and of the compares that write all four flags: no instruction that keeps V follows it. -/
theorem FlagPolicy.all {i : Instr} {f : Bool} (hf : writesFlags i = f) (hv : keepsV i = false) (old fl : Flags) :
    FlagPolicy i old (if f then fl else old) :=
  ⟨fun h => by rw [← hf, h]; rfl, fun h => by rw [hv] at h; cases h⟩

/-- The policy of 41_logical.md R180 and 42_shift.md R191 keeps V, whether it writes the others or not. -/
theorem FlagPolicy.logic {i : Instr} {f : Bool} (hf : writesFlags i = f) (old : Flags) (r : Word) (shifted carry : Bool) :
    FlagPolicy i old (if f then logicFlags r shifted carry old else old) :=
  ⟨fun h => by rw [← hf, h]; rfl, fun _ => by cases f <;> rfl⟩

/-! ## Every instruction is of one shape -/

/-- The outcome `o` is that of instruction `i` in state `s`, by the way the instruction completes. -/
inductive RunsAs (s : State) (i : Instr) : Host.Outcome State Fault Refusal → Prop
  /-- a register is written, and the flags by the instruction's policy -/
  | register (xd : Reg) (v : Word) (fl : Flags) (hd : dataAccess s i = none) (hf : FlagPolicy i s.flags fl) :
      RunsAs s i (.next (((s.setReg xd v).setFlags fl).advance i))
  /-- only flags are written -/
  | compare (fl : Flags) (hd : dataAccess s i = none) (hf : FlagPolicy i s.flags fl) :
      RunsAs s i (.next ((s.setFlags fl).advance i))
  /-- only the pc moves, to the target or to the next instruction -/
  | branch (target : Word) (hd : dataAccess s i = none) : RunsAs s i (.next (s.redirect i target))
  /-- the pc moves to the target, with the return address in the link register -/
  | link (target : Word) (hd : dataAccess s i = none) :
      RunsAs s i (.next ((s.setReg linkReg (s.pc + 4#32)).redirect i target))
  | halt (hi : i = .hlt) : RunsAs s i (execHlt s)
  | interrupt (imm : Word) (hi : i = .swi imm) : RunsAs s i (execSwi imm s)
  | load (w : Width) (xt xn : Reg) (am : AddrMode) (off : MemOffset)
      (hd : dataAccess s i = some (s.accessAddr xn am off, w.bytes, .read)) : RunsAs s i (loadInstr i w xt xn am off s)
  | store (w : Width) (xt xn : Reg) (am : AddrMode) (off : MemOffset)
      (hd : dataAccess s i = some (s.accessAddr xn am off, w.bytes, .write)) : RunsAs s i (storeInstr i w xt xn am off s)
  | swap (w : Width) (xt xs xn : Reg) (hd : dataAccess s i = some (s.reg xn, w.bytes, .swap)) :
      RunsAs s i (swapInstr i w xt xs xn s)

section Shapes

variable {s : State} {i : Instr}

theorem RunsAs.ofArith {f : Bool} {xd : Reg} {r : AluResult} (hd : dataAccess s i = none) (hf : writesFlags i = f)
    (hv : keepsV i = false) : RunsAs s i (finishArith i f xd r s) := .register _ _ _ hd (.all hf hv _ _)

theorem RunsAs.ofLogic {f : Bool} {xd : Reg} {r : Word} {b : Shifted} (hd : dataAccess s i = none) (hf : writesFlags i = f) :
    RunsAs s i (finishLogic i f xd r b s) := .register _ _ _ hd (.logic hf _ _ _ _)

theorem RunsAs.ofShift {f : Bool} {xd : Reg} {r : Shifted} (hd : dataAccess s i = none) (hf : writesFlags i = f) :
    RunsAs s i (finishShift i f xd r s) := .register _ _ _ hd (.logic hf _ _ _ _)

theorem RunsAs.ofFloat {xd : Reg} {r : Word} (hd : dataAccess s i = none) : RunsAs s i (finishFloat i xd r s) :=
  .register xd r s.flags hd (.refl _ _)

/-- A compare whose flags are all written: cmp, cmn and vcmp_f32. -/
theorem RunsAs.ofCompare {fl : Flags} (hd : dataAccess s i = none) (hf : writesFlags i = true) (hv : keepsV i = false) :
    RunsAs s i (finishCompare i fl s) := .compare fl hd (.all hf hv _ fl)

/-- A compare that keeps V: tst and teq. -/
theorem RunsAs.ofTest {r : Word} {shifted carry : Bool} (hd : dataAccess s i = none) (hf : writesFlags i = true) :
    RunsAs s i (finishCompare i (logicFlags r shifted carry s.flags) s) := .compare _ hd (.logic hf _ _ _ _)

theorem RunsAs.ofBranchTo {c : Cond} {target : Word} (hd : dataAccess s i = none) : RunsAs s i (branchTo i c target s) := by
  unfold branchTo
  split
  · exact .branch target hd
  · exact .branch (s.pc + 4#32) hd

theorem RunsAs.ofBranchLink {c : Cond} {target : Word} (hd : dataAccess s i = none) : RunsAs s i (branchLink i c target s) := by
  unfold branchLink
  split
  · exact .link target hd
  · exact .branch (s.pc + 4#32) hd

end Shapes

/-- Every instruction runs in one of the nine ways. -/
theorem exec_runsAs (s : State) : ∀ i : Instr, RunsAs s i (exec i s)
  | .hlt => .halt rfl
  | .swi imm => .interrupt imm rfl
  | .add _ _ _ _ => .ofArith rfl rfl rfl
  | .sub _ _ _ _ => .ofArith rfl rfl rfl
  | .rsb _ _ _ _ => .ofArith rfl rfl rfl
  | .adc _ _ _ _ => .ofArith rfl rfl rfl
  | .sbc _ _ _ _ => .ofArith rfl rfl rfl
  | .rsc _ _ _ _ => .ofArith rfl rfl rfl
  | .mul _ _ _ _ => .ofArith rfl rfl rfl
  | .and _ _ _ _ => .ofLogic rfl rfl
  | .orr _ _ _ _ => .ofLogic rfl rfl
  | .eor _ _ _ _ => .ofLogic rfl rfl
  | .bic _ _ _ _ => .ofLogic rfl rfl
  | .lsl _ _ _ _ => .ofShift rfl rfl
  | .lsr _ _ _ _ => .ofShift rfl rfl
  | .asr _ _ _ _ => .ofShift rfl rfl
  | .ror _ _ _ _ => .ofShift rfl rfl
  | .cmp _ _ => .ofCompare rfl rfl rfl
  | .cmn _ _ => .ofCompare rfl rfl rfl
  | .tst _ _ => .ofTest rfl rfl
  | .teq _ _ => .ofTest rfl rfl
  | .mov _ _ _ => .ofLogic rfl rfl
  | .mvn _ _ _ => .ofLogic rfl rfl
  | .ldr xt xn am off => .load .word xt xn am off rfl
  | .ldrh xt xn am off => .load .half xt xn am off rfl
  | .ldrb xt xn am off => .load .byte xt xn am off rfl
  | .str xt xn am off => .store .word xt xn am off rfl
  | .strh xt xn am off => .store .half xt xn am off rfl
  | .strb xt xn am off => .store .byte xt xn am off rfl
  | .swp xt xs xn => .swap .word xt xs xn rfl
  | .swph xt xs xn => .swap .half xt xs xn rfl
  | .swpb xt xs xn => .swap .byte xt xs xn rfl
  | .b _ _ => .ofBranchTo rfl
  | .bl _ _ => .ofBranchLink rfl
  | .bx _ _ => .ofBranchTo rfl
  | .blx _ _ => .ofBranchLink rfl
  | .vaddF32 _ _ _ => .ofFloat rfl
  | .vsubF32 _ _ _ => .ofFloat rfl
  | .vmulF32 _ _ _ => .ofFloat rfl
  | .vdivF32 _ _ _ => .ofFloat rfl
  | .vcmpF32 _ _ => .ofCompare rfl rfl rfl

/-! ## What an instruction does after its access -/

/-- What instruction `i` leaves in `t` of the state `u` that its data access made (the state before it, where it has none): every byte,
the MMU, the parameters and the free draws as they were, flags by its policy, and Halted only by hlt. -/
structure FinishesIn (i : Instr) (u t : State) : Prop where
  bytes : SameBytes u t
  mmu : SameMmu u t
  cfg : t.cfg = u.cfg
  draws : t.freeDraws = u.freeDraws
  flags : FlagPolicy i u.flags t.flags
  halts : t.execState = .halted → u.execState = .halted ∨ i = .hlt

/-- What an instruction that answers `t` did: its data access first, then its own completion or the access's fault. -/
inductive ExecEffect (s : State) (i : Instr) (t : State) : Prop
  | noAccess (hd : dataAccess s i = none) (ht : FinishesIn i s t)
  | faulted {a : Word} {n : Nat} {k : AccessKind} {c : FaultCause} {s1 : State} (hd : dataAccess s i = some (a, n, k))
      (hr : s.resolve a n k = .fault c s1) (ht : FinishesIn i s1 t)
  | read {a : Word} {n : Nat} {k : AccessKind} {pl : Place} {s1 : State} (hd : dataAccess s i = some (a, n, k))
      (hk : k.writes = false) (hr : s.resolve a n k = .ok pl s1) (ht : FinishesIn i s1 t)
  | written {a : Word} {n : Nat} {k : AccessKind} {pl : Place} {s1 : State} (v : Word) (hd : dataAccess s i = some (a, n, k))
      (hk : k.writes = true) (hr : s.resolve a n k = .ok pl s1) (ht : FinishesIn i (s1.storeAt pl v) t)

theorem finishesIn_takeFault {i : Instr} {c : FaultCause} {w : Option Word} {u t : State} (h : takeFault c w u = .next t) :
    FinishesIn i u t := by
  obtain ⟨hfaulted, -, -, ⟨-, hflags, -, -⟩, hcfg, hdraws, hbytes, hmmu⟩ := takeFault_next h
  exact ⟨hbytes, hmmu, hcfg, hdraws, hflags ▸ .refl _ _, fun hh => by rw [hfaulted] at hh; cases hh⟩

theorem finishesIn_redirect (i : Instr) (u : State) (target : Word) : FinishesIn i u (u.redirect i target) :=
  have ⟨_, ⟨hcfg, hexec, _, hdraws⟩, hbytes, hmmu⟩ := redirect_coreOnly u i target
  ⟨hbytes, hmmu, hcfg, hdraws, .refl _ _, fun hh => .inl (hexec ▸ hh)⟩

/-- Registers written before an instruction advances change nothing that `FinishesIn` speaks of. -/
theorem FinishesIn.of_writeBack {i : Instr} {u t : State} {xn : Reg} {am : AddrMode} {v : Word}
    (h : FinishesIn i (u.writeBack xn am v) t) : FinishesIn i u t := by
  cases am <;> exact ⟨h.bytes, h.mmu, h.cfg, h.draws, h.flags, h.halts⟩

theorem FinishesIn.of_setReg {i : Instr} {u t : State} {xd : Reg} {v : Word} (h : FinishesIn i (u.setReg xd v) t) :
    FinishesIn i u t := ⟨h.bytes, h.mmu, h.cfg, h.draws, h.flags, h.halts⟩

theorem FinishesIn.of_setFlags {i : Instr} {u : State} {fl : Flags} (hf : FlagPolicy i u.flags fl) :
    FinishesIn i u ((u.setFlags fl).advance i) :=
  have h := finishesIn_redirect i (u.setFlags fl) (u.pc + 4#32)
  ⟨h.bytes, h.mmu, h.cfg, h.draws, hf, h.halts⟩

theorem loadInstr_effect {s t : State} {i : Instr} {w : Width} {xt xn : Reg} {am : AddrMode} {off : MemOffset}
    (hd : dataAccess s i = some (s.accessAddr xn am off, w.bytes, .read)) (h : loadInstr i w xt xn am off s = .next t) :
    ExecEffect s i t := by
  unfold loadInstr at h
  split at h
  · next hm =>
    obtain ⟨pl, hr, -, -⟩ := State.memRead_ok hm
    cases h
    exact .read hd rfl hr (finishesIn_redirect _ _ _).of_setReg.of_writeBack
  · next hm => exact .faulted hd (State.memRead_fault hm).1 (finishesIn_takeFault h)
  · cases h

theorem storeInstr_effect {s t : State} {i : Instr} {w : Width} {xt xn : Reg} {am : AddrMode} {off : MemOffset}
    (hd : dataAccess s i = some (s.accessAddr xn am off, w.bytes, .write)) (h : storeInstr i w xt xn am off s = .next t) :
    ExecEffect s i t := by
  unfold storeInstr at h
  split at h
  · next hm =>
    obtain ⟨pl, s1, hr, rfl, -⟩ := State.memWrite_ok hm
    cases h
    exact .written _ hd rfl hr (finishesIn_redirect _ _ _).of_writeBack
  · next hm => exact .faulted hd (State.memWrite_fault hm).1 (finishesIn_takeFault h)
  · cases h

theorem swapInstr_effect {s t : State} {i : Instr} {w : Width} {xt xs xn : Reg}
    (hd : dataAccess s i = some (s.reg xn, w.bytes, .swap)) (h : swapInstr i w xt xs xn s = .next t) : ExecEffect s i t := by
  unfold swapInstr at h
  split at h
  · next hm =>
    obtain ⟨pl, s1, hr, -, rfl, -⟩ := State.busSwap_ok hm
    cases h
    exact .written _ hd rfl hr (finishesIn_redirect _ _ _).of_setReg
  · next hm => exact .faulted hd (State.busSwap_fault hm).1 (finishesIn_takeFault h)
  · cases h

/-- What every instruction that answers a next state did. -/
theorem exec_effect {s t : State} {i : Instr} (h : exec i s = .next t) : ExecEffect s i t := by
  have hrun := exec_runsAs s i
  rw [h] at hrun
  generalize ho : Host.Outcome.next t = o at hrun
  cases hrun with
  | register xd v fl hd hf => cases ho; exact .noAccess hd (FinishesIn.of_setFlags (u := s.setReg xd v) hf).of_setReg
  | compare fl hd hf => cases ho; exact .noAccess hd (.of_setFlags hf)
  | branch target hd => cases ho; exact .noAccess hd (finishesIn_redirect _ _ _)
  | link target hd => cases ho; exact .noAccess hd (finishesIn_redirect _ _ _).of_setReg
  | halt hi =>
    subst hi; cases ho
    have hf := finishesIn_redirect .hlt s (s.pc + 4#32)
    exact .noAccess rfl ⟨hf.bytes, hf.mmu, hf.cfg, hf.draws, hf.flags, fun _ => .inr rfl⟩
  | interrupt imm hi =>
    subst hi; cases ho
    have hf := finishesIn_redirect (.swi imm) s (s.pc + 4#32)
    exact .noAccess rfl ⟨hf.bytes, hf.mmu, hf.cfg, hf.draws, hf.flags, hf.halts⟩
  | load w xt xn am off hd => exact loadInstr_effect hd ho.symm
  | store w xt xn am off hd => exact storeInstr_effect hd ho.symm
  | swap w xt xs xn hd => exact swapInstr_effect hd ho.symm

end Sys2Proof.Machine

/-! The statements about the state: the bytes of mapped pages, what no instruction changes, the flags, reset, and the host's views. -/

namespace Sys2Proof.Machine

/-! ## The bytes of mapped pages (10_state.md R34, 20_memory.md R69, R104) -/

theorem State.table_of_sameMmu {u t : State} (h : SameMmu u t) (pid : Nat) : t.table pid = u.table pid := by
  obtain ⟨-, -, -, -, -, hprocs, -, -⟩ := h
  simp [State.table, hprocs]

theorem State.live_of_sameMmu {u t : State} (h : SameMmu u t) (pid : Nat) : t.live pid = u.live pid := by
  obtain ⟨-, -, -, -, -, hprocs, -, -⟩ := h
  simp [State.live, hprocs]

theorem FinishesIn.pageByte {i : Instr} {u t : State} (h : FinishesIn i u t) (l : Loc) (o : Nat) :
    t.pageByte l o = u.pageByte l o := by
  cases l <;> simp only [State.pageByte, h.cfg, h.bytes _ _]

theorem FinishesIn.virtualByte {i : Instr} {u t : State} (h : FinishesIn i u t) (pid p o : Nat) :
    t.virtualByte pid p o = u.virtualByte pid p o := by
  simp only [State.virtualByte_eq, State.table_of_sameMmu h.mmu, h.pageByte]

theorem FinishesIn.view {i : Instr} {u t : State} (h : FinishesIn i u t) : SameView u t := fun pid p o _ => h.virtualByte pid p o

/-- A store changes a byte of a mapped page only where the page's frame and the byte's offset are at its place. -/
theorem State.virtualByte_storeAt (s : State) (pl : Place) (v : Word) {pid p o : Nat}
    (h : ∀ e f, assocFind (s.table pid) p = some e → e.loc = .frame f → f * s.cfg.pageSize + o ∉ pl.offs) :
    (s.storeAt pl v).virtualByte pid p o = s.virtualByte pid p o := by
  simp only [State.virtualByte_eq]
  change (assocFind (s.table pid) p).map _ = _
  cases he : assocFind (s.table pid) p with
  | none => rfl
  | some e =>
    simp only [Option.map_some, Option.some.injEq]
    cases hl : e.loc with
    | frame f => exact s.byteAt_storeAt_other pl v .ram _ fun _ => h e f he hl
    | disk d => exact s.byteAt_storeAt_other pl v .disk _ nofun

/-- In a state of the invariant an access that faults, and one that answers, leaves every mapped byte before its own are touched. -/
theorem Inv.resolve_kept {s : State} (hi : Inv s) {a : Word} {n : Nat} {k : AccessKind} :
    (∀ pl t, s.resolve a n k = .ok pl t → Kept s t) ∧ ∀ c t, s.resolve a n k = .fault c t → Kept s t :=
  have ⟨hok, hfault, _⟩ := Machine.resolve_kept hi.cfgOk hi.memory hi.mmu
  ⟨hok, hfault⟩

theorem Kept.view_finished {i : Instr} {s u t : State} (h : Kept s u) (ht : FinishesIn i u t) : SameView s t :=
  h.view.trans ht.view h.frame.engine.1

/-- Settles O49: an instruction's access keeps every mapped byte up to its own store, its completion keeps them all, and the store
touches the bytes of its place only. -/
theorem virtualBytesChangeByStores : Obligations.VirtualBytesChangeByStores := by
  intro s t i hi hexec
  cases exec_effect hexec with
  | noAccess hd ht =>
    exact ⟨fun _ => ht.view, fun a n k hd' => by rw [hd] at hd'; cases hd'⟩
  | faulted hd hr ht =>
    have hview := (hi.resolve_kept.2 _ _ hr).view_finished ht
    refine ⟨fun _ => hview, fun a n k hd' _ => ⟨fun _ _ _ => hview, fun pl s1 hr' => ?_⟩⟩
    rw [hd] at hd'; cases hd'
    rw [hr] at hr'; cases hr'
  | read hd hk hr ht =>
    refine ⟨fun _ => (hi.resolve_kept.1 _ _ hr).view_finished ht, fun a n k hd' hk' => ?_⟩
    rw [hd] at hd'; cases hd'
    rw [hk] at hk'; cases hk'
  | @written _ _ _ pl s1 v hd hk hr ht =>
    refine ⟨fun hno => absurd (hno _ _ _ hd) (by simp [hk]), fun a n k hd' _ => ?_⟩
    rw [hd] at hd'; cases hd'
    refine ⟨fun c u hr' => (nomatch hr.symm.trans hr'), fun pl' u hr' pid p o ho hmiss => ?_⟩
    rw [hr] at hr'; cases hr'
    have hkept := hi.resolve_kept.1 _ _ hr
    calc t.virtualByte pid p o
      _ = (s1.storeAt pl v).virtualByte pid p o := ht.virtualByte pid p o
      _ = s1.virtualByte pid p o := s1.virtualByte_storeAt pl v fun e f he hl => hkept.frame.engine.1 ▸ hmiss e f he hl
      _ = s.virtualByte pid p o := hkept.view pid p o ho

/-! ## What no instruction changes (10_state.md R29, 20_memory.md R60, R62) -/

/-- The write, execute and kernel bits of a page of a process. -/
def State.permissions (s : State) (pid p : Nat) : Option (Bool × Bool × Bool) :=
  (assocFind (s.table pid) p).map fun e => (e.write, e.execute, e.kernel)

/-- What is beyond every instruction: ROM and disk, the parameters, the processes, the free draws and the permissions. -/
structure SameBeyond (s t : State) : Prop where
  rom : ∀ off, t.byteAt .rom off = s.byteAt .rom off
  disk : ∀ off, t.byteAt .disk off = s.byteAt .disk off
  cfg : t.cfg = s.cfg
  current : t.current = s.current
  nextPid : t.nextPid = s.nextPid
  draws : t.freeDraws = s.freeDraws
  live : ∀ pid, t.live pid = s.live pid
  permissions : ∀ pid p, t.permissions pid p = s.permissions pid p

theorem SameBeyond.trans {s t u : State} (h : SameBeyond s t) (k : SameBeyond t u) : SameBeyond s u where
  rom off := (k.rom off).trans (h.rom off)
  disk off := (k.disk off).trans (h.disk off)
  cfg := k.cfg.trans h.cfg
  current := k.current.trans h.current
  nextPid := k.nextPid.trans h.nextPid
  draws := k.draws.trans h.draws
  live pid := (k.live pid).trans (h.live pid)
  permissions pid p := (k.permissions pid p).trans (h.permissions pid p)

theorem TranslationFrame.beyond {s t : State} (h : TranslationFrame s t) : SameBeyond s t :=
  have ⟨hcfg, _, _, hdraws⟩ := h.engine
  have ⟨hcurrent, hnext, hlive⟩ := h.processes
  ⟨h.rom, h.disk, hcfg, hcurrent, hnext, hdraws, hlive, h.permissions⟩

theorem FinishesIn.beyond {i : Instr} {u t : State} (h : FinishesIn i u t) : SameBeyond u t :=
  have ⟨_, _, _, _, _, _, hcurrent, hnext⟩ := h.mmu
  ⟨h.bytes .rom, h.bytes .disk, h.cfg, hcurrent, hnext, h.draws, State.live_of_sameMmu h.mmu,
    fun pid p => by rw [State.permissions, State.table_of_sameMmu h.mmu, State.permissions]⟩

theorem sameBeyond_storeAt (s : State) (pl : Place) (v : Word) : SameBeyond s (s.storeAt pl v) :=
  ⟨fun _ => rfl, fun _ => rfl, rfl, rfl, rfl, rfl, fun _ => rfl, fun _ _ => rfl⟩

theorem TranslationFrame.flags_eq {s t : State} (h : TranslationFrame s t) : t.flags = s.flags :=
  have ⟨_, hflags, _, _⟩ := h.core
  hflags

theorem TranslationFrame.execState_eq {s t : State} (h : TranslationFrame s t) : t.execState = s.execState :=
  have ⟨_, hexec, _, _⟩ := h.engine
  hexec

/-- Every instruction that answers finishes in a state its data access made of the first one, which has the first one's flags and
exec_state and everything beyond instructions as before. -/
theorem exec_afterAccess {s t : State} {i : Instr} (h : exec i s = .next t) :
    ∃ u, SameBeyond s u ∧ u.flags = s.flags ∧ u.execState = s.execState ∧ FinishesIn i u t := by
  cases exec_effect h with
  | noAccess _ ht => exact ⟨s, (TranslationFrame.refl s).beyond, rfl, rfl, ht⟩
  | @faulted _ _ _ _ s1 _ hr ht =>
    have hframe := State.resolve_frame.2 _ _ hr
    exact ⟨s1, hframe.beyond, hframe.flags_eq, hframe.execState_eq, ht⟩
  | @read _ _ _ _ s1 _ _ hr ht =>
    have hframe := State.resolve_frame.1 _ _ hr
    exact ⟨s1, hframe.beyond, hframe.flags_eq, hframe.execState_eq, ht⟩
  | @written _ _ _ pl s1 v _ _ hr ht =>
    have hframe := State.resolve_frame.1 _ _ hr
    exact ⟨s1.storeAt pl v, hframe.beyond.trans (sameBeyond_storeAt s1 pl v), hframe.flags_eq, hframe.execState_eq, ht⟩

/-- Settles O37: neither an access's translations, nor a store, nor an instruction's completion reaches beyond what they write. -/
theorem beyondInstructions : Obligations.BeyondInstructions := by
  intro s t i hexec
  obtain ⟨u, hbeyond, -, hstate, ht⟩ := exec_afterAccess hexec
  have h := hbeyond.trans ht.beyond
  exact ⟨h.rom, h.disk, h.cfg, h.current, h.nextPid, h.draws, h.live, h.permissions,
    fun hhalted hs => (ht.halts hhalted).resolve_left (hstate ▸ hs)⟩

/-- Settles O38: an instruction's access leaves the flags, and its completion follows the instruction's flag policy. -/
theorem flagWriters : Obligations.FlagWriters := by
  intro s t i hexec
  obtain ⟨u, -, hflags, -, ht⟩ := exec_afterAccess hexec
  have hpolicy : FlagPolicy i s.flags t.flags := hflags ▸ ht.flags
  exact ⟨hpolicy.unwritten, fun hv => hpolicy.vKept ((keepsV_iff i).2 hv)⟩

/-! ## Reset (10_state.md R35) -/

/-- Settles O42: the reset machine passes the check of the invariant over its 256 frames and 256 disk slots. -/
theorem resetHasInvariant : Obligations.ResetHasInvariant := invCheck_sound (bound := 256) (by decide +kernel)

/-! ## The host's views (10_state.md R27, 20_memory.md R83) -/

/-- A concatenation as a number: the upper part stands above the lower part's bits. -/
theorem toNat_append_eq_add {m n : Nat} (x : BitVec m) (y : BitVec n) : (x ++ y).toNat = x.toNat * 2 ^ n + y.toNat := by
  rw [BitVec.toNat_append, ← Nat.shiftLeft_add_eq_or_of_lt y.isLt, Nat.shiftLeft_eq]

/-- The flags register as a number: each flag at its bit. -/
theorem toNat_flagsWord (fl : Flags) : (flagsWord fl).toNat =
    fl.n.toNat * 2 ^ 31 + fl.z.toNat * 2 ^ 30 + fl.c.toNat * 2 ^ 29 + fl.v.toNat * 2 ^ 28 := by
  simp only [flagsWord, toNat_append_eq_add, BitVec.toNat_ofBool, BitVec.toNat_ofNat]
  omega

/-- The packed entry as a number: each field at its bits, when the number and the count fit in theirs. -/
theorem State.toNat_packEntry (s : State) (e : Pte) (hn : e.loc.number < 2 ^ 24) (hr : s.refOf e.loc < 2 ^ 32) :
    (s.packEntry (some e)).toNat = 1 + e.loc.onDisk.toNat * 2 + e.write.toNat * 4 + e.execute.toNat * 8 + e.kernel.toNat * 16 +
      e.cow.toNat * 32 + e.loc.number * 2 ^ 8 + s.refOf e.loc * 2 ^ 32 := by
  simp only [State.packEntry, toNat_append_eq_add, BitVec.toNat_ofBool, BitVec.toNat_ofNat, Nat.mod_eq_of_lt hn,
    Nat.mod_eq_of_lt hr]
  omega

theorem hostCall_idle {s : State} (h : s.activeRun = none) (call : HostCall) : hostCall call s = hostCallIdle call s := by
  simp [hostCall, h]

/-- Settles O60: between runs the host reads and writes the flags at their bits, and the two packed views are the numbers above. -/
theorem hostViews : Obligations.HostViews := by
  refine ⟨fun s v hidle => ?_, toNat_flagsWord, fun _ => rfl, State.toNat_packEntry⟩
  simp only [hostCall_idle hidle]
  exact ⟨rfl, rfl⟩

end Sys2Proof.Machine

/-! The statements about routing, construction and image loading, and about accesses once their translations are made. -/

namespace Sys2Proof.Machine

/-! ## Routing (20_memory.md R73, R74) -/

/-- An access past the last address of the bus. -/
theorem route_past {cfg : Params} {a : Word} {n : Nat} {k : AccessKind} (h : 0xFFFFFFFF < a.toNat + n - 1) :
    route cfg a n k = .fault (.memoryOutOfBounds a) := by
  unfold route
  rw [if_pos h]

theorem insideRange_iff {base size a n : Nat} : insideRange base size a n = true ↔ base ≤ a ∧ a + n - 1 < base + size := by
  simp [insideRange]

/-- A write or swap that lies inside ROM. -/
theorem route_rom_writes {cfg : Params} {a : Word} {n : Nat} {k : AccessKind} (hlast : a.toNat + n - 1 ≤ 0xFFFFFFFF)
    (hrom : cfg.romBase ≤ a.toNat ∧ a.toNat + n - 1 < cfg.romBase + cfg.romSize) (hk : k.writes = true) :
    route cfg a n k = .fault (.writeToReadOnly a) := by
  unfold route
  rw [if_neg (by omega), if_pos (insideRange_iff.2 hrom), if_pos hk]

/-- An access that does not lie inside ROM: the next ranges decide. -/
theorem route_not_rom {cfg : Params} {a : Word} {n : Nat} {k : AccessKind} (hlast : a.toNat + n - 1 ≤ 0xFFFFFFFF)
    (hrom : ¬ (cfg.romBase ≤ a.toNat ∧ a.toNat + n - 1 < cfg.romBase + cfg.romSize)) :
    route cfg a n k =
      if insideRange cfg.ramBase cfg.ramSize a.toNat n then .ram (a.toNat - cfg.ramBase)
      else if insideRange cfg.vmBase cfg.vmSize a.toNat n then .vm else .fault (.memoryOutOfBounds a) := by
  unfold route
  rw [if_neg (by omega), if_neg (mt insideRange_iff.1 hrom)]

/-- Settles O45: the ranges are tried in the order of R73. -/
theorem routeTable : Obligations.RouteTable := by
  intro cfg a n k last _ hlast
  subst hlast
  refine ⟨route_past, fun hl => ⟨fun hrom => ⟨fun hk => ?_, fun hk => ?_⟩, fun hrom => ?_⟩⟩
  · exact route_rom_writes hl hrom (by rcases hk with rfl | rfl <;> rfl)
  · exact route_rom hl hrom.1 hrom.2 (by rcases hk with rfl | rfl <;> rfl)
  · rw [route_not_rom hl hrom]
    refine ⟨fun hram => if_pos (insideRange_iff.2 hram), fun hram => ?_⟩
    rw [if_neg (mt insideRange_iff.1 hram)]
    exact ⟨fun hvm => if_pos (insideRange_iff.2 hvm), fun hvm => if_neg (mt insideRange_iff.1 hvm)⟩

/-! ## The construction checks (20_memory.md R85) -/

theorem disjointRanges_iff {a m b n : Nat} :
    disjointRanges a m b n = true ↔ ∀ x, ¬ ((a ≤ x ∧ x < a + m) ∧ (b ≤ x ∧ x < b + n)) := by
  simp only [disjointRanges, Bool.or_eq_true, decide_eq_true_eq, beq_iff_eq]
  constructor
  · intro h x; omega
  · intro h
    have := h (max a b)
    omega

/-- Two inclusive ranges, none of them empty, that share no number. -/
theorem inclusive_disjoint_iff {a b c d : Nat} (hab : a ≤ b) (hcd : c ≤ d) :
    (b < c ∨ d < a) ↔ ∀ f, ¬ (a ≤ f ∧ f ≤ b ∧ c ≤ f ∧ f ≤ d) := by
  constructor
  · intro h f; omega
  · intro h
    have := h (max a c)
    omega

theorem eq_two_pow_log2_iff {n : Nat} : n = 2 ^ n.log2 ↔ ∃ k, n = 2 ^ k :=
  ⟨fun h => ⟨_, h⟩, fun ⟨k, h⟩ => by rw [h, Nat.log2_two_pow]⟩

/-- The construction checks, each as the rule says it. -/
theorem ok_iff (p : Params) : p.ok = true ↔
    (∃ k, p.pageSize = 2 ^ k) ∧ 16 ≤ p.pageSize ∧
    p.pageSize ∣ p.ramBase ∧ p.pageSize ∣ p.ramSize ∧ p.pageSize ∣ p.vmBase ∧ p.pageSize ∣ p.vmSize ∧
    (∀ x, ¬ ((p.romBase ≤ x ∧ x < p.romBase + p.romSize) ∧ (p.ramBase ≤ x ∧ x < p.ramBase + p.ramSize))) ∧
    (∀ x, ¬ ((p.romBase ≤ x ∧ x < p.romBase + p.romSize) ∧ (p.vmBase ≤ x ∧ x < p.vmBase + p.vmSize))) ∧
    (∀ x, ¬ ((p.ramBase ≤ x ∧ x < p.ramBase + p.ramSize) ∧ (p.vmBase ≤ x ∧ x < p.vmBase + p.vmSize))) ∧
    p.romBase + p.romSize ≤ 2 ^ 32 ∧ p.ramBase + p.ramSize ≤ 2 ^ 32 ∧ p.vmBase + p.vmSize ≤ 2 ^ 32 ∧
    p.userLow ≤ p.userHigh ∧ p.userHigh < p.ramSize / p.pageSize ∧
    p.kernelLow ≤ p.kernelHigh ∧ p.kernelHigh < p.ramSize / p.pageSize ∧
    (∀ f, ¬ ((p.userLow ≤ f ∧ f ≤ p.userHigh) ∧ (p.kernelLow ≤ f ∧ f ≤ p.kernelHigh))) ∧
    ((p.romBase ≤ p.resetVector ∧ p.resetVector + 4 ≤ p.romBase + p.romSize) ∨
      (p.ramBase ≤ p.resetVector ∧ p.resetVector + 4 ≤ p.ramBase + p.ramSize)) := by
  simp only [Params.ok, Bool.and_eq_true, Bool.or_eq_true, decide_eq_true_eq, beq_iff_eq, disjointRanges_iff,
    Nat.dvd_iff_mod_eq_zero, eq_two_pow_log2_iff, and_assoc]
  simp only [Params.ramPages, and_congr_right_iff]
  intros
  exact and_congr (inclusive_disjoint_iff ‹p.userLow ≤ p.userHigh› ‹p.kernelLow ≤ p.kernelHigh›) Iff.rfl

/-- Settles O58. -/
theorem constructionChecks : Obligations.ConstructionChecks :=
  fun p => ⟨ok_iff p, fun h rom ram disk => by simp [construct, h]⟩

/-! ## Image loading (20_memory.md R64) -/

/-- The bytes of a loaded image stand from its offset on. -/
theorem Memory.read_load (m : Memory) (lo : Nat) (bytes : List Byte) {j : Nat} (hj : j < bytes.length) :
    (m.load lo bytes).read (lo + j) = bytes[j]?.getD 0#8 := by
  have h := Memory.readMany_writeMany m (List.range' lo bytes.length) bytes List.nodup_range' (by simp)
  have hj' := congrArg (fun l : List Byte => l[j]?) h
  simp only [Memory.readMany, List.getElem?_map, List.getElem?_range' hj, Nat.one_mul, Option.map_some] at hj'
  rw [Memory.load, ← hj', Option.getD_some]

theorem Memory.read_load_outside (m : Memory) (lo : Nat) (bytes : List Byte) {x : Nat}
    (hx : x < lo ∨ lo + bytes.length ≤ x) : (m.load lo bytes).read x = m.read x :=
  Memory.read_writeMany_notMem _ _ _ _ (by simp only [List.mem_range'_1]; omega)

theorem State.loadImage_rom {s : State} {base : Word} {bytes : List Byte} (hb : s.cfg.romBase ≤ base.toNat)
    (hs : base.toNat + bytes.length ≤ s.cfg.romBase + s.cfg.romSize) :
    s.loadImage base bytes = .ok { s with rom := s.rom.load (base.toNat - s.cfg.romBase) bytes } := by
  simp [State.loadImage, hb, hs]

theorem State.loadImage_ram {s : State} {base : Word} {bytes : List Byte}
    (hrom : ¬ (s.cfg.romBase ≤ base.toNat ∧ base.toNat + bytes.length ≤ s.cfg.romBase + s.cfg.romSize))
    (hb : s.cfg.ramBase ≤ base.toNat) (hs : base.toNat + bytes.length ≤ s.cfg.ramBase + s.cfg.ramSize) :
    s.loadImage base bytes = .ok { s with ram := s.ram.load (base.toNat - s.cfg.ramBase) bytes } := by
  simp [State.loadImage, hrom, hb, hs]

theorem State.loadImage_neither {s : State} {base : Word} {bytes : List Byte}
    (hrom : ¬ (s.cfg.romBase ≤ base.toNat ∧ base.toNat + bytes.length ≤ s.cfg.romBase + s.cfg.romSize))
    (hram : ¬ (s.cfg.ramBase ≤ base.toNat ∧ base.toNat + bytes.length ≤ s.cfg.ramBase + s.cfg.ramSize)) :
    s.loadImage base bytes = .error (.memoryOutOfBounds base) := by
  simp [State.loadImage, hrom, hram]

/-- A range inside RAM that also lies inside ROM is empty. -/
theorem image_empty_of_both {cfg : Params} (hok : cfg.ok = true) {a n : Nat}
    (hrom : cfg.romBase ≤ a ∧ a + n ≤ cfg.romBase + cfg.romSize) (hram : cfg.ramBase ≤ a ∧ a + n ≤ cfg.ramBase + cfg.ramSize) :
    n = 0 := by
  have := cfg_ranges hok
  omega

/-- Settles O59: the only range that lies inside both devices is an empty one, whose image changes neither. -/
theorem loadImageEffect : Obligations.LoadImageEffect := by
  intro s base bytes a hi hok ha hhi
  subst ha hhi
  refine ⟨fun ⟨hb, hs⟩ => ⟨_, State.loadImage_rom hb hs, fun j hj => Memory.read_load _ _ _ hj,
    fun off hoff => Memory.read_load_outside _ _ _ hoff, rfl⟩, fun ⟨hb, hs⟩ => ?_, State.loadImage_neither⟩
  by_cases hrom : s.cfg.romBase ≤ base.toNat ∧ base.toNat + bytes.length ≤ s.cfg.romBase + s.cfg.romSize
  · have hnil := List.eq_nil_of_length_eq_zero (image_empty_of_both hok hrom ⟨hb, hs⟩)
    subst hnil
    exact ⟨s, State.loadImage_rom hrom.1 hrom.2, nofun, fun _ _ => rfl, rfl⟩
  · exact ⟨_, State.loadImage_ram hrom hb hs, fun j hj => Memory.read_load _ _ _ hj,
      fun off hoff => Memory.read_load_outside _ _ _ hoff, rfl⟩

end Sys2Proof.Machine

/-! Words and their bytes, and what an access reaches once its translations are made: the same access is then ready. -/

namespace Sys2Proof.Machine

/-! ## Words and their bytes (20_memory.md R65) -/

theorem littleEndian_lt (bs : List Byte) : littleEndian bs < 2 ^ (8 * bs.length) := by
  induction bs with
  | nil => simp [littleEndian]
  | cons b bs ih =>
    rw [littleEndian, List.length_cons, Nat.mul_succ, Nat.pow_add]
    have := b.isLt
    omega

/-- Up to four bytes, least significant first, as a word. -/
theorem toNat_leWord {bs : List Byte} (h : bs.length ≤ 4) : (leWord bs).toNat = littleEndian bs := by
  induction bs with
  | nil => rfl
  | cons b bs ih =>
    rw [List.length_cons] at h
    have hlt : littleEndian bs < 2 ^ 24 :=
      (littleEndian_lt bs).trans_le (Nat.pow_le_pow_right (by decide) (by omega))
    have hb : b.toNat % 2 ^ 32 = b.toNat := Nat.mod_eq_of_lt (b.isLt.trans (by decide))
    rw [leWord, littleEndian, BitVec.toNat_or, BitVec.toNat_shiftLeft, ih (by omega), BitVec.toNat_setWidth, hb,
      Nat.shiftLeft_eq, Nat.mod_eq_of_lt (by omega), ← Nat.shiftLeft_eq, ← Nat.shiftLeft_add_eq_or_of_lt b.isLt,
      Nat.shiftLeft_eq]
    omega

/-- Byte `j` of the number that bytes stand for. -/
theorem littleEndian_byte (bs : List Byte) {j : Nat} (hj : j < bs.length) :
    littleEndian bs / 2 ^ (8 * j) % 2 ^ 8 = bs[j].toNat := by
  induction bs generalizing j with
  | nil => simp at hj
  | cons b bs ih =>
    have := b.isLt
    rw [littleEndian]
    cases j with
    | zero => simp only [Nat.mul_zero, Nat.pow_zero, Nat.div_one, List.getElem_cons_zero]; omega
    | succ j =>
      have hdiv : (b.toNat + 256 * littleEndian bs) / 2 ^ 8 = littleEndian bs := by omega
      rw [Nat.mul_succ, Nat.add_comm (8 * j), Nat.pow_add, ← Nat.div_div_eq_div_mul, hdiv]
      exact ih (Nat.lt_of_succ_lt_succ hj)

/-- Byte `j` of a word read from bytes is the `j`-th of them. -/
theorem leWord_byte {bs : List Byte} (h : bs.length ≤ 4) {j : Nat} (hj : j < bs.length) :
    (leWord bs).extractLsb' (8 * j) 8 = bs[j] := by
  refine BitVec.eq_of_toNat_eq ?_
  rw [BitVec.extractLsb'_toNat, toNat_leWord h, Nat.shiftRight_eq_div_pow, littleEndian_byte bs hj]

theorem leWord_single (b : Byte) : leWord [b] = zext b := by simp [leWord]

theorem leBytes_getElem? {n j : Nat} (v : Word) (hj : j < n) : (leBytes n v)[j]? = some (v.extractLsb' (8 * j) 8) := by
  simp [leBytes, hj]

/-- The low bytes of a word, read back as a word. -/
theorem toNat_leWord_leBytes (w : Width) (v : Word) : (leWord (leBytes w.bytes v)).toNat = v.toNat % 2 ^ (8 * w.bytes) := by
  cases w with
  | byte => rw [Width.bytes, leWord_leBytes_byte]; exact Nat.and_two_pow_sub_one_eq_mod v.toNat 8
  | half => rw [Width.bytes, leWord_leBytes_half]; exact Nat.and_two_pow_sub_one_eq_mod v.toNat 16
  | word => rw [Width.bytes, leWord_leBytes_word]; exact (Nat.mod_eq_of_lt v.isLt).symm

theorem Width.bytes_pos (w : Width) : 1 ≤ w.bytes := by cases w <;> decide

theorem Width.bytes_le (w : Width) : w.bytes ≤ 4 := by cases w <;> decide

/-! ## A resident page -/

/-- Page `p` of the current process is in frame `f`, and an access of kind `k` needs no break and has its permission there
(20_memory.md R90). -/
def State.Resident (s : State) (k : AccessKind) (p f : Nat) : Prop :=
  ∃ e, s.entry p = some e ∧ e.loc = .frame f ∧ (k.writes = true → e.write = true ∧ e.cow = false) ∧
    (k = .fetch → e.execute = true)

theorem State.translate_makes_resident {s t : State} {p : Nat} {k : AccessKind} {fa : Word} {f : Nat}
    (h : s.translate p k fa = .ok f t) : t.Resident k p f := State.translate_resident_after h

theorem State.Resident.of_translate_other {s t : State} {p q : Nat} {k : AccessKind} {fa : Word} {f g : Nat}
    (h : s.translate p k fa = .ok f t) (hq : q ≠ p) (hr : s.Resident k q g) : t.Resident k q g := by
  obtain ⟨e, he, hl, hw, hx⟩ := hr
  exact ⟨e, State.translate_other h hq he hl, hl, hw, hx⟩

/-! ## Translations make an access ready (20_memory.md R89) -/

/-- Of up to a page's length of bytes, each is in the page of the first or in that of the last. -/
theorem div_eq_first_or_last {x j m ps : Nat} (hj : j ≤ m) (hm : m ≤ ps) (hps : 0 < ps) :
    (x + j) / ps = x / ps ∨ (x + j) / ps = (x + m) / ps := by
  have hfirst : x / ps ≤ (x + j) / ps := Nat.div_le_div_right (by omega)
  have hlast : (x + j) / ps ≤ (x + m) / ps := Nat.div_le_div_right (by omega)
  have hnext : (x + m) / ps ≤ x / ps + 1 := by
    rw [← Nat.add_div_right x hps]
    exact Nat.div_le_div_right (by omega)
  omega

theorem vpageOf_first_or_last {cfg : Params} (hok : cfg.ok = true) {a n j : Nat} (hn : n ≤ 4) (hb : cfg.vmBase ≤ a)
    (hj : j < n) :
    vpageOf cfg (a + j) = vpageOf cfg a ∨ vpageOf cfg (a + j) = vpageOf cfg (a + n - 1) := by
  have hps := cfg_pageSize_ge hok
  have h := div_eq_first_or_last (x := a - cfg.vmBase) (j := j) (m := n - 1) (ps := cfg.pageSize) (by omega) (by omega)
    (by omega)
  unfold vpageOf
  rwa [show a + j - cfg.vmBase = a - cfg.vmBase + j by omega, show a + n - 1 - cfg.vmBase = a - cfg.vmBase + (n - 1) by omega]

/-- An access in the VM window is ready where the pages of its first and of its last byte are resident. -/
theorem ready_of_resident {t : State} (hok : t.cfg.ok = true) {a : Word} {n : Nat} {k : AccessKind} (hn : n ≤ 4)
    (h32 : a.toNat + n ≤ 2 ^ 32) (hb : t.cfg.vmBase ≤ a.toNat) (hs : a.toNat + n ≤ t.cfg.vmBase + t.cfg.vmSize)
    {f0 f1 : Nat} (h0 : t.Resident k (vpageOf t.cfg a.toNat) f0)
    (h1 : vpageOf t.cfg (a.toNat + n - 1) ≠ vpageOf t.cfg a.toNat → t.Resident k (vpageOf t.cfg (a.toNat + n - 1)) f1) :
    AccessReady t a n k .ram (vmOffsets t.cfg a.toNat n (vpageOf t.cfg a.toNat) f0 f1) := by
  refine ⟨h32, length_vmOffsets .., .inr (.inr ⟨rfl, hb, hs, fun j hj => ?_⟩)⟩
  have hoff : (vmOffsets t.cfg a.toNat n (vpageOf t.cfg a.toNat) f0 f1)[j]? = some (frameOffset t.cfg
      (if vpageOf t.cfg (a.toNat + j) = vpageOf t.cfg a.toNat then f0 else f1) (a.toNat + j)) := by
    rw [vmOffsets, List.getElem?_map, List.getElem?_range' hj, Option.map_some, Nat.one_mul]
  change ∃ e f, t.entry (vpageOf t.cfg (a.toNat + j)) = some e ∧ _
  by_cases hp : vpageOf t.cfg (a.toNat + j) = vpageOf t.cfg a.toNat
  · obtain ⟨e, he, hl, hw, hx⟩ := h0
    rw [if_pos hp] at hoff
    exact ⟨e, f0, hp ▸ he, hl, hw, hx, hoff⟩
  · have hlast := (vpageOf_first_or_last hok hn hb hj).resolve_left hp
    obtain ⟨e, he, hl, hw, hx⟩ := h1 (hlast ▸ hp)
    rw [if_neg hp] at hoff
    exact ⟨e, f1, hlast ▸ he, hl, hw, hx, hoff⟩

/-- An access whose checks and translations succeed is ready in the state they leave, at the bytes they give. -/
theorem State.resolve_makes_ready {s t : State} {a : Word} {n : Nat} {k : AccessKind} {pl : Place} (hok : s.cfg.ok = true)
    (h1 : 1 ≤ n) (h4 : n ≤ 4) (h : s.resolve a n k = .ok pl t) : AccessReady t a n k pl.dev pl.offs := by
  unfold State.resolve at h
  rcases route_cases s.cfg a n k with ⟨off, hr, hk, hl, hb, hs, rfl⟩ | ⟨off, hr, hl, hb, hs, rfl⟩ | ⟨hr, hl, hb, hs⟩ |
    ⟨c, hr, -⟩ <;> rw [hr] at h <;> simp only at h
  · cases h
    refine ⟨by omega, by simp, .inl ⟨rfl, hk, hb, by omega, fun j hj => ?_⟩⟩
    rw [List.getElem?_range' hj]; congr 1; omega
  · cases h
    refine ⟨by omega, by simp, .inr (.inl ⟨rfl, hb, by omega, fun j hj => ?_⟩)⟩
    rw [List.getElem?_range' hj]; congr 1; omega
  · have hcfg : t.cfg = s.cfg := (State.resolveVm_frame.1 _ _ h).engine.1
    rw [← hcfg] at hok hb hs
    obtain ⟨f0, s1, h0, ⟨hp, rfl, rfl⟩ | ⟨hp, f1, h1', rfl⟩⟩ := State.resolveVm_ok h <;> rw [← hcfg] at hp ⊢
    · rw [← hcfg] at h0
      exact ready_of_resident hok h4 (by omega) hb (by omega) (State.translate_makes_resident h0) fun hne => absurd hp hne
    · rw [← hcfg] at h0 h1'
      exact ready_of_resident hok h4 (by omega) hb (by omega)
        ((State.translate_makes_resident h0).of_translate_other h1' hp.symm) fun _ => State.translate_makes_resident h1'
  · cases h

/-- The same access, in the state its translations leave, goes to the same bytes and changes nothing more. -/
theorem State.resolve_again {s t : State} {a : Word} {n : Nat} {k : AccessKind} {pl : Place} (hok : s.cfg.ok = true)
    (h1 : 1 ≤ n) (h4 : n ≤ 4) (h : s.resolve a n k = .ok pl t) : t.resolve a n k = .ok pl t :=
  State.resolve_ready ((State.resolve_frame.1 _ _ h).engine.1 ▸ hok) h1 h4 (State.resolve_makes_ready hok h1 h4 h)

/-! ## What a ready access says of its bytes -/

/-- Each byte of a ready access is a ready access of its own. -/
theorem AccessReady.byte {s : State} {a : Word} {n : Nat} {k : AccessKind} {d : Device} {offs : List Nat}
    (h : AccessReady s a n k d offs) {j o : Nat} (ho : offs[j]? = some o) :
    AccessReady s (a + BitVec.ofNat 32 j) 1 k d [o] := by
  obtain ⟨h32, hlen, hd⟩ := h
  have hj : j < n := hlen ▸ (List.getElem?_eq_some_iff.1 ho).1
  have haj : (a + BitVec.ofNat 32 j).toNat = a.toNat + j := by
    rw [BitVec.toNat_add, BitVec.toNat_ofNat, Nat.mod_eq_of_lt (a := j) (by omega), Nat.mod_eq_of_lt (by omega)]
  unfold AccessReady
  rw [haj]
  refine ⟨by omega, rfl, ?_⟩
  rcases hd with ⟨rfl, hk, hb, hs, hoffs⟩ | ⟨rfl, hb, hs, hoffs⟩ | ⟨rfl, hb, hs, hoffs⟩
  · refine .inl ⟨rfl, hk, by omega, by omega, fun i hi => ?_⟩
    obtain rfl : i = 0 := by omega
    exact ho.symm.trans (hoffs j hj)
  · refine .inr (.inl ⟨rfl, by omega, by omega, fun i hi => ?_⟩)
    obtain rfl : i = 0 := by omega
    exact ho.symm.trans (hoffs j hj)
  · refine .inr (.inr ⟨rfl, by omega, by omega, fun i hi => ?_⟩)
    obtain rfl : i = 0 := by omega
    obtain ⟨e, f, he, hl, hw, hx, hoj⟩ := hoffs j hj
    exact ⟨e, f, he, hl, hw, hx, ho.symm.trans hoj⟩

/-- Two numbers less than a modulus apart have different remainders. -/
theorem mod_ne_of_lt {x y ps : Nat} (hxy : x < y) (hps : y < x + ps) : x % ps ≠ y % ps := by
  intro h
  have hdvd := (Nat.modEq_iff_dvd' hxy.le).1 h
  exact absurd (Nat.le_of_dvd (by omega) hdvd) (by omega)

/-- The bytes of a ready access are distinct. -/
theorem AccessReady.nodup {s : State} {a : Word} {n : Nat} {k : AccessKind} {d : Device} {offs : List Nat}
    (hok : s.cfg.ok = true) (h4 : n ≤ 4) (h : AccessReady s a n k d offs) : offs.Nodup := by
  obtain ⟨-, hlen, hd⟩ := h
  refine List.nodup_iff_getElem?_ne_getElem?.2 fun i j hij hj => ?_
  rcases hd with ⟨-, -, hb, -, hoffs⟩ | ⟨-, hb, -, hoffs⟩ | ⟨-, hb, -, hoffs⟩
  · rw [hoffs i (by omega), hoffs j (by omega), Ne, Option.some.injEq]; omega
  · rw [hoffs i (by omega), hoffs j (by omega), Ne, Option.some.injEq]; omega
  · obtain ⟨_, f, -, -, -, -, hi⟩ := hoffs i (by omega)
    obtain ⟨_, g, -, -, -, -, hj'⟩ := hoffs j (by omega)
    have hps := cfg_pageSize_ge hok
    rw [hi, hj', Ne, Option.some.injEq]
    intro he
    have hmod := congrArg (· % s.cfg.pageSize) he
    simp only [Nat.mul_add_mod', Nat.mod_mod] at hmod
    exact mod_ne_of_lt (by omega) (by omega) hmod

/-- A ready access stays ready in a state with the same parameters and entries, for a kind that needs no more. -/
theorem AccessReady.mono {s t : State} {a : Word} {n : Nat} {k k' : AccessKind} {d : Device} {offs : List Nat}
    (h : AccessReady s a n k d offs) (hcfg : t.cfg = s.cfg) (hentry : ∀ p, t.entry p = s.entry p)
    (hw : k'.writes = true → k.writes = true) (hx : k' = .fetch → k = .fetch) : AccessReady t a n k' d offs := by
  obtain ⟨h32, hlen, hd⟩ := h
  unfold AccessReady
  rw [hcfg]
  refine ⟨h32, hlen, hd.imp (fun ⟨hdev, hk, hr⟩ => ⟨hdev, ?_, hr⟩) (Or.imp id fun ⟨hdev, hb, hs, hoffs⟩ =>
    ⟨hdev, hb, hs, fun j hj => ?_⟩)⟩
  · exact Bool.eq_false_iff.2 fun hk' => Bool.eq_false_iff.1 hk (hw hk')
  · obtain ⟨e, f, he, hl, hew, hex, hoj⟩ := hoffs j hj
    exact ⟨e, f, (hentry _).trans he, hl, hew ∘ hw, hex ∘ hx, hoj⟩

/-- A ready read or fetch answers the value at its bytes and changes nothing. -/
theorem State.memRead_ready {s : State} {a : Word} {w : Width} {k : AccessKind} {d : Device} {offs : List Nat}
    (hok : s.cfg.ok = true) (h : AccessReady s a w.bytes k d offs) :
    s.memRead a w k = .ok (s.valueAt { dev := d, offs := offs }) s := by
  unfold State.memRead
  rw [State.resolve_ready hok w.bytes_pos w.bytes_le h]

theorem State.valueAt_single (s : State) (d : Device) (o : Nat) :
    s.valueAt { dev := d, offs := [o] } = zext (s.byteAt d o) := leWord_single _

/-! ## Reads, fetches and stores -/

/-- Settles O28: a read's place is ready in the state after it, so each of its bytes is read there by a byte access. -/
theorem littleEndianReads : Obligations.LittleEndianReads := by
  intro s a w k v t hok _ hread
  obtain ⟨pl, hres, rfl, hframe⟩ := State.memRead_ok hread
  have hready := State.resolve_makes_ready hok w.bytes_pos w.bytes_le hres
  have hlen : ((t.device pl.dev).readMany pl.offs).length = w.bytes := by
    rw [Memory.readMany, List.length_map, (State.resolve_place hres).1]
  have h4 : ((t.device pl.dev).readMany pl.offs).length ≤ 4 := hlen ▸ w.bytes_le
  refine ⟨?_, fun j hj => ?_⟩
  · rw [State.valueAt, toNat_leWord h4, ← hlen]
    exact littleEndian_lt _
  · have hj' : j < pl.offs.length := by rwa [(State.resolve_place hres).1]
    have hbyte := hready.byte (List.getElem?_eq_getElem hj')
    rw [State.memRead_ready (hframe.engine.1 ▸ hok) (w := .byte) hbyte, State.valueAt_single, State.valueAt,
      leWord_byte h4 (hlen ▸ hj)]
    simp [Memory.readMany, State.byteAt]

/-- Byte `j` of a store's place reads byte `j` of the value. -/
theorem State.byteAt_storeAt_nth (s : State) (pl : Place) (v : Word) (hn : pl.offs.Nodup) {j o : Nat}
    (ho : pl.offs[j]? = some o) : (s.storeAt pl v).byteAt .ram o = v.extractLsb' (8 * j) 8 := by
  have hj := congrArg (fun l : List Byte => l[j]?) (s.byteAt_storeAt pl v hn)
  simpa [List.getElem?_map, ho, leBytes_getElem? v (List.getElem?_eq_some_iff.1 ho).1] using hj

/-- A store's place reads back the value's low bytes. -/
theorem State.valueAt_storeAt (s : State) (pl : Place) (v : Word) (hn : pl.offs.Nodup) (hd : pl.dev = .ram) :
    (s.storeAt pl v).valueAt pl = leWord (leBytes pl.offs.length v) := by
  rw [State.valueAt, hd]
  exact congrArg leWord (s.byteAt_storeAt pl v hn)

/-- Settles O29: a write's place is ready for a read after it, and its bytes are distinct, so each holds its byte of the value. -/
theorem storeThenLoad : Obligations.StoreThenLoad := by
  intro s a w v t hok hwrite
  obtain ⟨pl, s1, hres, rfl, hframe⟩ := State.memWrite_ok hwrite
  obtain ⟨hlen, hdev⟩ := State.resolve_place hres
  have hram : pl.dev = .ram := hdev.resolve_right fun h => nomatch h.2
  have hok1 : s1.cfg.ok = true := hframe.engine.1 ▸ hok
  have hready := State.resolve_makes_ready hok w.bytes_pos w.bytes_le hres
  have hnodup := hready.nodup hok1 w.bytes_le
  refine ⟨⟨(s1.storeAt pl v).valueAt pl, ?_, ?_⟩, fun pl' s2 hres' j o a' ho hready' => ?_⟩
  · exact State.memRead_ready hok1 (hready.mono rfl (fun _ => rfl) nofun nofun)
  · rw [State.valueAt_storeAt _ _ _ hnodup hram, hlen, toNat_leWord_leBytes]
  · rw [hres] at hres'; cases hres'
    rw [State.memRead_ready (s := s1.storeAt pl v) hok1 (w := .byte) hready', State.valueAt_single, State.byteAt_storeAt_nth _ _ _ hnodup ho]

/-! ## An access that needs translations (20_memory.md R89 to R92) -/

theorem dataAccess_bytes {s : State} {i : Instr} {a : Word} {n : Nat} {k : AccessKind}
    (h : dataAccess s i = some (a, n, k)) : 1 ≤ n ∧ n ≤ 4 := by
  have width : ∀ {b : Word} {w : Width} {l : AccessKind}, dataAccess s i = some (b, w.bytes, l) → 1 ≤ n ∧ n ≤ 4 :=
    fun {_ w _} hd => by rw [hd] at h; cases h; exact ⟨w.bytes_pos, w.bytes_le⟩
  have hrun := exec_runsAs s i
  generalize exec i s = o at hrun
  cases hrun with
  | load _ _ _ _ _ hd => exact width hd
  | store _ _ _ _ _ hd => exact width hd
  | swap _ _ _ _ hd => exact width hd
  | halt hi => subst hi; cases h
  | interrupt _ hi => subst hi; cases h
  | register _ _ _ hd | compare _ hd | branch _ hd | link _ hd => rw [hd] at h; cases h

section Translated

variable {s s1 : State}

theorem TranslationFrame.memOffset_eq (h : TranslationFrame s s1) (off : MemOffset) : s1.memOffset off = s.memOffset off := by
  cases off with
  | imm v => rfl
  | reg xm => exact h.core.1 xm

theorem TranslationFrame.indexed_eq (h : TranslationFrame s s1) (xn : Reg) (off : MemOffset) :
    s1.indexed xn off = s.indexed xn off := by
  rw [State.indexed, State.indexed, h.core.1, h.memOffset_eq]

theorem TranslationFrame.accessAddr_eq (h : TranslationFrame s s1) (xn : Reg) (am : AddrMode) (off : MemOffset) :
    s1.accessAddr xn am off = s.accessAddr xn am off := by
  cases am with
  | offsetOnly | preIndexed => exact h.indexed_eq xn off
  | postIndexed => exact h.core.1 xn

variable {pl : Place} {i : Instr} {w : Width}

/-- A load whose access resolves has the outcome that it has in the state the translations leave. -/
theorem loadInstr_translated {xt xn : Reg} {am : AddrMode} {off : MemOffset} (hok : s.cfg.ok = true)
    (h : s.resolve (s.accessAddr xn am off) w.bytes .read = .ok pl s1) :
    loadInstr i w xt xn am off s = loadInstr i w xt xn am off s1 := by
  have hframe := State.resolve_frame.1 _ _ h
  have hagain := State.resolve_again hok w.bytes_pos w.bytes_le h
  simp only [loadInstr, State.memRead, hframe.accessAddr_eq, hframe.indexed_eq, h, hagain]

theorem storeInstr_translated {xt xn : Reg} {am : AddrMode} {off : MemOffset} (hok : s.cfg.ok = true)
    (h : s.resolve (s.accessAddr xn am off) w.bytes .write = .ok pl s1) :
    storeInstr i w xt xn am off s = storeInstr i w xt xn am off s1 := by
  have hframe := State.resolve_frame.1 _ _ h
  have hagain := State.resolve_again hok w.bytes_pos w.bytes_le h
  simp only [storeInstr, State.memWrite, hframe.accessAddr_eq, hframe.indexed_eq, hframe.core.1, h, hagain]

theorem swapInstr_translated {xt xs xn : Reg} (hok : s.cfg.ok = true)
    (h : s.resolve (s.reg xn) w.bytes .swap = .ok pl s1) : swapInstr i w xt xs xn s = swapInstr i w xt xs xn s1 := by
  have hframe := State.resolve_frame.1 _ _ h
  have hagain := State.resolve_again hok w.bytes_pos w.bytes_le h
  simp only [swapInstr, State.busSwap, hframe.core.1, h, hagain]

/-- An instruction whose data access resolves has the outcome that it has in the state the translations leave. -/
theorem exec_translated {a : Word} {n : Nat} {k : AccessKind} (hok : s.cfg.ok = true)
    (hd : dataAccess s i = some (a, n, k)) (h : s.resolve a n k = .ok pl s1) : exec i s = exec i s1 := by
  cases i with
  | ldr | ldrh | ldrb => cases hd; exact loadInstr_translated hok h
  | str | strh | strb => cases hd; exact storeInstr_translated hok h
  | swp | swph | swpb => cases hd; exact swapInstr_translated hok h
  | _ => cases hd

end Translated

/-- Settles O25. -/
theorem translationMakesReady : Obligations.TranslationMakesReady := by
  intro s i a n k pl s1 hok hd hres
  obtain ⟨h1, h4⟩ := dataAccess_bytes hd
  exact ⟨State.resolve_frame.1 _ _ hres, State.resolve_makes_ready hok h1 h4 hres, exec_translated hok hd hres⟩

end Sys2Proof.Machine

/-! The invariant through accesses, instructions, steps and runs. -/

namespace Sys2Proof.Machine

/-! ## The invariant of states that hold the same memories and the same MMU -/

theorem MmuWf.of_same {s t : State} (h : MmuWf s) (hcfg : t.cfg = s.cfg) (hmmu : SameMmu s t) : MmuWf t := by
  obtain ⟨huser, hkernel, hdisk, hframeRef, hdiskRef, hprocs, hcurrent, hnext⟩ := hmmu
  cases s
  cases t
  subst hcfg huser hkernel hdisk hframeRef hdiskRef hprocs hcurrent hnext
  exact { h with }

/-- The ROM, the RAM and the disk are the same data. -/
def SameMemories (s t : State) : Prop := t.rom = s.rom ∧ t.ram = s.ram ∧ t.disk = s.disk

theorem MemoryWf.of_same {s t : State} (h : MemoryWf s) (hcfg : t.cfg = s.cfg) (hmem : SameMemories s t) : MemoryWf t := by
  obtain ⟨hrom, hram, hdisk⟩ := hmem
  cases s
  cases t
  subst hcfg hrom hram hdisk
  exact { h with }

theorem Inv.of_same {s t : State} (h : Inv s) (hcfg : t.cfg = s.cfg) (hmem : SameMemories s t) (hmmu : SameMmu s t)
    (he : EngineWf t) : Inv t :=
  ⟨hcfg ▸ h.cfgOk, h.memory.of_same hcfg hmem, h.mmu.of_same hcfg hmmu, he⟩

section CoreUpdates

variable {s : State}

/-- Setting exec_state and the run in progress, as resuming and a new run do. -/
theorem Inv.running (h : Inv s) (n : Nat) : Inv { s with execState := .running, activeRun := some n } :=
  h.of_same rfl ⟨rfl, rfl, rfl⟩ (.refl s) fun _ => rfl

theorem Inv.resume (h : Inv s) : Inv s.resume := h.running _

theorem Inv.endRun (h : Inv s) (e : RunEnd) : Inv (s.endRun e) := h.of_same rfl ⟨rfl, rfl, rfl⟩ (.refl s) nofun

theorem Inv.setReg (h : Inv s) (r : Reg) (v : Word) : Inv (s.setReg r v) :=
  h.of_same rfl ⟨rfl, rfl, rfl⟩ (.refl s) h.engine

theorem Inv.setFlags (h : Inv s) (fl : Flags) : Inv (s.setFlags fl) := h.of_same rfl ⟨rfl, rfl, rfl⟩ (.refl s) h.engine

theorem Inv.writeBack (h : Inv s) (xn : Reg) (am : AddrMode) (v : Word) : Inv (s.writeBack xn am v) := by
  cases am with
  | offsetOnly => exact h
  | preIndexed | postIndexed => exact h.setReg xn v

/-- An instruction completes while Running. -/
theorem Inv.redirect (h : Inv s) (hrun : s.execState = .running) (i : Instr) (target : Word) : Inv (s.redirect i target) :=
  h.of_same rfl ⟨rfl, rfl, rfl⟩ (.refl s) fun _ => hrun

theorem Inv.takeFault (h : Inv s) {t : State} {c : FaultCause} {w : Option Word} (ht : takeFault c w s = .next t) : Inv t := by
  cases ht
  exact h.of_same rfl ⟨rfl, rfl, rfl⟩ (.refl s) nofun

end CoreUpdates

/-! ## Accesses -/

theorem Inv.of_kept {s t : State} (h : Inv s) (hk : Kept s t) : Inv t where
  cfgOk := hk.frame.engine.1 ▸ h.cfgOk
  memory := hk.memory
  mmu := hk.mmu
  engine := fun hrun => hk.frame.execState_eq.trans (h.engine (hk.frame.run ▸ hrun))

theorem Inv.resolve_ok {s t : State} (h : Inv s) {a : Word} {n : Nat} {k : AccessKind} {pl : Place}
    (hr : s.resolve a n k = .ok pl t) : Inv t := h.of_kept (h.resolve_kept.1 _ _ hr)

theorem Inv.resolve_fault {s t : State} (h : Inv s) {a : Word} {n : Nat} {k : AccessKind} {c : FaultCause}
    (hr : s.resolve a n k = .fault c t) : Inv t := h.of_kept (h.resolve_kept.2 _ _ hr)

/-- The bytes of a ready access to RAM lie inside it. -/
theorem AccessReady.inside {s : State} (hok : s.cfg.ok = true) (hi : MmuWf s) {a : Word} {n : Nat} {k : AccessKind}
    {offs : List Nat} (h : AccessReady s a n k .ram offs) : ∀ o ∈ offs, o < s.cfg.ramSize := by
  intro o ho
  obtain ⟨-, hlen, hd⟩ := h
  obtain ⟨j, hj⟩ := List.getElem?_of_mem ho
  have hjn : j < n := hlen ▸ (List.getElem?_eq_some_iff.1 hj).1
  rcases hd with ⟨hdev, -⟩ | ⟨-, hb, hs, hoffs⟩ | ⟨-, -, -, hoffs⟩
  · cases hdev
  · rw [hoffs j hjn, Option.some.injEq] at hj
    omega
  · obtain ⟨e, f, he, hl, -, -, hoj⟩ := hoffs j hjn
    rw [hoj, Option.some.injEq] at hj
    have hpool := hi.framesOfPool _ (mem_entries_of_entry he) f hl
    have hframe := frame_inside hok (pool_frame_lt hok hpool)
    have hmod := Nat.mod_lt (a.toNat + j - s.cfg.vmBase) (show 0 < s.cfg.pageSize by have := cfg_pageSize_ge hok; omega)
    omega

theorem Inv.storeAt {s : State} (h : Inv s) {a : Word} {n : Nat} {k : AccessKind} {pl : Place}
    (hready : AccessReady s a n k .ram pl.offs) (v : Word) : Inv (s.storeAt pl v) where
  cfgOk := h.cfgOk
  memory :=
    { h.memory with
      ramWf := Memory.writeMany_wf h.memory.ramWf _ _
      ramInside := Memory.writeMany_inside h.memory.ramInside (hready.inside h.cfgOk h.mmu) _ }
  mmu := h.mmu.of_same rfl (.refl s)
  engine := h.engine

/-- A write or swap that resolves keeps the invariant, its store included. -/
theorem Inv.resolve_storeAt {s t : State} (h : Inv s) {a : Word} {w : Width} {k : AccessKind} {pl : Place}
    (hk : k.writes = true) (hr : s.resolve a w.bytes k = .ok pl t) (v : Word) : Inv (t.storeAt pl v) := by
  have hready := State.resolve_makes_ready h.cfgOk w.bytes_pos w.bytes_le hr
  have hram : pl.dev = .ram := (State.resolve_place hr).2.resolve_right fun hrom => by
    rw [hk] at hrom; exact nomatch hrom.2
  rw [hram] at hready
  exact (h.resolve_ok hr).storeAt hready v

/-! ## Instructions, steps and runs -/

section Execution

variable {s t : State} {i : Instr} {w : Width}

theorem loadInstr_inv {xt xn : Reg} {am : AddrMode} {off : MemOffset} (h : Inv s) (hrun : s.execState = .running)
    (ht : loadInstr i w xt xn am off s = .next t) : Inv t := by
  unfold loadInstr at ht
  split at ht
  · next hm =>
    obtain ⟨pl, hr, -, hframe⟩ := State.memRead_ok hm
    cases ht
    exact (((h.resolve_ok hr).writeBack ..).setReg ..).redirect (by simp [hframe.execState_eq, hrun]) i _
  · next hm => exact (h.resolve_fault (State.memRead_fault hm).1).takeFault ht
  · cases ht

theorem storeInstr_inv {xt xn : Reg} {am : AddrMode} {off : MemOffset} (h : Inv s) (hrun : s.execState = .running)
    (ht : storeInstr i w xt xn am off s = .next t) : Inv t := by
  unfold storeInstr at ht
  split at ht
  · next hm =>
    obtain ⟨pl, s1, hr, rfl, hframe⟩ := State.memWrite_ok hm
    cases ht
    exact ((h.resolve_storeAt rfl hr _).writeBack ..).redirect (by simp [hframe.execState_eq, hrun]) i _
  · next hm => exact (h.resolve_fault (State.memWrite_fault hm).1).takeFault ht
  · cases ht

theorem swapInstr_inv {xt xs xn : Reg} (h : Inv s) (hrun : s.execState = .running)
    (ht : swapInstr i w xt xs xn s = .next t) : Inv t := by
  unfold swapInstr at ht
  split at ht
  · next hm =>
    obtain ⟨pl, s1, hr, -, rfl, hframe⟩ := State.busSwap_ok hm
    cases ht
    exact ((h.resolve_storeAt rfl hr _).setReg ..).redirect (by simp [hframe.execState_eq, hrun]) i _
  · next hm => exact (h.resolve_fault (State.busSwap_fault hm).1).takeFault ht
  · cases ht

/-- Every instruction, executed while Running, keeps the invariant. -/
theorem exec_inv (h : Inv s) (hrun : s.execState = .running) (ht : exec i s = .next t) : Inv t := by
  have hshape := exec_runsAs s i
  rw [ht] at hshape
  generalize ho : Host.Outcome.next t = o at hshape
  cases hshape with
  | register xd v fl _ _ => cases ho; exact ((h.setReg xd v).setFlags fl).redirect hrun i _
  | compare fl _ _ => cases ho; exact (h.setFlags fl).redirect hrun i _
  | branch target _ => cases ho; exact h.redirect hrun i target
  | link target _ => cases ho; exact (h.setReg _ _).redirect hrun i target
  | halt _ => cases ho; exact h.of_same rfl ⟨rfl, rfl, rfl⟩ (.refl s) nofun
  | interrupt imm _ => cases ho; exact (h.redirect hrun _ _).endRun _
  | load => exact loadInstr_inv h hrun ho.symm
  | store => exact storeInstr_inv h hrun ho.symm
  | swap => exact swapInstr_inv h hrun ho.symm

/-- The state in which a fetched instruction executes. -/
theorem fetchInstr_instr_inv {s1 : State} (h : Inv s) (hrun : s.execState = .running) (hf : s.fetchInstr = .instr i s1) :
    Inv s1 ∧ s1.execState = .running := by
  unfold State.fetchInstr at hf
  split at hf
  · next hm =>
    obtain ⟨pl, hr, -, hframe⟩ := State.memRead_ok hm
    unfold State.decodeFetched at hf
    split at hf
    · cases hf; exact ⟨h.resolve_ok hr, hframe.execState_eq.trans hrun⟩
    · cases hf
  · cases hf
  · cases hf

/-- The outcome of a fetch that gives no instruction to execute. -/
theorem fetchInstr_stop_inv (h : Inv s) (hf : s.fetchInstr = .stop (.next t)) : Inv t := by
  unfold State.fetchInstr at hf
  split at hf
  · next hm =>
    obtain ⟨pl, hr, -, -⟩ := State.memRead_ok hm
    unfold State.decodeFetched at hf
    split at hf
    · cases hf
    · cases hf; exact (h.resolve_ok hr).takeFault rfl
  · next hm => cases hf; exact (h.resolve_fault (State.memRead_fault hm).1).takeFault rfl
  · cases hf

theorem step_inv (h : Inv s) (ht : step s = .next t) : Inv t := by
  unfold step at ht
  split at ht
  · cases ht; exact h
  · split at ht
    · next hf =>
      obtain ⟨h1, hrun1⟩ := fetchInstr_instr_inv h.resume rfl hf
      exact exec_inv h1 hrun1 ht
    · next hf => exact fetchInstr_stop_inv h.resume (ht ▸ hf)

end Execution

/-- Settles O41. -/
theorem stepKeepsInvariant : Obligations.StepKeepsInvariant := fun _ _ => step_inv

theorem runLoop_inv {budget : Nat} {s t : State} (h : Inv s) (ht : runLoop budget s = .next t) : Inv t := by
  induction budget generalizing s with
  | zero => cases ht; exact h.endRun _
  | succ budget ih =>
    rw [runLoop] at ht
    split at ht
    · next s1 hstep =>
      have h1 := step_inv h hstep
      split at ht
      · exact ih h1 ht
      · cases ht; exact h1
    · next hne => exact absurd ht (hne t)

theorem run_inv {max : Nat} {s t : State} (h : Inv s) (ht : run max s = .next t) : Inv t := by
  unfold run at ht
  cases hs : s.execState with
  | halted => rw [hs] at ht; cases ht; exact h.of_same rfl ⟨rfl, rfl, rfl⟩ (.refl s) nofun
  | running | faulted => rw [hs] at ht; exact runLoop_inv (h.running 0) ht

end Sys2Proof.Machine

/-! The decoder reads every field of an encoded word back (30_encoding.md R124 to R140), and so a ready fetch runs the instruction
whose word stands at the pc. -/

namespace Sys2Proof

/-! ## Fields of a concatenation -/

theorem getLsbD_append_hi {n m : Nat} (x : BitVec n) (y : BitVec m) (j : Nat) (h : m ≤ j) :
    (x ++ y).getLsbD j = x.getLsbD (j - m) := by
  rw [BitVec.getLsbD_append, if_neg (by omega)]

theorem getLsbD_append_lo {n m : Nat} (x : BitVec n) (y : BitVec m) (j : Nat) (h : j < m) :
    (x ++ y).getLsbD j = y.getLsbD j := by
  rw [BitVec.getLsbD_append, if_pos h]

/-- The three kinds of one-bit fields. -/
theorem bit_one : (1#1).getLsbD 0 = true := rfl

theorem bit_zero : (0#1).getLsbD 0 = false := rfl

theorem bit_ofBool (b : Bool) : (BitVec.ofBool b).getLsbD 0 = b := by cases b <;> rfl

theorem extract_low_eq_setWidth {n m : Nat} (v : BitVec m) : v.extractLsb' 0 n = v.setWidth n :=
  BitVec.eq_of_toNat_eq (by simp [BitVec.extractLsb'_toNat])

theorem zext_extract {n : Nat} {v : Word} (h : zextFits n v = true) : zext (v.extractLsb' 0 n) = v := by
  rw [extract_low_eq_setWidth]
  exact beq_iff_eq.1 h

theorem sext_extract {n : Nat} {v : Word} (h : sextFits n v = true) : sext (v.extractLsb' 0 n) = v := by
  rw [extract_low_eq_setWidth]
  exact beq_iff_eq.1 h

theorem decodeShiftType_encode (sh : ShiftType) : decodeShiftType (encodeShiftType sh) = sh := by cases sh <;> rfl

theorem decodeCond_encode (c : Cond) : decodeCond (encodeCond c) = some c := by cases c <;> rfl

theorem decodeAddrMode_encode (am : AddrMode) : decodeAddrMode (encodeAddrMode am) = some am := by cases am <;> rfl

/-! ## Operands, below any upper part of the word -/

theorem decodeOperand2_encode (x : BitVec 17) {o : Operand2} (h : o.wf 14 = true) :
    decodeOperand2 (x ++ encodeOperand2 o) = some o := by
  unfold decodeOperand2
  cases o with
  | imm v =>
    simp (disch := decide) only [encodeOperand2, zext_extract h, bit_one, if_true, getLsbD_append_lo, getLsbD_append_hi,
      extract_append_lo, extract_all, Nat.sub_self]
  | reg xm sh shamt =>
    simp (disch := decide) only [encodeOperand2, decodeShiftType_encode, bit_zero, Bool.false_eq_true, if_false, if_true,
      getLsbD_append_lo, getLsbD_append_hi, extract_append_lo, extract_append_hi, extract_all, Nat.reduceSub, Nat.sub_self]

theorem decodeMemOffset_encode (x : BitVec 18) {off : MemOffset} (h : off.wf = true) :
    decodeMemOffset (x ++ encodeMemOffset off) = some off := by
  unfold decodeMemOffset
  cases off with
  | imm v =>
    simp (disch := decide) only [encodeMemOffset, sext_extract h, bit_one, if_true, getLsbD_append_lo, getLsbD_append_hi,
      extract_append_lo, extract_all, Nat.sub_self]
  | reg xm =>
    simp (disch := decide) only [encodeMemOffset, bit_zero, Bool.false_eq_true, if_false, if_true, getLsbD_append_lo,
      getLsbD_append_hi, extract_append_lo, extract_append_hi, extract_all, Nat.reduceSub, Nat.sub_self]

/-! ## Each format -/

section Formats

variable (op : Opcode) (f : Bool) (xd xn xm : Reg)

theorem decodeDp_encode (mk : Bool → Reg → Reg → Operand2 → Instr) {o : Operand2} (h : o.wf 14 = true) :
    decodeDp (encodeDp op f xd xn o) mk = some (mk f xd xn o) := by
  unfold decodeDp encodeDp
  rw [decodeOperand2_encode _ h]
  simp (disch := decide) only [Option.map_some, bit_ofBool, getLsbD_append_lo, getLsbD_append_hi, extract_append_lo,
    extract_append_hi, extract_all, Nat.reduceSub, Nat.sub_self]

theorem decodeSh_encode (mk : Bool → Reg → Reg → ShiftAmount → Instr) {amt : ShiftAmount} (h : amt.wf = true) :
    decodeSh (encodeSh op f xd xn amt) mk = some (mk f xd xn amt) := by
  unfold decodeSh encodeSh
  cases amt with
  | imm v =>
    simp (disch := decide) only [encodeShiftAmount, zext_extract h, bit_ofBool, bit_one, if_true, getLsbD_append_lo,
      getLsbD_append_hi, extract_append_lo, extract_append_hi, extract_all, Nat.reduceSub, Nat.sub_self]
  | reg xm =>
    simp (disch := decide) only [encodeShiftAmount, bit_ofBool, bit_zero, Bool.false_eq_true, if_false, if_true,
      getLsbD_append_lo, getLsbD_append_hi, extract_append_lo, extract_append_hi, extract_all, Nat.reduceSub, Nat.sub_self]

theorem decodeCmp_encode (mk : Reg → Operand2 → Instr) {o : Operand2} (h : o.wf 14 = true) :
    decodeCmp (encodeCmp op xn o) mk = some (mk xn o) := by
  unfold decodeCmp encodeCmp
  rw [decodeOperand2_encode _ h]
  simp (disch := decide) only [Option.map_some, if_true, extract_append_lo,
    extract_append_hi, extract_all, Nat.reduceSub, Nat.sub_self]

theorem decodeMov_encode (mk : Bool → Reg → Operand2 → Instr) {o : Operand2} (h : o.wf 19 = true) :
    decodeMov (encodeMov op f xd o) mk = some (mk f xd o) := by
  unfold decodeMov encodeMov
  cases o with
  | imm v =>
    simp (disch := decide) only [encodeMovOperand, zext_extract h, bit_ofBool, bit_one, if_true, getLsbD_append_lo,
      getLsbD_append_hi, extract_append_lo, extract_append_hi, extract_all, Nat.sub_self]
  | reg xm sh shamt =>
    simp (disch := decide) only [encodeMovOperand, decodeShiftType_encode, bit_ofBool, bit_zero, Bool.false_eq_true,
      if_false, if_true, getLsbD_append_lo, getLsbD_append_hi, extract_append_lo, extract_append_hi, extract_all,
      Nat.reduceSub, Nat.sub_self]

theorem decodeMem_encode (mk : Reg → Reg → AddrMode → MemOffset → Instr) (am : AddrMode) {off : MemOffset}
    (h : off.wf = true) : decodeMem (encodeMem op xd xn am off) mk = some (mk xd xn am off) := by
  unfold decodeMem encodeMem
  rw [decodeMemOffset_encode _ h]
  simp (disch := decide) only [decodeAddrMode_encode, extract_append_lo,
    extract_append_hi, extract_all, Nat.reduceSub, Nat.sub_self]

theorem decodeAtm_encode (mk : Reg → Reg → Reg → Instr) : decodeAtm (encodeAtm op xd xn xm) mk = some (mk xd xn xm) := by
  unfold decodeAtm encodeAtm
  simp (disch := decide) only [if_true, extract_append_lo, extract_append_hi,
    extract_all, Nat.reduceSub, Nat.sub_self]

theorem decodeBi_encode (mk : Cond → Word → Instr) (c : Cond) {off : Word} (h : branchOffsetFits off = true) :
    decodeBi (encodeBi op c off) mk = some (mk c off) := by
  have hoff : sext (off.extractLsb' 2 22) * 4#32 = off := beq_iff_eq.1 h
  unfold decodeBi encodeBi
  simp (disch := decide) only [decodeCond_encode, Option.map_some, hoff,
    extract_append_lo, extract_append_hi, extract_all, Nat.sub_self]

theorem decodeBr_encode (mk : Cond → Reg → Instr) (c : Cond) : decodeBr (encodeBr op c xn) mk = some (mk c xn) := by
  unfold decodeBr encodeBr
  simp (disch := decide) only [decodeCond_encode, Option.map_some, if_true,
    extract_append_lo, extract_append_hi, extract_all, Nat.reduceSub, Nat.sub_self]

theorem decodeFp3_encode (mk : Reg → Reg → Reg → Instr) : decodeFp3 (encodeFp3 op xd xn xm) mk = some (mk xd xn xm) := by
  unfold decodeFp3 encodeFp3
  simp (disch := decide) only [bit_zero, Bool.false_eq_true, if_false, if_true, getLsbD_append_lo, getLsbD_append_hi,
    extract_append_lo, extract_append_hi, extract_all, Nat.reduceSub, Nat.sub_self]

theorem decodeFpc_encode (mk : Reg → Reg → Instr) : decodeFpc (encodeFpc op xn xm) mk = some (mk xn xm) := by
  unfold decodeFpc encodeFpc
  simp (disch := decide) only [if_true, extract_append_lo, extract_append_hi,
    extract_all, Nat.reduceSub, Nat.sub_self]

/-- The service number of an encoded swi. -/
theorem zext_encode_swi {imm : Word} (h : zextFits 26 imm = true) :
    zext ((encode (.swi imm)).extractLsb' 0 26) = imm := by
  have hfield : (encode (.swi imm)).extractLsb' 0 26 = imm.extractLsb' 0 26 :=
    (extract_append_lo _ _ _ _ (by decide)).trans (extract_all _)
  rw [hfield, zext_extract h]

end Formats

/-- The opcode field of every instruction's word. -/
theorem encode_opcode (i : Instr) : (encode i).extractLsb' 26 6 = i.opcode := by
  cases i with
  | hlt => decide
  | swi imm => exact (extract_append_hi _ _ _ _ (by decide)).trans (extract_all _)
  | add | sub | rsb | adc | sbc | rsc | mul | and | orr | eor | bic => exact encodeDp_opcode ..
  | lsl | lsr | asr | ror => exact encodeSh_opcode ..
  | cmp | cmn | tst | teq => exact encodeCmp_opcode ..
  | mov | mvn => exact encodeMov_opcode ..
  | ldr | ldrh | ldrb | str | strh | strb => exact encodeMem_opcode ..
  | swp | swph | swpb => exact encodeAtm_opcode ..
  | b | bl => exact encodeBi_opcode ..
  | bx | blx => exact encodeBr_opcode ..
  | vaddF32 | vsubF32 | vmulF32 | vdivF32 => exact encodeFp3_opcode ..
  | vcmpF32 => exact encodeFpc_opcode ..

/-- Decoding gives a well-formed instruction back (30_encoding.md R140). -/
theorem decode_encode {i : Instr} (h : i.wf = true) : decode (encode i) = some i := by
  unfold decode
  rw [encode_opcode]
  cases i with
  | hlt => decide
  | swi imm => exact congrArg (fun v => some (Instr.swi v)) (zext_encode_swi h)
  | add | sub | rsb | adc | sbc | rsc | mul | and | orr | eor | bic => exact decodeDp_encode _ _ _ _ _ h
  | lsl | lsr | asr | ror => exact decodeSh_encode _ _ _ _ _ h
  | cmp | cmn | tst | teq => exact decodeCmp_encode _ _ _ h
  | mov | mvn => exact decodeMov_encode _ _ _ _ h
  | ldr | ldrh | ldrb | str | strh | strb => exact decodeMem_encode _ _ _ _ _ h
  | swp | swph | swpb => exact decodeAtm_encode ..
  | b | bl => exact decodeBi_encode _ _ _ h
  | bx | blx => exact decodeBr_encode ..
  | vaddF32 | vsubF32 | vmulF32 | vdivF32 => exact decodeFp3_encode ..
  | vcmpF32 => exact decodeFpc_encode ..

end Sys2Proof

namespace Sys2Proof.Machine

/-- A ready fetch of four bytes answers their word. -/
theorem State.fetch_ready {s : State} {d : Device} {offs : List Nat} {w : Word} (hok : s.cfg.ok = true)
    (h : AccessReady s s.pc 4 .fetch d offs) (hbytes : offs.map (s.byteAt d) = leBytes 4 w) : s.fetch = .ok w s := by
  have hval : s.valueAt { dev := d, offs := offs } = leWord (offs.map (s.byteAt d)) := rfl
  rw [State.fetch, State.memRead_ready hok (w := .word) h, hval, hbytes, leWord_leBytes_word]

theorem step_of_fetch {s s1 : State} {w : Word} {i : Instr} (hs : s.execState ≠ .halted)
    (hf : s.resume.fetch = .ok w s1) (hi : decode w = some i) : step s = exec i s1 := by
  have hfetched : s.resume.fetchInstr = .instr i s1 := by simp only [State.fetchInstr, State.decodeFetched, hf, hi]
  unfold step
  cases he : s.execState with
  | halted => exact absurd he hs
  | running | faulted => simp only [hfetched]

/-- Settles O7: the ready fetch answers the word, which decodes to the instruction. -/
theorem readyFetchRuns : Obligations.ReadyFetchRuns := by
  intro s i d offs hok hs hwf hready hbytes
  exact ⟨step_of_fetch hs (State.fetch_ready (s := s.resume) hok hready hbytes) (decode_encode hwf), rfl⟩

end Sys2Proof.Machine

/-! Pools, translations, page-ins and copy-on-write breaks: what each does and what it leaves (20_memory.md R86 to R92). -/

namespace Sys2Proof.Machine

/-! ## Frames -/

/-- What no operation of the MMU writes: the parameters, the core, the run and the ROM. -/
structure MmuOnly (s t : State) : Prop where
  cfg : t.cfg = s.cfg
  regs : t.regs = s.regs
  pc : t.pc = s.pc
  flags : t.flags = s.flags
  cycles : t.cycles = s.cycles
  execState : t.execState = s.execState
  lastResult : t.lastResult = s.lastResult
  activeRun : t.activeRun = s.activeRun
  rom : t.rom = s.rom

theorem MmuOnly.refl (s : State) : MmuOnly s s := ⟨rfl, rfl, rfl, rfl, rfl, rfl, rfl, rfl, rfl⟩

theorem MmuOnly.trans {s t u : State} (h : MmuOnly s t) (k : MmuOnly t u) : MmuOnly s u :=
  ⟨k.cfg.trans h.cfg, k.regs.trans h.regs, k.pc.trans h.pc, k.flags.trans h.flags, k.cycles.trans h.cycles,
    k.execState.trans h.execState, k.lastResult.trans h.lastResult, k.activeRun.trans h.activeRun, k.rom.trans h.rom⟩

theorem MmuOnly.control {s t : State} (h : MmuOnly s t) : ControlFrame s t :=
  ⟨⟨fun r => by simp only [State.reg, h.regs], h.flags, h.pc, h.cycles⟩, h.cfg, h.execState, h.lastResult, h.activeRun,
    fun off => by simp only [State.byteAt, State.device, h.rom]⟩

theorem TranslationFrame.control {s t : State} (h : TranslationFrame s t) : ControlFrame s t :=
  have ⟨hcfg, hexec, hlast, _⟩ := h.engine
  ⟨h.core, hcfg, hexec, hlast, h.run, h.rom⟩

theorem TranslationFrame.freeDraws_eq {s t : State} (h : TranslationFrame s t) : t.freeDraws = s.freeDraws :=
  have ⟨_, _, _, hdraws⟩ := h.engine
  hdraws

/-- The same RAM and disk data, with the ROM's, read alike. -/
theorem sameBytes_of_eq {s t : State} (hrom : t.rom = s.rom) (hram : t.ram = s.ram) (hdisk : t.disk = s.disk) :
    SameBytes s t := by
  intro d off
  cases d with
  | rom => simp only [State.byteAt, State.device, hrom]
  | ram => simp only [State.byteAt, State.device, hram]
  | disk => simp only [State.byteAt, State.device, hdisk]

/-! ## Pools as one (20_memory.md R80, R82) -/

/-- The location that page `n` of a pool is. -/
def Pool.loc : Pool → Nat → Loc
  | .user, n => .frame n
  | .kernel, n => .frame n
  | .disk, n => .disk n

theorem MmuWf.pool_sorted {s : State} (h : MmuWf s) (q : Pool) : (s.pool q).Pairwise (· < ·) := by
  cases q with
  | user => exact h.userSorted
  | kernel => exact h.kernelSorted
  | disk => exact h.diskSorted

/-- A pool holds exactly the pages of its range whose count is 0. -/
theorem MmuWf.mem_pool {s : State} (h : MmuWf s) (q : Pool) (n : Nat) :
    n ∈ s.pool q ↔ inPoolRange s.cfg q n = true ∧ s.refOf (q.loc n) = 0 := by
  cases q with
  | user => exact h.userFreeIff n
  | kernel => exact h.kernelFreeIff n
  | disk => exact h.diskFreeIff n

theorem MmuWf.refOf_eq {s : State} (h : MmuWf s) (l : Loc) : s.refOf l = s.refsTo l := by
  cases l with
  | frame f => exact h.frameCounts f
  | disk d => exact h.diskCounts d

/-- A frame pool is neither the disk pool nor the other frame pool. -/
theorem framePool_ne_disk (k : Bool) : framePool k ≠ .disk := by cases k <;> decide

theorem framePool_not_ne (k : Bool) : framePool (!k) ≠ framePool k := by cases k <;> decide

theorem setPool_mmuOnly (s : State) (q : Pool) (free : List Nat) : MmuOnly s (s.setPool q free) := by
  constructor <;> simp

theorem setPool_sameBytes (s : State) (q : Pool) (free : List Nat) : SameBytes s (s.setPool q free) :=
  fun d off => s.setPool_byteAt q free d off

/-! ## allocate_one and return_one (20_memory.md R86, R87) -/

theorem State.allocateOne_empty {s : State} {p : Pool} (h : s.pool p = []) :
    s.allocateOne p = .error (.resourceExhausted p) := by
  unfold State.allocateOne
  rw [h]

theorem State.allocateOne_head {s : State} {p : Pool} {n : Nat} {free : List Nat} (h : s.pool p = n :: free) :
    s.allocateOne p = .ok (n, s.setPool p free) := by
  unfold State.allocateOne
  rw [h]

theorem State.returnOne_outside {s : State} {p : Pool} {n : Nat} (h : inPoolRange s.cfg p n = false) :
    s.returnOne p n = .error .invalidArgument := by
  unfold State.returnOne
  rw [if_neg (by simp [h])]

theorem State.returnOne_free {s : State} {p : Pool} {n : Nat} (h : inPoolRange s.cfg p n = true) (hn : n ∈ s.pool p) :
    s.returnOne p n = .error (.consistencyFault n) := by
  unfold State.returnOne
  rw [if_pos h, if_pos hn]

theorem State.returnOne_taken {s : State} {p : Pool} {n : Nat} (h : inPoolRange s.cfg p n = true) (hn : n ∉ s.pool p) :
    s.returnOne p n = .ok (s.setPool p (sortedInsert (s.pool p) n)) := by
  unfold State.returnOne
  rw [if_pos h, if_neg hn]

/-- Settles O50: a rising pool's head is its lowest page, and the invariant puts every free page in the pool's range. -/
theorem poolOperations : Obligations.PoolOperations := by
  intro s p
  refine ⟨State.allocateOne_empty, fun hi hne => ?_, fun n => ⟨State.returnOne_outside, State.returnOne_free, fun hr hn => ?_⟩⟩
  · obtain ⟨n, free, hp⟩ := List.exists_cons_of_ne_nil hne
    have hsorted := hp ▸ hi.pool_sorted p
    obtain ⟨-, hnfree⟩ := sorted_tail hsorted
    have hmem : n ∈ s.pool p := hp ▸ List.mem_cons_self ..
    refine ⟨n, s.setPool p free, State.allocateOne_head hp, hmem, fun m hm => ?_, ((hi.mem_pool p n).1 hmem).1, fun m => ?_,
      fun q hq => ?_, setPool_sameBytes _ _ _, (setPool_mmuOnly ..).control⟩
    · rcases List.mem_cons.1 (hp ▸ hm) with rfl | hm
      · exact le_rfl
      · exact ((List.pairwise_cons.1 hsorted).1 m hm).le
    · rw [State.pool_setPool, if_pos rfl, hp, List.mem_cons]
      exact ⟨fun hm => ⟨.inr hm, fun h => hnfree (h ▸ hm)⟩, fun h => h.1.resolve_left h.2⟩
    · rw [State.pool_setPool, if_neg hq]
  · refine ⟨_, State.returnOne_taken hr hn, fun m => ?_, fun q hq => ?_, setPool_sameBytes _ _ _, (setPool_mmuOnly ..).control⟩
    · rw [State.pool_setPool, if_pos rfl, mem_sortedInsert]
    · rw [State.pool_setPool, if_neg hq]

/-! ## The decisions of a translation (20_memory.md R90) -/

section Translation

variable {s : State} {p : Nat} {k : AccessKind} {fa : Word} {e : Pte}

theorem State.translate_unmapped (h : s.entry p = none) : s.translate p k fa = .fault (.pageFault fa p k .unmapped) s := by
  unfold State.translate
  rw [h]

theorem State.translate_write_denied (h : s.entry p = some e) (hk : k.writes = true) (hw : e.write = false) :
    s.translate p k fa = .fault (.pageFault fa p k .permission) s := by
  simp [State.translate, h, hk, hw]

theorem State.translate_execute_denied (h : s.entry p = some e) (hk : k = .fetch) (hx : e.execute = false) :
    s.translate p k fa = .fault (.pageFault fa p k .permission) s := by
  subst hk
  simp [State.translate, h, hx]

theorem State.translate_permitted (h : s.entry p = some e) (hw : k.writes = true → e.write = true)
    (hx : k = .fetch → e.execute = true) : s.translate p k fa = s.makeResident p k e := by
  have hwrite : (k.writes && !e.write) = false := by
    cases hk : k.writes with
    | false => rfl
    | true => rw [hw hk]; rfl
  have hexec : (k == .fetch && !e.execute) = false := by
    cases hk : k == AccessKind.fetch with
    | false => rfl
    | true => rw [hx (beq_iff_eq.1 hk)]; rfl
  unfold State.translate
  simp only [h, hwrite, hexec, Bool.false_eq_true, if_false]

theorem State.pageInSlot_empty {kernel : Bool} {d : Nat} (hp : s.pool (framePool kernel) = []) :
    s.pageInSlot kernel d = .error (.resourceExhausted (framePool kernel)) := by
  unfold State.pageInSlot
  rw [State.allocateOne_empty hp]

theorem State.makeResident_disk_empty {d : Nat} (hl : e.loc = .disk d) (hp : s.pool (framePool e.kernel) = []) :
    s.makeResident p k e = .fault (.resourceExhausted (framePool e.kernel)) s := by
  unfold State.makeResident State.bringIn
  simp only [hl, State.pageInSlot_empty hp, mmuFailed]

/-- The copy-on-write break that making a page resident makes, by its outcome. -/
theorem State.makeResident_break {f : Nat} (h : s.entry p = some e) (hl : e.loc = .frame f) (hk : k.writes = true)
    (hc : e.cow = true) :
    (∀ err, s.cowBreak p e f = .error err → s.makeResident p k e = mmuFailed s err) ∧
    ∀ t e' g, s.cowBreak p e f = .ok t → t.entry p = some e' → e'.loc = .frame g → s.makeResident p k e = .ok g t := by
  have hbring : s.bringIn e = .ok s := by unfold State.bringIn; rw [hl]
  have hbreak : s.breakIfCow p k.writes = s.cowBreak p e f := by
    unfold State.breakIfCow
    simp only [h, hl, hk, hc, Bool.and_self, if_true]
  unfold State.makeResident
  simp only [hbring, hbreak]
  refine ⟨fun err herr => by simp only [herr], fun t e' g hok he' hg => ?_⟩
  obtain ⟨_, _, _, _, _⟩ := e'
  cases hg
  simp only [hok, he']

/-! ## The copy-on-write break (20_memory.md R92) -/

theorem State.cowBreak_last {f : Nat} (hf : s.frameRefOf f ≤ 1) : s.cowBreak p e f = .ok (s.setEntry p { e with cow := false }) := by
  unfold State.cowBreak
  rw [if_neg (by omega)]

theorem State.cowBreak_empty {f : Nat} (hf : 1 < s.frameRefOf f) (hp : s.pool (framePool e.kernel) = []) :
    s.cowBreak p e f = .error (.resourceExhausted (framePool e.kernel)) := by
  unfold State.cowBreak
  rw [if_pos hf, State.allocateOne_empty hp]

theorem State.cowBreak_shared {f g : Nat} {free : List Nat} (hf : 1 < s.frameRefOf f)
    (hp : s.pool (framePool e.kernel) = g :: free) : s.cowBreak p e f = .ok (s.broken p e f g free) := by
  unfold State.cowBreak
  rw [if_pos hf, State.allocateOne_head hp]
  simp [State.broken, State.frameRefOf]

theorem State.translate_cow_empty {f : Nat} (h : s.entry p = some e) (hw : e.write = true) (hl : e.loc = .frame f)
    (hk : k.writes = true) (hc : e.cow = true) (hf : 1 < s.frameRefOf f) (hp : s.pool (framePool e.kernel) = []) :
    s.translate p k fa = .fault (.resourceExhausted (framePool e.kernel)) s := by
  rw [State.translate_permitted h (fun _ => hw) (fun hk' => by subst hk'; cases hk),
    (State.makeResident_break h hl hk hc).1 _ (State.cowBreak_empty hf hp)]
  rfl

end Translation

/-- Settles O46. -/
theorem translateDecisions : Obligations.TranslateDecisions := by
  intro s p k fa
  refine ⟨fun hc => State.translate_unmapped (by simp [State.entry, hc]), fun pid hc hn =>
    State.translate_unmapped (State.entry_of_current hc p ▸ hn), fun pid e hc hf => ?_⟩
  have he : s.entry p = some e := State.entry_of_current hc p ▸ hf
  refine ⟨State.translate_write_denied he, State.translate_execute_denied he, fun hw hx =>
    ⟨fun f hl hcow => ?_, fun d hl hp => ?_, fun f hl hk hcow hs hp => ?_, fun f t ht => ?_⟩⟩
  · exact State.translate_resident he hl (fun hk => ⟨hw hk, hcow hk⟩) hx fa
  · rw [State.translate_permitted he hw hx, State.makeResident_disk_empty hl hp]
  · exact State.translate_cow_empty he (hw hk) hl hk hcow hs hp
  · obtain ⟨e', he', hl', hw', -⟩ := State.translate_makes_resident ht
    exact ⟨e', he', hl', fun hk => (hw' hk).2⟩

/-! ## The effect of a page-in (20_memory.md R91) -/

theorem currentFor_of_lt {s : State} {p pid : Nat} (hc : s.current = some pid) (hp : p < s.cfg.vpages) :
    s.currentFor p = some pid := by rw [State.currentFor, if_pos hp, hc]

/-- The valid entries of the current process lie in the window. -/
theorem MmuWf.currentFor_of_entry {s : State} (hi : MmuWf s) {p pid : Nat} {e : Pte} (hc : s.current = some pid)
    (he : s.entry p = some e) : s.currentFor p = some pid :=
  currentFor_of_lt hc (hi.pagesInWindow _ (mem_entries_of_entry he))

section PageIn

variable {s : State} {kernel : Bool} {d f : Nat} {free : List Nat}

theorem State.pagedIn_pool_own : (s.pagedIn kernel d f free).pool (framePool kernel) = free := by
  cases kernel <;> simp [State.pagedIn, State.paged, State.pool, framePool, State.setPool]

theorem State.pagedIn_pool_other : (s.pagedIn kernel d f free).pool (framePool !kernel) = s.pool (framePool !kernel) := by
  cases kernel <;> simp [State.pagedIn, State.paged, State.pool, framePool, State.setPool]

theorem State.pagedIn_frameRefOf (g : Nat) :
    (s.pagedIn kernel d f free).frameRefOf g = if g = f then s.diskRefOf d else s.frameRefOf g := by
  rw [State.pagedIn_relocate]
  exact s.pageAround_frameRefOf kernel d f free g

theorem State.pagedIn_diskRefOf (x : Nat) :
    (s.pagedIn kernel d f free).diskRefOf x = if x = d then 0 else s.diskRefOf x := by
  rw [State.pagedIn_relocate]
  exact s.pageAround_diskRefOf kernel d f free x

theorem State.pagedIn_diskFree : (s.pagedIn kernel d f free).diskFree = sortedInsert s.diskFree d :=
  State.setPool_disk_diskFree _ _

/-- A page copied into frame `g` stands there. -/
theorem read_copy_frame {m src : Memory} {ps g lo o : Nat} (ho : o < ps) :
    (m.copy (g * ps) ps src lo).read (g * ps + o) = src.read (lo + o) := by
  rw [Memory.read_copy, if_pos ⟨by omega, by omega⟩]
  congr 1
  omega

theorem State.pagedIn_pageByte {o : Nat} (ho : o < s.cfg.pageSize) :
    (s.pagedIn kernel d f free).pageByte (.frame f) o = s.pageByte (.disk d) o := by
  simp only [State.pageByte, State.byteAt, State.device, State.pagedIn_ram, State.pagedIn_cfg]
  exact read_copy_frame ho

theorem State.pagedIn_byteAt_ram {off : Nat} (h : off / s.cfg.pageSize ≠ f) :
    (s.pagedIn kernel d f free).byteAt .ram off = s.byteAt .ram off := by
  simp only [State.byteAt, State.device, State.pagedIn_ram]
  exact read_copy_ne_frame h

end PageIn

/-- Settles O47. -/
theorem pageInEffect : Obligations.PageInEffect := by
  intro s p pid e d hi hc he hl
  have hin : s.pageIn p = s.pageInSlot e.kernel d := by
    simp only [State.pageIn, hi.mmu.currentFor_of_entry hc he, he, State.bringIn, hl]
  rw [hin]
  refine ⟨State.pageInSlot_empty, fun f rest hp => ?_⟩
  have hok := State.pageInSlot_answers hi.mmu (mem_entries_of_entry he) hl hp
  have hframe := State.pageInSlot_frame hok
  refine ⟨_, hok, hframe.control, State.pagedIn_pool_own, State.pagedIn_pool_other, fun o ho => State.pagedIn_pageByte ho,
    fun off hoff => State.pagedIn_byteAt_ram hoff, hframe.disk, State.find_pagedIn s e.kernel d f rest, ?_, ?_, fun g hg => ?_,
    fun x hx => ?_, fun x => ?_, hframe.processes, hframe.freeDraws_eq⟩
  · rw [State.pagedIn_frameRefOf, if_pos rfl]
  · rw [State.pagedIn_diskRefOf, if_pos rfl]
  · rw [State.pagedIn_frameRefOf, if_neg hg]
  · rw [State.pagedIn_diskRefOf, if_neg hx]
  · rw [State.pagedIn_diskFree, mem_sortedInsert]

/-! ## The effect of a copy-on-write break (20_memory.md R92) -/

/-- The current process's entry that was just written. -/
theorem State.entry_setEntry_same {s : State} {pid : Nat} (hc : s.current = some pid) (p : Nat) (e : Pte) :
    (s.setEntry p e).entry p = some e := by
  rw [State.entry_of_current (pid := pid) (by simpa using hc), State.find_setEntry, if_pos ⟨hc, rfl⟩]

/-- Writing an entry of the current process changes no other entry. -/
theorem sameEntriesBut_setEntry {s u : State} {pid : Nat} (hc : u.current = some pid) (hprocs : u.procs = s.procs) (p : Nat)
    (e : Pte) : SameEntriesBut s (u.setEntry p e) pid p := by
  intro pid' p' hne
  rw [State.find_setEntry, if_neg]
  · rw [State.table, hprocs]; rfl
  · rintro ⟨hc', rfl⟩
    rw [hc] at hc'
    cases hc'
    exact hne rfl

section Broken

variable {s : State} {p : Nat} {e : Pte} {f g : Nat} {free : List Nat}

theorem State.broken_eq : s.broken p e f g free =
    (s.breakAround e.kernel f g free).setEntry p { e with loc := .frame g, cow := false } := rfl

theorem State.broken_pool_own : (s.broken p e f g free).pool (framePool e.kernel) = free := by
  rw [State.broken_eq]
  cases e.kernel <;> simp [State.breakAround, State.pool, framePool, State.setPool]

theorem State.broken_pool_other : (s.broken p e f g free).pool (framePool !e.kernel) = s.pool (framePool !e.kernel) := by
  rw [State.broken_eq]
  cases e.kernel <;> simp [State.breakAround, State.pool, framePool, State.setPool]

theorem State.broken_diskFree : (s.broken p e f g free).diskFree = s.diskFree := by
  rw [State.broken_eq]
  cases e.kernel <;> simp [State.breakAround, framePool, State.setPool]

theorem State.broken_frameRefOf (h : Nat) : (s.broken p e f g free).frameRefOf h =
    if h = g then 1 else if h = f then s.frameRefOf f - 1 else s.frameRefOf h := by
  rw [← s.breakAround_frameRefOf e.kernel f g free h, State.broken_eq, State.frameRefOf, State.setEntry_frameRef]
  rfl

theorem State.broken_ram : (s.broken p e f g free).ram =
    s.ram.copy (g * s.cfg.pageSize) s.cfg.pageSize s.ram (f * s.cfg.pageSize) := by simp [State.broken]

end Broken

/-- Settles O48: the break of the last reference clears the cow bit, and one of a shared page takes the pool's head. -/
theorem cowBreakEffect : Obligations.CowBreakEffect := by
  intro s p pid k fa e f hi hk hc he hl hw hcow
  have htranslate : s.translate p k fa = s.makeResident p k e :=
    State.translate_permitted he (fun _ => hw) fun hk' => by subst hk'; cases hk
  obtain ⟨-, hmade⟩ := State.makeResident_break (k := k) he hl hk hcow
  refine ⟨fun hone => ?_, fun hs hp => State.translate_cow_empty he hw hl hk hcow hs hp, fun hs g rest hp => ?_⟩
  · have hbreak := State.cowBreak_last (p := p) (e := e) hone.le
    have hframe := State.cowBreak_frame he hbreak
    have hentry := State.entry_setEntry_same hc p { e with cow := false }
    exact ⟨_, htranslate.trans (hmade _ _ _ hbreak hentry hl), hframe.control, hframe.processes, hframe.freeDraws_eq,
      fun d off => by simp, hentry, sameEntriesBut_setEntry hc rfl p _, by simp, by simp, by simp, by simp, by simp⟩
  · have hbreak := State.cowBreak_shared (p := p) hs hp
    have hframe := State.cowBreak_frame he hbreak
    have hentry : (s.broken p e f g rest).entry p = some { e with loc := .frame g, cow := false } :=
      State.entry_setEntry_same (by simpa using hc) p _
    have hgf : f ≠ g := by
      rintro rfl
      have := (head_of_pool hi.mmu hp).2
      omega
    refine ⟨_, htranslate.trans (hmade _ _ _ hbreak hentry rfl), hframe.control, hframe.processes, hframe.freeDraws_eq, hentry,
      sameEntriesBut_setEntry (by simpa using hc) (by simp) p _, State.broken_pool_own, State.broken_pool_other,
      State.broken_diskFree, by simp [State.broken], ?_, ?_, fun h hf hg => ?_, fun o ho => ?_, fun off hoff => ?_, hframe.disk⟩
    · rw [State.broken_frameRefOf, if_neg hgf, if_pos rfl]
    · rw [State.broken_frameRefOf, if_pos rfl]
    · rw [State.broken_frameRefOf, if_neg hg, if_neg hf]
    · simp only [State.pageByte, State.byteAt, State.device, State.broken_ram, hframe.engine.1]
      exact read_copy_frame ho
    · simp only [State.byteAt, State.device, State.broken_ram]
      exact read_copy_ne_frame hoff

end Sys2Proof.Machine

/-! The control operations on one page: add_vpage, release and remove_vpage (20_memory.md R88, R93, R94). -/

namespace Sys2Proof.Machine

/-! ## The invariant after an operation of the MMU -/

theorem MmuOnly.inv {s t : State} (hi : Inv s) (h : MmuOnly s t) (hram : t.ram.wf) (hramIn : t.ram.inside s.cfg.ramSize)
    (hdisk : t.disk.wf) (hdiskIn : t.disk.inside (s.cfg.diskPages * s.cfg.pageSize)) (hmmu : MmuWf t) : Inv t where
  cfgOk := h.cfg ▸ hi.cfgOk
  memory := ⟨h.rom ▸ hi.memory.romWf, hram, hdisk, h.cfg ▸ h.rom ▸ hi.memory.romInside, h.cfg ▸ hramIn, h.cfg ▸ hdiskIn⟩
  mmu := hmmu
  engine := fun hrun => h.execState.trans (hi.engine (h.activeRun ▸ hrun))

theorem MmuOnly.inv_sameData {s t : State} (hi : Inv s) (h : MmuOnly s t) (hram : t.ram = s.ram) (hdisk : t.disk = s.disk)
    (hmmu : MmuWf t) : Inv t :=
  h.inv hi (hram ▸ hi.memory.ramWf) (hram ▸ hi.memory.ramInside) (hdisk ▸ hi.memory.diskWf) (hdisk ▸ hi.memory.diskInside) hmmu

/-! ## The current process's pages -/

theorem currentFor_eq_none {s : State} {p : Nat} (h : s.current = none ∨ s.cfg.vpages ≤ p) : s.currentFor p = none := by
  unfold State.currentFor
  split
  · exact h.resolve_right (by omega)
  · rfl

theorem currentFor_eq_some {s : State} {p pid : Nat} (h : s.currentFor p = some pid) :
    p < s.cfg.vpages ∧ s.current = some pid := by
  unfold State.currentFor at h
  split at h
  · exact ⟨‹_›, h⟩
  · cases h

/-- Writing one table of a live process changes no process. -/
theorem live_setTable_of_live {s : State} {pid : Nat} (h : s.live pid = true) (t : PageTable) (pid' : Nat) :
    (s.setTable pid t).live pid' = s.live pid' := by
  rw [State.live_setTable]
  split
  · next he => rw [he, h]
  · rfl

theorem sameProcesses_setEntry {s u : State} (hi : MmuWf s) (hprocs : u.procs = s.procs) (hcur : u.current = s.current)
    (hnext : u.nextPid = s.nextPid) (p : Nat) (e : Pte) : SameProcesses s (u.setEntry p e) := by
  refine ⟨by simpa using hcur, by simpa using hnext, fun pid' => ?_⟩
  have hlive : ∀ q, u.live q = s.live q := fun q => by rw [State.live, hprocs, State.live]
  unfold State.setEntry
  split
  · exact hlive pid'
  · next pid hc => rw [live_setTable_of_live (by rw [hlive]; exact hi.currentLive pid (hcur ▸ hc)), hlive]

/-! ## add_vpage (20_memory.md R93) -/

/-- The state around the entry that add_vpage writes. -/
def State.addAround (s : State) (kernel : Bool) (f : Nat) (free : List Nat) : State :=
  ((s.setPool (framePool kernel) free).fillFresh f).setFrameRef f 1

/-- The state add_vpage leaves. -/
def State.added (s : State) (p : Nat) (kernel write execute cow : Bool) (f : Nat) (free : List Nat) : State :=
  (s.addAround kernel f free).setEntry p
    { loc := .frame f, write := write, execute := execute, kernel := kernel, cow := cow }

theorem outside_frame {ps f off : Nat} (h : off / ps ≠ f) : ¬ (f * ps ≤ off ∧ off < f * ps + ps) :=
  fun ⟨hlo, hhi⟩ => h (Nat.div_eq_of_lt_le hlo (by rwa [Nat.add_mul, Nat.one_mul]))

/-- Filling a fresh frame writes its bytes only, and keeps the RAM's form. -/
theorem State.fillFresh_ram (s : State) (f : Nat) :
    (∀ off, off / s.cfg.pageSize ≠ f → (s.fillFresh f).ram.read off = s.ram.read off) ∧
    (s.ram.wf → (s.fillFresh f).ram.wf) ∧
    (s.ram.inside s.cfg.ramSize → f * s.cfg.pageSize + s.cfg.pageSize ≤ s.cfg.ramSize →
      (s.fillFresh f).ram.inside s.cfg.ramSize) := by
  unfold State.fillFresh
  split
  · exact ⟨fun off h => by rw [Memory.read_clear, if_neg (outside_frame h)], fun h => Memory.clear_wf h _ _,
      fun h _ => Memory.clear_inside h _ _⟩
  · exact ⟨fun off h => by rw [Memory.read_fill, if_neg (outside_frame h)], fun h => Memory.fill_wf h _ _ _,
      fun h hf => Memory.fill_inside h hf _⟩

/-- Under zero fill no free value is drawn and the frame's bytes are 0. -/
theorem State.fillFresh_zero (s : State) (f : Nat) (h : s.cfg.freshFill = .zero) :
    (s.fillFresh f).freeDraws = s.freeDraws ∧
    ∀ o < s.cfg.pageSize, (s.fillFresh f).ram.read (f * s.cfg.pageSize + o) = 0#8 := by
  unfold State.fillFresh
  simp only [h, true_and]
  intro o ho
  rw [Memory.read_clear, if_pos ⟨by omega, by omega⟩]
  rfl

section Add

variable {s : State} {p : Nat} {kernel write execute cow : Bool} {f : Nat} {free : List Nat}

theorem State.addAround_same (s : State) (kernel : Bool) (f : Nat) (free : List Nat) :
    (s.addAround kernel f free).procs = s.procs ∧ (s.addAround kernel f free).current = s.current ∧
    (s.addAround kernel f free).nextPid = s.nextPid ∧ (s.addAround kernel f free).diskRef = s.diskRef ∧
    (s.addAround kernel f free).diskFree = s.diskFree ∧ (s.addAround kernel f free).disk = s.disk := by
  refine ⟨by simp [State.addAround], by simp [State.addAround], by simp [State.addAround], by simp [State.addAround], ?_,
    by simp [State.addAround]⟩
  cases kernel <;> simp [State.addAround, State.setPool, framePool]

theorem State.added_mmuOnly : MmuOnly s (s.added p kernel write execute cow f free) := by
  constructor <;> simp [State.added, State.addAround]

theorem State.added_pool_own : (s.added p kernel write execute cow f free).pool (framePool kernel) = free := by
  cases kernel <;> simp [State.added, State.addAround, State.pool, framePool, State.setPool]

theorem State.added_pool_other :
    (s.added p kernel write execute cow f free).pool (framePool !kernel) = s.pool (framePool !kernel) := by
  cases kernel <;> simp [State.added, State.addAround, State.pool, framePool, State.setPool]

theorem State.addAround_frameRefOf (g : Nat) :
    (s.addAround kernel f free).frameRefOf g = if g = f then 1 else s.frameRefOf g := by
  unfold State.addAround
  rw [State.frameRefOf_setFrameRef]
  simp [State.frameRefOf]

theorem State.added_frameRefOf (g : Nat) :
    (s.added p kernel write execute cow f free).frameRefOf g = if g = f then 1 else s.frameRefOf g := by
  rw [← State.addAround_frameRefOf (kernel := kernel) (free := free), State.added, State.frameRefOf, State.setEntry_frameRef]
  rfl

theorem State.added_ram : (s.added p kernel write execute cow f free).ram =
    ((s.setPool (framePool kernel) free).fillFresh f).ram := by simp [State.added, State.addAround]

theorem State.added_freeDraws : (s.added p kernel write execute cow f free).freeDraws =
    ((s.setPool (framePool kernel) free).fillFresh f).freeDraws := by simp [State.added, State.addAround]

theorem added_mmuWf (hok : s.cfg.ok = true) (hi : MmuWf s) {pid : Nat} (hc : s.current = some pid) (hp : p < s.cfg.vpages)
    (hn : s.entry p = none) (hpool : s.pool (framePool kernel) = f :: free) :
    MmuWf (s.added p kernel write execute cow f free) := by
  obtain ⟨hr, hz⟩ := head_of_pool hi hpool
  obtain ⟨hprocs, hcur, hnext, hdref, hdfree, -⟩ := s.addAround_same kernel f free
  have hcfg : (s.addAround kernel f free).cfg = s.cfg := by simp [State.addAround]
  obtain ⟨hus, hks, hu, hk⟩ := taken_pools (u := s.addAround kernel f free) hi hok hpool (by simp [State.addAround])
    (by simp [State.addAround]) (by rw [State.addAround_frameRefOf, if_pos rfl]; omega)
    (fun g hg => by rw [State.addAround_frameRefOf, if_neg hg])
  have hfref : (s.addAround kernel f free).frameRef = assocSet 0 s.frameRef f 1 := by simp [State.addAround]
  refine mmuWf_setEntry hi hprocs hcur hnext hcfg hc hp (hfref ▸ assocSet_wf hi.frameRefWf _ _) (hdref ▸ hi.diskRefWf)
    (fun l => ?_) hus hks (hdfree ▸ hi.diskSorted) hu hk (fun d => ?_) (fun g hg => ?_) nofun (fun x hx hl => ?_)
  · simp only [State.oldAt, hn]
    cases l with
    | frame g =>
      simp only [State.refOf, State.addAround_frameRefOf, Loc.frame.injEq]
      by_cases hg : g = f
      · subst hg; simp [hz]
      · simp [hg, Ne.symm hg]
    | disk d => simp [State.refOf, State.diskRefOf, hdref]
  · rw [hdfree, State.diskRefOf, hdref]
    exact hi.diskFreeIff d
  · cases hg; exact hr
  · have hpos := refsTo_pos hx
    rw [hl, ← hi.frameCounts] at hpos
    omega

theorem added_inv (hi : Inv s) {pid : Nat} (hc : s.current = some pid) (hp : p < s.cfg.vpages)
    (hn : s.entry p = none) (hpool : s.pool (framePool kernel) = f :: free) :
    Inv (s.added p kernel write execute cow f free) := by
  obtain ⟨-, -, -, -, -, hdisk⟩ := s.addAround_same kernel f free
  have hdisk' : (s.added p kernel write execute cow f free).disk = s.disk := by simpa [State.added] using hdisk
  obtain ⟨-, hwf, hinside⟩ := (s.setPool (framePool kernel) free).fillFresh_ram f
  have hframe := frame_inside hi.cfgOk (pool_frame_lt hi.cfgOk (head_of_pool hi.mmu hpool).1)
  simp only [State.setPool_cfg, State.setPool_ram] at hwf hinside
  exact State.added_mmuOnly.inv hi (State.added_ram ▸ hwf hi.memory.ramWf)
    (State.added_ram ▸ hinside hi.memory.ramInside hframe) (hdisk' ▸ hi.memory.diskWf) (hdisk' ▸ hi.memory.diskInside)
    (added_mmuWf hi.cfgOk hi.mmu hc hp hn hpool)

theorem addVpage_inv {t : State} (hi : Inv s) (h : s.addVpage p kernel write execute cow = .ok t) : Inv t := by
  unfold State.addVpage at h
  split at h
  · cases h
  · next hcf =>
    obtain ⟨hp, hc⟩ := currentFor_eq_some hcf
    split at h
    · cases h
    · next hn =>
      split at h
      · cases h
      · next ha =>
        obtain ⟨free, hpool, rfl⟩ := State.allocateOne_ok ha
        cases h
        exact added_inv hi hc hp hn hpool

end Add

/-- Settles O51. -/
theorem addVpageEffect : Obligations.AddVpageEffect := by
  intro s p kernel write execute cow hi
  refine ⟨fun h => by rw [State.addVpage, currentFor_eq_none h], fun pid hc hp => ?_⟩
  have hcf := currentFor_of_lt hc hp
  refine ⟨fun e he => by rw [State.addVpage, hcf, he], fun hn hpool => ?_, fun hn f rest hpool => ?_⟩
  · simp only [State.addVpage, hcf, hn, State.allocateOne_empty hpool]
  · obtain ⟨hprocs, hcur, hnext, hdref, hdfree, hdisk⟩ := s.addAround_same kernel f rest
    obtain ⟨hram, -, -⟩ := (s.setPool (framePool kernel) rest).fillFresh_ram f
    simp only [State.setPool_cfg, State.setPool_ram] at hram
    refine ⟨s.added p kernel write execute cow f rest, ?_, State.added_mmuOnly.control,
      sameProcesses_setEntry hi.mmu hprocs hcur hnext p _, State.entry_setEntry_same (hcur.trans hc) p _,
      sameEntriesBut_setEntry (hcur.trans hc) hprocs p _, State.added_pool_own, State.added_pool_other,
      by simpa [State.added] using hdfree, ?_, fun g hg => ?_, by simpa [State.added] using hdref, fun hfill => ?_,
      fun off hoff => ?_, fun off => ?_⟩
    · simp only [State.addVpage, hcf, hn, State.allocateOne_head hpool]
      rfl
    · rw [State.added_frameRefOf, if_pos rfl]
    · rw [State.added_frameRefOf, if_neg hg]
    · obtain ⟨hdraws, hzero⟩ := (s.setPool (framePool kernel) rest).fillFresh_zero f (by simpa using hfill)
      simp only [State.setPool_cfg, State.setPool_freeDraws] at hdraws hzero
      refine ⟨State.added_freeDraws.trans hdraws, fun o ho => ?_⟩
      simp only [State.pageByte, State.byteAt, State.device, State.added_ram, State.added_mmuOnly.cfg]
      exact hzero o ho
    · simp only [State.byteAt, State.device, State.added_ram]
      exact hram off hoff
    · simp only [State.byteAt, State.device, State.added, State.setEntry_disk, hdisk]

/-! ## release (20_memory.md R88) -/

/-- The pool of a location, for an entry whose frames come from the user or the kernel pool. -/
def Loc.pool (kernel : Bool) : Loc → Pool
  | .frame _ => framePool kernel
  | .disk _ => .disk

theorem Loc.loc_pool (kernel : Bool) (l : Loc) : (l.pool kernel).loc l.number = l := by
  cases l with
  | frame f => cases kernel <;> rfl
  | disk d => rfl

theorem Pool.loc_inj {q : Pool} {m n : Nat} : q.loc m = q.loc n ↔ m = n := by
  cases q <;> simp [Pool.loc]

/-- The count of a location set to `n`. -/
def State.setRef (s : State) : Loc → Nat → State
  | .frame f, n => s.setFrameRef f n
  | .disk d, n => s.setDiskRef d n

theorem State.refOf_setRef (s : State) (l : Loc) (n : Nat) (l' : Loc) :
    (s.setRef l n).refOf l' = if l' = l then n else s.refOf l' := by
  cases l with
  | frame f =>
    cases l' with
    | frame g => simpa [State.refOf, State.setRef] using s.frameRefOf_setFrameRef f n g
    | disk d => simp [State.refOf, State.setRef, State.diskRefOf]
  | disk d =>
    cases l' with
    | frame f => simp [State.refOf, State.setRef, State.frameRefOf]
    | disk x => simpa [State.refOf, State.setRef] using s.diskRefOf_setDiskRef d n x

theorem State.setRef_pool (s : State) (l : Loc) (n : Nat) (q : Pool) : (s.setRef l n).pool q = s.pool q := by
  cases l <;> cases q <;> rfl

/-- The state that dropping one reference leaves: at the last one the page is back in its pool. -/
def State.released (s : State) (kernel : Bool) (l : Loc) : State :=
  if s.refOf l ≤ 1 then
    (s.setRef l (s.refOf l - 1)).setPool (l.pool kernel) (sortedInsert (s.pool (l.pool kernel)) l.number)
  else s.setRef l (s.refOf l - 1)

theorem poolOfFrame_eq {cfg : Params} (hok : cfg.ok = true) {kernel : Bool} {f : Nat}
    (hr : inPoolRange cfg (framePool kernel) f = true) : poolOfFrame cfg f = some (framePool kernel) := by
  have hother := pool_ranges_disjoint hok hr
  unfold poolOfFrame
  cases kernel with
  | false => rw [if_pos (by exact hr)]; rfl
  | true => rw [if_neg (by rw [show inPoolRange cfg .user f = false from hother]; decide), if_pos (by exact hr)]; rfl

/-- Releasing a page of its pool's range that is not free answers. -/
theorem State.release_eq {s : State} (hok : s.cfg.ok = true) {kernel : Bool} {l : Loc}
    (hr : inPoolRange s.cfg (l.pool kernel) l.number = true) (hn : l.number ∉ s.pool (l.pool kernel)) :
    s.release l = .ok (s.released kernel l) := by
  have hcount : (s.setRef l (s.refOf l - 1)).refOf l = s.refOf l - 1 := by rw [State.refOf_setRef, if_pos rfl]
  have hreturn : (s.setRef l (s.refOf l - 1)).returnOne (l.pool kernel) l.number =
      .ok ((s.setRef l (s.refOf l - 1)).setPool (l.pool kernel) (sortedInsert (s.pool (l.pool kernel)) l.number)) := by
    rw [← s.setRef_pool l (s.refOf l - 1) (l.pool kernel)]
    exact State.returnOne_taken (by cases l <;> simpa [State.setRef] using hr) (by rwa [State.setRef_pool])
  have hcond : s.refOf l ≤ 1 ↔ s.refOf l - 1 = 0 := by omega
  have hrelease : s.release l = if s.refOf l - 1 = 0 then (s.setRef l (s.refOf l - 1)).returnOne (l.pool kernel) l.number
      else .ok (s.setRef l (s.refOf l - 1)) := by
    cases l with
    | frame f =>
      have hpool : poolOfFrame (s.setFrameRef f (s.frameRefOf f - 1)).cfg f = some (framePool kernel) := poolOfFrame_eq hok hr
      simp only [State.refOf, State.setRef] at hcount
      simp only [State.release, State.returnFrame, hpool, State.refOf, State.setRef, hcount]
      rfl
    | disk d =>
      simp only [State.refOf, State.setRef] at hcount
      simp only [State.release, State.refOf, State.setRef, hcount]
      rfl
  rw [hrelease, hreturn, State.released]
  simp only [hcond]
  split <;> rfl

section Released

variable (s : State) (kernel : Bool) (l : Loc)

theorem State.released_mmuOnly : MmuOnly s (s.released kernel l) := by
  unfold State.released
  split <;> cases l <;> constructor <;> simp [State.setRef]

theorem State.released_same : (s.released kernel l).procs = s.procs ∧ (s.released kernel l).current = s.current ∧
    (s.released kernel l).nextPid = s.nextPid ∧ (s.released kernel l).ram = s.ram ∧ (s.released kernel l).disk = s.disk ∧
    (s.released kernel l).freeDraws = s.freeDraws := by
  unfold State.released
  split <;> cases l <;> simp [State.setRef]

theorem State.released_refOf (l' : Loc) :
    (s.released kernel l).refOf l' = if l' = l then s.refOf l - 1 else s.refOf l' := by
  rw [← State.refOf_setRef]
  unfold State.released
  split
  · cases l' <;> simp [State.refOf, State.frameRefOf, State.diskRefOf]
  · rfl

theorem State.released_pool (q : Pool) : (s.released kernel l).pool q =
    if s.refOf l ≤ 1 ∧ q = l.pool kernel then sortedInsert (s.pool q) l.number else s.pool q := by
  unfold State.released
  by_cases hl : s.refOf l ≤ 1
  · rw [if_pos hl, State.pool_setPool, State.setRef_pool]
    by_cases hq : q = l.pool kernel
    · rw [if_pos hq, if_pos ⟨hl, hq⟩, hq]
    · rw [if_neg hq, if_neg fun h => hq h.2]
  · rw [if_neg hl, State.setRef_pool, if_neg fun h => hl h.1]

theorem State.released_refs (hi : MmuWf s) :
    assocWf 0 (s.released kernel l).frameRef ∧ assocWf 0 (s.released kernel l).diskRef := by
  unfold State.released
  split <;> cases l <;>
    simp only [State.setRef, State.setPool_frameRef, State.setPool_diskRef, State.setFrameRef_frameRef, State.setFrameRef_diskRef,
      State.setDiskRef_frameRef, State.setDiskRef_diskRef]
  · exact ⟨assocSet_wf hi.frameRefWf _ _, hi.diskRefWf⟩
  · exact ⟨hi.frameRefWf, assocSet_wf hi.diskRefWf _ _⟩
  · exact ⟨assocSet_wf hi.frameRefWf _ _, hi.diskRefWf⟩
  · exact ⟨hi.frameRefWf, assocSet_wf hi.diskRefWf _ _⟩

end Released

/-- A page's pool is the only one whose range holds it. -/
theorem pool_eq_of_loc {cfg : Params} (hok : cfg.ok = true) {kernel : Bool} {q : Pool} {n : Nat}
    (hr : inPoolRange cfg ((q.loc n).pool kernel) (q.loc n).number = true) (hq : inPoolRange cfg q n = true) :
    q = (q.loc n).pool kernel := by
  cases q with
  | disk => rfl
  | user =>
    cases kernel with
    | false => rfl
    | true => exact absurd hq (Bool.eq_false_iff.1 (pool_ranges_disjoint hok (k := true) hr))
  | kernel =>
    cases kernel with
    | false => exact absurd hq (Bool.eq_false_iff.1 (pool_ranges_disjoint hok (k := false) hr))
    | true => rfl

/-- Each pool, after one reference to a page of its pool's range is dropped, holds exactly its free pages. -/
theorem State.released_pools {s : State} (hok : s.cfg.ok = true) (hi : MmuWf s) {kernel : Bool} {l : Loc}
    (hr : inPoolRange s.cfg (l.pool kernel) l.number = true) (hpos : 0 < s.refOf l) (q : Pool) :
    ((s.released kernel l).pool q).Pairwise (· < ·) ∧
    ∀ n, n ∈ (s.released kernel l).pool q ↔ inPoolRange s.cfg q n = true ∧ (s.released kernel l).refOf (q.loc n) = 0 := by
  rw [State.released_pool]
  constructor
  · split
    · exact sortedInsert_pairwise (hi.pool_sorted q) _
    · exact hi.pool_sorted q
  · intro n
    rw [State.released_refOf]
    by_cases hl : q.loc n = l
    · have hmem : n ∉ s.pool q := fun hn => by
        have := ((hi.mem_pool q n).1 hn).2
        rw [hl] at this; omega
      rw [if_pos hl]
      by_cases hq : q = l.pool kernel
      · have hn : n = l.number := Pool.loc_inj.1 ((hq ▸ hl).trans (l.loc_pool kernel).symm)
        subst hq hn
        by_cases h1 : s.refOf l ≤ 1
        · rw [if_pos ⟨h1, rfl⟩, mem_sortedInsert]
          exact ⟨fun _ => ⟨hr, by omega⟩, fun _ => .inl rfl⟩
        · rw [if_neg fun h => h1 h.1]
          exact ⟨fun h => absurd h hmem, fun h => by omega⟩
      · rw [if_neg fun h => hq h.2]
        subst hl
        exact ⟨fun h => absurd h hmem, fun h => absurd (pool_eq_of_loc hok hr h.1) hq⟩
    · rw [if_neg hl, ← hi.mem_pool]
      split
      · next h =>
        rw [mem_sortedInsert]
        refine ⟨fun hn => hn.resolve_left fun hn => hl ?_, .inr⟩
        rw [hn, h.2, Loc.loc_pool]
      · rfl

/-! ## Removing an entry (20_memory.md R94) -/

/-- The state that removing the valid entry `e` of page `p` of process `pid` leaves. -/
def State.withoutEntry (s : State) (pid p : Nat) (e : Pte) : State :=
  (s.released e.kernel e.loc).setTable pid (assocDel (s.table pid) p)

theorem State.setTable_refOf (s : State) (pid : Nat) (t : PageTable) (l : Loc) : (s.setTable pid t).refOf l = s.refOf l := by
  cases l <;> rfl

theorem State.setTable_pool (s : State) (pid : Nat) (t : PageTable) (q : Pool) : (s.setTable pid t).pool q = s.pool q := by
  cases q <;> rfl

theorem State.released_setTable (s : State) (pid : Nat) (t : PageTable) (kernel : Bool) (l : Loc) :
    (s.setTable pid t).released kernel l = (s.released kernel l).setTable pid t := by
  unfold State.released
  rw [State.setTable_refOf, State.setTable_pool]
  split
  · cases l with
    | frame f => cases kernel <;> rfl
    | disk d => rfl
  · cases l <;> rfl

section Remove

variable {s : State} {pid p : Nat} {e : Pte}

/-- A valid entry's page is in its pool's range and has a reference, so it is not free. -/
theorem MmuWf.page_taken (hi : MmuWf s) {x : Nat × Pte} (hx : x ∈ s.entries) :
    inPoolRange s.cfg (x.2.loc.pool x.2.kernel) x.2.loc.number = true ∧ 0 < s.refOf x.2.loc ∧
    x.2.loc.number ∉ s.pool (x.2.loc.pool x.2.kernel) := by
  have hpos : 0 < s.refOf x.2.loc := hi.refOf_eq _ ▸ refsTo_pos hx
  refine ⟨?_, hpos, fun hn => ?_⟩
  · cases hl : x.2.loc with
    | frame f => exact hi.framesOfPool x hx f hl
    | disk d => exact hi.slotsInRange x hx d hl
  · have hzero := ((hi.mem_pool _ _).1 hn).2
    rw [Loc.loc_pool] at hzero
    omega

theorem State.removeEntryOf_none (h : assocFind (s.table pid) p = none) : s.removeEntryOf pid p = .ok s := by
  unfold State.removeEntryOf
  rw [h]

theorem State.removeEntryOf_some (hok : s.cfg.ok = true) (hi : MmuWf s) (he : assocFind (s.table pid) p = some e) :
    s.removeEntryOf pid p = .ok (s.withoutEntry pid p e) := by
  obtain ⟨hr, -, hn⟩ := hi.page_taken (mem_entries_of_find he)
  unfold State.removeEntryOf
  simp only [he]
  rw [State.release_eq (s := s.setTable pid _) hok hr (by rwa [State.setTable_pool]), State.released_setTable]
  rfl

theorem withoutEntry_mmuWf (hok : s.cfg.ok = true) (hi : MmuWf s) (he : assocFind (s.table pid) p = some e) :
    MmuWf (s.withoutEntry pid p e) := by
  obtain ⟨hr, hpos, -⟩ := hi.page_taken (mem_entries_of_find he)
  obtain ⟨hprocs, hcur, hnext, -, -, -⟩ := s.released_same e.kernel e.loc
  obtain ⟨hfw, hdw⟩ := s.released_refs e.kernel e.loc hi
  have hpools := State.released_pools hok hi hr hpos
  refine mmuWf_removeEntry hi hprocs hcur hnext (s.released_mmuOnly _ _).cfg he hfw hdw (fun l => ?_) (hpools .user).1
    (hpools .kernel).1 (hpools .disk).1 (hpools .user).2 (hpools .kernel).2 (hpools .disk).2
  rw [State.released_refOf]
  by_cases hl : l = e.loc
  · subst hl
    rw [if_pos rfl, if_pos rfl]
    simp only at hpos
    omega
  · rw [if_neg hl, if_neg (Ne.symm hl), Nat.add_zero]

theorem State.withoutEntry_mmuOnly : MmuOnly s (s.withoutEntry pid p e) :=
  (s.released_mmuOnly e.kernel e.loc).trans (by constructor <;> simp [State.withoutEntry])

theorem State.withoutEntry_same : (s.withoutEntry pid p e).current = s.current ∧
    (s.withoutEntry pid p e).nextPid = s.nextPid ∧ (s.withoutEntry pid p e).ram = s.ram ∧
    (s.withoutEntry pid p e).disk = s.disk ∧ (s.withoutEntry pid p e).freeDraws = s.freeDraws := by
  obtain ⟨-, hcur, hnext, hram, hdisk, hdraws⟩ := s.released_same e.kernel e.loc
  exact ⟨hcur, hnext, hram, hdisk, hdraws⟩

theorem State.withoutEntry_refOf (l : Loc) :
    (s.withoutEntry pid p e).refOf l = if l = e.loc then s.refOf e.loc - 1 else s.refOf l := by
  rw [State.withoutEntry, State.setTable_refOf, State.released_refOf]

theorem State.withoutEntry_pool (q : Pool) : (s.withoutEntry pid p e).pool q =
    if s.refOf e.loc ≤ 1 ∧ q = e.loc.pool e.kernel then sortedInsert (s.pool q) e.loc.number else s.pool q := by
  rw [State.withoutEntry, State.setTable_pool, State.released_pool]

theorem State.withoutEntry_table (pid' : Nat) :
    (s.withoutEntry pid p e).table pid' = if pid' = pid then assocDel (s.table pid) p else s.table pid' := by
  obtain ⟨hprocs, -⟩ := s.released_same e.kernel e.loc
  have htable : ∀ q, (s.released e.kernel e.loc).table q = s.table q := fun q => by rw [State.table, hprocs, State.table]
  rw [State.withoutEntry, State.table_setTable, htable]

theorem live_of_find (h : assocFind (s.table pid) p = some e) : s.live pid = true := by
  unfold State.table at h
  unfold State.live
  cases hp : assocFind s.procs pid with
  | none => rw [hp] at h; cases h
  | some t => rfl

theorem State.withoutEntry_live (h : assocFind (s.table pid) p = some e) (pid' : Nat) :
    (s.withoutEntry pid p e).live pid' = s.live pid' := by
  obtain ⟨hprocs, -⟩ := s.released_same e.kernel e.loc
  have hlive : ∀ q, (s.released e.kernel e.loc).live q = s.live q := fun q => by rw [State.live, hprocs, State.live]
  rw [State.withoutEntry, live_setTable_of_live (by rw [hlive]; exact live_of_find h), hlive]

theorem withoutEntry_inv (hi : Inv s) (he : assocFind (s.table pid) p = some e) : Inv (s.withoutEntry pid p e) := by
  obtain ⟨-, -, hram, hdisk, -⟩ := State.withoutEntry_same (s := s) (pid := pid) (p := p) (e := e)
  exact State.withoutEntry_mmuOnly.inv_sameData hi hram hdisk (withoutEntry_mmuWf hi.cfgOk hi.mmu he)

theorem removeEntryOf_inv {t : State} (hi : Inv s) (h : s.removeEntryOf pid p = .ok t) : Inv t := by
  cases he : assocFind (s.table pid) p with
  | none => rw [State.removeEntryOf_none he] at h; cases h; exact hi
  | some e => rw [State.removeEntryOf_some hi.cfgOk hi.mmu he] at h; cases h; exact withoutEntry_inv hi he

end Remove

/-- Settles O52. -/
theorem removeVpageEffect : Obligations.RemoveVpageEffect := by
  intro s p hi
  refine ⟨fun h => by rw [State.removeVpage, currentFor_eq_none h], fun pid hc hp => ?_⟩
  have hremove : s.removeVpage p = s.removeEntryOf pid p := by rw [State.removeVpage, currentFor_of_lt hc hp]
  rw [hremove, State.entry_of_current hc]
  refine ⟨State.removeEntryOf_none, fun e he => ?_⟩
  obtain ⟨hcur, hnext, hram, hdisk, hdraws⟩ := State.withoutEntry_same (s := s) (pid := pid) (p := p) (e := e)
  have honly := State.withoutEntry_mmuOnly (s := s) (pid := pid) (p := p) (e := e)
  have hpool := State.withoutEntry_pool (s := s) (pid := pid) (p := p) (e := e)
  refine ⟨_, State.removeEntryOf_some hi.cfgOk hi.mmu he, honly.control, ⟨hcur, hnext, State.withoutEntry_live he⟩, hdraws,
    sameBytes_of_eq honly.rom hram hdisk, ?_, fun pid' p' hne => ?_, ?_, fun l hl => ?_, fun hshared => ?_,
    fun hlast => ⟨fun f hl => ⟨fun m => ?_, ?_, ?_⟩, fun d hl => ⟨fun m => ?_, ?_, ?_⟩⟩⟩
  · rw [State.entry_of_current (hcur.trans hc), State.withoutEntry_table, if_pos rfl, assocFind_del, if_pos rfl]
  · rw [State.withoutEntry_table]
    split
    · next hpid =>
      subst hpid
      rw [assocFind_del, if_neg fun hpp => hne (by rw [hpp])]
    · rfl
  · rw [State.withoutEntry_refOf, if_pos rfl]
  · rw [State.withoutEntry_refOf, if_neg hl]
  · have hsame : ∀ q, (s.withoutEntry pid p e).pool q = s.pool q := fun q => by rw [hpool, if_neg (by omega)]
    exact ⟨hsame .user, hsame .kernel, hsame .disk⟩
  · rw [hpool, if_pos ⟨hlast.le, by rw [hl]; rfl⟩, mem_sortedInsert, hl]
    rfl
  · rw [hpool, if_neg fun h => framePool_not_ne e.kernel (by rw [hl] at h; exact h.2)]
  · exact (hpool .disk).trans (if_neg fun h => framePool_ne_disk e.kernel (by rw [hl] at h; exact h.2.symm))
  · change m ∈ (s.withoutEntry pid p e).pool .disk ↔ _
    rw [hpool, if_pos ⟨hlast.le, by rw [hl]; rfl⟩, mem_sortedInsert, hl]
    rfl
  · exact (hpool .user).trans (if_neg fun h => by rw [hl] at h; cases h.2)
  · exact (hpool .kernel).trans (if_neg fun h => by rw [hl] at h; cases h.2)

end Sys2Proof.Machine

/-! The control operations on one page, continued: share, protect, page-out and page-in (20_memory.md R96 to R99). -/

namespace Sys2Proof.Machine

/-! ## share_vpage (20_memory.md R96) -/

theorem State.addReference_eq (s : State) (l : Loc) : s.addReference l = s.setRef l (s.refOf l + 1) := by cases l <;> rfl

/-- The state share_vpage leaves. -/
def State.shared (s : State) (dst : Nat) (write execute cow : Bool) (e : Pte) : State :=
  (s.addReference e.loc).setEntry dst { loc := e.loc, write := write, execute := execute, kernel := e.kernel, cow := cow }

theorem State.addReference_setEntry {s : State} {pid : Nat} (hc : s.current = some pid) (p : Nat) (x : Pte) (l : Loc) :
    (s.setEntry p x).addReference l = (s.addReference l).setEntry p x := by
  simp only [State.setEntry, State.addReference_current, hc]
  cases l <;> rfl

theorem live_false_find {s : State} {pid : Nat} (h : s.live pid = false) (p : Nat) : assocFind (s.table pid) p = none := by
  unfold State.live at h
  unfold State.table
  cases hp : assocFind s.procs pid with
  | none => rfl
  | some t => rw [hp] at h; cases h

section Share

variable {s : State} {srcPid src dst pid : Nat} {write execute cow : Bool} {e : Pte}

theorem State.entryOf_eq_some (h : s.entryOf srcPid src = some e) :
    src < s.cfg.vpages ∧ assocFind (s.table srcPid) src = some e := by
  unfold State.entryOf at h
  split at h
  · exact ⟨‹_›, h⟩
  · cases h

theorem State.shareVpage_invalid (h : s.currentFor dst = none ∨ s.entryOf srcPid src = none) :
    s.shareVpage srcPid src dst write execute cow = .error .invalidArgument := by
  unfold State.shareVpage
  split
  · next hc he => rcases h with h | h <;> simp_all
  · rfl

theorem State.shareVpage_ok (hc : s.current = some pid) (hdst : dst < s.cfg.vpages) (he : s.entryOf srcPid src = some e)
    (hn : s.entry dst = none) :
    s.shareVpage srcPid src dst write execute cow = .ok (s.shared dst write execute cow e) := by
  simp only [State.shareVpage, currentFor_of_lt hc hdst, he, hn]
  rw [State.addReference_setEntry hc, State.shared]

theorem State.addReference_refOf (s : State) (l l' : Loc) :
    (s.addReference l).refOf l' = if l' = l then s.refOf l + 1 else s.refOf l' := by
  rw [State.addReference_eq, State.refOf_setRef]

theorem State.setEntry_refOf (s : State) (p : Nat) (x : Pte) (l : Loc) : (s.setEntry p x).refOf l = s.refOf l := by
  cases l <;> simp [State.refOf, State.frameRefOf, State.diskRefOf]

theorem State.shared_mmuOnly : MmuOnly s (s.shared dst write execute cow e) := by
  constructor <;> simp [State.shared]

theorem addReference_refs (hi : MmuWf s) (l : Loc) :
    assocWf 0 (s.addReference l).frameRef ∧ assocWf 0 (s.addReference l).diskRef := by
  rw [State.addReference_eq]
  cases l with
  | frame f => exact ⟨by simpa [State.setRef] using assocSet_wf hi.frameRefWf _ _, by simpa [State.setRef] using hi.diskRefWf⟩
  | disk d => exact ⟨by simpa [State.setRef] using hi.frameRefWf, by simpa [State.setRef] using assocSet_wf hi.diskRefWf _ _⟩

theorem shared_mmuWf (hi : MmuWf s) (hc : s.current = some pid) (hdst : dst < s.cfg.vpages)
    (he : assocFind (s.table srcPid) src = some e) (hn : s.entry dst = none) :
    MmuWf (s.shared dst write execute cow e) := by
  have hx := mem_entries_of_find he
  obtain ⟨-, hpos, -⟩ := hi.page_taken hx
  obtain ⟨hfw, hdw⟩ := addReference_refs hi e.loc
  have hmem : ∀ q n, n ∈ s.pool q ↔ inPoolRange s.cfg q n = true ∧ (s.addReference e.loc).refOf (q.loc n) = 0 := by
    intro q n
    rw [hi.mem_pool, State.addReference_refOf]
    split
    · next hl => rw [hl]; simp only at hpos; omega
    · rfl
  refine mmuWf_setEntry (u := s.addReference e.loc) hi (by simp) (by simp) (by simp) (by simp) hc hdst hfw hdw (fun l => ?_)
    (by simpa using hi.userSorted) (by simpa using hi.kernelSorted) (by simpa using hi.diskSorted)
    (by rw [State.addReference_userFree]; exact hmem .user) (by rw [State.addReference_kernelFree]; exact hmem .kernel)
    (by rw [State.addReference_diskFree]; exact hmem .disk)
    (fun f hl => hi.framesOfPool _ hx f hl) (fun d hl => hi.slotsInRange _ hx d hl)
    (fun y hy hl => hi.sharersAgree y hy _ hx hl)
  rw [State.addReference_refOf, State.oldAt, hn]
  by_cases hl : l = e.loc
  · subst hl; simp
  · rw [if_neg hl, if_neg (Ne.symm hl)]

theorem shareVpage_inv {t : State} (hi : Inv s) (h : s.shareVpage srcPid src dst write execute cow = .ok t) : Inv t := by
  cases hcf : s.currentFor dst with
  | none => rw [State.shareVpage_invalid (.inl hcf)] at h; cases h
  | some pid =>
    cases he : s.entryOf srcPid src with
    | none => rw [State.shareVpage_invalid (.inr he)] at h; cases h
    | some e =>
      obtain ⟨hdst, hc⟩ := currentFor_eq_some hcf
      cases hn : s.entry dst with
      | some x => simp only [State.shareVpage, hcf, he, hn] at h; cases h
      | none =>
        rw [State.shareVpage_ok hc hdst he hn] at h
        cases h
        exact State.shared_mmuOnly.inv_sameData hi (by simp [State.shared]) (by simp [State.shared])
          (shared_mmuWf hi.mmu hc hdst (State.entryOf_eq_some he).2 hn)

end Share

/-! ## protect_vpage (20_memory.md R97) -/

section Protect

variable {s : State} {p pid : Nat} {write execute cow : Bool} {e : Pte}

theorem State.protectVpage_invalid (h : s.currentFor p = none ∨ s.entry p = none) :
    s.protectVpage p write execute cow = .error .invalidArgument := by
  unfold State.protectVpage
  split
  · next hc he => rcases h with h | h <;> simp_all
  · rfl

theorem State.protectVpage_ok (hcf : s.currentFor p = some pid) (he : s.entry p = some e) :
    s.protectVpage p write execute cow = .ok (s.setEntry p { e with write := write, execute := execute, cow := cow }) := by
  simp only [State.protectVpage, hcf, he]

theorem setEntry_mmuOnly (s : State) (p : Nat) (x : Pte) : MmuOnly s (s.setEntry p x) := by constructor <;> simp

theorem protectVpage_inv {t : State} (hi : Inv s) (h : s.protectVpage p write execute cow = .ok t) : Inv t := by
  cases hcf : s.currentFor p with
  | none => rw [State.protectVpage_invalid (.inl hcf)] at h; cases h
  | some pid =>
    cases he : s.entry p with
    | none => rw [State.protectVpage_invalid (.inr he)] at h; cases h
    | some e =>
      rw [State.protectVpage_ok hcf he] at h
      cases h
      exact (setEntry_mmuOnly ..).inv_sameData hi (by simp) (by simp) (reflag_mmuWf hi.mmu he _ _ _)

end Protect

/-- Settles O53. -/
theorem shareAndProtectEffect : Obligations.ShareAndProtectEffect := by
  intro s write execute cow hi
  refine ⟨fun srcPid src dst => ⟨fun h => State.shareVpage_invalid ?_, fun pid e hc hsrc hdst he => ?_⟩,
    fun p => ⟨fun h => State.protectVpage_invalid ?_, fun pid e hc hp he => ?_⟩⟩
  · rcases h with h | h | h | h | h
    · exact .inl (currentFor_eq_none (.inl h))
    · exact .inr (by simp [State.entryOf, live_false_find h])
    · exact .inr (by rw [State.entryOf, if_neg (by omega)])
    · exact .inl (currentFor_eq_none (.inr h))
    · exact .inr (by simp [State.entryOf, h])
  · have hsource : s.entryOf srcPid src = some e := by rw [State.entryOf, if_pos hsrc, he]
    refine ⟨fun hmapped => ?_, fun hn => ?_⟩
    · obtain ⟨x, hx⟩ := Option.ne_none_iff_exists'.1 hmapped
      simp only [State.shareVpage, currentFor_of_lt hc hdst, hsource, hx]
    · have hc' : (s.addReference e.loc).current = some pid := by simpa using hc
      refine ⟨_, State.shareVpage_ok hc hdst hsource hn, State.shared_mmuOnly.control,
        sameProcesses_setEntry hi.mmu (by simp) (by simp) (by simp) dst _, by simp [State.shared],
        fun d off => by simp [State.shared], State.entry_setEntry_same hc' dst _, sameEntriesBut_setEntry hc' (by simp) dst _,
        ?_, fun l hl => ?_, by simp [State.shared], by simp [State.shared], by simp [State.shared]⟩
      · rw [State.shared, State.setEntry_refOf, State.addReference_refOf, if_pos rfl]
      · rw [State.shared, State.setEntry_refOf, State.addReference_refOf, if_neg hl]
  · rcases h with h | h | h
    · exact .inl (currentFor_eq_none (.inl h))
    · exact .inl (currentFor_eq_none (.inr h))
    · exact .inr h
  · exact ⟨_, State.protectVpage_ok (currentFor_of_lt hc hp) he, (setEntry_mmuOnly ..).control,
      sameProcesses_setEntry hi.mmu rfl rfl rfl p _, by simp, fun d off => by simp, State.entry_setEntry_same hc p _,
      sameEntriesBut_setEntry hc rfl p _, by simp, by simp, by simp, by simp, by simp⟩

/-! ## page_out (20_memory.md R98) -/

/-- The state around the relocation of a page-out. -/
def State.outAround (s : State) (kernel : Bool) (f d : Nat) (free : List Nat) : State :=
  ((((s.setPool .disk free).copyFrameToSlot f d).setDiskRef d (s.frameRefOf f)).setFrameRef f 0).setPool (framePool kernel)
    (sortedInsert (s.pool (framePool kernel)) f)

/-- The state page_out leaves. -/
def State.pagedOut (s : State) (kernel : Bool) (f d : Nat) (free : List Nat) : State :=
  (s.outAround kernel f d free).relocate (.frame f) (.disk d)

section PageOut

variable {s : State} {p pid f d : Nat} {free : List Nat} {kernel : Bool}

theorem State.outAround_same (s : State) (kernel : Bool) (f d : Nat) (free : List Nat) :
    (s.outAround kernel f d free).procs = s.procs ∧ (s.outAround kernel f d free).current = s.current ∧
    (s.outAround kernel f d free).nextPid = s.nextPid ∧ (s.outAround kernel f d free).cfg = s.cfg ∧
    (s.outAround kernel f d free).ram = s.ram ∧ (s.outAround kernel f d free).freeDraws = s.freeDraws := by
  simp [State.outAround]

theorem State.outAround_refOf (l : Loc) : (s.outAround kernel f d free).refOf l =
    if l = .disk d then s.refOf (.frame f) else if l = .frame f then 0 else s.refOf l := by
  have hset : (s.outAround kernel f d free).refOf l =
      (((s.setPool .disk free).copyFrameToSlot f d).setRef (.disk d) (s.frameRefOf f) |>.setRef (.frame f) 0).refOf l := by
    cases l <;> simp [State.outAround, State.refOf, State.setRef, State.frameRefOf, State.diskRefOf]
  rw [hset, State.refOf_setRef, State.refOf_setRef]
  by_cases hf : l = .frame f
  · subst hf; rfl
  · rw [if_neg hf, if_neg hf]
    cases l <;> rfl

theorem State.outAround_pool (q : Pool) : (s.outAround kernel f d free).pool q =
    if q = framePool kernel then sortedInsert (s.pool q) f else if q = .disk then free else s.pool q := by
  have hinner : (((s.setPool .disk free).copyFrameToSlot f d).setDiskRef d (s.frameRefOf f) |>.setFrameRef f 0).pool q =
      (s.setPool .disk free).pool q := by cases q <;> rfl
  rw [State.outAround, State.pool_setPool, hinner, State.pool_setPool]
  split
  · next hq => rw [hq]
  · rfl

theorem State.pagedOut_refOf (l : Loc) : (s.pagedOut kernel f d free).refOf l = (s.outAround kernel f d free).refOf l := by
  cases l <;> rfl

theorem State.pagedOut_pool (q : Pool) : (s.pagedOut kernel f d free).pool q = (s.outAround kernel f d free).pool q := by
  cases q <;> rfl

theorem State.pagedOut_mmuOnly : MmuOnly s (s.pagedOut kernel f d free) := by
  constructor <;> simp [State.pagedOut, State.outAround]

theorem State.pagedOut_disk : (s.pagedOut kernel f d free).disk =
    s.disk.copy (d * s.cfg.pageSize) s.cfg.pageSize s.ram (f * s.cfg.pageSize) := by
  simp [State.pagedOut, State.outAround]

theorem State.find_pagedOut (pid' p' : Nat) : assocFind ((s.pagedOut kernel f d free).table pid') p' =
    (assocFind (s.table pid') p').map (movedTo (.frame f) (.disk d)) := by
  obtain ⟨hprocs, -⟩ := s.outAround_same kernel f d free
  rw [State.pagedOut, State.find_relocate, State.table, hprocs, State.table]

theorem State.pagedOut_live (pid' : Nat) : (s.pagedOut kernel f d free).live pid' = s.live pid' := by
  obtain ⟨hprocs, -⟩ := s.outAround_same kernel f d free
  rw [State.pagedOut, State.live_relocate, State.live, hprocs, State.live]

/-- Paging out the frame of a valid entry answers when there is a free slot. -/
theorem State.pageOutFrame_answers (hok : s.cfg.ok = true) (hi : MmuWf s) {x : Nat × Pte} (hx : x ∈ s.entries)
    (hl : x.2.loc = .frame f) (hp : s.diskFree = d :: free) :
    s.pageOutFrame f = .ok (s.pagedOut x.2.kernel f d free) := by
  obtain ⟨hr, -, hn⟩ := hi.page_taken hx
  rw [hl] at hr hn
  have halloc : s.allocateOne .disk = .ok (d, s.setPool .disk free) := State.allocateOne_head hp
  have hpool : ∀ u : State, u.cfg = s.cfg → u.pool (framePool x.2.kernel) = s.pool (framePool x.2.kernel) →
      u.returnFrame f = .ok (u.setPool (framePool x.2.kernel) (sortedInsert (s.pool (framePool x.2.kernel)) f)) := by
    intro u hcfg hu
    have hur : inPoolRange u.cfg (framePool x.2.kernel) f = true := hcfg ▸ hr
    rw [State.returnFrame, poolOfFrame_eq (hcfg ▸ hok) hur, ← hu]
    exact State.returnOne_taken hur (hu ▸ hn)
  unfold State.pageOutFrame
  simp only [halloc]
  rw [hpool _ (by simp) (by cases x.2.kernel <;> rfl), State.pagedOut, State.outAround]
  cases x.2.kernel <;> rfl

theorem pagedOut_mmuWf (hok : s.cfg.ok = true) (hi : MmuWf s) {x : Nat × Pte} (hx : x ∈ s.entries)
    (hl : x.2.loc = .frame f) (hp : s.diskFree = d :: free) : MmuWf (s.pagedOut x.2.kernel f d free) := by
  obtain ⟨hr, hpos, -⟩ := hi.page_taken hx
  rw [hl] at hr hpos
  obtain ⟨hprocs, hcur, hnext, hcfg, -, -⟩ := s.outAround_same x.2.kernel f d free
  have hsorted := hi.pool_sorted .disk
  rw [show s.pool .disk = d :: free from hp] at hsorted
  obtain ⟨hfree, hdfree⟩ := sorted_tail hsorted
  obtain ⟨hdr, hdz⟩ := (hi.mem_pool .disk d).1 (show d ∈ s.diskFree from hp ▸ List.mem_cons_self ..)
  have hpools : ∀ q, ((s.outAround x.2.kernel f d free).pool q).Pairwise (· < ·) ∧ ∀ n,
      n ∈ (s.outAround x.2.kernel f d free).pool q ↔
        inPoolRange s.cfg q n = true ∧ (s.outAround x.2.kernel f d free).refOf (q.loc n) = 0 := by
    intro q
    rw [State.outAround_pool]
    by_cases hq : q = framePool x.2.kernel
    · rw [if_pos hq]
      refine ⟨sortedInsert_pairwise (hi.pool_sorted q) _, fun n => ?_⟩
      have hloc : q.loc n = .frame n := by subst hq; cases x.2.kernel <;> rfl
      rw [mem_sortedInsert, hi.mem_pool, hloc, State.outAround_refOf, if_neg nofun]
      by_cases hn : n = f
      · rw [hn, hq, if_pos rfl]
        exact ⟨fun _ => ⟨hr, rfl⟩, fun _ => .inl rfl⟩
      · simp [hn]
    · rw [if_neg hq]
      by_cases hqd : q = .disk
      · subst hqd
        refine ⟨by rwa [if_pos rfl], fun n => ?_⟩
        have hmem : n ∈ s.pool .disk ↔ n = d ∨ n ∈ free := by rw [show s.pool .disk = d :: free from hp, List.mem_cons]
        rw [if_pos rfl, State.outAround_refOf]
        by_cases hn : n = d
        · subst hn
          rw [show Pool.disk.loc n = .disk n from rfl, if_pos rfl]
          exact ⟨fun h => absurd h hdfree, fun h => by omega⟩
        · rw [show Pool.disk.loc n = .disk n from rfl, if_neg (by simpa using hn), if_neg nofun]
          rw [hi.mem_pool] at hmem
          exact (hmem.trans (or_iff_right hn)).symm
      · rw [if_neg hqd]
        refine ⟨hi.pool_sorted q, fun n => ?_⟩
        rw [hi.mem_pool, State.outAround_refOf]
        by_cases hn : q.loc n = .frame f
        · have hout : inPoolRange s.cfg q n ≠ true := fun hqn => hq (by
            have h := pool_eq_of_loc (kernel := x.2.kernel) hok (by rw [hn]; exact hr) hqn
            rwa [hn] at h)
          exact ⟨fun h => absurd h.1 hout, fun h => absurd h.1 hout⟩
        · have hd : q.loc n ≠ .disk d := by cases q <;> simp [Pool.loc] at hqd ⊢
          rw [if_neg hd, if_neg hn]
  refine mmuWf_relocate hi hprocs hcur hnext hcfg (hi.refOf_eq (.disk d) ▸ hdz) nofun ?_ ?_ (fun l => State.outAround_refOf l)
    (hpools .user).1 (hpools .kernel).1 (hpools .disk).1 (hpools .user).2 (hpools .kernel).2 (hpools .disk).2
    (fun y hy hyl g hg => nomatch hg) (fun y hy => by cases hy; exact hdr)
  · have hfref : (s.outAround x.2.kernel f d free).frameRef = assocSet 0 s.frameRef f 0 := by simp [State.outAround]
    exact hfref ▸ assocSet_wf hi.frameRefWf _ _
  · have hdref : (s.outAround x.2.kernel f d free).diskRef = assocSet 0 s.diskRef d (s.frameRefOf f) := by
      simp [State.outAround]
    exact hdref ▸ assocSet_wf hi.diskRefWf _ _

theorem State.pageOut_invalid (h : s.currentFor p = none ∨ s.entry p = none) : s.pageOut p = .error .invalidArgument := by
  unfold State.pageOut
  split
  · next hc he => rcases h with h | h <;> simp_all
  · rfl

theorem State.pageOut_disk {e : Pte} (hcf : s.currentFor p = some pid) (he : s.entry p = some e) (hl : e.loc = .disk d) :
    s.pageOut p = .ok s := by simp only [State.pageOut, hcf, he, hl]

theorem State.pageOut_frame {e : Pte} (hcf : s.currentFor p = some pid) (he : s.entry p = some e) (hl : e.loc = .frame f) :
    s.pageOut p = s.pageOutFrame f := by simp only [State.pageOut, hcf, he, hl]

theorem State.pageOutFrame_full (hp : s.diskFree = []) : s.pageOutFrame f = .error (.resourceExhausted .disk) := by
  unfold State.pageOutFrame
  rw [State.allocateOne_empty (p := .disk) hp]

theorem pagedOut_inv (hi : Inv s) {x : Nat × Pte} (hx : x ∈ s.entries) (hl : x.2.loc = .frame f)
    (hp : s.diskFree = d :: free) : Inv (s.pagedOut x.2.kernel f d free) := by
  have hram : (s.pagedOut x.2.kernel f d free).ram = s.ram := by simp [State.pagedOut, State.outAround]
  have hd : d < s.cfg.diskPages := by
    simpa [inPoolRange] using ((hi.mmu.mem_pool .disk d).1 (show d ∈ s.diskFree from hp ▸ List.mem_cons_self ..)).1
  exact State.pagedOut_mmuOnly.inv hi (hram ▸ hi.memory.ramWf) (hram ▸ hi.memory.ramInside)
    (State.pagedOut_disk ▸ Memory.copy_wf hi.memory.diskWf hi.memory.ramWf _ _ _)
    (State.pagedOut_disk ▸ Memory.copy_inside hi.memory.diskInside (slot_inside hd) _) (pagedOut_mmuWf hi.cfgOk hi.mmu hx hl hp)

theorem pageOut_inv {t : State} (hi : Inv s) (h : s.pageOut p = .ok t) : Inv t := by
  cases hcf : s.currentFor p with
  | none => rw [State.pageOut_invalid (.inl hcf)] at h; cases h
  | some pid =>
    cases he : s.entry p with
    | none => rw [State.pageOut_invalid (.inr he)] at h; cases h
    | some e =>
      cases hl : e.loc with
      | disk d => rw [State.pageOut_disk hcf he hl] at h; cases h; exact hi
      | frame f =>
        rw [State.pageOut_frame hcf he hl] at h
        have hx := mem_entries_of_entry he
        cases hp : s.diskFree with
        | nil => rw [State.pageOutFrame_full hp] at h; cases h
        | cons d free =>
          rw [State.pageOutFrame_answers hi.cfgOk hi.mmu hx hl hp] at h
          cases h
          exact pagedOut_inv hi hx hl hp

end PageOut

/-- Settles O54. -/
theorem pageOutEffect : Obligations.PageOutEffect := by
  intro s p hi
  refine ⟨fun h => State.pageOut_invalid ?_, fun pid e hc he => ?_⟩
  · rcases h with h | h | h
    · exact .inl (currentFor_eq_none (.inl h))
    · exact .inl (currentFor_eq_none (.inr h))
    · exact .inr h
  have hcf := hi.mmu.currentFor_of_entry hc he
  refine ⟨fun d hl => State.pageOut_disk hcf he hl, fun f hl => ?_⟩
  rw [State.pageOut_frame hcf he hl]
  refine ⟨State.pageOutFrame_full, fun d rest hp => ?_⟩
  obtain ⟨-, hcur, hnext, hcfg, hram, hdraws⟩ := s.outAround_same e.kernel f d rest
  have hpool : ∀ q, (s.pagedOut e.kernel f d rest).pool q = _ := fun q => (State.pagedOut_pool q).trans (State.outAround_pool q)
  have hrefs : ∀ l, (s.pagedOut e.kernel f d rest).refOf l = _ := fun l => (State.pagedOut_refOf l).trans (State.outAround_refOf l)
  refine ⟨_, State.pageOutFrame_answers hi.cfgOk hi.mmu (mem_entries_of_entry he) hl hp, State.pagedOut_mmuOnly.control,
    ⟨hcur, hnext, State.pagedOut_live⟩, hdraws, ?_, fun m => ?_, ?_, fun o ho => ?_, fun off hoff => ?_, fun off => ?_,
    State.find_pagedOut, ?_, ?_, fun g hg => ?_, fun x hx => ?_⟩
  · exact (hpool .disk).trans (by rw [if_neg (framePool_ne_disk _).symm, if_pos rfl])
  · rw [hpool, if_pos rfl, mem_sortedInsert]
  · rw [hpool, if_neg (framePool_not_ne _), if_neg (framePool_ne_disk _)]
  · simp only [State.pageByte, State.byteAt, State.device, State.pagedOut_disk, State.pagedOut_mmuOnly.cfg]
    exact read_copy_frame ho
  · simp only [State.byteAt, State.device, State.pagedOut_disk]
    exact read_copy_ne_frame hoff
  · exact congrArg (Memory.read · off) hram
  · exact (hrefs (.disk d)).trans (if_pos rfl)
  · exact (hrefs (.frame f)).trans (by rw [if_neg nofun, if_pos rfl])
  · exact (hrefs (.frame g)).trans (by rw [if_neg nofun, if_neg (by simpa using hg)]; rfl)
  · exact (hrefs (.disk x)).trans (by rw [if_neg (by simpa using hx), if_neg nofun]; rfl)

/-! ## page_in (20_memory.md R99) -/

theorem pageIn_inv {s t : State} {p : Nat} (hi : Inv s) (h : s.pageIn p = .ok t) : Inv t := by
  unfold State.pageIn at h
  split at h
  · next he => exact hi.of_kept (bringIn_kept hi.cfgOk hi.memory hi.mmu he h)
  · cases h

end Sys2Proof.Machine

/-! Processes: they begin, become current, are emptied and end (20_memory.md R84, R95, R100, R101). -/

namespace Sys2Proof.Machine

/-! ## The tables of a process map with one more or one less empty table -/

section Tables

variable {m : List (Nat × PageTable)} {pid : Nat}

theorem flatMap_assocPut_nil (h : assocFind m pid = none) :
    (assocPut m pid []).flatMap Prod.snd = m.flatMap Prod.snd := by
  induction m with
  | nil => rfl
  | cons e m ih =>
    obtain ⟨k, w⟩ := e
    rw [assocFind_cons] at h
    rw [assocPut]
    split at h
    · cases h
    · next hk =>
      rw [if_neg hk]
      split
      · simp
      · rw [List.flatMap_cons, List.flatMap_cons, ih h]

theorem flatMap_assocDel_nil (h : ∀ e ∈ m, e.1 = pid → e.2 = []) :
    (assocDel m pid).flatMap Prod.snd = m.flatMap Prod.snd := by
  induction m with
  | nil => rfl
  | cons e m ih =>
    have hrest := ih fun x hx => h x (List.mem_cons_of_mem _ hx)
    by_cases hk : e.1 = pid
    · have hdel : assocDel (e :: m) pid = assocDel m pid := by simp [assocDel, hk]
      rw [hdel, hrest, List.flatMap_cons, h e (List.mem_cons_self ..) hk, List.nil_append]
    · have hdel : assocDel (e :: m) pid = e :: assocDel m pid := by simp [assocDel, hk]
      rw [hdel, List.flatMap_cons, List.flatMap_cons, hrest]

/-- Removing the first key of a rising map leaves its tail. -/
theorem assocDel_head {α : Type} {n : List (Nat × α)} {k : Nat} {v : α} (h : assocSorted ((k, v) :: n)) :
    assocDel ((k, v) :: n) k = n := by
  have hlt := (List.pairwise_cons.1 h).1
  have htail : assocDel n k = n := List.filter_eq_self.2 fun e he => by
    have hke := hlt e he
    simp only [bne_iff_ne, ne_eq] at hke ⊢
    omega
  rw [← htail]
  simp [assocDel]

end Tables

/-- Writing only the processes, with the same valid entries, keeps the MMU's invariant. -/
theorem mmuWf_of_entries {s t : State} (h : MmuWf s) (hcfg : t.cfg = s.cfg)
    (hpools : t.userFree = s.userFree ∧ t.kernelFree = s.kernelFree ∧ t.diskFree = s.diskFree)
    (hrefs : t.frameRef = s.frameRef ∧ t.diskRef = s.diskRef) (hentries : t.entries = s.entries)
    (hprocs : assocSorted t.procs) (htables : ∀ e ∈ t.procs, assocSorted e.2) (hpids : ∀ e ∈ t.procs, e.1 < t.nextPid)
    (hcurrent : ∀ pid, t.current = some pid → t.live pid = true) : MmuWf t := by
  obtain ⟨huser, hkernel, hdisk⟩ := hpools
  obtain ⟨hframeRef, hdiskRef⟩ := hrefs
  have hframe : ∀ f, t.frameRefOf f = s.frameRefOf f := fun f => by rw [State.frameRefOf, hframeRef, State.frameRefOf]
  have hslot : ∀ d, t.diskRefOf d = s.diskRefOf d := fun d => by rw [State.diskRefOf, hdiskRef, State.diskRefOf]
  have hto : ∀ l, t.refsTo l = s.refsTo l := fun l => by rw [State.refsTo, hentries, State.refsTo]
  exact
    { procsSorted := hprocs
      tablesSorted := htables
      pagesInWindow := by rw [hentries, hcfg]; exact h.pagesInWindow
      pidsBelowNext := hpids
      currentLive := hcurrent
      frameRefWf := hframeRef ▸ h.frameRefWf
      diskRefWf := hdiskRef ▸ h.diskRefWf
      frameCounts := fun f => by rw [hframe, hto, h.frameCounts]
      diskCounts := fun d => by rw [hslot, hto, h.diskCounts]
      userSorted := huser ▸ h.userSorted
      kernelSorted := hkernel ▸ h.kernelSorted
      diskSorted := hdisk ▸ h.diskSorted
      userFreeIff := fun f => by rw [huser, hcfg, hframe, h.userFreeIff]
      kernelFreeIff := fun f => by rw [hkernel, hcfg, hframe, h.kernelFreeIff]
      diskFreeIff := fun d => by rw [hdisk, hcfg, hslot, h.diskFreeIff]
      framesOfPool := by rw [hentries, hcfg]; exact h.framesOfPool
      slotsInRange := by rw [hentries, hcfg]; exact h.slotsInRange
      sharersAgree := by rw [hentries]; exact h.sharersAgree }

/-! ## begin_process and set_current (20_memory.md R100) -/

section Begin

variable {s : State}

/-- The next pid is not live. -/
theorem MmuWf.find_nextPid (hi : MmuWf s) : assocFind s.procs s.nextPid = none :=
  (assocFind_eq_none_iff _ _).2 fun e he => (hi.pidsBelowNext e he).ne

theorem State.beginProcess_live (s : State) (pid : Nat) :
    s.beginProcess.2.live pid = if pid = s.nextPid then true else s.live pid := State.live_setTable ..

theorem State.beginProcess_table (s : State) (pid : Nat) :
    s.beginProcess.2.table pid = if pid = s.nextPid then [] else s.table pid := State.table_setTable ..

theorem beginProcess_mmuWf (hi : MmuWf s) : MmuWf s.beginProcess.2 := by
  refine mmuWf_of_entries hi rfl ⟨rfl, rfl, rfl⟩ ⟨rfl, rfl⟩ (flatMap_assocPut_nil hi.find_nextPid)
    (assocPut_sorted hi.procsSorted _ _) (fun e he => ?_) (fun e he => ?_) (fun pid hc => ?_)
  · rcases mem_assocPut he with rfl | he
    · exact .nil
    · exact hi.tablesSorted e he
  · rcases mem_assocPut he with rfl | he
    · exact Nat.lt_succ_self _
    · exact Nat.lt_succ_of_lt (hi.pidsBelowNext e he)
  · cases hc
    rw [State.beginProcess_live, if_pos rfl]

theorem beginProcess_inv (hi : Inv s) : Inv s.beginProcess.2 :=
  ⟨hi.cfgOk, hi.memory.of_same rfl ⟨rfl, rfl, rfl⟩, beginProcess_mmuWf hi.mmu, hi.engine⟩

theorem setCurrent_inv {t : State} {pid : Nat} (hi : Inv s) (h : s.setCurrent pid = .ok t) : Inv t := by
  unfold State.setCurrent at h
  split at h
  · next hlive =>
    cases h
    refine ⟨hi.cfgOk, hi.memory.of_same rfl ⟨rfl, rfl, rfl⟩, ?_, hi.engine⟩
    exact mmuWf_of_entries hi.mmu rfl ⟨rfl, rfl, rfl⟩ ⟨rfl, rfl⟩ rfl hi.mmu.procsSorted hi.mmu.tablesSorted hi.mmu.pidsBelowNext
      fun q hq => by cases hq; exact hlive
  · cases h

end Begin

/-! ## Dropping every reference of a process (20_memory.md R95, R101) -/

/-- In `t` every entry of process `pid` is gone with its reference; the rest of `s`, but for the pools, is as it was. -/
structure Dropped (s t : State) (pid : Nat) : Prop where
  inv : Inv t
  only : MmuOnly s t
  nextPid : t.nextPid = s.nextPid
  ram : t.ram = s.ram
  disk : t.disk = s.disk
  empty : t.table pid = []
  live : ∀ q, q ≠ pid → t.live q = s.live q
  table : ∀ q, q ≠ pid → t.table q = s.table q
  refs : ∀ l, t.refOf l + ((s.table pid).countP fun x => x.2.loc = l) = s.refOf l

/-- A process with an empty table has nothing to drop. -/
theorem Dropped.of_empty {s : State} {pid : Nat} (hi : Inv s) (h : s.table pid = []) : Dropped s s pid where
  inv := hi
  only := .refl s
  nextPid := rfl
  ram := rfl
  disk := rfl
  empty := h
  live _ _ := rfl
  table _ _ := rfl
  refs l := by rw [h]; rfl

/-- Dropping the first entry, and then the rest. -/
theorem Dropped.cons {s t : State} {pid p : Nat} {e : Pte} {rest : PageTable} (hi : Inv s) (htbl : s.table pid = (p, e) :: rest)
    (he : assocFind (s.table pid) p = some e) (hrest : (s.withoutEntry pid p e).table pid = rest)
    (h : Dropped (s.withoutEntry pid p e) t pid) : Dropped s t pid := by
  obtain ⟨-, hnext, hram, hdisk, -⟩ := State.withoutEntry_same (s := s) (pid := pid) (p := p) (e := e)
  refine ⟨h.inv, State.withoutEntry_mmuOnly.trans h.only, h.nextPid.trans hnext, h.ram.trans hram, h.disk.trans hdisk, h.empty,
    fun q hq => (h.live q hq).trans (State.withoutEntry_live he q), fun q hq => ?_, fun l => ?_⟩
  · rw [h.table q hq, State.withoutEntry_table, if_neg hq]
  · have hpos : 0 < s.refOf e.loc := hi.mmu.refOf_eq e.loc ▸ refsTo_pos (mem_entries_of_find he)
    have hl := h.refs l
    rw [hrest, State.withoutEntry_refOf] at hl
    rw [htbl, List.countP_cons]
    by_cases hle : l = e.loc
    · subst hle
      simp only [if_true, decide_true] at hl ⊢
      omega
    · simp only [if_neg hle, decide_eq_false (Ne.symm hle), Bool.false_eq_true, if_false] at hl ⊢
      exact hl

/-- Removing the entries of a table, in its order, answers and drops them all. -/
theorem removeEntries_dropped {s : State} {pid : Nat} (hi : Inv s) {tbl : PageTable} (htbl : s.table pid = tbl) :
    ∃ t, s.removeEntries pid (tbl.map Prod.fst) = .ok t ∧ Dropped s t pid ∧ t.current = s.current ∧
      t.live pid = s.live pid := by
  induction tbl generalizing s with
  | nil => exact ⟨s, rfl, .of_empty hi htbl, rfl, rfl⟩
  | cons x rest ih =>
    obtain ⟨p, e⟩ := x
    have he : assocFind (s.table pid) p = some e := by rw [htbl, assocFind_cons, if_pos rfl]
    have hrest : (s.withoutEntry pid p e).table pid = rest := by
      rw [State.withoutEntry_table, if_pos rfl, htbl, assocDel_head (htbl ▸ table_sorted hi.mmu.tablesSorted pid)]
    obtain ⟨t, ht, hdrop, hcur, hlive⟩ := ih (withoutEntry_inv hi he) hrest
    refine ⟨t, ?_, .cons hi htbl he hrest hdrop, hcur.trans State.withoutEntry_same.1,
      hlive.trans (State.withoutEntry_live he pid)⟩
    simp only [List.map_cons, State.removeEntries, State.removeEntryOf_some hi.cfgOk hi.mmu he]
    exact ht

theorem removeAll_dropped {s : State} (hi : Inv s) (pid : Nat) :
    ∃ t, s.removeAll pid = .ok t ∧ Dropped s t pid ∧ t.current = s.current ∧ t.live pid = s.live pid :=
  removeEntries_dropped hi rfl

/-- The same bytes and the same table give the same view of a process's pages. -/
theorem virtualByte_of_same {s t : State} {pid : Nat} (hcfg : t.cfg = s.cfg) (hbytes : SameBytes s t)
    (htable : t.table pid = s.table pid) (p o : Nat) : t.virtualByte pid p o = s.virtualByte pid p o := by
  have hpage : ∀ l, t.pageByte l o = s.pageByte l o := fun l => by
    cases l <;> simp only [State.pageByte, hcfg] <;> exact hbytes _ _
  simp only [State.virtualByte_eq, htable, hpage]

theorem Dropped.emptied {s t : State} {pid : Nat} (h : Dropped s t pid) : Emptied s t pid := by
  have hbytes : SameBytes s t := sameBytes_of_eq h.only.rom h.ram h.disk
  refine ⟨h.only.control, hbytes, h.nextPid, h.inv.mmu, fun p => by rw [h.empty]; rfl, fun l => ?_, fun q hq =>
    ⟨h.live q hq, h.table q hq, virtualByte_of_same h.only.cfg hbytes (h.table q hq)⟩⟩
  rw [← h.refs l, Nat.add_sub_cancel]

/-! ## end_process (20_memory.md R101) -/

/-- The process removed from the live ones. -/
def State.ended (s : State) (pid : Nat) : State :=
  { s with procs := assocDel s.procs pid, current := if s.current = some pid then none else s.current }

section Ended

variable {s : State} {pid : Nat}

theorem State.ended_live (s : State) (pid q : Nat) : (s.ended pid).live q = if q = pid then false else s.live q := by
  simp only [State.live, State.ended, assocFind_del]
  split <;> rfl

theorem State.ended_table (s : State) (pid q : Nat) : (s.ended pid).table q = if q = pid then [] else s.table q := by
  simp only [State.table, State.ended, assocFind_del]
  split <;> rfl

theorem ended_mmuWf (hi : MmuWf s) (hempty : s.table pid = []) : MmuWf (s.ended pid) := by
  have htable : ∀ e ∈ s.procs, e.1 = pid → e.2 = [] := by
    rintro ⟨k, t⟩ he rfl
    rw [State.table, assocFind_of_mem hi.procsSorted he] at hempty
    exact hempty
  refine mmuWf_of_entries hi rfl ⟨rfl, rfl, rfl⟩ ⟨rfl, rfl⟩ (flatMap_assocDel_nil htable) (assocDel_sorted hi.procsSorted _)
    (fun e he => hi.tablesSorted e (mem_assocDel.1 he).1) (fun e he => hi.pidsBelowNext e (mem_assocDel.1 he).1) (fun q hq => ?_)
  by_cases hc : s.current = some pid
  · simp [State.ended, hc] at hq
  · have hq' : s.current = some q := by simpa [State.ended, hc] using hq
    rw [State.ended_live, if_neg fun h : q = pid => hc (h ▸ hq')]
    exact hi.currentLive q hq'

theorem Dropped.ended {t : State} (h : Dropped s t pid) : Dropped s (t.ended pid) pid where
  inv := ⟨h.inv.cfgOk, h.inv.memory.of_same rfl ⟨rfl, rfl, rfl⟩, ended_mmuWf h.inv.mmu h.empty, h.inv.engine⟩
  only := h.only.trans (by constructor <;> rfl)
  nextPid := h.nextPid
  ram := h.ram
  disk := h.disk
  empty := by rw [State.ended_table, if_pos rfl]
  live q hq := by rw [State.ended_live, if_neg hq, h.live q hq]
  table q hq := by rw [State.ended_table, if_neg hq, h.table q hq]
  refs l := by rw [← h.refs l]; cases l <;> rfl

theorem State.endProcess_not_live (h : s.live pid = false) : s.endProcess pid = .error .invalidArgument := by
  unfold State.endProcess
  rw [if_neg (by simp [h])]

theorem State.endProcess_live {t : State} (h : s.live pid = true) (ht : s.removeAll pid = .ok t) :
    s.endProcess pid = .ok (t.ended pid) := by
  simp only [State.endProcess, if_pos h, ht]
  rfl

theorem removePagedir_inv {t : State} (hi : Inv s) (h : s.removePagedir = .ok t) : Inv t := by
  unfold State.removePagedir at h
  split at h
  · cases h
  · obtain ⟨u, hu, hdrop, -⟩ := removeAll_dropped hi ‹Nat›
    rw [hu] at h
    cases h
    exact hdrop.inv

theorem endProcess_inv {t : State} (hi : Inv s) (h : s.endProcess pid = .ok t) : Inv t := by
  cases hl : s.live pid with
  | false => rw [State.endProcess_not_live hl] at h; cases h
  | true =>
    obtain ⟨u, hu, hdrop, -⟩ := removeAll_dropped hi pid
    rw [State.endProcess_live hl hu] at h
    cases h
    exact hdrop.ended.inv

end Ended

/-- Settles O55. -/
theorem processOperations : Obligations.ProcessOperations := by
  intro s hi
  refine ⟨⟨rfl, ?_, rfl, rfl, ?_, fun p => ?_, fun pid hpid => ⟨?_, ?_⟩⟩, fun pid => ⟨fun h => ?_, fun h => ?_⟩, fun hc => ?_,
    fun pid hc => ?_, fun pid => ⟨State.endProcess_not_live, fun hlive => ?_⟩⟩
  · rw [State.live, hi.mmu.find_nextPid]; rfl
  · rw [State.beginProcess_live, if_pos rfl]
  · rw [State.beginProcess_table, if_pos rfl]; rfl
  · rw [State.beginProcess_live, if_neg hpid]
  · rw [State.beginProcess_table, if_neg hpid]
  · rw [State.setCurrent, if_pos h]
  · rw [State.setCurrent, if_neg (by simp [h])]
  · rw [State.removePagedir, hc]
  · obtain ⟨t, ht, hdrop, hcur, hlive⟩ := removeAll_dropped hi pid
    exact ⟨t, by rw [State.removePagedir, hc]; exact ht, hdrop.emptied, hlive.trans (hi.mmu.currentLive pid hc), hcur⟩
  · obtain ⟨t, ht, hdrop, hcur, -⟩ := removeAll_dropped hi pid
    refine ⟨_, State.endProcess_live hlive ht, hdrop.ended.emptied, ?_, ?_⟩
    · rw [State.ended_live, if_pos rfl]
    · rw [State.ended, hcur]

end Sys2Proof.Machine

/-! The invariant through the host's operations (60_exceptions.md R295). -/

namespace Sys2Proof.Machine

section HostCalls

variable {s t : State}

/-! ## load_image, reset and the host's translate -/

theorem Memory.load_inside {m : Memory} {size lo : Nat} {bytes : List Byte} (h : m.inside size) (hlo : lo + bytes.length ≤ size) :
    (m.load lo bytes).inside size :=
  Memory.writeMany_inside h (fun o ho => by rw [List.mem_range'_1] at ho; omega) bytes

theorem loadImage_inv {base : Word} {bytes : List Byte} (hi : Inv s) (h : s.loadImage base bytes = .ok t) : Inv t := by
  by_cases hrom : s.cfg.romBase ≤ base.toNat ∧ base.toNat + bytes.length ≤ s.cfg.romBase + s.cfg.romSize
  · rw [State.loadImage_rom hrom.1 hrom.2] at h
    cases h
    exact ⟨hi.cfgOk, { hi.memory with
      romWf := Memory.load_wf hi.memory.romWf _ _
      romInside := Memory.load_inside hi.memory.romInside (by simp only; omega) }, hi.mmu.of_same rfl (.refl s), hi.engine⟩
  · by_cases hram : s.cfg.ramBase ≤ base.toNat ∧ base.toNat + bytes.length ≤ s.cfg.ramBase + s.cfg.ramSize
    · rw [State.loadImage_ram hrom hram.1 hram.2] at h
      cases h
      exact ⟨hi.cfgOk, { hi.memory with
        ramWf := Memory.load_wf hi.memory.ramWf _ _
        ramInside := Memory.load_inside hi.memory.ramInside (by simp only; omega) }, hi.mmu.of_same rfl (.refl s), hi.engine⟩
    · rw [State.loadImage_neither hrom hram] at h
      cases h

theorem Inv.resetCore (hi : Inv s) : Inv s.resetCore := hi.of_same rfl ⟨rfl, rfl, rfl⟩ (.refl s) nofun

/-! ## Replies -/

/-- An operation that keeps the invariant where it answers keeps it where it is refused too: it then changes nothing. -/
theorem replyCtl_inv {op : Except CtlError State} (hi : Inv s) (h : ∀ t, op = .ok t → Inv t) : Inv (replyCtl s op).2 := by
  cases op with
  | ok t => exact h t rfl
  | error e => exact hi

theorem replyAccess_inv {α : Type} {answer : α → HostReply} {op : Access α} (hi : Inv s) (hok : ∀ v t, op = .ok v t → Inv t)
    (hfault : ∀ c t, op = .fault c t → Inv t) : Inv (replyAccess s answer op).2 := by
  cases op with
  | ok v t => exact hok v t rfl
  | fault c t => exact hfault c t rfl
  | stuck e => exact hi

/-! ## Every host operation -/

theorem hostRun_inv {max : Nat} (hi : Inv s) : Inv (hostCallIdle (.run max) s).2 := by
  simp only [hostCallIdle]
  split
  · next h => exact run_inv hi h
  · exact hi
  · exact hi

theorem hostLoadImage_inv {base : Word} {bytes : List Byte} (hi : Inv s) : Inv (hostCallIdle (.loadImage base bytes) s).2 := by
  simp only [hostCallIdle]
  split
  · next h => exact loadImage_inv hi h
  · exact hi

theorem hostBusRead_inv {a : Word} {w : Width} (hi : Inv s) : Inv (hostCallIdle (.busRead a w) s).2 :=
  replyAccess_inv hi
    (fun _ _ h => by
      obtain ⟨pl, hr, -, -⟩ := State.memRead_ok h
      exact hi.resolve_ok hr)
    fun _ _ h => hi.resolve_fault (State.memRead_fault h).1

theorem hostBusWrite_inv {a : Word} {w : Width} {v : Word} (hi : Inv s) : Inv (hostCallIdle (.busWrite a w v) s).2 :=
  replyAccess_inv hi
    (fun _ _ h => by
      obtain ⟨pl, s1, hr, rfl, -⟩ := State.memWrite_ok h
      exact hi.resolve_storeAt rfl hr v)
    fun _ _ h => hi.resolve_fault (State.memWrite_fault h).1

theorem hostTranslate_inv {p : Nat} (hi : Inv s) : Inv (hostCallIdle (.translate p) s).2 := by
  simp only [hostCallIdle]
  split
  · exact replyAccess_inv hi (fun _ _ h => hi.of_kept (translate_kept hi.cfgOk hi.memory hi.mmu h))
      fun _ _ h => State.translate_fault h ▸ hi
  · exact hi

theorem hostRemoveVpage_inv {p : Nat} (hi : Inv s) : Inv (hostCallIdle (.removeVpage p) s).2 :=
  replyCtl_inv hi fun t h => by
    unfold State.removeVpage at h
    split at h
    · cases h
    · exact removeEntryOf_inv hi h

end HostCalls

/-- Settles O44: an operation during a run changes nothing; between runs, each operation's own lemma. -/
theorem hostCallsKeepInvariant : Obligations.HostCallsKeepInvariant := by
  intro s call hi halloc hreturn
  unfold hostCall
  split
  · exact hi
  · cases call with
    | reset => exact hi.resetCore
    | run max => exact hostRun_inv hi
    | writeReg r v => exact hi.setReg r v
    | writePc v => exact hi.of_same rfl ⟨rfl, rfl, rfl⟩ (.refl s) hi.engine
    | writeFlags v => exact hi.setFlags _
    | writeFlag x b => exact hi.setFlags _
    | busRead a w => exact hostBusRead_inv hi
    | busWrite a w v => exact hostBusWrite_inv hi
    | loadImage base bytes => exact hostLoadImage_inv hi
    | allocateOne p => exact absurd rfl (halloc p)
    | returnOne p n => exact absurd rfl (hreturn p n)
    | addVpage p kernel write execute cow => exact replyCtl_inv hi fun _ => addVpage_inv hi
    | removeVpage p => exact hostRemoveVpage_inv hi
    | removePagedir => exact replyCtl_inv hi fun _ => removePagedir_inv hi
    | shareVpage srcPid src dst write execute cow => exact replyCtl_inv hi fun _ => shareVpage_inv hi
    | protectVpage p write execute cow => exact replyCtl_inv hi fun _ => protectVpage_inv hi
    | pageOut p => exact replyCtl_inv hi fun _ => pageOut_inv hi
    | pageIn p => exact replyCtl_inv hi fun _ => pageIn_inv hi
    | translate p => exact hostTranslate_inv hi
    | beginProcess => exact beginProcess_inv hi
    | endProcess pid => exact replyCtl_inv hi fun _ => endProcess_inv hi
    | setCurrent pid => exact replyCtl_inv hi fun _ => setCurrent_inv hi
    | readReg | readPc | readFlags | readFlag | inspectEntry | inspectFrameRef | inspectDiskRef | inspectPool | inspectCycles
    | inspectLastResult => exact hi

end Sys2Proof.Machine

/-! The decoder and the encoder are inverse, the words that decode to nothing are exactly the Invalid ones, and every field of a
decoded instruction stands at its bits (30_encoding.md R120 to R140). -/

namespace Sys2Proof

open Machine

/-- Settles O1: each format reads back what it writes, and the opcode selects the format. -/
theorem decodeAfterEncode : Obligations.DecodeAfterEncode := fun _ => decode_encode

/-! ## Fields of a word, joined again -/

/-- A one-bit field is the bit. -/
theorem extract_one {n : Nat} (x : BitVec n) (j : Nat) : x.extractLsb' j 1 = BitVec.ofBool (x.getLsbD j) := by
  ext k hk
  obtain rfl : k = 0 := by omega
  simp

theorem extract_one_set {n : Nat} {x : BitVec n} {j : Nat} (h : x.getLsbD j = true) : x.extractLsb' j 1 = 1#1 := by
  rw [extract_one, h]; rfl

theorem extract_one_clear {n : Nat} {x : BitVec n} {j : Nat} (h : ¬ x.getLsbD j = true) : x.extractLsb' j 1 = 0#1 := by
  rw [extract_one, Bool.eq_false_of_not_eq_true h]; rfl

theorem extract_zext {n : Nat} (v : BitVec n) (h : n ≤ 32) : (zext v).extractLsb' 0 n = v := by
  rw [extract_low_eq_setWidth, BitVec.setWidth_setWidth_of_le v h, BitVec.setWidth_eq]

theorem getLsbD_sext {n j : Nat} (v : BitVec n) (h : n ≤ 32) (hj : j < n) : (sext v).getLsbD j = v.getLsbD j := by
  rw [BitVec.getLsbD_signExtend, if_pos hj, decide_eq_true (by omega), Bool.true_and]

theorem extract_sext {n : Nat} (v : BitVec n) (h : n ≤ 32) : (sext v).extractLsb' 0 n = v := by
  ext j hj
  rw [BitVec.getElem_extractLsb', Nat.zero_add, getLsbD_sext v h hj, BitVec.getLsbD_eq_getElem hj]

/-- A branch offset's field, above its two low zeros. -/
theorem extract_sext_mul_four (v : BitVec 22) : (sext v * 4#32).extractLsb' 2 22 = v := by
  rw [show (4#32) = BitVec.twoPow 32 2 from rfl, BitVec.mul_twoPow_eq_shiftLeft]
  ext j hj
  rw [BitVec.getElem_extractLsb', BitVec.getLsbD_shiftLeft, decide_eq_true (by omega), decide_eq_false (by omega),
    Nat.add_sub_cancel_left, getLsbD_sext v (by decide) hj, BitVec.getLsbD_eq_getElem hj]
  rfl

theorem zextFits_zext {n : Nat} (v : BitVec n) (h : n ≤ 32) : zextFits n (zext v) = true :=
  beq_iff_eq.2 (congrArg zext ((extract_low_eq_setWidth _).symm.trans (extract_zext v h)))

theorem sextFits_sext {n : Nat} (v : BitVec n) (h : n ≤ 32) : sextFits n (sext v) = true :=
  beq_iff_eq.2 (congrArg sext ((extract_low_eq_setWidth _).symm.trans (extract_sext v h)))

theorem branchOffsetFits_sext (v : BitVec 22) : branchOffsetFits (sext v * 4#32) = true := by
  rw [branchOffsetFits, extract_sext_mul_four, beq_self_eq_true]

theorem encodeShiftType_decode : ∀ v : BitVec 2, encodeShiftType (decodeShiftType v) = v := by decide

theorem decodeCond_eq_none : ∀ v : BitVec 4, decodeCond v = none ↔ v = 0b1111#4 := by decide

theorem encodeCond_decode {v : BitVec 4} {c : Cond} (h : decodeCond v = some c) : encodeCond c = v := by
  revert v; cases c <;> decide

theorem decodeAddrMode_eq_none : ∀ v : BitVec 2, decodeAddrMode v = none ↔ v = 0b11#2 := by decide

theorem encodeAddrMode_decode {v : BitVec 2} {am : AddrMode} (h : decodeAddrMode v = some am) : encodeAddrMode am = v := by
  revert v; cases am <;> decide

/-! ## The reserved-zero bits of each format -/

section Reserved

/-- The mask of the field of `len` bits from bit `lo` up. -/
def fieldMask (lo len : Nat) : Word := (BitVec.allOnes len).setWidth 32 <<< lo

theorem getLsbD_fieldMask {lo len j : Nat} (hj : j < 32) :
    (fieldMask lo len).getLsbD j = decide (lo ≤ j ∧ j < lo + len) := by
  by_cases hlo : j < lo
  · simp [fieldMask, hj, hlo]
  · simp [fieldMask, hj, hlo, show lo ≤ j by omega, show j - lo < len ↔ j < lo + len by omega]

theorem and_fieldMask_eq_zero {w : Word} {lo len : Nat} (h : lo + len ≤ 32) :
    w &&& fieldMask lo len = 0#32 ↔ w.extractLsb' lo len = 0#len := by
  constructor
  · intro hz
    ext j hj
    have hbit : (w &&& fieldMask lo len).getLsbD (lo + j) = false := by rw [hz, BitVec.getLsbD_zero]
    rw [BitVec.getLsbD_and, getLsbD_fieldMask (by omega), decide_eq_true (by omega), Bool.and_true] at hbit
    rw [BitVec.getElem_extractLsb', hbit, BitVec.getElem_zero]
  · intro hz
    refine BitVec.eq_of_getLsbD_eq fun j hj => ?_
    rw [BitVec.getLsbD_and, getLsbD_fieldMask hj, BitVec.getLsbD_zero]
    by_cases hin : lo ≤ j ∧ j < lo + len
    · have hbit := congrArg (·.getLsbD (j - lo)) hz
      rw [decide_eq_true hin, Bool.and_true]
      simpa [show j - lo < len by omega, show lo + (j - lo) = j by omega] using hbit
    · rw [decide_eq_false hin, Bool.and_false]

theorem and_two_fieldMasks_eq_zero {w : Word} {lo len lo' len' : Nat} (h : lo + len ≤ 32) (h' : lo' + len' ≤ 32) :
    w &&& (fieldMask lo len ||| fieldMask lo' len') = 0#32 ↔
      w.extractLsb' lo len = 0#len ∧ w.extractLsb' lo' len' = 0#len' := by
  rw [BitVec.and_or_distrib_left, BitVec.or_eq_zero_iff, and_fieldMask_eq_zero h, and_fieldMask_eq_zero h']

/-- The word's opcode is one of the format's, and not a reserved one (30_encoding.md R122, R123). -/
structure HasFormat (w : Word) (fmt : Format) : Prop where
  notReserved : reservedOpcode (w.extractLsb' 26 6) = false
  format : formatOfTop (w.extractLsb' 28 4) = some fmt

theorem reservedOpcode_opcode (i : Instr) : reservedOpcode i.opcode = false := by cases i <;> rfl

theorem hasFormat_of_opcode {w : Word} (i : Instr) (h : w.extractLsb' 26 6 = i.opcode) : HasFormat w i.format where
  notReserved := h ▸ reservedOpcode_opcode i
  format := by
    rw [← formatOfTop_opcode i, ← h, extract_extract w 26 6 2 4 (by decide)]

variable {w : Word} {fmt : Format}

theorem HasFormat.invalidWord_iff (h : HasFormat w fmt) : InvalidWord w ↔
    w &&& reservedBits w ≠ 0#32 ∨ (fmt = .mem ∧ w.extractLsb' 14 2 = 0b11#2) ∨
      ((fmt = .bi ∨ fmt = .br) ∧ w.extractLsb' 22 4 = 0b1111#4) := by
  simp [InvalidWord, h.notReserved, h.format]

theorem invalidWord_dp (h : HasFormat w .dp) : InvalidWord w ↔ ¬ w.getLsbD 14 ∧ w.extractLsb' 0 2 ≠ 0#2 := by
  simp only [h.invalidWord_iff, reservedBits, h.format, show 3#32 = fieldMask 0 2 from rfl]
  by_cases hi : w.getLsbD 14 <;> simp [-BitVec.getLsbD_eq_getElem, hi, and_fieldMask_eq_zero]

theorem invalidWord_sh (h : HasFormat w .sh) :
    InvalidWord w ↔ if w.getLsbD 14 then w.extractLsb' 5 9 ≠ 0#9 else w.extractLsb' 0 9 ≠ 0#9 := by
  simp only [h.invalidWord_iff, reservedBits, h.format, show 0x3FE0#32 = fieldMask 5 9 from rfl,
    show 0x1FF#32 = fieldMask 0 9 from rfl]
  by_cases hi : w.getLsbD 14 <;> simp [-BitVec.getLsbD_eq_getElem, hi, and_fieldMask_eq_zero]

theorem invalidWord_cmp (h : HasFormat w .cmp) :
    InvalidWord w ↔ w.extractLsb' 20 6 ≠ 0#6 ∨ (¬ w.getLsbD 14 ∧ w.extractLsb' 0 2 ≠ 0#2) := by
  simp only [h.invalidWord_iff, reservedBits, h.format, show 0x03F00000#32 = fieldMask 20 6 from rfl,
    show 0x03F00003#32 = fieldMask 20 6 ||| fieldMask 0 2 from rfl]
  by_cases hi : w.getLsbD 14 <;>
    simp [-BitVec.getLsbD_eq_getElem, hi, and_fieldMask_eq_zero, and_two_fieldMasks_eq_zero, imp_iff_not_or]

theorem invalidWord_mov (h : HasFormat w .mov) : InvalidWord w ↔ ¬ w.getLsbD 19 ∧ w.extractLsb' 0 7 ≠ 0#7 := by
  simp only [h.invalidWord_iff, reservedBits, h.format, show 0x7F#32 = fieldMask 0 7 from rfl]
  by_cases hi : w.getLsbD 19 <;> simp [-BitVec.getLsbD_eq_getElem, hi, and_fieldMask_eq_zero]

theorem invalidWord_mem (h : HasFormat w .mem) :
    InvalidWord w ↔ (¬ w.getLsbD 13 ∧ w.extractLsb' 0 8 ≠ 0#8) ∨ w.extractLsb' 14 2 = 0b11#2 := by
  simp only [h.invalidWord_iff, reservedBits, h.format, show 0xFF#32 = fieldMask 0 8 from rfl]
  by_cases hi : w.getLsbD 13 <;> simp [-BitVec.getLsbD_eq_getElem, hi, and_fieldMask_eq_zero]

theorem invalidWord_atm (h : HasFormat w .atm) : InvalidWord w ↔ w.extractLsb' 0 11 ≠ 0#11 := by
  simp [h.invalidWord_iff, reservedBits, h.format, show 0x7FF#32 = fieldMask 0 11 from rfl, and_fieldMask_eq_zero]

theorem invalidWord_bi (h : HasFormat w .bi) : InvalidWord w ↔ w.extractLsb' 22 4 = 0b1111#4 := by
  simp [h.invalidWord_iff, reservedBits, h.format]

theorem invalidWord_br (h : HasFormat w .br) :
    InvalidWord w ↔ w.extractLsb' 0 17 ≠ 0#17 ∨ w.extractLsb' 22 4 = 0b1111#4 := by
  simp [h.invalidWord_iff, reservedBits, h.format, show 0x1FFFF#32 = fieldMask 0 17 from rfl, and_fieldMask_eq_zero]

theorem invalidWord_fp3 (h : HasFormat w .fp3) : InvalidWord w ↔ w.extractLsb' 25 1 ≠ 0#1 ∨ w.extractLsb' 0 10 ≠ 0#10 := by
  simp [h.invalidWord_iff, reservedBits, h.format, show 0x020003FF#32 = fieldMask 25 1 ||| fieldMask 0 10 from rfl,
    and_two_fieldMasks_eq_zero, imp_iff_not_or]

theorem invalidWord_fpc (h : HasFormat w .fpc) : InvalidWord w ↔ w.extractLsb' 20 6 ≠ 0#6 ∨ w.extractLsb' 0 10 ≠ 0#10 := by
  simp [h.invalidWord_iff, reservedBits, h.format, show 0x03F003FF#32 = fieldMask 20 6 ||| fieldMask 0 10 from rfl,
    and_two_fieldMasks_eq_zero, imp_iff_not_or]

theorem invalidWord_sys (h : HasFormat w .sys) : InvalidWord w ↔ w.extractLsb' 26 6 = 0#6 ∧ w.extractLsb' 0 26 ≠ 0#26 := by
  simp only [h.invalidWord_iff, reservedBits, h.format, show 0x03FFFFFF#32 = fieldMask 0 26 from rfl]
  by_cases hop : w.extractLsb' 26 6 = 0#6 <;> simp [hop, and_fieldMask_eq_zero]

end Reserved

/-! ## What decoding answers -/

/-- What `decode` should answer for `w`: nothing for an Invalid word, else the well-formed instruction that encodes to it. -/
def DecodesTo (w : Word) : Option Instr → Prop
  | none => InvalidWord w
  | some i => ¬ InvalidWord w ∧ i.wf = true ∧ encode i = w

section Formats

variable {w : Word}

theorem decodeOperand2_eq_none : decodeOperand2 w = none ↔ ¬ w.getLsbD 14 ∧ w.extractLsb' 0 2 ≠ 0#2 := by
  unfold decodeOperand2
  split
  · next hi => simp only [hi, not_true_eq_false, false_and, reduceCtorEq]
  · next hi => simp only [hi, not_false_eq_true, true_and, ite_eq_right_iff, reduceCtorEq, imp_false, ne_eq]

theorem decodeOperand2_some {o : Operand2} (h : decodeOperand2 w = some o) :
    o.wf 14 = true ∧ encodeOperand2 o = w.extractLsb' 0 15 := by
  unfold decodeOperand2 at h
  split at h
  · next hi =>
    cases h
    refine ⟨zextFits_zext _ (by decide), ?_⟩
    rw [encodeOperand2, extract_zext _ (by decide), ← extract_one_set hi]
    exact BitVec.extractLsb'_append_extractLsb'_eq_extractLsb' rfl
  · next hi =>
    split at h
    · next hz =>
      cases h
      refine ⟨rfl, ?_⟩
      rw [encodeOperand2, encodeShiftType_decode, ← extract_one_clear hi, ← hz]
      simp (disch := decide) only [BitVec.extractLsb'_append_extractLsb'_eq_extractLsb']
    · cases h

theorem decodeDp_decodesTo {mk : Bool → Reg → Reg → Operand2 → Instr} (h : HasFormat w .dp)
    (hwf : ∀ f xd xn o, (mk f xd xn o).wf = o.wf 14)
    (henc : ∀ f xd xn o, encode (mk f xd xn o) = encodeDp (w.extractLsb' 26 6) f xd xn o) : DecodesTo w (decodeDp w mk) := by
  unfold decodeDp
  cases ho : decodeOperand2 w with
  | none => exact (invalidWord_dp h).2 (decodeOperand2_eq_none.1 ho)
  | some o =>
    obtain ⟨howf, hoenc⟩ := decodeOperand2_some ho
    refine ⟨fun hinv => ?_, (hwf ..).trans howf, (henc ..).trans ?_⟩
    · rw [invalidWord_dp h, ← decodeOperand2_eq_none, ho] at hinv
      cases hinv
    · rw [encodeDp, hoenc, ← extract_one]
      simp (disch := decide) only [BitVec.extractLsb'_append_extractLsb'_eq_extractLsb']
      exact extract_all w

theorem decodeSh_decodesTo {mk : Bool → Reg → Reg → ShiftAmount → Instr} (h : HasFormat w .sh)
    (hwf : ∀ f xd xn amt, (mk f xd xn amt).wf = amt.wf)
    (henc : ∀ f xd xn amt, encode (mk f xd xn amt) = encodeSh (w.extractLsb' 26 6) f xd xn amt) :
    DecodesTo w (decodeSh w mk) := by
  have hinv := invalidWord_sh h
  unfold decodeSh
  split
  · next hi =>
    rw [if_pos hi] at hinv
    split
    · next hz =>
      refine ⟨fun hw => hinv.1 hw hz, (hwf ..).trans (zextFits_zext _ (by decide)), (henc ..).trans ?_⟩
      rw [encodeSh, encodeShiftAmount, extract_zext _ (by decide), ← extract_one_set hi, ← hz, ← extract_one]
      simp (disch := decide) only [BitVec.extractLsb'_append_extractLsb'_eq_extractLsb']
      exact extract_all w
    · next hz => exact hinv.2 hz
  · next hi =>
    rw [if_neg hi] at hinv
    split
    · next hz =>
      refine ⟨fun hw => hinv.1 hw hz, hwf .., (henc ..).trans ?_⟩
      rw [encodeSh, encodeShiftAmount, ← extract_one_clear hi, ← hz, ← extract_one]
      simp (disch := decide) only [BitVec.extractLsb'_append_extractLsb'_eq_extractLsb']
      exact extract_all w
    · next hz => exact hinv.2 hz

theorem decodeCmp_decodesTo {mk : Reg → Operand2 → Instr} (h : HasFormat w .cmp)
    (hwf : ∀ xn o, (mk xn o).wf = o.wf 14) (henc : ∀ xn o, encode (mk xn o) = encodeCmp (w.extractLsb' 26 6) xn o) :
    DecodesTo w (decodeCmp w mk) := by
  have hinv := invalidWord_cmp h
  rw [← decodeOperand2_eq_none] at hinv
  unfold decodeCmp
  split
  · next hz =>
    cases ho : decodeOperand2 w with
    | none => exact hinv.2 (.inr ho)
    | some o =>
      obtain ⟨howf, hoenc⟩ := decodeOperand2_some ho
      refine ⟨fun hw => ?_, (hwf ..).trans howf, (henc ..).trans ?_⟩
      · exact (hinv.1 hw).elim (absurd hz) (ho ▸ nofun)
      · rw [encodeCmp, hoenc, ← hz]
        simp (disch := decide) only [BitVec.extractLsb'_append_extractLsb'_eq_extractLsb']
        exact extract_all w
  · next hz => exact hinv.2 (.inl hz)

theorem decodeMov_decodesTo {mk : Bool → Reg → Operand2 → Instr} (h : HasFormat w .mov)
    (hwf : ∀ f xd o, (mk f xd o).wf = o.wf 19)
    (henc : ∀ f xd o, encode (mk f xd o) = encodeMov (w.extractLsb' 26 6) f xd o) : DecodesTo w (decodeMov w mk) := by
  have hinv := invalidWord_mov h
  unfold decodeMov
  split
  · next hi =>
    refine ⟨fun hw => (hinv.1 hw).1 hi, (hwf ..).trans (zextFits_zext _ (by decide)), (henc ..).trans ?_⟩
    rw [encodeMov, encodeMovOperand, extract_zext _ (by decide), ← extract_one_set hi, ← extract_one]
    simp (disch := decide) only [BitVec.extractLsb'_append_extractLsb'_eq_extractLsb']
    exact extract_all w
  · next hi =>
    split
    · next hz =>
      refine ⟨fun hw => (hinv.1 hw).2 hz, hwf .., (henc ..).trans ?_⟩
      rw [encodeMov, encodeMovOperand, encodeShiftType_decode, ← extract_one_clear hi, ← hz, ← extract_one]
      simp (disch := decide) only [BitVec.extractLsb'_append_extractLsb'_eq_extractLsb']
      exact extract_all w
    · next hz => exact hinv.2 ⟨hi, hz⟩

theorem decodeMemOffset_eq_none : decodeMemOffset w = none ↔ ¬ w.getLsbD 13 ∧ w.extractLsb' 0 8 ≠ 0#8 := by
  unfold decodeMemOffset
  split
  · next hi => simp only [hi, not_true_eq_false, false_and, reduceCtorEq]
  · next hi => simp only [hi, not_false_eq_true, true_and, ite_eq_right_iff, reduceCtorEq, imp_false, ne_eq]

theorem decodeMemOffset_some {off : MemOffset} (h : decodeMemOffset w = some off) :
    off.wf = true ∧ encodeMemOffset off = w.extractLsb' 0 14 := by
  unfold decodeMemOffset at h
  split at h
  · next hi =>
    cases h
    refine ⟨sextFits_sext _ (by decide), ?_⟩
    rw [encodeMemOffset, extract_sext _ (by decide), ← extract_one_set hi]
    exact BitVec.extractLsb'_append_extractLsb'_eq_extractLsb' rfl
  · next hi =>
    split at h
    · next hz =>
      cases h
      refine ⟨rfl, ?_⟩
      rw [encodeMemOffset, ← extract_one_clear hi, ← hz]
      simp (disch := decide) only [BitVec.extractLsb'_append_extractLsb'_eq_extractLsb']
    · cases h

theorem decodeMem_decodesTo {mk : Reg → Reg → AddrMode → MemOffset → Instr} (h : HasFormat w .mem)
    (hwf : ∀ xt xn am off, (mk xt xn am off).wf = off.wf)
    (henc : ∀ xt xn am off, encode (mk xt xn am off) = encodeMem (w.extractLsb' 26 6) xt xn am off) :
    DecodesTo w (decodeMem w mk) := by
  have hinv := invalidWord_mem h
  rw [← decodeMemOffset_eq_none, ← decodeAddrMode_eq_none] at hinv
  unfold decodeMem
  cases ham : decodeAddrMode (w.extractLsb' 14 2) with
  | none => exact hinv.2 (.inr ham)
  | some am =>
    cases hoff : decodeMemOffset w with
    | none => exact hinv.2 (.inl hoff)
    | some off =>
      obtain ⟨howf, hoenc⟩ := decodeMemOffset_some hoff
      refine ⟨fun hw => ?_, (hwf ..).trans howf, (henc ..).trans ?_⟩
      · exact (hinv.1 hw).elim (hoff ▸ nofun) (ham ▸ nofun)
      · rw [encodeMem, encodeAddrMode_decode ham, hoenc]
        simp (disch := decide) only [BitVec.extractLsb'_append_extractLsb'_eq_extractLsb']
        exact extract_all w

theorem decodeAtm_decodesTo {mk : Reg → Reg → Reg → Instr} (h : HasFormat w .atm)
    (hwf : ∀ xt xs xn, (mk xt xs xn).wf = true)
    (henc : ∀ xt xs xn, encode (mk xt xs xn) = encodeAtm (w.extractLsb' 26 6) xt xs xn) : DecodesTo w (decodeAtm w mk) := by
  have hinv := invalidWord_atm h
  unfold decodeAtm
  split
  · next hz =>
    refine ⟨fun hw => hinv.1 hw hz, hwf .., (henc ..).trans ?_⟩
    rw [encodeAtm, ← hz]
    simp (disch := decide) only [BitVec.extractLsb'_append_extractLsb'_eq_extractLsb']
    exact extract_all w
  · next hz => exact hinv.2 hz

theorem decodeBi_decodesTo {mk : Cond → Word → Instr} (h : HasFormat w .bi)
    (hwf : ∀ c off, (mk c off).wf = branchOffsetFits off)
    (henc : ∀ c off, encode (mk c off) = encodeBi (w.extractLsb' 26 6) c off) : DecodesTo w (decodeBi w mk) := by
  have hinv := invalidWord_bi h
  rw [← decodeCond_eq_none] at hinv
  unfold decodeBi
  cases hc : decodeCond (w.extractLsb' 22 4) with
  | none => exact hinv.2 hc
  | some c =>
    refine ⟨fun hw => ?_, (hwf ..).trans (branchOffsetFits_sext _), (henc ..).trans ?_⟩
    · exact absurd (hinv.1 hw) (hc ▸ nofun)
    · rw [encodeBi, encodeCond_decode hc, extract_sext_mul_four]
      simp (disch := decide) only [BitVec.extractLsb'_append_extractLsb'_eq_extractLsb']
      exact extract_all w

theorem decodeBr_decodesTo {mk : Cond → Reg → Instr} (h : HasFormat w .br) (hwf : ∀ c xn, (mk c xn).wf = true)
    (henc : ∀ c xn, encode (mk c xn) = encodeBr (w.extractLsb' 26 6) c xn) : DecodesTo w (decodeBr w mk) := by
  have hinv := invalidWord_br h
  rw [← decodeCond_eq_none] at hinv
  unfold decodeBr
  split
  · next hz =>
    cases hc : decodeCond (w.extractLsb' 22 4) with
    | none => exact hinv.2 (.inr hc)
    | some c =>
      refine ⟨fun hw => ?_, hwf .., (henc ..).trans ?_⟩
      · exact (hinv.1 hw).elim (absurd hz) (hc ▸ nofun)
      · rw [encodeBr, encodeCond_decode hc, ← hz]
        simp (disch := decide) only [BitVec.extractLsb'_append_extractLsb'_eq_extractLsb']
        exact extract_all w
  · next hz => exact hinv.2 (.inl hz)

theorem decodeFp3_decodesTo {mk : Reg → Reg → Reg → Instr} (h : HasFormat w .fp3)
    (hwf : ∀ xd xn xm, (mk xd xn xm).wf = true)
    (henc : ∀ xd xn xm, encode (mk xd xn xm) = encodeFp3 (w.extractLsb' 26 6) xd xn xm) : DecodesTo w (decodeFp3 w mk) := by
  have hinv := invalidWord_fp3 h
  unfold decodeFp3
  split
  · next hs => exact hinv.2 (.inl (extract_one_set hs ▸ by decide))
  · next hs =>
    split
    · next hz =>
      refine ⟨fun hw => (hinv.1 hw).elim (absurd (extract_one_clear hs)) (absurd hz), hwf .., (henc ..).trans ?_⟩
      rw [encodeFp3, ← extract_one_clear hs, ← hz]
      simp (disch := decide) only [BitVec.extractLsb'_append_extractLsb'_eq_extractLsb']
      exact extract_all w
    · next hz => exact hinv.2 (.inr hz)

theorem decodeFpc_decodesTo {mk : Reg → Reg → Instr} (h : HasFormat w .fpc) (hwf : ∀ xn xm, (mk xn xm).wf = true)
    (henc : ∀ xn xm, encode (mk xn xm) = encodeFpc (w.extractLsb' 26 6) xn xm) : DecodesTo w (decodeFpc w mk) := by
  have hinv := invalidWord_fpc h
  unfold decodeFpc
  split
  · next hd =>
    split
    · next hz =>
      refine ⟨fun hw => (hinv.1 hw).elim (absurd hd) (absurd hz), hwf .., (henc ..).trans ?_⟩
      rw [encodeFpc, ← hd, ← hz]
      simp (disch := decide) only [BitVec.extractLsb'_append_extractLsb'_eq_extractLsb']
      exact extract_all w
    · next hz => exact hinv.2 (.inr hz)
  · next hd => exact hinv.2 (.inl hd)

theorem encode_hlt : encode .hlt = 0x00#6 ++ 0#26 := rfl

theorem encode_swi (imm : Word) : encode (.swi imm) = 0x01#6 ++ imm.extractLsb' 0 26 := rfl

/-- Format SYS, opcode 0x00 (30_encoding.md R135). -/
theorem decodeHlt_decodesTo (hop : w.extractLsb' 26 6 = 0x00#6) :
    DecodesTo w (if w.extractLsb' 0 26 = 0#26 then some .hlt else none) := by
  have hinv := invalidWord_sys (hasFormat_of_opcode .hlt hop)
  split
  · next hz =>
    refine ⟨fun hw => (hinv.1 hw).2 hz, rfl, ?_⟩
    rw [encode_hlt, ← hop, ← hz]
    simp (disch := decide) only [BitVec.extractLsb'_append_extractLsb'_eq_extractLsb']
    exact extract_all w
  · next hz => exact hinv.2 ⟨hop, hz⟩

/-- Format SYS, opcode 0x01 (30_encoding.md R135). -/
theorem decodeSwi_decodesTo (hop : w.extractLsb' 26 6 = 0x01#6) : DecodesTo w (some (.swi (zext (w.extractLsb' 0 26)))) := by
  have hinv := invalidWord_sys (hasFormat_of_opcode (.swi 0#32) hop)
  refine ⟨fun hw => absurd (hop.symm.trans (hinv.1 hw).1) (by decide), zextFits_zext _ (by decide), ?_⟩
  rw [encode_swi, extract_zext _ (by decide), ← hop]
  simp (disch := decide) only [BitVec.extractLsb'_append_extractLsb'_eq_extractLsb']
  exact extract_all w

end Formats

/-- An opcode that is not reserved is the opcode of an instruction, such as that of the word with no other bit set. -/
theorem exists_instr_of_opcode {op : Opcode} (h : reservedOpcode op = false) : ∃ i : Instr, i.opcode = op := by
  have hdecode : ∀ op : Opcode, reservedOpcode op = false → (decode (op ++ 0#26)).map Instr.opcode = some op := by
    decide +kernel
  obtain ⟨i, -, hi⟩ := Option.map_eq_some_iff.1 (hdecode op h)
  exact ⟨i, hi⟩

theorem decode_reserved {w : Word} (h : reservedOpcode (w.extractLsb' 26 6) = true) : decode w = none := by
  unfold decode
  split
  case h_42 => rfl
  all_goals next hop => exact absurd h (by rw [hop]; decide)

/-- What `decode` answers, opcode by opcode (30_encoding.md R123, R137). -/
theorem decode_decodesTo (w : Word) : DecodesTo w (decode w) := by
  cases hr : reservedOpcode (w.extractLsb' 26 6) with
  | true => rw [decode_reserved hr]; exact .inl hr
  | false =>
    obtain ⟨i, hi⟩ := exists_instr_of_opcode hr
    have hfmt := hasFormat_of_opcode i hi.symm
    unfold decode
    rw [← hi]
    cases i with
    | hlt => exact decodeHlt_decodesTo hi.symm
    | swi => exact decodeSwi_decodesTo hi.symm
    | add | sub | rsb | adc | sbc | rsc | mul | and | orr | eor | bic =>
      exact decodeDp_decodesTo hfmt (fun _ _ _ _ => rfl) (hi ▸ fun _ _ _ _ => rfl)
    | lsl | lsr | asr | ror => exact decodeSh_decodesTo hfmt (fun _ _ _ _ => rfl) (hi ▸ fun _ _ _ _ => rfl)
    | cmp | cmn | tst | teq => exact decodeCmp_decodesTo hfmt (fun _ _ => rfl) (hi ▸ fun _ _ => rfl)
    | mov | mvn => exact decodeMov_decodesTo hfmt (fun _ _ _ => rfl) (hi ▸ fun _ _ _ => rfl)
    | ldr | ldrh | ldrb | str | strh | strb => exact decodeMem_decodesTo hfmt (fun _ _ _ _ => rfl) (hi ▸ fun _ _ _ _ => rfl)
    | swp | swph | swpb => exact decodeAtm_decodesTo hfmt (fun _ _ _ => rfl) (hi ▸ fun _ _ _ => rfl)
    | b | bl => exact decodeBi_decodesTo hfmt (fun _ _ => rfl) (hi ▸ fun _ _ => rfl)
    | bx | blx => exact decodeBr_decodesTo hfmt (fun _ _ => rfl) (hi ▸ fun _ _ => rfl)
    | vaddF32 | vsubF32 | vmulF32 | vdivF32 => exact decodeFp3_decodesTo hfmt (fun _ _ _ => rfl) (hi ▸ fun _ _ _ => rfl)
    | vcmpF32 => exact decodeFpc_decodesTo hfmt (fun _ _ => rfl) (hi ▸ fun _ _ => rfl)

theorem decode_eq_none_iff (w : Word) : decode w = none ↔ InvalidWord w := by
  have h := decode_decodesTo w
  cases hd : decode w with
  | none => rw [hd] at h; exact iff_of_true rfl h
  | some i => rw [hd] at h; exact iff_of_false nofun h.1

theorem decode_some {w : Word} {i : Instr} (h : decode w = some i) : i.wf = true ∧ encode i = w := by
  have hw := decode_decodesTo w
  rw [h] at hw
  exact hw.2

/-- Settles O2: an instruction decoded from a word encodes to that word. -/
theorem encodeAfterDecode : Obligations.EncodeAfterDecode := by
  refine ⟨fun w => ?_, fun w w' i h h' => ?_, fun w i h => (decode_some h).2⟩
  · cases hd : decode w with
    | none => exact .inl ⟨(decode_eq_none_iff w).1 hd, rfl⟩
    | some i => exact .inr ⟨fun hw => by simp [(decode_eq_none_iff w).2 hw] at hd, i, rfl, (decode_some hd).1⟩
  · exact (decode_some h).2.symm.trans (decode_some h').2

end Sys2Proof

namespace Sys2Proof.Machine

/-- A step that fetches a word with no instruction takes InvalidOpcode. -/
theorem step_of_fetch_invalid {s s1 : State} {w : Word} (hs : s.execState ≠ .halted)
    (hf : s.resume.fetch = .ok w s1) (hi : decode w = none) : step s = takeFault (.invalidOpcode w) (some w) s1 := by
  have hfetched : s.resume.fetchInstr = .stop (takeFault (.invalidOpcode w) (some w) s1) := by
    simp only [State.fetchInstr, State.decodeFetched, hf, hi]
  unfold step
  cases he : s.execState with
  | halted => exact absurd he hs
  | running | faulted => simp only [hfetched]

/-- Settles O3. -/
theorem invalidWordsExactly : Obligations.InvalidWordsExactly :=
  ⟨decode_eq_none_iff, fun s w s1 hs hf hw => by
    rw [step_of_fetch_invalid hs hf ((decode_eq_none_iff w).2 hw)]
    exact takeFault_spec _ _ s1⟩

/-! ## The fields of an encoded word, as numbers -/

theorem fieldOf_eq (w : Word) (lo n : Nat) : fieldOf w lo n = (w.extractLsb' lo n).toNat := by
  rw [BitVec.extractLsb'_toNat, Nat.shiftRight_eq_div_pow, fieldOf]

theorem signedFieldOf_eq (w : Word) (lo n : Nat) (hn : 0 < n) : signedFieldOf w lo n = (w.extractLsb' lo n).toInt := by
  obtain ⟨m, rfl⟩ : ∃ m, n = m + 1 := ⟨n - 1, by omega⟩
  rw [signedFieldOf, fieldOf_eq, BitVec.toInt_eq_toNat_cond, Nat.add_sub_cancel]
  have hpow : 2 ^ (m + 1) = 2 * 2 ^ m := Nat.pow_succ'
  split
  · rw [if_pos (by omega)]
  · rw [if_neg (by omega)]; norm_cast

theorem toNat_eq_extract_of_zextFits {n : Nat} {v : Word} (h : zextFits n v = true) (hn : n ≤ 32) :
    v.toNat = (v.extractLsb' 0 n).toNat := by
  conv_lhs => rw [← zext_extract h]
  exact BitVec.toNat_setWidth_of_le hn

theorem toInt_eq_extract_of_sextFits {n : Nat} {v : Word} (h : sextFits n v = true) (hn : n ≤ 32) :
    v.toInt = (v.extractLsb' 0 n).toInt := by
  conv_lhs => rw [← sext_extract h]
  exact BitVec.toInt_signExtend_of_le hn

/-- A branch offset's number: the signed field times 4 does not overflow (30_encoding.md R131). -/
theorem toInt_eq_extract_of_branchOffsetFits {v : Word} (h : branchOffsetFits v = true) :
    v.toInt = (v.extractLsb' 2 22).toInt * 4 := by
  have hv : sext (v.extractLsb' 2 22) * 4#32 = v := beq_iff_eq.1 h
  conv_lhs => rw [← hv]
  have hlo := BitVec.le_toInt (v.extractLsb' 2 22)
  have hhi := BitVec.toInt_lt (x := v.extractLsb' 2 22)
  rw [BitVec.toInt_mul, BitVec.toInt_signExtend_of_le (by decide), show (4#32).toInt = 4 from rfl]
  exact Int.bmod_eq_of_le (by omega) (by omega)

theorem shiftTypeCode_eq (sh : ShiftType) : shiftTypeCode sh = (encodeShiftType sh).toNat := by cases sh <;> rfl

theorem condCode_eq (c : Cond) : condCode c = (encodeCond c).toNat := by cases c <;> rfl

theorem addrModeCode_eq (am : AddrMode) : addrModeCode am = (encodeAddrMode am).toNat := by cases am <;> rfl

/-- The opcode stands in `w[31:26]` (30_encoding.md R121). -/
theorem fieldOf_encode_opcode (i : Instr) : fieldOf (encode i) 26 6 = i.opcode.toNat := by rw [fieldOf_eq, encode_opcode]

theorem operand2At_encode (x : BitVec 17) {o : Operand2} (h : o.wf 14 = true) :
    Operand2At (x ++ encodeOperand2 o) o := by
  cases o with
  | imm v =>
    simp (disch := decide) only [Operand2At, fieldOf_eq, encodeOperand2, toNat_eq_extract_of_zextFits h, extract_append_lo,
      extract_append_hi, extract_all, Nat.sub_self, BitVec.reduceToNat, and_self]
  | reg xm sh shamt =>
    simp (disch := decide) only [Operand2At, fieldOf_eq, encodeOperand2, shiftTypeCode_eq, extract_append_lo,
      extract_append_hi, extract_all, Nat.reduceSub, Nat.sub_self, BitVec.reduceToNat, and_self]

section Formats

variable (op : Opcode) (f : Bool) (xd xn xm : Reg)

theorem dpAt_encode {o : Operand2} (h : o.wf 14 = true) : DpAt (encodeDp op f xd xn o) f xd xn o := by
  simp (disch := decide) only [DpAt, operand2At_encode _ h, fieldOf_eq, encodeDp, extract_append_lo, extract_append_hi,
    extract_all, Nat.reduceSub, Nat.sub_self, BitVec.toNat_ofBool, and_self]

theorem shAt_encode {amt : ShiftAmount} (h : amt.wf = true) : ShAt (encodeSh op f xd xn amt) f xd xn amt := by
  cases amt with
  | imm v =>
    simp (disch := decide) only [ShAt, fieldOf_eq, encodeSh, encodeShiftAmount, toNat_eq_extract_of_zextFits h,
      extract_append_lo, extract_append_hi, extract_all, Nat.reduceSub, Nat.sub_self, BitVec.toNat_ofBool,
      BitVec.reduceToNat, and_self]
  | reg xm =>
    simp (disch := decide) only [ShAt, fieldOf_eq, encodeSh, encodeShiftAmount, extract_append_lo, extract_append_hi,
      extract_all, Nat.reduceSub, Nat.sub_self, BitVec.toNat_ofBool, BitVec.reduceToNat, and_self]

theorem cmpAt_encode {o : Operand2} (h : o.wf 14 = true) : CmpAt (encodeCmp op xn o) xn o := by
  simp (disch := decide) only [CmpAt, operand2At_encode _ h, fieldOf_eq, encodeCmp, extract_append_lo, extract_append_hi,
    extract_all, Nat.sub_self, and_self]

theorem movAt_encode {o : Operand2} (h : o.wf 19 = true) : MovAt (encodeMov op f xd o) f xd o := by
  cases o with
  | imm v =>
    simp (disch := decide) only [MovAt, fieldOf_eq, encodeMov, encodeMovOperand, toNat_eq_extract_of_zextFits h,
      extract_append_lo, extract_append_hi, extract_all, Nat.sub_self, BitVec.toNat_ofBool, BitVec.reduceToNat, and_self]
  | reg xm sh shamt =>
    simp (disch := decide) only [MovAt, fieldOf_eq, encodeMov, encodeMovOperand, shiftTypeCode_eq, extract_append_lo,
      extract_append_hi, extract_all, Nat.reduceSub, Nat.sub_self, BitVec.toNat_ofBool, BitVec.reduceToNat, and_self]

theorem memAt_encode (am : AddrMode) {off : MemOffset} (h : off.wf = true) :
    MemAt (encodeMem op xd xn am off) xd xn am off := by
  cases off with
  | imm v =>
    simp (disch := decide) only [MemAt, fieldOf_eq, signedFieldOf_eq, encodeMem, encodeMemOffset, addrModeCode_eq,
      toInt_eq_extract_of_sextFits h, extract_append_lo, extract_append_hi, extract_all, Nat.sub_self, BitVec.reduceToNat,
      and_self]
  | reg xm =>
    simp (disch := decide) only [MemAt, fieldOf_eq, encodeMem, encodeMemOffset, addrModeCode_eq, extract_append_lo,
      extract_append_hi, extract_all, Nat.reduceSub, Nat.sub_self, BitVec.reduceToNat, and_self]

theorem atmAt_encode : AtmAt (encodeAtm op xd xn xm) xd xn xm := by
  simp (disch := decide) only [AtmAt, fieldOf_eq, encodeAtm, extract_append_lo, extract_append_hi, extract_all,
    Nat.reduceSub, Nat.sub_self, and_self]

theorem biAt_encode (c : Cond) {off : Word} (h : branchOffsetFits off = true) : BiAt (encodeBi op c off) c off := by
  simp (disch := decide) only [BiAt, fieldOf_eq, signedFieldOf_eq, encodeBi, condCode_eq,
    toInt_eq_extract_of_branchOffsetFits h, extract_append_lo, extract_append_hi, extract_all, Nat.sub_self, and_self]

theorem brAt_encode (c : Cond) : BrAt (encodeBr op c xn) c xn := by
  simp (disch := decide) only [BrAt, fieldOf_eq, encodeBr, condCode_eq, extract_append_lo, extract_append_hi, extract_all,
    Nat.reduceSub, Nat.sub_self, and_self]

theorem fp3At_encode : Fp3At (encodeFp3 op xd xn xm) xd xn xm := by
  simp (disch := decide) only [Fp3At, fieldOf_eq, encodeFp3, extract_append_lo, extract_append_hi, extract_all,
    Nat.reduceSub, Nat.sub_self, and_self]

theorem fpcAt_encode : xn.toNat = fieldOf (encodeFpc op xn xm) 15 5 ∧ xm.toNat = fieldOf (encodeFpc op xn xm) 10 5 := by
  simp (disch := decide) only [fieldOf_eq, encodeFpc, extract_append_lo, extract_append_hi, extract_all, Nat.reduceSub,
    Nat.sub_self, and_self]

theorem swiAt_encode {imm : Word} (h : zextFits 26 imm = true) : imm.toNat = fieldOf (encode (.swi imm)) 0 26 := by
  rw [encode_swi, fieldOf_eq, extract_append_lo _ _ _ _ (by decide), extract_all, toNat_eq_extract_of_zextFits h (by decide)]

end Formats

/-- Every field of an encoded instruction stands at its bits (30_encoding.md R136). -/
theorem fieldsAt_encode {i : Instr} (h : i.wf = true) : FieldsAt (encode i) i := by
  have hop := fieldOf_encode_opcode i
  cases i with
  | hlt => exact hop
  | swi imm => exact ⟨hop, swiAt_encode h⟩
  | add | sub | rsb | adc | sbc | rsc | mul | and | orr | eor | bic => exact ⟨hop, dpAt_encode _ _ _ _ h⟩
  | lsl | lsr | asr | ror => exact ⟨hop, shAt_encode _ _ _ _ h⟩
  | cmp | cmn | tst | teq => exact ⟨hop, cmpAt_encode _ _ h⟩
  | mov | mvn => exact ⟨hop, movAt_encode _ _ _ h⟩
  | ldr | ldrh | ldrb | str | strh | strb => exact ⟨hop, memAt_encode _ _ _ _ h⟩
  | swp | swph | swpb => exact ⟨hop, atmAt_encode ..⟩
  | b | bl => exact ⟨hop, biAt_encode _ _ h⟩
  | bx | blx => exact ⟨hop, brAt_encode ..⟩
  | vaddF32 | vsubF32 | vmulF32 | vdivF32 => exact ⟨hop, fp3At_encode ..⟩
  | vcmpF32 => exact ⟨hop, fpcAt_encode ..⟩

/-- Settles O4: a word that decodes is the word of its instruction, whose fields the encoder places. -/
theorem decodedFieldsInPlace : Obligations.DecodedFieldsInPlace := by
  intro w i h
  obtain ⟨hwf, rfl⟩ := decode_some h
  exact ⟨fieldsAt_encode hwf, (hasFormat_of_opcode i (encode_opcode i)).format⟩

/-- Settles O5. -/
theorem decodedWords : Obligations.DecodedWords := by
  unfold Obligations.DecodedWords
  decide

/-! ## Operand forms (30_encoding.md R125, R126, R128, R129; 44_memory.md R210) -/

/-- A shift by 0 leaves the value and the carry (42_shift.md R190). -/
theorem shift_zero (v : Word) (ty : ShiftType) (c : Bool) : shift v ty 0 c = { value := v, carry := c, shifted := false } := rfl

theorem State.shiftAmount_reg (s : State) (xm : Reg) : s.shiftAmount (.reg xm) = (s.reg xm).toNat % 256 := by
  rw [State.shiftAmount, BitVec.extractLsb'_toNat, Nat.shiftRight_zero]

theorem State.operand_reg (s : State) (xm : Reg) (ty : ShiftType) (n : BitVec 5) :
    s.operand (.reg xm ty n) = shift (s.reg xm) ty n.toNat s.flags.c := rfl

/-- Settles O16. -/
theorem operandForms : Obligations.OperandForms := by
  refine fun s => ⟨fun _ => ⟨rfl, rfl⟩, fun xm ty n => ⟨s.operand_reg xm ty n, ?_⟩, fun _ => rfl, s.shiftAmount_reg,
    fun _ => rfl, fun _ => rfl, fun _ _ => ⟨rfl, rfl, rfl⟩⟩
  rintro rfl
  rw [s.operand_reg, BitVec.toNat_zero, shift_zero]
  exact ⟨rfl, rfl⟩

end Sys2Proof.Machine

/-! The adder, and the arithmetic instructions: what each computes, and its flags (40_arith.md). -/

namespace Sys2Proof.Machine

/-! ## The adder (40_arith.md R160) -/

section Adder

variable (a b : Word) (cin : Bool)

theorem addWithCarry_result : (addWithCarry a b cin).result = a + b + BitVec.ofNat 32 cin.toNat := by
  simp only [addWithCarry, BitVec.ofNat_add, BitVec.ofNat_toNat, BitVec.setWidth_eq]

theorem addWithCarry_carry :
    (addWithCarry a b cin).carry = decide (2 ^ 32 ≤ a.toNat + b.toNat + cin.toNat) := rfl

theorem addWithCarry_overflow_iff :
    (addWithCarry a b cin).overflow = true ↔ a.msb = b.msb ∧ (addWithCarry a b cin).result.msb ≠ a.msb := by
  simp only [addWithCarry, Bool.and_eq_true, beq_iff_eq, bne_iff_ne]

/-- Read as signed, the result is the sum brought into range. -/
theorem addWithCarry_result_toInt :
    (addWithCarry a b cin).result.toInt = (a.toInt + b.toInt + (cin.toNat : Int)).bmod (2 ^ 32) := by
  rw [← BitVec.toInt_ofInt, BitVec.ofInt_add, BitVec.ofInt_add, BitVec.ofInt_toInt, BitVec.ofInt_toInt, BitVec.ofInt_natCast,
    addWithCarry_result]

/-- The signed sum lies within 2^32 of the result's range. So it fits where the operands' signs differ, and where they agree it
fits exactly when the result has that sign too. -/
theorem addWithCarry_overflow : (addWithCarry a b cin).overflow =
    decide ((addWithCarry a b cin).result.toInt ≠ a.toInt + b.toInt + (cin.toNat : Int)) := by
  have hr := addWithCarry_result_toInt a b cin
  rw [Int.bmod_def] at hr
  have hcin := Bool.toNat_le cin
  have ha := And.intro (BitVec.le_toInt a) (BitVec.toInt_lt (x := a))
  have hb := And.intro (BitVec.le_toInt b) (BitVec.toInt_lt (x := b))
  rw [Bool.eq_iff_iff, decide_eq_true_iff, addWithCarry_overflow_iff]
  simp only [BitVec.msb_eq_toInt, ne_eq, decide_eq_decide]
  omega

/-! ### Subtraction: a carry in of 1 is no borrow -/

theorem addWithCarry_not_result : (addWithCarry a (~~~b) cin).result = a - b - BitVec.ofNat 32 (1 - cin.toNat) := by
  rw [addWithCarry_result]
  cases cin with
  | false => rw [Bool.toNat_false]; bv_omega
  | true => rw [Bool.toNat_true]; bv_omega

theorem addWithCarry_not_carry :
    (addWithCarry a (~~~b) cin).carry = decide (b.toNat + (1 - cin.toNat) ≤ a.toNat) := by
  have hcin := Bool.toNat_le cin
  rw [addWithCarry_carry, BitVec.toNat_not, decide_eq_decide]
  omega

theorem toInt_complement : (~~~b).toInt = -b.toInt - 1 := by
  rw [BitVec.toInt_eq_toNat_cond, BitVec.toInt_eq_toNat_cond, BitVec.toNat_not]
  omega

theorem addWithCarry_not_overflow : (addWithCarry a (~~~b) cin).overflow =
    decide ((addWithCarry a (~~~b) cin).result.toInt ≠ a.toInt - b.toInt - ((1 - cin.toNat : Nat) : Int)) := by
  have hcin := Bool.toNat_le cin
  rw [addWithCarry_overflow, toInt_complement, decide_eq_decide]
  omega

end Adder

/-- Settles O9: a subtraction is the adder with the complement and a carry in of 1. -/
theorem adderResult : Obligations.AdderResult := by
  refine ⟨fun a b cin => ⟨BitVec.toNat_ofNat .., addWithCarry_carry a b cin, addWithCarry_overflow a b cin,
    addWithCarry_overflow_iff a b cin⟩, fun a b => ⟨?_, ?_⟩⟩
  · rw [addWithCarry_not_result]
    exact BitVec.sub_zero _
  · rw [addWithCarry_not_carry, decide_eq_true_iff]
    rfl

/-! ## The product (40_arith.md R169) -/

section Product

variable (a b : Word)

/-- The low word of the product is the same for the signed and the unsigned reading. -/
theorem mulLow_result : (mulLow a b).result = a * b := by
  simp only [mulLow, BitVec.ofNat_mul, BitVec.ofNat_toNat, BitVec.setWidth_eq]

theorem mulLow_result_signed : (mulLow a b).result = BitVec.ofInt 32 (a.toInt * b.toInt) := by
  rw [mulLow_result, BitVec.ofInt_mul, BitVec.ofInt_toInt, BitVec.ofInt_toInt]

theorem mulLow_overflow : (mulLow a b).overflow =
    decide (a.toInt * b.toInt < -(2 ^ 31) ∨ 2 ^ 31 - 1 < a.toInt * b.toInt) := (Bool.decide_or _ _).symm

end Product

/-! ## Completing with an arithmetic result (40_arith.md R161) -/

/-- Every instruction is encoded with its format and its opcode (30_encoding.md R121). -/
theorem encodedAs (i : Instr) : EncodedAs i.format i.opcode.toNat i := by
  refine ⟨rfl, ?_⟩
  have hop := fieldOf_encode_opcode i
  have hlt := (encode i).isLt
  rw [fieldOf] at hop
  omega

/-- The flags of a result are those that the arithmetic policy names. -/
theorem arithFlags_eq_arithPolicy (f : Bool) (old : Flags) (r : AluResult) :
    (if f then arithFlags r else old) = arithPolicy f old r.result r.carry r.overflow := by
  have hz : (r.result == 0#32) = decide (r.result.toNat = 0) := by
    rw [beq_eq_decide, decide_eq_decide]
    exact BitVec.toNat_eq
  rw [arithPolicy, arithFlags, BitVec.msb_eq_toInt, hz]

section Instructions

variable {i : Instr} {s : State} {f : Bool} {xd : Reg} {a b : Word} {cin : Bool}

theorem computes_of_finishArith {r : AluResult} (h : exec i s = finishArith i f xd r s) :
    Computes i s xd r.result (arithPolicy f s.flags r.result r.carry r.overflow) := by
  rw [← arithFlags_eq_arithPolicy]
  exact computes_of_eq h

/-- A sum with a carry in. -/
theorem computes_sum (h : exec i s = finishArith i f xd (addWithCarry a b cin) s) :
    Computes i s xd (a + b + BitVec.ofNat 32 cin.toNat)
      (arithPolicy f s.flags (a + b + BitVec.ofNat 32 cin.toNat) (2 ^ 32 ≤ a.toNat + b.toNat + cin.toNat)
        ((a + b + BitVec.ofNat 32 cin.toNat).toInt ≠ a.toInt + b.toInt + cin.toNat)) := by
  rw [← addWithCarry_result, ← addWithCarry_carry, ← addWithCarry_overflow]
  exact computes_of_finishArith h

/-- A difference with a borrow in, which is a carry in of 0. -/
theorem computes_difference (h : exec i s = finishArith i f xd (addWithCarry a (~~~b) cin) s) :
    Computes i s xd (a - b - BitVec.ofNat 32 (1 - cin.toNat))
      (arithPolicy f s.flags (a - b - BitVec.ofNat 32 (1 - cin.toNat)) (b.toNat + (1 - cin.toNat) ≤ a.toNat)
        ((a - b - BitVec.ofNat 32 (1 - cin.toNat)).toInt ≠ a.toInt - b.toInt - ((1 - cin.toNat : Nat) : Int))) := by
  rw [← addWithCarry_not_result, ← addWithCarry_not_carry, ← addWithCarry_not_overflow]
  exact computes_of_finishArith h

theorem computes_add (h : exec i s = finishArith i f xd (addWithCarry a b false) s) :
    Computes i s xd (a + b)
      (arithPolicy f s.flags (a + b) (2 ^ 32 ≤ a.toNat + b.toNat) ((a + b).toInt ≠ a.toInt + b.toInt)) := by
  simpa using computes_sum h

theorem computes_sub (h : exec i s = finishArith i f xd (addWithCarry a (~~~b) true) s) :
    Computes i s xd (a - b)
      (arithPolicy f s.flags (a - b) (b.toNat ≤ a.toNat) ((a - b).toInt ≠ a.toInt - b.toInt)) := by
  simpa using computes_difference h

end Instructions

/-- Settles O10: each of the three is the adder's sum, or its difference, with the operands in the order the rule gives. -/
theorem addSubRsbResults : Obligations.AddSubRsbResults := by
  rintro s f xd xn o a b rfl rfl
  exact ⟨⟨encodedAs _, computes_add rfl⟩, ⟨encodedAs _, computes_sub rfl⟩, ⟨encodedAs _, computes_sub rfl⟩⟩

/-- Settles O11: the carry in is the C flag. -/
theorem adcSbcRscResults : Obligations.AdcSbcRscResults := by
  rintro s f xd xn o a b k rfl rfl rfl
  exact ⟨⟨encodedAs _, computes_sum rfl⟩, ⟨encodedAs _, computes_difference rfl⟩, ⟨encodedAs _, computes_difference rfl⟩⟩

/-- Settles O12: the low word of the product, signed or unsigned, completed as any arithmetic result. -/
theorem mulResult : Obligations.MulResult := by
  rintro s f xd xn o a b r rfl rfl rfl
  refine ⟨encodedAs _, mulLow_result_signed _ _, ?_⟩
  rw [← mulLow_overflow]
  exact computes_of_finishArith (r := mulLow (s.reg xn) (s.operand o).value) rfl

end Sys2Proof.Machine

/-! The logical and move instructions: what each computes, and its flags (41_logical.md). -/

namespace Sys2Proof.Machine

/-! ## Completing with a logical result (41_logical.md R180) -/

/-- The logical policy is the arithmetic one for a result whose overflow is the old V, and whose carry is the old C unless a shift
applied. -/
theorem logicFlags_eq_logicPolicy (f : Bool) (old : Flags) (r : Word) (shifted carry : Bool) :
    (if f then logicFlags r shifted carry old else old) = logicPolicy f old r shifted carry :=
  arithFlags_eq_arithPolicy f old { result := r, carry := if shifted then carry else old.c, overflow := old.v }

theorem computes_of_finishLogic {i : Instr} {s : State} {f : Bool} {xd : Reg} {r : Word} {b : Shifted}
    (h : exec i s = finishLogic i f xd r b s) : Computes i s xd r (logicPolicy f s.flags r b.shifted b.carry) := by
  rw [← logicFlags_eq_logicPolicy]
  exact computes_of_eq h

/-- Settles O13: each of the four completes by the logical policy with the operand as the shifter gave it. -/
theorem logicalResults : Obligations.LogicalResults := by
  rintro s f xd xn o a b rfl rfl
  exact ⟨⟨encodedAs _, computes_of_finishLogic rfl⟩, ⟨encodedAs _, computes_of_finishLogic rfl⟩,
    ⟨encodedAs _, computes_of_finishLogic rfl⟩, ⟨encodedAs _, computes_of_finishLogic rfl⟩⟩

/-- Settles O14: mov and mvn complete as the logical instructions do, without a first operand. -/
theorem moveResults : Obligations.MoveResults := by
  rintro s f xd o b rfl
  exact ⟨⟨encodedAs _, computes_of_finishLogic rfl⟩, ⟨encodedAs _, computes_of_finishLogic rfl⟩⟩

end Sys2Proof.Machine

/-! The barrel shifter, and the shift instructions: what each computes, and its flags (42_shift.md). -/

namespace Sys2Proof.Machine

/-! ## The barrel shifter (42_shift.md R190) -/

section Shifter

variable (v : Word) {n : Nat} (c : Bool)

theorem shift_shifted (ty : ShiftType) (n : Nat) : (shift v ty n c).shifted = decide (n ≠ 0) := by
  cases n with
  | zero => rfl
  | succ n => rfl

/-! ### An amount below the width -/

theorem shift_lsl_of_lt (h0 : n ≠ 0) (hn : n < 32) : shift v .lsl n c = ⟨v <<< n, v.getLsbD (32 - n), true⟩ := by
  simp only [shift, if_neg h0, shiftLsl, if_pos hn]

theorem shift_lsr_of_lt (h0 : n ≠ 0) (hn : n < 32) : shift v .lsr n c = ⟨v >>> n, v.getLsbD (n - 1), true⟩ := by
  simp only [shift, if_neg h0, shiftLsr, if_pos hn]

theorem shift_asr_of_lt (h0 : n ≠ 0) (hn : n < 32) : shift v .asr n c = ⟨v.sshiftRight n, v.getLsbD (n - 1), true⟩ := by
  simp only [shift, if_neg h0, shiftAsr, if_pos hn]

/-! ### An amount of the width or more -/

theorem shift_lsl_width : shift v .lsl 32 c = ⟨0#32, v.getLsbD 0, true⟩ := rfl

theorem shift_lsr_width : shift v .lsr 32 c = ⟨0#32, v.getLsbD 31, true⟩ := rfl

theorem shift_lsl_of_gt (hn : 32 < n) : shift v .lsl n c = ⟨0#32, false, true⟩ := by
  simp only [shift, if_neg (show n ≠ 0 by omega), shiftLsl, if_neg (show ¬ n < 32 by omega), if_neg hn.ne']

theorem shift_lsr_of_gt (hn : 32 < n) : shift v .lsr n c = ⟨0#32, false, true⟩ := by
  simp only [shift, if_neg (show n ≠ 0 by omega), shiftLsr, if_neg (show ¬ n < 32 by omega), if_neg hn.ne']

theorem shift_asr_of_ge (hn : 32 ≤ n) :
    shift v .asr n c = ⟨if v.toInt < 0 then 0xFFFFFFFF#32 else 0#32, v.msb, true⟩ := by
  simp only [shift, if_neg (show n ≠ 0 by omega), shiftAsr, if_neg hn.not_gt, BitVec.msb_eq_toInt, decide_eq_true_eq]

/-! ### Rotation, by the amount modulo the width -/

theorem shift_ror_of_mod_zero (h0 : n ≠ 0) (hk : n % 32 = 0) : shift v .ror n c = ⟨v, v.msb, true⟩ := by
  simp only [shift, if_neg h0, shiftRor, if_pos hk]

theorem shift_ror_of_mod_ne_zero (hk : n % 32 ≠ 0) :
    shift v .ror n c = ⟨v >>> (n % 32) ||| v <<< (32 - n % 32), v.getLsbD (n % 32 - 1), true⟩ := by
  simp only [shift, if_neg (show n ≠ 0 by omega), shiftRor, if_neg hk]

/-- A rotation's top bit comes from its left part, and is the last bit that was rotated out. -/
theorem msb_rotated {k : Nat} (h0 : k ≠ 0) (hk : k < 32) : (v >>> k ||| v <<< (32 - k)).msb = v.getLsbD (k - 1) := by
  have hleft : (v <<< (32 - k)).msb = v.getLsbD (k - 1) := by
    rw [BitVec.msb_shiftLeft, BitVec.getMsbD_eq_getLsbD, decide_eq_true (by omega), Bool.true_and]
    congr 1
    omega
  have hright : (v >>> k).msb = false := by
    rw [BitVec.msb_ushiftRight, decide_eq_true (Nat.pos_of_ne_zero h0), Bool.not_true, Bool.false_and]
  rw [BitVec.msb_or, hright, hleft, Bool.false_or]

/-! ### The shifts as numbers -/

theorem toNat_shl (n : Nat) : (v <<< n).toNat = v.toNat * 2 ^ n % 2 ^ 32 := by
  rw [BitVec.toNat_shiftLeft, Nat.shiftLeft_eq]

theorem toNat_shr (n : Nat) : (v >>> n).toNat = v.toNat / 2 ^ n := by
  rw [BitVec.toNat_ushiftRight, Nat.shiftRight_eq_div_pow]

theorem toInt_sshr (n : Nat) : (v.sshiftRight n).toInt = v.toInt / 2 ^ n := by
  rw [BitVec.toInt_sshiftRight, Int.shiftRight_eq_div_pow, Nat.cast_pow, Nat.cast_ofNat]

end Shifter

/-- Settles O15: each type's result in each range of amounts, read as a number; the carry is a bit of the value. -/
theorem barrelShifter : Obligations.BarrelShifter := by
  refine fun v c n => ⟨fun ty => shift_shifted v c ty n, ?zero, ?below, ?width, ?above, ?signs, ?whole, ?rotated⟩
  case zero =>
    rintro ty rfl
    rw [shift_zero]
    exact ⟨rfl, rfl⟩
  case below =>
    intro h0 hn
    rw [shift_lsl_of_lt v c h0.ne' hn, shift_lsr_of_lt v c h0.ne' hn, shift_asr_of_lt v c h0.ne' hn]
    exact ⟨⟨toNat_shl v n, rfl⟩, ⟨toNat_shr v n, rfl⟩, ⟨toInt_sshr v n, rfl⟩⟩
  case width =>
    rintro rfl
    rw [shift_lsl_width, shift_lsr_width]
    exact ⟨⟨rfl, rfl⟩, ⟨rfl, rfl⟩⟩
  case above =>
    intro hn
    rw [shift_lsl_of_gt v c hn, shift_lsr_of_gt v c hn]
    exact ⟨⟨rfl, rfl⟩, ⟨rfl, rfl⟩⟩
  case signs =>
    intro hn
    rw [shift_asr_of_ge v c hn]
    exact ⟨rfl, BitVec.msb_eq_getLsbD_last v⟩
  case whole =>
    intro h0 hk
    rw [shift_ror_of_mod_zero v c h0 hk]
    exact ⟨rfl, BitVec.msb_eq_getLsbD_last v⟩
  case rotated =>
    intro hk
    rw [shift_ror_of_mod_ne_zero v c hk]
    refine ⟨?_, rfl, (msb_rotated v hk (Nat.mod_lt _ (by decide))).symm⟩
    rw [BitVec.toNat_or, toNat_shr, toNat_shl]

/-! ## Completing with a shift result (42_shift.md R191) -/

/-- A shift instruction completes by the logical policy, where a shift applied when the amount is not 0. -/
theorem computes_of_finishShift {i : Instr} {s : State} {f c : Bool} {xd : Reg} {v : Word} {ty : ShiftType} {n : Nat}
    (h : exec i s = finishShift i f xd (shift v ty n c) s) :
    Computes i s xd (shift v ty n c).value (logicPolicy f s.flags (shift v ty n c).value (n ≠ 0) (shift v ty n c).carry) := by
  rw [← shift_shifted v c ty n, ← logicFlags_eq_logicPolicy]
  exact computes_of_eq h

/-- Settles O17: the four differ in the type of the shift, and complete alike. -/
theorem shiftResults : Obligations.ShiftResults := by
  intro s f xd xn amt n hn i op ty hi
  obtain rfl : n = s.shiftAmount amt := by
    cases amt with
    | imm v => exact hn
    | reg xm => exact hn.trans (s.shiftAmount_reg xm).symm
  simp only [List.mem_cons, List.not_mem_nil, or_false, Prod.mk.injEq] at hi
  obtain ⟨rfl, rfl, rfl⟩ | ⟨rfl, rfl, rfl⟩ | ⟨rfl, rfl, rfl⟩ | ⟨rfl, rfl, rfl⟩ := hi
  · exact ⟨encodedAs _, computes_of_finishShift rfl⟩
  · exact ⟨encodedAs _, computes_of_finishShift rfl⟩
  · exact ⟨encodedAs _, computes_of_finishShift rfl⟩
  · exact ⟨encodedAs _, computes_of_finishShift rfl⟩

end Sys2Proof.Machine

/-! The compares of words: the flags each writes, and that it writes nothing else (43_compare.md). -/

namespace Sys2Proof.Machine

/-! ## The flags of a sum and of a difference (43_compare.md R201, R202) -/

section CompareFlags

variable (old : Flags) (a b : Word)

/-- The old flags do not matter: the policy with S = 1 writes all four. -/
theorem arithFlags_add : arithFlags (addWithCarry a b false) =
    arithPolicy true old (a + b) (2 ^ 32 ≤ a.toNat + b.toNat) ((a + b).toInt ≠ a.toInt + b.toInt) := by
  have h := arithFlags_eq_arithPolicy true old (addWithCarry a b false)
  rw [addWithCarry_carry, addWithCarry_overflow, addWithCarry_result] at h
  simpa using h

/-- A subtraction is the adder with the complement and no borrow. -/
theorem arithFlags_sub : arithFlags (addWithCarry a (~~~b) true) =
    arithPolicy true old (a - b) (b.toNat ≤ a.toNat) ((a - b).toInt ≠ a.toInt - b.toInt) := by
  have h := arithFlags_eq_arithPolicy true old (addWithCarry a (~~~b) true)
  rw [addWithCarry_not_carry, addWithCarry_not_overflow, addWithCarry_not_result] at h
  simpa using h

end CompareFlags

/-! ## Completing with flags only (43_compare.md R200) -/

section Compare

variable {i : Instr} {s : State}

theorem compares_of_finishCompare {fl fl' : Flags} (h : exec i s = finishCompare i fl s) (hfl : fl = fl') : Compares i s fl' :=
  compares_of_eq (hfl ▸ h)

/-- A test completes by the logical policy with S = 1. -/
theorem compares_of_finishTest {r : Word} {b : Shifted}
    (h : exec i s = finishCompare i (logicFlags r b.shifted b.carry s.flags) s) :
    Compares i s (logicPolicy true s.flags r b.shifted b.carry) :=
  compares_of_finishCompare h (logicFlags_eq_logicPolicy true s.flags r b.shifted b.carry)

end Compare

/-- Settles O18: cmp and cmn complete with the flags of the adder's difference and sum. -/
theorem cmpCmnFlags : Obligations.CmpCmnFlags := by
  rintro s xn o a b rfl rfl
  exact ⟨⟨encodedAs _, compares_of_finishCompare rfl (arithFlags_sub _ _ _)⟩,
    ⟨encodedAs _, compares_of_finishCompare rfl (arithFlags_add _ _ _)⟩⟩

/-- Settles O19: tst and teq complete by the logical policy with the operand as the shifter gave it. -/
theorem tstTeqFlags : Obligations.TstTeqFlags := by
  rintro s xn o a b rfl rfl
  exact ⟨⟨encodedAs _, compares_of_finishTest rfl⟩, ⟨encodedAs _, compares_of_finishTest rfl⟩⟩

end Sys2Proof.Machine

/-! The loads, the stores and the faults of data accesses: what a ready access completes with, and that a faulting one commits nothing
(44_memory.md). -/

namespace Sys2Proof.Machine

/-! ## A data access that faults (44_memory.md R212, 60_exceptions.md R283) -/

section Faulting

variable {s s1 : State} {i : Instr} {w : Width} {c : FaultCause}

theorem loadInstr_of_fault {xt xn : Reg} {am : AddrMode} {off : MemOffset}
    (h : s.resolve (s.accessAddr xn am off) w.bytes .read = .fault c s1) :
    loadInstr i w xt xn am off s = takeFault c (some (encode i)) s1 := by
  simp only [loadInstr, State.memRead, h]

theorem storeInstr_of_fault {xt xn : Reg} {am : AddrMode} {off : MemOffset}
    (h : s.resolve (s.accessAddr xn am off) w.bytes .write = .fault c s1) :
    storeInstr i w xt xn am off s = takeFault c (some (encode i)) s1 := by
  simp only [storeInstr, State.memWrite, h]

theorem swapInstr_of_fault {xt xs xn : Reg} (h : s.resolve (s.reg xn) w.bytes .swap = .fault c s1) :
    swapInstr i w xt xs xn s = takeFault c (some (encode i)) s1 := by
  simp only [swapInstr, State.busSwap, h]

/-- An instruction whose data access faults takes the fault in the state that the access leaves. -/
theorem exec_of_fault {a : Word} {n : Nat} {k : AccessKind} (hd : dataAccess s i = some (a, n, k))
    (h : s.resolve a n k = .fault c s1) : exec i s = takeFault c (some (encode i)) s1 := by
  cases i with
  | ldr | ldrh | ldrb => cases hd; exact loadInstr_of_fault h
  | str | strh | strb => cases hd; exact storeInstr_of_fault h
  | swp | swph | swpb => cases hd; exact swapInstr_of_fault h
  | _ => cases hd

end Faulting

/-- Settles O26: the access leaves what a translation may change, and the fault is taken in that state. -/
theorem dataFaultTaken : Obligations.DataFaultTaken := by
  intro s i a n k c s1 hd hres
  rw [exec_of_fault hd hres]
  exact ⟨State.resolve_frame.2 _ _ hres, takeFault_spec c _ s1⟩

/-! ## Registers written before an instruction advances (44_memory.md R210) -/

section WriteBack

variable {s t : State} {i : Instr} {r xn : Reg} {am : AddrMode} {v : Word}

theorem CoreOnly.of_setReg (h : CoreOnly i (s.setReg r v) t) : CoreOnly i s t := h

theorem CoreOnly.of_writeBack (h : CoreOnly i (s.writeBack xn am v) t) : CoreOnly i s t := by
  cases am with
  | offsetOnly => exact h
  | preIndexed | postIndexed => exact h.of_setReg

theorem State.reg_writeBack_base (hm : am ≠ .offsetOnly) : (s.writeBack xn am v).reg xn = v := by
  rw [State.reg_writeBack, if_pos ⟨rfl, hm⟩]

theorem State.reg_writeBack_ne (hr : r ≠ xn) : (s.writeBack xn am v).reg r = s.reg r := by
  rw [State.reg_writeBack, if_neg (hr ·.1)]

end WriteBack

/-! ## An access that is ready (44_memory.md R211 to R218) -/

section Ready

variable {s : State} {i : Instr} {w : Width} {xt xn : Reg} {am : AddrMode} {off : MemOffset} {d : Device} {offs : List Nat}

theorem State.memWrite_ready {a : Word} (hok : s.cfg.ok = true) (h : AccessReady s a w.bytes .write d offs) (v : Word) :
    s.memWrite a w v = .ok () (s.storeAt { dev := d, offs := offs } v) := by
  unfold State.memWrite
  rw [State.resolve_ready hok w.bytes_pos w.bytes_le h]

theorem AccessReady.toNat_valueAt {a : Word} {k : AccessKind} (h : AccessReady s a w.bytes k d offs) :
    (s.valueAt { dev := d, offs := offs }).toNat = littleEndian (offs.map (s.byteAt d)) :=
  toNat_leWord (by rw [Memory.readMany, List.length_map, h.2.1]; exact w.bytes_le)

theorem loadInstr_ready (hok : s.cfg.ok = true) (h : AccessReady s (s.accessAddr xn am off) w.bytes .read d offs) :
    loadInstr i w xt xn am off s =
      .next (((s.writeBack xn am (s.indexed xn off)).setReg xt (s.valueAt { dev := d, offs := offs })).advance i) := by
  rw [loadInstr, State.memRead_ready hok h]

theorem storeInstr_ready (hok : s.cfg.ok = true) (h : AccessReady s (s.accessAddr xn am off) w.bytes .write d offs) :
    storeInstr i w xt xn am off s =
      .next (((s.storeAt { dev := d, offs := offs } (s.reg xt)).writeBack xn am (s.indexed xn off)).advance i) := by
  rw [storeInstr, State.memWrite_ready hok h]

/-- The three loads differ in their width only. -/
theorem exec_eq_loadInstr {op n : Nat} (h : (i, op, n) ∈
      [(Instr.ldr xt xn am off, 0x20, 4), (Instr.ldrh xt xn am off, 0x21, 2), (Instr.ldrb xt xn am off, 0x22, 1)]) :
    EncodedAs .mem op i ∧ ∃ w : Width, n = w.bytes ∧ exec i s = loadInstr i w xt xn am off s := by
  simp only [List.mem_cons, List.not_mem_nil, or_false, Prod.mk.injEq] at h
  obtain ⟨rfl, rfl, rfl⟩ | ⟨rfl, rfl, rfl⟩ | ⟨rfl, rfl, rfl⟩ := h
  · exact ⟨encodedAs _, .word, rfl, rfl⟩
  · exact ⟨encodedAs _, .half, rfl, rfl⟩
  · exact ⟨encodedAs _, .byte, rfl, rfl⟩

/-- The three stores differ in their width only. -/
theorem exec_eq_storeInstr {op n : Nat} (h : (i, op, n) ∈
      [(Instr.str xt xn am off, 0x24, 4), (Instr.strh xt xn am off, 0x25, 2), (Instr.strb xt xn am off, 0x26, 1)]) :
    EncodedAs .mem op i ∧ ∃ w : Width, n = w.bytes ∧ exec i s = storeInstr i w xt xn am off s := by
  simp only [List.mem_cons, List.not_mem_nil, or_false, Prod.mk.injEq] at h
  obtain ⟨rfl, rfl, rfl⟩ | ⟨rfl, rfl, rfl⟩ | ⟨rfl, rfl, rfl⟩ := h
  · exact ⟨encodedAs _, .word, rfl, rfl⟩
  · exact ⟨encodedAs _, .half, rfl, rfl⟩
  · exact ⟨encodedAs _, .byte, rfl, rfl⟩

end Ready

/-- Settles O22: x[t] is written after the base, so it holds the value also where t = n. -/
theorem readyLoadsComplete : Obligations.ReadyLoadsComplete := by
  intro s xt xn am off i op n d offs hok hi hready
  obtain ⟨hencoded, w, rfl, hexec⟩ := exec_eq_loadInstr (s := s) hi
  refine ⟨hencoded, _, hexec.trans (loadInstr_ready hok hready), ?_, fun hm r hr => ?_, fun hm => ⟨fun r hr => ?_, fun hne => ?_⟩,
    by simp, by simp, (advance_coreOnly _ i).of_setReg.of_writeBack⟩
  · rw [State.advance_reg, State.reg_setReg_same, hready.toNat_valueAt]
  · subst hm
    rw [State.advance_reg, State.reg_setReg_ne _ _ (List.ne_of_not_mem_cons hr)]
    rfl
  · obtain ⟨hrt, hrn⟩ : r ≠ xt ∧ r ≠ xn := by simpa using hr
    rw [State.advance_reg, State.reg_setReg_ne _ _ hrt, State.reg_writeBack_ne hrn]
  · rw [State.advance_reg, State.reg_setReg_ne _ _ hne, State.reg_writeBack_base hm, State.indexed]

/-- Settles O23: the bytes of a ready access are distinct, so each keeps the byte of x[t] that the store wrote to it. -/
theorem readyStoresComplete : Obligations.ReadyStoresComplete := by
  intro s xt xn am off i op n d offs hok hi hready
  obtain ⟨hencoded, w, rfl, hexec⟩ := exec_eq_storeInstr (s := s) hi
  obtain ⟨hcounted, hengine, hbytes, hmmu⟩ :=
    (advance_coreOnly ((s.storeAt { dev := d, offs := offs } (s.reg xt)).writeBack xn am (s.indexed xn off)) i).of_writeBack
  refine ⟨hencoded, _, hexec.trans (storeInstr_ready hok hready), fun j hj => ?_, fun d' o ho => ?_, fun hm r _ => ?_,
    fun hm => ⟨fun r hr => ?_, ?_⟩, by simp, by simp, hcounted, hengine, hmmu⟩
  · have hj' : j < offs.length := hready.2.1 ▸ hj
    have ho := List.getElem?_eq_getElem hj'
    exact ⟨_, ho, (hbytes _ _).trans (s.byteAt_storeAt_nth _ _ (hready.nodup hok w.bytes_le) ho)⟩
  · exact (hbytes d' o).trans (s.byteAt_storeAt_other _ _ d' o ho)
  · subst hm; rfl
  · rw [State.advance_reg, State.reg_writeBack_ne (List.ne_of_not_mem_cons hr), State.storeAt_reg]
  · rw [State.advance_reg, State.reg_writeBack_base hm, State.indexed]

end Sys2Proof.Machine

/-! The atomic swaps: what a swap whose access is ready completes with (45_atomic.md). -/

namespace Sys2Proof.Machine

section ReadySwap

variable {s : State} {i : Instr} {w : Width} {xt xs xn : Reg} {d : Device} {offs : List Nat}

/-- No access that writes is ready in ROM (20_memory.md R73). -/
theorem AccessReady.dev_eq_ram {a : Word} {n : Nat} {k : AccessKind} (h : AccessReady s a n k d offs) (hk : k.writes = true) :
    d = .ram := by
  obtain ⟨-, -, ⟨-, hrom, -⟩ | ⟨hd, -⟩ | ⟨hd, -⟩⟩ := h
  · exact absurd (hrom.symm.trans hk) (by decide)
  · exact hd
  · exact hd

theorem State.busSwap_ready {a : Word} (hok : s.cfg.ok = true) (h : AccessReady s a w.bytes .swap d offs) (v : Word) :
    s.busSwap a w v = .ok (s.valueAt { dev := d, offs := offs }) (s.storeAt { dev := d, offs := offs } v) := by
  rw [State.busSwap, State.resolve_ready hok w.bytes_pos w.bytes_le h]

theorem swapInstr_ready (hok : s.cfg.ok = true) (h : AccessReady s (s.reg xn) w.bytes .swap d offs) :
    swapInstr i w xt xs xn s = .next (((s.storeAt { dev := d, offs := offs } (s.reg xs)).setReg xt
      (s.valueAt { dev := d, offs := offs })).advance i) := by
  rw [swapInstr, State.busSwap_ready hok h]

/-- The three swaps differ in their width only. -/
theorem exec_eq_swapInstr {op n : Nat} (h : (i, op, n) ∈
      [(Instr.swp xt xs xn, 0x28, 4), (Instr.swph xt xs xn, 0x29, 2), (Instr.swpb xt xs xn, 0x2A, 1)]) :
    EncodedAs .atm op i ∧ ∃ w : Width, n = w.bytes ∧ exec i s = swapInstr i w xt xs xn s := by
  simp only [List.mem_cons, List.not_mem_nil, or_false, Prod.mk.injEq] at h
  obtain ⟨rfl, rfl, rfl⟩ | ⟨rfl, rfl, rfl⟩ | ⟨rfl, rfl, rfl⟩ := h
  · exact ⟨encodedAs _, .word, rfl, rfl⟩
  · exact ⟨encodedAs _, .half, rfl, rfl⟩
  · exact ⟨encodedAs _, .byte, rfl, rfl⟩

end ReadySwap

/-- Settles O24: x[t] is written after the store with the value read before it, and x[s] is read before either, so t may be s or n. -/
theorem readySwapsComplete : Obligations.ReadySwapsComplete := by
  intro s xt xs xn i op n d offs hok hi hready
  obtain ⟨hencoded, w, rfl, hexec⟩ := exec_eq_swapInstr (s := s) hi
  obtain rfl : d = .ram := hready.dev_eq_ram rfl
  obtain ⟨hcounted, hengine, hbytes, hmmu⟩ := (advance_coreOnly ((s.storeAt { dev := .ram, offs := offs } (s.reg xs)).setReg xt
    (s.valueAt { dev := .ram, offs := offs })) i).of_setReg
  refine ⟨hencoded, _, hexec.trans (swapInstr_ready hok hready), ?_, fun j hj => ?_, fun d' o ho => ?_, fun r hr => ?_,
    by simp, by simp, hcounted, hengine, hmmu⟩
  · rw [State.advance_reg, State.reg_setReg_same, hready.toNat_valueAt]
  · have ho := List.getElem?_eq_getElem (hready.2.1 ▸ hj : j < offs.length)
    exact ⟨_, ho, (hbytes _ _).trans (s.byteAt_storeAt_nth _ _ (hready.nodup hok w.bytes_le) ho)⟩
  · exact (hbytes d' o).trans (s.byteAt_storeAt_other _ _ d' o ho)
  · rw [State.advance_reg, State.reg_setReg_ne _ _ (List.ne_of_not_mem_cons hr), State.storeAt_reg]

end Sys2Proof.Machine

/-! The conditions, what each means after a comparison, and the branches (46_branch.md). -/

namespace Sys2Proof.Machine

/-! ## When each condition holds (46_branch.md R240) -/

section ConditionRows

variable (fl : Flags)

theorem condHolds_eq_iff : condHolds .eq fl = true ↔ fl.z = true := Iff.rfl

theorem condHolds_ne_iff : condHolds .ne fl = true ↔ fl.z = false := by rw [condHolds, Bool.not_eq_true']

theorem condHolds_hs_iff : condHolds .hs fl = true ↔ fl.c = true := Iff.rfl

theorem condHolds_lo_iff : condHolds .lo fl = true ↔ fl.c = false := by rw [condHolds, Bool.not_eq_true']

theorem condHolds_mi_iff : condHolds .mi fl = true ↔ fl.n = true := Iff.rfl

theorem condHolds_pl_iff : condHolds .pl fl = true ↔ fl.n = false := by rw [condHolds, Bool.not_eq_true']

theorem condHolds_vs_iff : condHolds .vs fl = true ↔ fl.v = true := Iff.rfl

theorem condHolds_vc_iff : condHolds .vc fl = true ↔ fl.v = false := by rw [condHolds, Bool.not_eq_true']

theorem condHolds_hi_iff : condHolds .hi fl = true ↔ fl.c = true ∧ fl.z = false := by
  rw [condHolds, Bool.and_eq_true, Bool.not_eq_true']

theorem condHolds_ls_iff : condHolds .ls fl = true ↔ fl.c = false ∨ fl.z = true := by
  rw [condHolds, Bool.or_eq_true, Bool.not_eq_true']

theorem condHolds_ge_iff : condHolds .ge fl = true ↔ fl.n = fl.v := by rw [condHolds, beq_iff_eq]

theorem condHolds_lt_iff : condHolds .lt fl = true ↔ fl.n ≠ fl.v := by rw [condHolds, bne_iff_ne]

theorem condHolds_gt_iff : condHolds .gt fl = true ↔ fl.z = false ∧ fl.n = fl.v := by
  rw [condHolds, Bool.and_eq_true, Bool.not_eq_true', beq_iff_eq]

theorem condHolds_le_iff : condHolds .le fl = true ↔ fl.z = true ∨ fl.n ≠ fl.v := by
  rw [condHolds, Bool.or_eq_true, bne_iff_ne]

end ConditionRows

theorem decodeCond_condCode (c : Cond) : decodeCond (BitVec.ofNat 4 (condCode c)) = some c := by
  rw [condCode_eq, BitVec.ofNat_toNat, BitVec.setWidth_eq, decodeCond_encode]

/-! ## The flags of a difference, as comparisons of the operands (43_compare.md R201) -/

section Difference

/-- The flags that `cmp` writes for the operand values `a` and `b`. -/
def differenceFlags (a b : Word) : Flags := arithFlags (addWithCarry a (~~~b) true)

variable (s : State) (xn : Reg) (o : Operand2) (a b : Word)

theorem exec_cmp : exec (.cmp xn o) s =
    .next ((s.setFlags (differenceFlags (s.reg xn) (s.operand o).value)).advance (.cmp xn o)) := rfl

theorem differenceFlags_eq : differenceFlags a b =
    { n := decide ((a - b).toInt < 0), z := decide ((a - b).toNat = 0), c := decide (b.toNat ≤ a.toNat),
      v := decide ((a - b).toInt ≠ a.toInt - b.toInt) } := arithFlags_sub (differenceFlags a b) a b

theorem differenceFlags_n : (differenceFlags a b).n = true ↔ (a - b).toInt < 0 := by
  rw [differenceFlags_eq, decide_eq_true_iff]

theorem differenceFlags_z : (differenceFlags a b).z = true ↔ a = b := by
  rw [differenceFlags_eq, decide_eq_true_iff]
  bv_omega

theorem differenceFlags_c : (differenceFlags a b).c = true ↔ b.toNat ≤ a.toNat := by
  rw [differenceFlags_eq, decide_eq_true_iff]

theorem differenceFlags_v : (differenceFlags a b).v = true ↔ (a - b).toInt ≠ a.toInt - b.toInt := by
  rw [differenceFlags_eq, decide_eq_true_iff]

/-- The word's sign is the sign of the true difference, unless that overflowed: then it is the other sign. -/
theorem differenceFlags_n_eq_v : (differenceFlags a b).n = (differenceFlags a b).v ↔ b.toInt ≤ a.toInt := by
  have hsub := BitVec.toInt_sub (x := a) (y := b)
  rw [Int.bmod_def] at hsub
  have ha := And.intro (BitVec.le_toInt a) (BitVec.toInt_lt (x := a))
  have hb := And.intro (BitVec.le_toInt b) (BitVec.toInt_lt (x := b))
  rw [Bool.eq_iff_iff, differenceFlags_n, differenceFlags_v]
  omega

/-! ### The conditions that deny a flag or combine two -/

theorem condHolds_difference_ne : condHolds .ne (differenceFlags a b) = true ↔ a ≠ b := by
  rw [condHolds_ne_iff, Bool.eq_false_iff, ne_eq, differenceFlags_z]

theorem condHolds_difference_lo : condHolds .lo (differenceFlags a b) = true ↔ a.toNat < b.toNat := by
  rw [condHolds_lo_iff, Bool.eq_false_iff, ne_eq, differenceFlags_c, Nat.not_le]

theorem condHolds_difference_pl : condHolds .pl (differenceFlags a b) = true ↔ 0 ≤ (a - b).toInt := by
  rw [condHolds_pl_iff, Bool.eq_false_iff, ne_eq, differenceFlags_n, Int.not_lt]

theorem condHolds_difference_vc :
    condHolds .vc (differenceFlags a b) = true ↔ (a - b).toInt = a.toInt - b.toInt := by
  rw [condHolds_vc_iff, Bool.eq_false_iff, ne_eq, differenceFlags_v, not_ne_iff]

theorem condHolds_difference_hi : condHolds .hi (differenceFlags a b) = true ↔ b.toNat < a.toNat := by
  rw [condHolds_hi_iff, Bool.eq_false_iff, ne_eq, differenceFlags_c, differenceFlags_z, ← BitVec.toNat_inj]
  omega

theorem condHolds_difference_ls : condHolds .ls (differenceFlags a b) = true ↔ a.toNat ≤ b.toNat := by
  rw [condHolds_ls_iff, Bool.eq_false_iff, ne_eq, differenceFlags_c, differenceFlags_z, ← BitVec.toNat_inj]
  omega

theorem condHolds_difference_lt : condHolds .lt (differenceFlags a b) = true ↔ a.toInt < b.toInt := by
  rw [condHolds_lt_iff, ne_eq, differenceFlags_n_eq_v, Int.not_le]

theorem condHolds_difference_gt : condHolds .gt (differenceFlags a b) = true ↔ b.toInt < a.toInt := by
  rw [condHolds_gt_iff, Bool.eq_false_iff, ne_eq, differenceFlags_n_eq_v, differenceFlags_z, ← BitVec.toInt_inj]
  omega

theorem condHolds_difference_le : condHolds .le (differenceFlags a b) = true ↔ a.toInt ≤ b.toInt := by
  rw [condHolds_le_iff, ne_eq, differenceFlags_n_eq_v, differenceFlags_z, ← BitVec.toInt_inj]
  omega

end Difference

/-- Settles O20: the rows of the table one by one, and each row's flags after `cmp` as a comparison of its operands. -/
theorem conditionTable : Obligations.ConditionTable := by
  refine ⟨decodeCond_condCode, (decodeCond_eq_none _).2 rfl, fun fl => ?_, ?_⟩
  · exact ⟨condHolds_eq_iff fl, condHolds_ne_iff fl, condHolds_hs_iff fl, condHolds_lo_iff fl, condHolds_mi_iff fl,
      condHolds_pl_iff fl, condHolds_vs_iff fl, condHolds_vc_iff fl, condHolds_hi_iff fl, condHolds_ls_iff fl,
      condHolds_ge_iff fl, condHolds_lt_iff fl, condHolds_gt_iff fl, condHolds_le_iff fl, rfl⟩
  · rintro s xn o a b rfl rfl
    refine ⟨_, exec_cmp s xn o, ?_⟩
    rw [State.advance_flags, State.setFlags_flags]
    generalize s.reg xn = a, (s.operand o).value = b
    exact ⟨(condHolds_eq_iff _).trans (differenceFlags_z a b), condHolds_difference_ne a b,
      (condHolds_hs_iff _).trans (differenceFlags_c a b), condHolds_difference_lo a b,
      (condHolds_mi_iff _).trans (differenceFlags_n a b), condHolds_difference_pl a b,
      (condHolds_vs_iff _).trans (differenceFlags_v a b), condHolds_difference_vc a b,
      condHolds_difference_hi a b, condHolds_difference_ls a b,
      (condHolds_ge_iff _).trans (differenceFlags_n_eq_v a b), condHolds_difference_lt a b,
      condHolds_difference_gt a b, condHolds_difference_le a b⟩

/-! ## Completing a branch (46_branch.md R241) -/

section Branches

variable {s : State} {i : Instr} {c : Cond} {target : Word}

/-- A branch not taken is one to the next instruction. -/
theorem branchTo_eq_redirect :
    branchTo i c target s = .next (s.redirect i (if condHolds c s.flags then target else s.pc + 4#32)) := by
  rw [branchTo, State.advance, apply_ite (s.redirect i)]

theorem branchLink_of_holds (hc : condHolds c s.flags = true) :
    branchLink i c target s = .next ((s.setReg linkReg (s.pc + 4#32)).redirect i target) := by
  rw [branchLink, if_pos hc]

theorem branchLink_of_not_holds (hc : ¬ condHolds c s.flags = true) :
    branchLink i c target s = .next (s.advance i) := by
  rw [branchLink, if_neg hc]

theorem completes_of_branchTo (h : exec i s = branchTo i c target s) :
    ∃ t, exec i s = .next t ∧ SameRegsBut s t [] ∧ t.flags = s.flags ∧ CoreOnly i s t ∧
      t.pc = if condHolds c s.flags then target else s.pc + 4#32 :=
  ⟨_, h.trans branchTo_eq_redirect, fun _ _ => s.redirect_reg i _ _, s.redirect_flags i _, redirect_coreOnly s i _,
    s.redirect_pc i _⟩

theorem completes_of_branchLink (h : exec i s = branchLink i c target s) :
    ∃ t, exec i s = .next t ∧ SameRegsBut s t [linkReg] ∧ t.flags = s.flags ∧ CoreOnly i s t ∧
      (t.reg linkReg = if condHolds c s.flags then s.pc + 4#32 else s.reg linkReg) ∧
      t.pc = if condHolds c s.flags then target else s.pc + 4#32 := by
  by_cases hc : condHolds c s.flags = true
  · rw [if_pos hc, if_pos hc]
    refine ⟨_, h.trans (branchLink_of_holds hc), fun r hr => ?_, State.redirect_flags .., (redirect_coreOnly _ i target).of_setReg,
      ?_, State.redirect_pc ..⟩
    · rw [State.redirect_reg, State.reg_setReg_ne s _ (List.ne_of_not_mem_cons hr)]
    · rw [State.redirect_reg, State.reg_setReg_same]
  · rw [if_neg hc, if_neg hc]
    exact ⟨_, h.trans (branchLink_of_not_holds hc), fun r _ => s.advance_reg i r, s.advance_flags i, advance_coreOnly s i,
      s.advance_reg i linkReg, s.advance_pc i⟩

end Branches

/-- Settles O21: the target of each branch is a value of the state before it, so blx x30 goes to the old x30. -/
theorem branchResults : Obligations.BranchResults := fun _ _ =>
  ⟨fun _ => ⟨encodedAs _, completes_of_branchTo rfl⟩, fun _ => ⟨encodedAs _, completes_of_branchLink rfl⟩,
    fun _ => ⟨encodedAs _, completes_of_branchTo rfl⟩, fun _ => ⟨encodedAs _, completes_of_branchLink rfl⟩⟩

end Sys2Proof.Machine

/-! Binary32 words: their fields, and a finite word's value as a signed multiple of 2^-149 (47_float.md R250). -/

namespace Sys2Proof.Machine

/-! ## The fields of a word -/

section Fields

variable (neg : Bool) (w : Word)

theorem f32Exp_eq : f32Exp w = w.toNat / 2 ^ 23 % 2 ^ 8 := by
  rw [f32Exp, BitVec.extractLsb'_toNat, Nat.shiftRight_eq_div_pow]

theorem f32Frac_eq : f32Frac w = w.toNat % 2 ^ 23 := by
  rw [f32Frac, BitVec.extractLsb'_toNat, Nat.shiftRight_zero]

theorem f32Sign_eq : f32Sign w = decide (2 ^ 31 ≤ w.toNat) := BitVec.msb_eq_decide w

theorem f32Exp_lt : f32Exp w < 2 ^ 8 := BitVec.isLt _

theorem f32Frac_lt : f32Frac w < 2 ^ 23 := BitVec.isLt _

theorem toNat_f32Pack {bits : Nat} (h : bits < 2 ^ 31) : (f32Pack neg bits).toNat = neg.toNat * 2 ^ 31 + bits := by
  rw [f32Pack, BitVec.toNat_append, BitVec.toNat_ofBool, BitVec.toNat_ofNat, Nat.mod_eq_of_lt h,
    ← Nat.shiftLeft_add_eq_or_of_lt h, Nat.shiftLeft_eq]

@[simp] theorem f32Sign_pack (bits : Nat) : f32Sign (f32Pack neg bits) = neg :=
  (getLsbD_append_hi _ _ 31 (by decide)).trans (bit_ofBool neg)

theorem f32Exp_pack {bits : Nat} (h : bits < 2 ^ 31) : f32Exp (f32Pack neg bits) = bits / 2 ^ 23 := by
  rw [f32Exp_eq, toNat_f32Pack neg h]
  omega

theorem f32Frac_pack {bits : Nat} (h : bits < 2 ^ 31) : f32Frac (f32Pack neg bits) = bits % 2 ^ 23 := by
  rw [f32Frac_eq, toNat_f32Pack neg h]
  omega

/-- The last bit of a word is the parity of its low bits. -/
theorem getLsbD_zero_pack {bits : Nat} (h : bits < 2 ^ 31) (heven : bits % 2 = 0) : (f32Pack neg bits).getLsbD 0 = false := by
  rw [BitVec.getLsbD, toNat_f32Pack neg h, Nat.testBit_zero, decide_eq_false_iff_not]
  omega

/-- A word is its sign and its two other fields. -/
theorem f32Pack_fields : f32Pack (f32Sign w) (f32Exp w * 2 ^ 23 + f32Frac w) = w := by
  have hw := w.isLt
  have hs : (f32Sign w).toNat = w.toNat / 2 ^ 31 := by
    rw [f32Sign_eq]
    by_cases h : 2 ^ 31 ≤ w.toNat
    · rw [decide_eq_true h, Bool.toNat_true]
      omega
    · rw [decide_eq_false h, Bool.toNat_false]
      omega
  apply BitVec.eq_of_toNat_eq
  rw [toNat_f32Pack _ (by have := f32Exp_lt w; have := f32Frac_lt w; omega), hs, f32Exp_eq, f32Frac_eq]
  omega

end Fields

/-! ## Finite words, infinities, NaNs -/

section Classes

variable {w : Word}

theorem f32IsInf_iff : f32IsInf w = true ↔ f32Exp w = 255 ∧ f32Frac w = 0 := by
  rw [f32IsInf, Bool.and_eq_true, beq_iff_eq, beq_iff_eq]

theorem f32IsNan_iff : f32IsNan w = true ↔ f32Exp w = 255 ∧ f32Frac w ≠ 0 := by
  rw [f32IsNan, Bool.and_eq_true, beq_iff_eq, bne_iff_ne]

theorem f32Finite.isNan (h : f32Finite w) : f32IsNan w = false := by
  rw [Bool.eq_false_iff, ne_eq, f32IsNan_iff]
  exact fun hn => h hn.1

theorem f32Finite.isInf (h : f32Finite w) : f32IsInf w = false := by
  rw [Bool.eq_false_iff, ne_eq, f32IsInf_iff]
  exact fun hi => h hi.1

theorem isNan_of_isInf (h : f32IsInf w = true) : f32IsNan w = false := by
  rw [Bool.eq_false_iff, ne_eq, f32IsNan_iff]
  exact fun hn => hn.2 (f32IsInf_iff.1 h).2

theorem not_finite_of_isInf (h : f32IsInf w = true) : ¬ f32Finite w := not_not_intro (f32IsInf_iff.1 h).1

/-- A word that is no NaN is finite or an infinity. -/
theorem finite_or_isInf (h : f32IsNan w = false) : f32Finite w ∨ f32IsInf w = true := by
  rw [Bool.eq_false_iff, ne_eq, f32IsNan_iff] at h
  rw [f32IsInf_iff, f32Finite]
  omega

@[simp] theorem isInf_f32Inf (neg : Bool) : f32IsInf (f32Inf neg) = true := by
  rw [f32IsInf_iff, f32Inf, f32Exp_pack neg (by decide), f32Frac_pack neg (by decide)]
  decide

theorem isInfOf_f32Inf (neg : Bool) : IsInfOf neg (f32Inf neg) := by
  cases neg <;> rfl

theorem isZeroOf_f32Zero (neg : Bool) : IsZeroOf neg (f32Zero neg) := by
  cases neg <;> rfl

/-- There is one infinity of each sign. -/
theorem isInfOf_of_isInf (h : f32IsInf w = true) : IsInfOf (f32Sign w) w := by
  obtain ⟨hexp, hfrac⟩ := f32IsInf_iff.1 h
  have hw := f32Pack_fields w
  rw [hexp, hfrac] at hw
  rw [IsInfOf, ← isInfOf_f32Inf (f32Sign w), ← hw, f32Sign_pack]
  rfl

end Classes

/-! ## Negation -/

section Negation

variable (w : Word)

@[simp] theorem f32Exp_neg : f32Exp (f32Neg w) = f32Exp w := by
  rw [f32Exp, f32Neg, BitVec.extractLsb'_xor, show (0x80000000#32).extractLsb' 23 8 = 0#8 from rfl, BitVec.xor_zero, f32Exp]

@[simp] theorem f32Frac_neg : f32Frac (f32Neg w) = f32Frac w := by
  rw [f32Frac, f32Neg, BitVec.extractLsb'_xor, show (0x80000000#32).extractLsb' 0 23 = 0#23 from rfl, BitVec.xor_zero, f32Frac]

@[simp] theorem f32Sign_neg : f32Sign (f32Neg w) = !f32Sign w := by
  rw [f32Sign, f32Neg, BitVec.getLsbD_xor, show (0x80000000#32).getLsbD 31 = true from rfl, Bool.xor_true, f32Sign]

@[simp] theorem f32IsNan_neg : f32IsNan (f32Neg w) = f32IsNan w := by rw [f32IsNan, f32Exp_neg, f32Frac_neg, f32IsNan]

@[simp] theorem f32IsInf_neg : f32IsInf (f32Neg w) = f32IsInf w := by rw [f32IsInf, f32Exp_neg, f32Frac_neg, f32IsInf]

@[simp] theorem f32Finite_neg : f32Finite (f32Neg w) ↔ f32Finite w := by rw [f32Finite, f32Exp_neg, f32Finite]

end Negation

/-! ## Values in units of 2^-149 -/

/-- The factor that a sign bit stands for. -/
def f32SignFactor (neg : Bool) : ℚ := if neg then -1 else 1

theorem f32SignFactor_not (neg : Bool) : f32SignFactor (!neg) = -f32SignFactor neg := by
  cases neg <;> norm_num [f32SignFactor]

theorem f32SignFactor_mul_self (neg : Bool) : f32SignFactor neg * f32SignFactor neg = 1 := by
  cases neg <;> norm_num [f32SignFactor]

theorem f32SignFactor_ne_zero (neg : Bool) : f32SignFactor neg ≠ 0 := by
  cases neg <;> norm_num [f32SignFactor]

theorem abs_f32SignFactor_mul (neg : Bool) (x : ℚ) : |f32SignFactor neg * x| = |x| := by
  cases neg <;> simp [f32SignFactor]

/-- The sign of a product or of a quotient (47_float.md R251, point 5). -/
theorem f32SignFactor_bne (p q : Bool) : f32SignFactor (p != q) = f32SignFactor p * f32SignFactor q := by
  cases p <;> cases q <;> norm_num [f32SignFactor]

theorem f32SignFactor_mul_neg_iff (neg : Bool) {x : ℚ} (hx : 0 < x) : f32SignFactor neg * x < 0 ↔ neg = true := by
  cases neg
  · simpa [f32SignFactor] using hx.le
  · simpa [f32SignFactor] using hx

section Values

variable (w : Word)

theorem f32Units_eq : (f32Units w : ℚ) = f32SignFactor (f32Sign w) * f32Mag w := by
  rw [f32Units, f32SignFactor]
  split <;> simp

theorem natAbs_f32Units : (f32Units w).natAbs = f32Mag w := by
  rw [f32Units]
  split <;> simp

theorem f32Units_eq_zero_iff : f32Units w = 0 ↔ f32Mag w = 0 := by rw [← natAbs_f32Units, Int.natAbs_eq_zero]

/-- The magnitude counts units of 2^-149, for the subnormal and for the normal words. -/
theorem f32Value_eq : f32Value w = f32Units w / 2 ^ 149 := by
  rw [f32Units_eq, mul_div_assoc, f32Value, f32SignFactor, f32Mag]
  congr 1
  split
  case isTrue => rw [zpow_neg, ← div_eq_mul_inv]; rfl
  case isFalse h =>
    obtain ⟨e, he⟩ := Nat.exists_eq_succ_of_ne_zero h
    rw [he, show ((e.succ : ℕ) : ℤ) - 127 = e - 126 by push_cast; ring, zpow_sub₀ two_ne_zero, zpow_natCast,
      Nat.succ_sub_one, Nat.cast_mul, Nat.cast_add, Nat.cast_pow, Nat.cast_pow]
    norm_num
    ring

theorem f32Value_eq_mag : f32Value w = f32SignFactor (f32Sign w) * f32Mag w / 2 ^ 149 := by
  rw [f32Value_eq, f32Units_eq]

theorem f32Value_eq_zero_iff : f32Value w = 0 ↔ f32Mag w = 0 := by
  rw [f32Value_eq, div_eq_zero_iff, or_iff_left (by positivity), Int.cast_eq_zero, f32Units_eq_zero_iff]

theorem f32Value_neg : f32Value (f32Neg w) = -f32Value w := by
  rw [f32Value_eq_mag, f32Value_eq_mag, f32Sign_neg, f32SignFactor_not, f32Mag, f32Exp_neg, f32Frac_neg, ← f32Mag,
    neg_mul, neg_div]

end Values

/-! ## The spacing of the finite values -/

section Spacing

variable {w : Word} {q m : Nat}

/-- A word whose low bits are `m` places above the exponent `q` has the magnitude `m * 2^q`, also where `m` is the carry 2^24. -/
theorem f32Mag_pack (neg : Bool) (hnormal : q ≠ 0 → 2 ^ 23 ≤ m) (hm : m ≤ 2 ^ 24) (hbits : q * 2 ^ 23 + m < 2 ^ 31) :
    f32Mag (f32Pack neg (q * 2 ^ 23 + m)) = m * 2 ^ q := by
  rw [f32Mag, f32Exp_pack neg hbits, f32Frac_pack neg hbits]
  obtain hlt | hlt | rfl : m < 2 ^ 23 ∨ (2 ^ 23 ≤ m ∧ m < 2 ^ 24) ∨ m = 2 ^ 24 := by omega
  · obtain rfl : q = 0 := by omega
    rw [if_pos (by omega)]
    omega
  · rw [if_neg (by omega), show (q * 2 ^ 23 + m) / 2 ^ 23 - 1 = q by omega,
      show 2 ^ 23 + (q * 2 ^ 23 + m) % 2 ^ 23 = m by omega]
  · rw [if_neg (by omega), show (q * 2 ^ 23 + 2 ^ 24) / 2 ^ 23 - 1 = q + 1 by omega,
      show 2 ^ 23 + (q * 2 ^ 23 + 2 ^ 24) % 2 ^ 23 = 2 ^ 23 by omega]
    ring

theorem two_pow_dvd_f32Mag (h : q < f32Exp w) : 2 ^ q ∣ f32Mag w := by
  rw [f32Mag, if_neg (by omega)]
  exact Dvd.dvd.mul_left (Nat.pow_dvd_pow 2 (by omega)) _

theorem f32Mag_lt_of_exp_le (h : f32Exp w ≤ q + 1) : f32Mag w < 2 ^ (q + 24) := by
  have hfrac := f32Frac_lt w
  rw [f32Mag]
  split
  · exact hfrac.trans_le (Nat.pow_le_pow_right two_pos (by omega))
  · calc (2 ^ 23 + f32Frac w) * 2 ^ (f32Exp w - 1)
        < 2 ^ 24 * 2 ^ (f32Exp w - 1) := Nat.mul_lt_mul_of_pos_right (by omega) (by positivity)
      _ = 2 ^ (24 + (f32Exp w - 1)) := (pow_add ..).symm
      _ ≤ 2 ^ (q + 24) := Nat.pow_le_pow_right two_pos (by omega)

/-- A magnitude that is no multiple of 2^q is of a smaller exponent. -/
theorem f32Mag_lt_of_not_dvd (h : ¬ 2 ^ q ∣ f32Mag w) : f32Mag w < 2 ^ (q + 23) := by
  cases q with
  | zero => exact absurd (one_dvd _) h
  | succ q =>
    rw [Nat.add_right_comm]
    exact f32Mag_lt_of_exp_le (Nat.le_of_not_lt fun hlt => h (two_pow_dvd_f32Mag hlt))

end Spacing

end Sys2Proof.Machine

/-! Rounding to nearest, ties to even: the model's rounding of a positive ratio is the nearest binary32 value (47_float.md R251). -/

namespace Sys2Proof.Machine

/-! ## Rounding a ratio to a natural number -/

section DivNearestEven

variable {num den : Nat}

theorem div_le_divNearestEven : num / den ≤ divNearestEven num den := by
  simp only [divNearestEven]
  split <;> omega

theorem divNearestEven_le : divNearestEven num den ≤ num / den + 1 := by
  simp only [divNearestEven]
  split <;> omega

/-- Rounding down or up, by at most a half, and by a half only to an even number. -/
theorem divNearestEven_cases (hden : 0 < den) :
    (divNearestEven num den = num / den ∧ 2 * (num % den) ≤ den ∨
      divNearestEven num den = num / den + 1 ∧ den ≤ 2 * (num % den)) ∧
    (2 * (num % den) = den → divNearestEven num den % 2 = 0) := by
  have hr := Nat.mod_lt num hden
  simp only [divNearestEven, Bool.or_eq_true, decide_eq_true_eq, Bool.and_eq_true, beq_iff_eq]
  generalize num / den = k, num % den = r at *
  split <;> omega

theorem ratio_eq_div_add_mod (hden : 0 < den) : (num : ℚ) / den = (num / den : Nat) + (num % den : Nat) / den := by
  have hd : (den : ℚ) ≠ 0 := by exact_mod_cast hden.ne'
  rw [div_eq_iff hd, add_mul, div_mul_cancel₀ _ hd]
  exact_mod_cast (Nat.div_add_mod' num den).symm

/-- The rounded number is at most a half away, and it is even where it is a half away. -/
theorem divNearestEven_half (hden : 0 < den) :
    |(divNearestEven num den : ℚ) - num / den| ≤ 1 / 2 ∧
    (|(divNearestEven num den : ℚ) - num / den| = 1 / 2 → divNearestEven num den % 2 = 0) := by
  have hd : (0 : ℚ) < den := by exact_mod_cast hden
  have hf0 : (0 : ℚ) ≤ (num % den : Nat) / den := by positivity
  have hf1 : ((num % den : Nat) : ℚ) / den < 1 := by
    rw [div_lt_one hd]
    exact_mod_cast Nat.mod_lt num hden
  obtain ⟨hcases, htie⟩ := divNearestEven_cases (num := num) hden
  have hhalf : ((num % den : Nat) : ℚ) / den = 1 / 2 → divNearestEven num den % 2 = 0 := fun h => htie <| by
    rw [div_eq_iff hd.ne'] at h
    have h2 : (2 : ℚ) * (num % den : Nat) = den := by linarith
    exact_mod_cast h2
  obtain ⟨hm, hr⟩ | ⟨hm, hr⟩ := hcases
  · have hle : ((num % den : Nat) : ℚ) / den ≤ 1 / 2 := by
      have hr' : (2 : ℚ) * (num % den : Nat) ≤ den := by exact_mod_cast hr
      rw [div_le_iff₀ hd]
      linarith
    have habs : |(divNearestEven num den : ℚ) - num / den| = (num % den : Nat) / den := by
      rw [hm, ratio_eq_div_add_mod hden, sub_add_cancel_left, abs_neg, abs_of_nonneg hf0]
    rw [habs]
    exact ⟨hle, hhalf⟩
  · have hle : 1 / 2 ≤ ((num % den : Nat) : ℚ) / den := by
      have hr' : (den : ℚ) ≤ 2 * (num % den : Nat) := by exact_mod_cast hr
      rw [le_div_iff₀ hd]
      linarith
    have habs : |(divNearestEven num den : ℚ) - num / den| = 1 - (num % den : Nat) / den := by
      rw [hm, ratio_eq_div_add_mod hden, Nat.cast_succ, add_sub_add_left_eq_sub, abs_of_pos (sub_pos.2 hf1)]
    rw [habs]
    exact ⟨by linarith, fun h => hhalf (by linarith)⟩

end DivNearestEven

/-! ## The last place of a ratio's binary32 value, and how many of it the rounded value has -/

/-- The rounded ratio, counted in its last places. -/
def roundedPlaces (num den : Nat) : Nat := divNearestEven num (den * 2 ^ lastPlace num den)

/-- The low 31 bits of the rounded ratio, were there no largest exponent. -/
def unboundedBits (num den : Nat) : Nat := lastPlace num den * 2 ^ 23 + roundedPlaces num den

theorem f32RoundBits_eq (num den : Nat) : f32RoundBits num den = min (unboundedBits num den) 0x7F800000 := rfl

section LastPlace

variable {num den : Nat}

theorem two_pow_le_of_lastPlace_ne_zero (h : lastPlace num den ≠ 0) : 2 ^ (lastPlace num den + 23) ≤ num / den := by
  rw [lastPlace] at h ⊢
  rw [Nat.sub_add_cancel (by omega)]
  exact Nat.log2_self_le fun h0 => by simp [h0] at h

theorem div_lt_two_pow_lastPlace (num den : Nat) : num / den < 2 ^ (lastPlace num den + 24) :=
  Nat.lt_log2_self.trans_le (Nat.pow_le_pow_right two_pos (by rw [lastPlace]; omega))

theorem two_pow_le_roundedPlaces (h : lastPlace num den ≠ 0) : 2 ^ 23 ≤ roundedPlaces num den := by
  refine le_trans ?_ div_le_divNearestEven
  rw [← Nat.div_div_eq_div_mul, Nat.le_div_iff_mul_le (by positivity), ← pow_add, Nat.add_comm]
  exact two_pow_le_of_lastPlace_ne_zero h

theorem roundedPlaces_le (num den : Nat) : roundedPlaces num den ≤ 2 ^ 24 := by
  refine divNearestEven_le.trans (Nat.succ_le_of_lt ?_)
  rw [← Nat.div_div_eq_div_mul, Nat.div_lt_iff_lt_mul (by positivity), ← pow_add, Nat.add_comm]
  exact div_lt_two_pow_lastPlace num den

theorem ratio_ge_of_lastPlace_ne_zero (h : lastPlace num den ≠ 0) : (2 : ℚ) ^ 23 * 2 ^ lastPlace num den ≤ num / den := by
  rw [← pow_add, Nat.add_comm]
  exact le_trans (by exact_mod_cast two_pow_le_of_lastPlace_ne_zero h) Nat.cast_div_le

theorem ratio_lt (hden : 0 < den) : (num : ℚ) / den < 2 ^ 24 * 2 ^ lastPlace num den := by
  have h := (Nat.div_lt_iff_lt_mul hden).1 (div_lt_two_pow_lastPlace num den)
  rw [← pow_add, Nat.add_comm, div_lt_iff₀ (by exact_mod_cast hden)]
  exact_mod_cast h

/-- The ratio, counted in its last places, is at most a half away, and it is a half away only from an even number of them. -/
theorem roundedPlaces_half (hden : 0 < den) :
    |(roundedPlaces num den : ℚ) - num / den / 2 ^ lastPlace num den| ≤ 1 / 2 ∧
    (|(roundedPlaces num den : ℚ) - num / den / 2 ^ lastPlace num den| = 1 / 2 → roundedPlaces num den % 2 = 0) := by
  have h := divNearestEven_half (num := num) (den := den * 2 ^ lastPlace num den) (by positivity)
  rw [Nat.cast_mul, Nat.cast_pow, Nat.cast_ofNat, ← div_div] at h
  exact h

/-- No multiple of the last place is nearer to the ratio, and one that is as near is the same or the rounded number is even. -/
theorem roundedPlaces_nearest (hden : 0 < den) (k : ℤ) :
    |(roundedPlaces num den : ℚ) * 2 ^ lastPlace num den - num / den| ≤ |(k : ℚ) * 2 ^ lastPlace num den - num / den| ∧
    (|(k : ℚ) * 2 ^ lastPlace num den - num / den| =
        |(roundedPlaces num den : ℚ) * 2 ^ lastPlace num den - num / den| →
      k = roundedPlaces num den ∨ roundedPlaces num den % 2 = 0) := by
  have hpos : (0 : ℚ) < 2 ^ lastPlace num den := by positivity
  have hscale : ∀ x : ℚ, |x * 2 ^ lastPlace num den - num / den| =
      |x - num / den / 2 ^ lastPlace num den| * 2 ^ lastPlace num den := fun x => by
    rw [← abs_of_pos hpos, ← abs_mul, abs_of_pos hpos, sub_mul, div_mul_cancel₀ _ hpos.ne']
  rw [hscale, hscale, mul_le_mul_iff_left₀ hpos, mul_left_inj' hpos.ne']
  obtain ⟨hle, heven⟩ := roundedPlaces_half (num := num) hden
  by_cases hk : k = roundedPlaces num den
  · rw [hk, Int.cast_natCast]
    exact ⟨le_rfl, fun _ => .inl rfl⟩
  · have hone : (1 : ℚ) ≤ |(k : ℚ) - roundedPlaces num den| := by
      exact_mod_cast Int.one_le_abs (sub_ne_zero.2 hk)
    have htri := abs_sub_le (k : ℚ) (num / den / 2 ^ lastPlace num den) (roundedPlaces num den)
    rw [abs_sub_comm ((num : ℚ) / den / _)] at htri
    exact ⟨by linarith, fun heq => .inr (heven (by linarith))⟩

/-- No binary32 magnitude, with either sign, is nearer to the ratio: it is a multiple of the last place, or it is less than 2^23 of
them and so below the ratio. -/
theorem roundedPlaces_nearest_mag (hden : 0 < den) {y : Word} {u : ℤ} (hu : u.natAbs = f32Mag y) :
    |(roundedPlaces num den : ℚ) * 2 ^ lastPlace num den - num / den| ≤ |(u : ℚ) - num / den| ∧
    (|(u : ℚ) - num / den| = |(roundedPlaces num den : ℚ) * 2 ^ lastPlace num den - num / den| →
      (u : ℚ) = roundedPlaces num den * 2 ^ lastPlace num den ∨ roundedPlaces num den % 2 = 0) := by
  by_cases hdvd : 2 ^ lastPlace num den ∣ f32Mag y
  · obtain ⟨k, rfl⟩ : (2 ^ lastPlace num den : ℤ) ∣ u := by
      rw [← Int.dvd_natAbs, hu]
      exact_mod_cast hdvd
    obtain ⟨hle, htie⟩ := roundedPlaces_nearest (num := num) hden k
    push_cast
    rw [mul_comm _ (k : ℚ)]
    exact ⟨hle, fun heq => (htie heq).imp_left fun hk => by rw [hk, Int.cast_natCast]⟩
  · have hq : lastPlace num den ≠ 0 := fun h0 => hdvd (by rw [h0]; exact one_dvd _)
    have hlow := ratio_ge_of_lastPlace_ne_zero hq
    have hsmall : |(u : ℚ)| < 2 ^ 23 * 2 ^ lastPlace num den := by
      rw [← pow_add, Nat.add_comm, ← Int.cast_abs, Int.abs_eq_natAbs, hu]
      exact_mod_cast f32Mag_lt_of_not_dvd hdvd
    obtain ⟨hle, -⟩ := roundedPlaces_nearest (num := num) hden (2 ^ 23)
    rw [Int.cast_pow, Int.cast_ofNat, abs_of_nonpos (sub_nonpos.2 hlow)] at hle
    have hlt : |(roundedPlaces num den : ℚ) * 2 ^ lastPlace num den - num / den| < |(u : ℚ) - num / den| := by
      rw [abs_sub_comm (u : ℚ)]
      linarith [le_abs_self ((num : ℚ) / den - u), le_abs_self (u : ℚ)]
    exact ⟨hlt.le, fun heq => absurd heq hlt.ne'⟩

end LastPlace

/-! ## Overflow -/

section Overflow

variable {num den : Nat}

/-- The bound from which on a ratio rounds to infinity, in units of 2^-149. -/
theorem f32OverflowBound_mul : f32OverflowBound * 2 ^ 149 = (2 ^ 24 - 1 / 2) * 2 ^ 253 := by
  rw [f32OverflowBound]
  norm_num

/-- Past the overflow bound the low bits are at least those of infinity: at the bound itself the ratio is a tie, and 2^24 - 1 is odd. -/
theorem infBits_le_unboundedBits (hden : 0 < den) (h : (2 ^ 24 - 1 / 2) * 2 ^ 253 ≤ (num : ℚ) / den) :
    0x7F800000 ≤ unboundedBits num den := by
  have hq : 253 ≤ lastPlace num den := by
    by_contra hlt
    have hpow : (2 : ℚ) ^ lastPlace num den ≤ 2 ^ 252 := pow_le_pow_right₀ one_le_two (by omega)
    linarith [ratio_lt (num := num) hden]
  obtain heq | hgt := hq.eq_or_lt
  · obtain ⟨hhalf, heven⟩ := roundedPlaces_half (num := num) hden
    rw [← heq] at hhalf heven
    rw [← le_div_iff₀ (by positivity)] at h
    have hfull : 2 ^ 24 ≤ roundedPlaces num den := by
      by_contra hlt
      have hnear : (2 : ℚ) ^ 24 ≤ roundedPlaces num den + 1 := by linarith [(abs_le.1 hhalf).1]
      have hm : roundedPlaces num den = 2 ^ 24 - 1 := by
        have : 2 ^ 24 ≤ roundedPlaces num den + 1 := by exact_mod_cast hnear
        omega
      have htie : 1 / 2 ≤ |(roundedPlaces num den : ℚ) - num / den / 2 ^ 253| := by
        rw [hm]
        refine le_abs.2 (.inr ?_)
        push_cast
        linarith
      have heven' := heven (le_antisymm hhalf htie)
      omega
    rw [unboundedBits]
    omega
  · have := two_pow_le_roundedPlaces (num := num) (den := den) (by omega)
    rw [unboundedBits]
    omega

theorem unboundedBits_lt_infBits (hden : 0 < den) (h : (num : ℚ) / den < (2 ^ 24 - 1 / 2) * 2 ^ 253) :
    unboundedBits num den < 0x7F800000 := by
  have hq : lastPlace num den ≤ 253 := by
    by_contra hlt
    have hpow : (2 : ℚ) ^ 254 ≤ 2 ^ lastPlace num den := pow_le_pow_right₀ one_le_two (by omega)
    linarith [ratio_ge_of_lastPlace_ne_zero (num := num) (den := den) (by omega)]
  obtain heq | hlt := hq.eq_or_lt
  · have hhalf := (roundedPlaces_half (num := num) hden).1
    rw [heq] at hhalf
    rw [← div_lt_iff₀ (by positivity)] at h
    have hlt : (roundedPlaces num den : ℚ) < (2 ^ 24 : Nat) := by
      push_cast
      linarith [(abs_le.1 hhalf).2]
    have := Nat.cast_lt.1 hlt
    rw [unboundedBits]
    omega
  · have := roundedPlaces_le num den
    rw [unboundedBits]
    omega

end Overflow

/-! ## Rounding is to nearest, ties to even (47_float.md R251, point 1) -/

section Round

variable (neg : Bool) {num den : Nat}

theorem f32Round_eq_inf (h : 0x7F800000 ≤ unboundedBits num den) :
    f32Round neg num den = f32Inf neg := by
  rw [f32Round, f32RoundBits_eq, Nat.min_eq_right h, f32Inf]

theorem f32Round_eq_pack (h : unboundedBits num den < 0x7F800000) :
    f32Round neg num den = f32Pack neg (unboundedBits num den) := by
  rw [f32Round, f32RoundBits_eq, Nat.min_eq_left h.le]

/-- A zero ratio rounds to the zero of the sign. -/
theorem f32Round_zero (den : Nat) : f32Round neg 0 den = f32Zero neg := by
  rw [f32Round, f32RoundBits, lastPlace, divNearestEven, Nat.zero_div, Nat.zero_mod, f32Zero]
  simp

@[simp] theorem f32Sign_round : f32Sign (f32Round neg num den) = neg := f32Sign_pack ..

theorem f32Mag_round (h : unboundedBits num den < 0x7F800000) :
    f32Mag (f32Round neg num den) = roundedPlaces num den * 2 ^ lastPlace num den := by
  rw [f32Round_eq_pack neg h]
  exact f32Mag_pack neg two_pow_le_roundedPlaces (roundedPlaces_le num den) (h.trans (by decide))

theorem f32Finite_round (h : unboundedBits num den < 0x7F800000) :
    f32Finite (f32Round neg num den) := by
  rw [f32Round_eq_pack neg h, f32Finite, f32Exp_pack neg (by omega)]
  omega

/-! ### The exact value -/

/-- The ratio in units of 2^-149, with a sign. -/
def exactValue (neg : Bool) (num den : Nat) : ℚ := f32SignFactor neg * (num / den) / 2 ^ 149

theorem abs_exactValue : |exactValue neg num den| = (num : ℚ) / den / 2 ^ 149 := by
  rw [exactValue, mul_div_assoc, abs_f32SignFactor_mul, abs_of_nonneg (by positivity)]

theorem exactValue_neg_iff (hnum : 0 < num) (hden : 0 < den) : exactValue neg num den < 0 ↔ neg = true := by
  rw [exactValue, mul_div_assoc, f32SignFactor_mul_neg_iff _ (by positivity)]

theorem exactValue_eq_zero_iff (hden : 0 < den) : exactValue neg num den = 0 ↔ num = 0 := by
  rw [← abs_eq_zero, abs_exactValue, div_eq_zero_iff, div_eq_zero_iff, Nat.cast_eq_zero, Nat.cast_eq_zero, or_iff_left (by positivity),
    or_iff_left hden.ne']

/-- The distance of a word's value from the exact one, with the exact one's sign taken out. -/
theorem f32Value_sub_exactValue (w : Word) :
    |f32Value w - exactValue neg num den| = |f32SignFactor neg * f32Units w - num / den| / 2 ^ 149 := by
  rw [exactValue, ← abs_f32SignFactor_mul neg, f32Value_eq, ← sub_div, ← mul_div_assoc, mul_sub, ← mul_assoc,
    f32SignFactor_mul_self, one_mul, abs_div, abs_of_pos (by positivity : (0 : ℚ) < 2 ^ 149)]

theorem exists_int_eq_signed_units (w : Word) :
    ∃ u : ℤ, u.natAbs = f32Mag w ∧ f32SignFactor neg * (f32Units w : ℚ) = u := by
  cases neg
  · exact ⟨f32Units w, natAbs_f32Units w, one_mul _⟩
  · exact ⟨-f32Units w, (Int.natAbs_neg _).trans (natAbs_f32Units w), (neg_one_mul _).trans (Int.cast_neg _).symm⟩

/-- Where the ratio does not overflow, no word's value is nearer than the rounded one, and in a tie the rounded one is even. -/
theorem f32Round_nearest (hden : 0 < den) (h : unboundedBits num den < 0x7F800000) (y : Word) :
    |f32Value (f32Round neg num den) - exactValue neg num den| ≤ |f32Value y - exactValue neg num den| ∧
    (|f32Value y - exactValue neg num den| = |f32Value (f32Round neg num den) - exactValue neg num den| →
      f32Value y = f32Value (f32Round neg num den) ∨ (f32Round neg num den).getLsbD 0 = false) := by
  have hunit : (0 : ℚ) < 2 ^ 149 := by positivity
  have hr : f32SignFactor neg * (f32Units (f32Round neg num den) : ℚ) = roundedPlaces num den * 2 ^ lastPlace num den := by
    rw [f32Units_eq, f32Sign_round, f32Mag_round neg h, ← mul_assoc, f32SignFactor_mul_self, one_mul, Nat.cast_mul, Nat.cast_pow,
      Nat.cast_ofNat]
  obtain ⟨u, hu, hy⟩ := exists_int_eq_signed_units neg y
  obtain ⟨hle, htie⟩ := roundedPlaces_nearest_mag (num := num) hden hu
  rw [f32Value_sub_exactValue, f32Value_sub_exactValue, hr, hy, div_le_div_iff_of_pos_right hunit, div_left_inj' hunit.ne']
  refine ⟨hle, fun heq => (htie heq).imp (fun huy => ?_) fun heven => ?_⟩
  · rw [f32Value_eq, f32Value_eq, mul_left_cancel₀ (f32SignFactor_ne_zero neg) (hy.trans (huy.trans hr.symm))]
  · rw [f32Round_eq_pack neg h]
    exact getLsbD_zero_pack neg (h.trans (by decide)) (by rw [unboundedBits]; omega)

/-- The model's rounding of a positive ratio is the rounding that R251 names. -/
theorem roundsTo_f32Round (hnum : 0 < num) (hden : 0 < den) :
    RoundsTo (exactValue neg num den) (f32Round neg num den) := by
  refine ⟨?_, ?_, ?_⟩
  · rw [f32Sign_round, Bool.eq_iff_iff, decide_eq_true_iff, exactValue_neg_iff neg hnum hden]
  · rw [abs_exactValue, le_div_iff₀ (by positivity), f32OverflowBound_mul]
    intro h
    rw [f32Round_eq_inf neg (infBits_le_unboundedBits hden h), isInf_f32Inf]
  · rw [abs_exactValue, div_lt_iff₀ (by positivity), f32OverflowBound_mul]
    intro h
    have hbits := unboundedBits_lt_infBits hden h
    exact ⟨f32Finite_round neg hbits, fun y _ => f32Round_nearest neg hden hbits y⟩

/-- A ratio rounds by R251 where it is not zero, and to the zero of its sign where it is. -/
theorem f32Round_spec {x : ℚ} (hx : x = exactValue neg num den) (hden : 0 < den) :
    (x ≠ 0 → RoundsTo x (f32Round neg num den)) ∧ (x = 0 → IsZeroOf neg (f32Round neg num den)) := by
  subst hx
  rw [ne_eq, exactValue_eq_zero_iff neg hden]
  refine ⟨fun h => roundsTo_f32Round neg (Nat.pos_of_ne_zero h) hden, ?_⟩
  rintro rfl
  rw [f32Round_zero]
  exact isZeroOf_f32Zero neg

end Round

end Sys2Proof.Machine

/-! The floating-point instructions: the arithmetic writes the correctly rounded result and no flag, the compare writes the flags of
the ordering and no register (47_float.md R251 to R256). -/

namespace Sys2Proof.Machine

section Specs

variable (nan : Word) {a b : Word}

/-! ## The sum and the difference (47_float.md R252, R253) -/

theorem f32Value_add_eq (a b : Word) : f32Value a + f32Value b = ((f32Units a + f32Units b : ℤ) : ℚ) / 2 ^ 149 := by
  rw [f32Value_eq, f32Value_eq, ← add_div, Int.cast_add]

theorem f32SignFactor_mul_natAbs (z : ℤ) : f32SignFactor (decide (z < 0)) * (z.natAbs : ℚ) = z := by
  rw [f32SignFactor, Nat.cast_natAbs]
  by_cases hz : z < 0
  · simp [hz, abs_of_neg hz]
  · simp [hz, abs_of_nonneg (Int.not_lt.1 hz)]

/-- The sum of finite words is exact in units of 2^-149, and is rounded once. -/
theorem f32Add_finite (ha : f32Finite a) (hb : f32Finite b) :
    (f32Value a + f32Value b ≠ 0 → RoundsTo (f32Value a + f32Value b) (f32Add nan a b)) ∧
    (f32Value a + f32Value b = 0 → IsZeroOf (f32Sign a && f32Sign b) (f32Add nan a b)) := by
  have hzero : f32Value a + f32Value b = 0 ↔ f32Units a + f32Units b = 0 := by
    rw [f32Value_add_eq, div_eq_zero_iff, or_iff_left (by positivity), Int.cast_eq_zero]
  rw [ne_eq, hzero]
  simp only [f32Add, ha.isNan, hb.isNan, ha.isInf, hb.isInf, Bool.or_false, Bool.false_eq_true, if_false]
  refine ⟨fun h => ?_, fun h => ?_⟩
  · rw [if_neg h]
    refine (f32Round_spec _ ?_ one_pos).1 (mt hzero.1 h)
    rw [exactValue, Nat.cast_one, div_one, f32SignFactor_mul_natAbs, f32Value_add_eq]
  · rw [if_pos h]
    exact isZeroOf_f32Zero _

theorem sumSpec_f32Add (a b : Word) : SumSpec nan a b (f32Add nan a b) := by
  refine ⟨fun h => ?_, fun ha hb hs => ?_, fun ha hb hs => ?_, fun ha hb => ?_, fun ha hb => ?_, f32Add_finite nan⟩
  · rw [f32Add, if_pos (Bool.or_eq_true_iff.2 h)]
  · simp [f32Add, ha, hb, hs, isNan_of_isInf ha, isNan_of_isInf hb]
  · simp [f32Add, ha, hb, hs, isNan_of_isInf ha, isNan_of_isInf hb]
  · simp [f32Add, ha, hb.isInf, isNan_of_isInf ha, hb.isNan]
  · simp [f32Add, ha.isInf, hb, ha.isNan, isNan_of_isInf hb]

/-- The difference is the sum with the second operand negated. -/
theorem differenceSpec_f32Sub (a b : Word) : DifferenceSpec nan a b (f32Sub nan a b) := by
  obtain ⟨hnan, hopposite, hsame, hinfa, hinfb, hfinite⟩ := sumSpec_f32Add nan a (f32Neg b)
  simp only [f32IsNan_neg, f32IsInf_neg, f32Sign_neg, f32Finite_neg, f32Value_neg, ← sub_eq_add_neg] at *
  refine ⟨hnan, fun ha hb hs => hopposite ha hb ?_, fun ha hb hs => hsame ha hb ?_, hinfa, fun ha hb => ?_, hfinite⟩
  · rw [hs]
    exact Bool.self_ne_not _
  · exact Bool.eq_not.2 hs
  · rw [f32Sub, hinfb ha hb, ← f32Sign_neg]
    exact isInfOf_of_isInf ((f32IsInf_neg b).trans hb)

/-! ## The product (47_float.md R254) -/

theorem f32Mul_finite (ha : f32Finite a) (hb : f32Finite b) :
    (f32Value a * f32Value b ≠ 0 → RoundsTo (f32Value a * f32Value b) (f32Mul nan a b)) ∧
    (f32Value a * f32Value b = 0 → IsZeroOf (f32Sign a != f32Sign b) (f32Mul nan a b)) := by
  simp only [f32Mul, ha.isNan, hb.isNan, ha.isInf, hb.isInf, Bool.or_false, Bool.false_eq_true, if_false]
  refine f32Round_spec _ ?_ (by positivity)
  rw [exactValue, f32Value_eq_mag, f32Value_eq_mag, f32SignFactor_bne]
  push_cast
  ring

theorem productSpec_f32Mul (a b : Word) : ProductSpec nan a b (f32Mul nan a b) := by
  refine ⟨fun h => ?_, fun ha hb hz => ?_, fun ha hz hb => ?_, fun ha hb => ?_, fun ha hb hz => ?_, fun ha hz hb => ?_,
    f32Mul_finite nan⟩
  · simp [f32Mul, h]
  · simp [f32Mul, ha, isNan_of_isInf ha, hb.isInf, hb.isNan, (f32Value_eq_zero_iff b).1 hz]
  · simp [f32Mul, hb, isNan_of_isInf hb, ha.isInf, ha.isNan, (f32Value_eq_zero_iff a).1 hz]
  · simp [f32Mul, ha, hb, isNan_of_isInf ha, isNan_of_isInf hb, isInfOf_f32Inf]
  · simp [f32Mul, ha, isNan_of_isInf ha, hb.isInf, hb.isNan, mt (f32Value_eq_zero_iff b).2 hz, isInfOf_f32Inf]
  · simp [f32Mul, hb, isNan_of_isInf hb, ha.isInf, ha.isNan, mt (f32Value_eq_zero_iff a).2 hz, isInfOf_f32Inf]

/-! ## The quotient (47_float.md R255) -/

theorem f32Div_finite (ha : f32Finite a) (hb : f32Finite b) (hz : f32Value b ≠ 0) :
    (f32Value a / f32Value b ≠ 0 → RoundsTo (f32Value a / f32Value b) (f32Div nan a b)) ∧
    (f32Value a / f32Value b = 0 → IsZeroOf (f32Sign a != f32Sign b) (f32Div nan a b)) := by
  have hmag := mt (f32Value_eq_zero_iff b).2 hz
  simp only [f32Div, ha.isNan, hb.isNan, ha.isInf, hb.isInf, Bool.or_false, Bool.false_eq_true, if_false, if_neg hmag]
  refine f32Round_spec _ ?_ (Nat.pos_of_ne_zero hmag)
  have hsign : (f32SignFactor (f32Sign b))⁻¹ = f32SignFactor (f32Sign b) := inv_eq_of_mul_eq_one_right (f32SignFactor_mul_self _)
  rw [exactValue, f32Value_eq_mag, f32Value_eq_mag, f32SignFactor_bne, div_div_div_cancel_right₀ (by positivity), mul_div_mul_comm,
    div_eq_mul_inv (f32SignFactor _), hsign]
  rw [Nat.cast_mul, Nat.cast_pow, Nat.cast_ofNat]
  field_simp

theorem quotientSpec_f32Div (a b : Word) : QuotientSpec nan a b (f32Div nan a b) := by
  refine ⟨fun h => ?_, fun ha hb => ?_, fun ha hb => ?_, fun ha hb => ?_, fun ha hb => ⟨fun hza hzb => ?_, fun hza hzb => ?_,
    fun hza hzb => (f32Div_finite nan ha hb hzb).2 ?_, fun hza hzb => (f32Div_finite nan ha hb hzb).1 (div_ne_zero hza hzb)⟩⟩
  · simp [f32Div, h]
  · simp [f32Div, ha, hb, isNan_of_isInf ha, isNan_of_isInf hb]
  · simp [f32Div, ha, isNan_of_isInf ha, hb.isInf, hb.isNan, isInfOf_f32Inf]
  · simp [f32Div, hb, isNan_of_isInf hb, ha.isInf, ha.isNan, isZeroOf_f32Zero]
  · simp [f32Div, ha.isInf, ha.isNan, hb.isInf, hb.isNan, (f32Value_eq_zero_iff a).1 hza, (f32Value_eq_zero_iff b).1 hzb]
  · simp [f32Div, ha.isInf, ha.isNan, hb.isInf, hb.isNan, mt (f32Value_eq_zero_iff a).2 hza, (f32Value_eq_zero_iff b).1 hzb,
      isInfOf_f32Inf]
  · rw [hza, zero_div]

end Specs

/-! ## The ordering (47_float.md R256) -/

section Ordering

variable {a b : Word}

theorem f32Rank_of_finite (ha : f32Finite a) : f32Rank a = f32Units a := by
  rw [f32Rank, ha.isInf, if_neg Bool.false_ne_true]

/-- The rank of the positive infinity. -/
def f32InfRank : ℤ := 2 ^ 278

theorem f32Rank_of_isInf (ha : f32IsInf a = true) : f32Rank a = if f32Sign a then -f32InfRank else f32InfRank := by
  rw [f32Rank, if_pos ha, f32InfRank]

/-- The infinities' ranks lie beyond what a finite word counts. -/
theorem f32Units_bounds (a : Word) : -f32InfRank < f32Units a ∧ f32Units a < f32InfRank := by
  have hexp : f32Exp a ≤ 254 + 1 := Nat.le_of_lt_succ (f32Exp_lt a)
  rw [← abs_lt, Int.abs_eq_natAbs, natAbs_f32Units, f32InfRank, show 278 = 254 + 24 from rfl]
  exact_mod_cast f32Mag_lt_of_exp_le hexp

theorem f32Value_lt_iff : f32Value a < f32Value b ↔ f32Units a < f32Units b := by
  rw [f32Value_eq, f32Value_eq, div_lt_div_iff_of_pos_right (by positivity), Int.cast_lt]

theorem f32Value_eq_iff : f32Value a = f32Value b ↔ f32Units a = f32Units b := by
  rw [f32Value_eq, f32Value_eq, div_left_inj' (by positivity), Int.cast_inj]

theorem f32Equal_iff (ha : f32IsNan a = false) (hb : f32IsNan b = false) : f32Equal a b ↔ f32Rank a = f32Rank b := by
  have hpos : 0 < f32InfRank := pow_pos two_pos 278
  obtain ha | ha := finite_or_isInf ha <;> obtain hb | hb := finite_or_isInf hb
  · rw [f32Rank_of_finite ha, f32Rank_of_finite hb, ← f32Value_eq_iff]
    simp [f32Equal, ha, hb, ha.isInf]
  · have hbounds := f32Units_bounds a
    rw [f32Rank_of_finite ha, f32Rank_of_isInf hb]
    grind [f32Equal, f32Finite.isInf, not_finite_of_isInf]
  · have hbounds := f32Units_bounds b
    rw [f32Rank_of_isInf ha, f32Rank_of_finite hb]
    grind [f32Equal, f32Finite.isInf, not_finite_of_isInf]
  · rw [f32Rank_of_isInf ha, f32Rank_of_isInf hb]
    grind [f32Equal, not_finite_of_isInf]

theorem f32Less_iff (ha : f32IsNan a = false) (hb : f32IsNan b = false) : f32Less a b ↔ f32Rank a < f32Rank b := by
  have hpos : 0 < f32InfRank := pow_pos two_pos 278
  obtain ha | ha := finite_or_isInf ha <;> obtain hb | hb := finite_or_isInf hb
  · rw [f32Rank_of_finite ha, f32Rank_of_finite hb, ← f32Value_lt_iff]
    simp [f32Less, ha, hb, ha.isInf, hb.isInf]
  · have hbounds := f32Units_bounds a
    rw [f32Rank_of_finite ha, f32Rank_of_isInf hb]
    grind [f32Less, f32Finite.isInf, not_finite_of_isInf]
  · have hbounds := f32Units_bounds b
    rw [f32Rank_of_isInf ha, f32Rank_of_finite hb]
    grind [f32Less, f32Finite.isInf, not_finite_of_isInf]
  · rw [f32Rank_of_isInf ha, f32Rank_of_isInf hb]
    grind [f32Less, not_finite_of_isInf]

end Ordering

/-! ## Completing with a result or with flags (47_float.md R251, R256) -/

/-- A floating-point result is written and the flags stay. -/
theorem computes_of_finishFloat {i : Instr} {s : State} {xd : Reg} {r : Word} (h : exec i s = finishFloat i xd r s) :
    Computes i s xd r s.flags := computes_of_eq h

/-- Settles O30: the finite sum is an integer of units rounded once, and the difference is the sum with the operand negated. -/
theorem floatSums : Obligations.FloatSums := fun s _ xn xm =>
  ⟨⟨encodedAs _, _, computes_of_finishFloat rfl, sumSpec_f32Add s.cfg.defaultNan (s.reg xn) (s.reg xm)⟩,
    encodedAs _, _, computes_of_finishFloat rfl, differenceSpec_f32Sub s.cfg.defaultNan (s.reg xn) (s.reg xm)⟩

/-- Settles O31: the finite product is a ratio of units rounded once. -/
theorem floatProduct : Obligations.FloatProduct := fun s _ xn xm =>
  ⟨encodedAs _, _, computes_of_finishFloat rfl, productSpec_f32Mul s.cfg.defaultNan (s.reg xn) (s.reg xm)⟩

/-- Settles O32: the finite quotient is a ratio of units rounded once. -/
theorem floatQuotient : Obligations.FloatQuotient := fun s _ xn xm =>
  ⟨encodedAs _, _, computes_of_finishFloat rfl, quotientSpec_f32Div s.cfg.defaultNan (s.reg xn) (s.reg xm)⟩

/-- Settles O33: the ranks order the words that are no NaN as their values do. -/
theorem floatCompare : Obligations.FloatCompare := by
  rintro s xn xm a b rfl rfl
  refine ⟨encodedAs _, f32Compare (s.reg xn) (s.reg xm), compares_of_eq rfl, fun h => ?_, fun ha hb => ?_⟩
  · rw [f32Compare, if_pos (Bool.or_eq_true_iff.2 h)]
  · rw [f32Equal_iff ha hb, f32Less_iff ha hb]
    simp only [f32Compare, ha, hb, Bool.or_false, Bool.false_eq_true, if_false]
    refine ⟨fun he => if_pos he, fun hl => ?_, fun he hl => ?_⟩
    · rw [if_neg hl.ne, if_pos hl]
    · rw [if_neg he, if_neg hl]

end Sys2Proof.Machine

/-! How an access translates, how an instruction and a step end, and that faults are precise (20_memory.md R89, 60_exceptions.md R281
to R286). -/

namespace Sys2Proof.Machine

/-! ## The translations of an access (20_memory.md R89, R90) -/

/-- `t` is reached from `s` by translations alone. -/
inductive Translations : State → State → Prop
  | refl (s : State) : Translations s s
  | step {s u t : State} {p : Nat} {k : AccessKind} {fa : Word} {f : Nat} (h : s.translate p k fa = .ok f u)
      (rest : Translations u t) : Translations s t

theorem Translations.trans {s u t : State} (h : Translations s u) (k : Translations u t) : Translations s t := by
  induction h with
  | refl => exact k
  | step h _ ih => exact .step h (ih k)

theorem Translations.frame {s t : State} (h : Translations s t) : TranslationFrame s t := by
  induction h with
  | refl s => exact .refl s
  | step h _ ih => exact (State.translate_frame h).trans ih

theorem Translations.kept {s t : State} (h : Translations s t) (hi : Inv s) : Kept s t := by
  induction h with
  | refl s => exact ⟨hi.memory, hi.mmu, .refl s, .refl s⟩
  | step h _ ih =>
    have hkept := translate_kept hi.cfgOk hi.memory hi.mmu h
    exact hkept.trans (ih (hi.of_kept hkept))

/-- An access in the VM window that faults has made one translation at most. -/
theorem State.resolveVm_fault {s t : State} {a : Word} {n : Nat} {k : AccessKind} {c : FaultCause}
    (h : s.resolveVm a n k = .fault c t) : Translations s t := by
  unfold State.resolveVm at h
  simp only at h
  split at h
  · next h0 => cases h; exact State.translate_fault h0 ▸ .refl s
  · cases h
  · next f0 s1 h0 =>
    split at h
    · cases h
    · split at h
      · next h1 => cases h; exact .step h0 (State.translate_fault h1 ▸ .refl s1)
      · cases h
      · cases h

theorem State.resolve_ok_translations {s t : State} {a : Word} {n : Nat} {k : AccessKind} {pl : Place}
    (h : s.resolve a n k = .ok pl t) : Translations s t := by
  unfold State.resolve at h
  split at h
  · cases h
  · cases h; exact .refl s
  · cases h; exact .refl s
  · obtain ⟨f0, s1, h0, ⟨-, rfl, -⟩ | ⟨-, f1, h1, -⟩⟩ := State.resolveVm_ok h
    · exact .step h0 (.refl t)
    · exact .step h0 (.step h1 (.refl t))

theorem State.resolve_fault_translations {s t : State} {a : Word} {n : Nat} {k : AccessKind} {c : FaultCause}
    (h : s.resolve a n k = .fault c t) : Translations s t := by
  unfold State.resolve at h
  split at h
  · cases h; exact .refl s
  · cases h
  · cases h
  · exact State.resolveVm_fault h

/-! ## How an instruction ends -/

theorem TranslationFrame.cfg_eq {s t : State} (h : TranslationFrame s t) : t.cfg = s.cfg :=
  have ⟨hcfg, _⟩ := h.engine
  hcfg

theorem TranslationFrame.executed_eq {s t : State} (h : TranslationFrame s t) : t.executed = s.executed := by
  rw [State.executed, h.run, State.executed]

/-- How instruction `i` that answers `t` leaves the engine (60_exceptions.md R284 to R286). -/
inductive ExecEnds (s : State) (i : Instr) (t : State) : Prop
  /-- the run goes on with one more instruction counted -/
  | completed (hstate : t.execState = s.execState) (hrun : t.activeRun = some (s.executed + 1))
  /-- hlt ends the run -/
  | halted (hstate : t.execState = .halted) (hrun : t.activeRun = none)
      (hlast : t.lastResult = some { ending := .halt, executed := s.executed + 1 })
  /-- swi ends the run -/
  | interrupted (imm : Word) (hstate : t.execState = s.execState) (hrun : t.activeRun = none)
      (hlast : t.lastResult = some { ending := .softwareInterrupt imm, executed := s.executed + 1 })
  /-- the data access faults -/
  | faulted {c : FaultCause} {s1 : State} (hreach : Translations s s1) (ht : TookFault c (some (encode i)) s1 t)

/-- An instruction whose access left `u` completes on it, with registers written there at most. -/
theorem ExecEnds.of_redirect {s u : State} {i : Instr} {target : Word} (hstate : u.execState = s.execState)
    (hrun : u.executed = s.executed) : ExecEnds s i (u.redirect i target) :=
  .completed hstate (by rw [State.redirect_activeRun, hrun])

theorem loadInstr_ends {s t : State} {i : Instr} {w : Width} {xt xn : Reg} {am : AddrMode} {off : MemOffset}
    (h : loadInstr i w xt xn am off s = .next t) : ExecEnds s i t := by
  unfold loadInstr at h
  split at h
  · next s1 hm =>
    obtain ⟨pl, -, -, hframe⟩ := State.memRead_ok hm
    cases h
    exact .of_redirect (by simp [hframe.execState_eq]) ((s1.writeBack_executed ..).trans hframe.executed_eq)
  · next hm => exact .faulted (State.resolve_fault_translations (State.memRead_fault hm).1) (takeFault_next h)
  · cases h

theorem storeInstr_ends {s t : State} {i : Instr} {w : Width} {xt xn : Reg} {am : AddrMode} {off : MemOffset}
    (h : storeInstr i w xt xn am off s = .next t) : ExecEnds s i t := by
  unfold storeInstr at h
  split at h
  · next hm =>
    obtain ⟨pl, s1, -, rfl, hframe⟩ := State.memWrite_ok hm
    cases h
    exact .of_redirect (by simp [hframe.execState_eq]) ((State.writeBack_executed ..).trans hframe.executed_eq)
  · next hm => exact .faulted (State.resolve_fault_translations (State.memWrite_fault hm).1) (takeFault_next h)
  · cases h

theorem swapInstr_ends {s t : State} {i : Instr} {w : Width} {xt xs xn : Reg} (h : swapInstr i w xt xs xn s = .next t) :
    ExecEnds s i t := by
  unfold swapInstr at h
  split at h
  · next hm =>
    obtain ⟨pl, s1, -, -, rfl, hframe⟩ := State.busSwap_ok hm
    cases h
    exact .of_redirect (by simp [hframe.execState_eq]) hframe.executed_eq
  · next hm => exact .faulted (State.resolve_fault_translations (State.busSwap_fault hm).1) (takeFault_next h)
  · cases h

theorem exec_ends {s t : State} {i : Instr} (h : exec i s = .next t) : ExecEnds s i t := by
  have hrun := exec_runsAs s i
  rw [h] at hrun
  generalize ho : Host.Outcome.next t = o at hrun
  cases hrun with
  | register | compare | branch | link => cases ho; exact .of_redirect rfl rfl
  | halt _ => cases ho; exact .halted rfl rfl rfl
  | interrupt imm _ => cases ho; exact .interrupted imm rfl rfl rfl
  | load => exact loadInstr_ends ho.symm
  | store => exact storeInstr_ends ho.symm
  | swap => exact swapInstr_ends ho.symm

/-! ## How a step ends -/

/-- A step whose fetch gives no instruction has the outcome of the fetch. -/
theorem step_of_stop {s : State} {o : Host.Outcome State Fault Refusal} (hs : s.execState ≠ .halted)
    (hf : s.resume.fetchInstr = .stop o) : step s = o := by
  unfold step
  cases he : s.execState with
  | halted => exact absurd he hs
  | running | faulted => simp only [hf]

theorem step_of_fetch_fault {s s1 : State} {c : FaultCause} (hs : s.execState ≠ .halted)
    (hf : s.resume.fetch = .fault c s1) : step s = takeFault c none s1 :=
  step_of_stop hs (by simp only [State.fetchInstr, hf])

theorem step_of_fetch_stuck {s : State} {e : Fault} (hs : s.execState ≠ .halted) (hf : s.resume.fetch = .stuck e) :
    step s = .fault e :=
  step_of_stop hs (by simp only [State.fetchInstr, hf])

theorem step_of_halted {s : State} (hs : s.execState = .halted) : step s = .next s := by
  unfold step
  rw [hs]

/-- The word of a fault record: none where the fetch faulted with the record's cause, else the word that the fetch answered
(60_exceptions.md R281). -/
def RecordsWord (s : State) (c : FaultCause) (word : Option Word) : Prop :=
  (word = none ∧ ∃ s1, s.resume.fetch = .fault c s1) ∨ ∃ w s1, word = some w ∧ s.resume.fetch = .ok w s1

/-- How a step of a machine that is not Halted ends (60_exceptions.md R284, R285). -/
inductive StepEnds (s t : State) : Prop
  | completed (hstate : t.execState = .running) (hrun : t.activeRun = some (s.executed + 1))
  | halted (hstate : t.execState = .halted) (hrun : t.activeRun = none)
      (hlast : t.lastResult = some { ending := .halt, executed := s.executed + 1 })
  | interrupted (imm : Word) (hstate : t.execState = .running) (hrun : t.activeRun = none)
      (hlast : t.lastResult = some { ending := .softwareInterrupt imm, executed := s.executed + 1 })
  /-- the fetch, the decoding or the data access faults, in a state that translations alone made -/
  | faulted {c : FaultCause} {word : Option Word} {s1 : State} (hreach : Translations s.resume s1)
      (hword : RecordsWord s c word) (ht : TookFault c word s1 t)

/-- A step that executes the fetched instruction ends as the instruction does. -/
theorem ExecEnds.step {s s1 t : State} {w : Word} {i : Instr} (hf : s.resume.fetch = .ok w s1) (hi : decode w = some i)
    (hreach : Translations s.resume s1) (h : ExecEnds s1 i t) : StepEnds s t := by
  have hrunning : s1.execState = .running := hreach.frame.execState_eq
  have hcount : s1.executed = s.executed := hreach.frame.executed_eq
  cases h with
  | completed hstate hrun => exact .completed (hstate.trans hrunning) (hcount ▸ hrun)
  | halted hstate hrun hlast => exact .halted hstate hrun (hcount ▸ hlast)
  | interrupted imm hstate hrun hlast => exact .interrupted imm (hstate.trans hrunning) hrun (hcount ▸ hlast)
  | faulted hreach1 ht =>
    exact .faulted (hreach.trans hreach1) (.inr ⟨w, s1, congrArg some (decode_some hi).2, hf⟩) ht

theorem State.fetch_ok_translations {s s1 : State} {w : Word} (h : s.fetch = .ok w s1) : Translations s s1 := by
  obtain ⟨pl, hr, -, -⟩ := State.memRead_ok h
  exact State.resolve_ok_translations hr

theorem State.fetch_fault_translations {s s1 : State} {c : FaultCause} (h : s.fetch = .fault c s1) : Translations s s1 := by
  obtain ⟨hr, -⟩ := State.memRead_fault h
  exact State.resolve_fault_translations hr

theorem step_ends {s t : State} (hs : s.execState ≠ .halted) (h : step s = .next t) : StepEnds s t := by
  cases hf : s.resume.fetch with
  | fault c s1 =>
    rw [step_of_fetch_fault hs hf] at h
    exact .faulted (State.fetch_fault_translations hf) (.inl ⟨rfl, s1, hf⟩) (takeFault_next h)
  | stuck e => rw [step_of_fetch_stuck hs hf] at h; cases h
  | ok w s1 =>
    have hreach := State.fetch_ok_translations hf
    cases hi : decode w with
    | none =>
      rw [step_of_fetch_invalid hs hf hi] at h
      exact .faulted hreach (.inr ⟨w, s1, rfl, hf⟩) (takeFault_next h)
    | some i =>
      rw [step_of_fetch hs hf hi] at h
      exact (exec_ends h).step hf hi hreach

/-! ## Faults are precise (60_exceptions.md R281, R283) -/

/-- Only the bytes of frames that left a pool differ. -/
def ChangesTakenFrames (s t : State) : Prop :=
  ∀ off, (∀ kernel, off / s.cfg.pageSize ∈ s.pool (framePool kernel) → off / s.cfg.pageSize ∈ t.pool (framePool kernel)) →
    t.byteAt .ram off = s.byteAt .ram off

theorem ChangesTakenFrames.refl (s : State) : ChangesTakenFrames s s := fun _ _ => rfl

theorem ChangesTakenFrames.of_ram_eq {s t : State} (h : t.ram = s.ram) : ChangesTakenFrames s t := fun off _ => by
  simp only [State.byteAt, State.device, h]

theorem TranslationFrame.pool_shrinks {s t : State} (h : TranslationFrame s t) {kernel : Bool} {f : Nat}
    (hf : f ∈ t.pool (framePool kernel)) : f ∈ s.pool (framePool kernel) := by
  cases kernel with
  | false => exact h.userShrinks f hf
  | true => exact h.kernelShrinks f hf

/-- Pools only shrink, so a frame that is free before and after is free between. -/
theorem ChangesTakenFrames.trans {s u t : State} (h : ChangesTakenFrames s u) (hs : TranslationFrame s u)
    (k : ChangesTakenFrames u t) (hu : TranslationFrame u t) : ChangesTakenFrames s t := by
  intro off hfree
  have hlater : u.byteAt .ram off = s.byteAt .ram off := h off fun kernel hf => hu.pool_shrinks (hfree kernel hf)
  refine (k off fun kernel hf => ?_).trans hlater
  rw [hs.cfg_eq] at hf ⊢
  exact hfree kernel (hs.pool_shrinks hf)

/-- A page copied into the frame that was taken from its pool. -/
theorem ChangesTakenFrames.of_copy {s t : State} (hi : MmuWf s) {kernel : Bool} {f : Nat} {free : List Nat}
    (hp : s.pool (framePool kernel) = f :: free) (ht : t.pool (framePool kernel) = free) {src : Memory} {lo : Nat}
    (hram : t.ram = s.ram.copy (f * s.cfg.pageSize) s.cfg.pageSize src lo) : ChangesTakenFrames s t := by
  intro off hfree
  have htaken : off / s.cfg.pageSize ≠ f := by
    intro hf
    have hmem := hfree kernel (by rw [hp, hf]; exact List.mem_cons_self ..)
    rw [ht, hf] at hmem
    exact (sorted_tail (hp ▸ hi.pool_sorted _)).2 hmem
  simp only [State.byteAt, State.device, hram]
  exact read_copy_ne_frame htaken

theorem State.pagedIn_pool (s : State) (kernel : Bool) (d f : Nat) (free : List Nat) :
    (s.pagedIn kernel d f free).pool (framePool kernel) = free := by cases kernel <;> rfl

theorem State.broken_pool (s : State) (p : Nat) (e : Pte) (f g : Nat) (free : List Nat) :
    (s.broken p e f g free).pool (framePool e.kernel) = free := by
  cases hk : e.kernel <;> simp [State.broken, State.pool, State.setPool, framePool, hk]

theorem bringIn_changesTakenFrames {s t : State} (hi : MmuWf s) {e : Pte} (h : s.bringIn e = .ok t) :
    ChangesTakenFrames s t := by
  rcases State.bringIn_ok h with ⟨-, -, rfl⟩ | ⟨d, -, hd⟩
  · exact .refl t
  · obtain ⟨f, free, hp, rfl⟩ := State.pageInSlot_pagedIn hd
    exact .of_copy hi hp (s.pagedIn_pool ..) (s.pagedIn_ram ..)

theorem breakIfCow_changesTakenFrames {s t : State} (hi : MmuWf s) {p : Nat} {w : Bool} (h : s.breakIfCow p w = .ok t) :
    ChangesTakenFrames s t := by
  rcases State.breakIfCow_ok h with ⟨rfl, -⟩ | ⟨e, f, -, -, -, -, hb⟩
  · exact .refl t
  · rcases State.cowBreak_ok hb with ⟨-, rfl⟩ | ⟨-, g, free, hp, rfl⟩
    · exact .of_ram_eq (by simp)
    · exact .of_copy hi hp (s.broken_pool ..) (by simp [State.broken]; rfl)

theorem breakIfCow_frame {s t : State} {p : Nat} {w : Bool} (h : s.breakIfCow p w = .ok t) : TranslationFrame s t := by
  rcases State.breakIfCow_ok h with ⟨rfl, -⟩ | ⟨e, f, he, -, -, -, hb⟩
  · exact .refl t
  · exact State.cowBreak_frame he hb

theorem translate_changesTakenFrames {s t : State} (hi : Inv s) {p : Nat} {k : AccessKind} {fa : Word} {f : Nat}
    (h : s.translate p k fa = .ok f t) : ChangesTakenFrames s t := by
  obtain ⟨e, he, -, -, hr⟩ := State.translate_ok h
  obtain ⟨s1, h1, h2, -⟩ := State.makeResident_ok hr
  have hkept := bringIn_kept hi.cfgOk hi.memory hi.mmu he h1
  exact (bringIn_changesTakenFrames hi.mmu h1).trans hkept.frame (breakIfCow_changesTakenFrames hkept.mmu h2)
    (breakIfCow_frame h2)

theorem Translations.changesTakenFrames {s t : State} (h : Translations s t) (hi : Inv s) : ChangesTakenFrames s t := by
  induction h with
  | refl s => exact .refl s
  | step h rest ih =>
    exact (translate_changesTakenFrames hi h).trans (State.translate_frame h)
      (ih (hi.of_kept (translate_kept hi.cfgOk hi.memory hi.mmu h))) rest.frame

theorem State.regs_eq_of_reg {s t : State} (h : ∀ r, t.reg r = s.reg r) : t.regs = s.regs := by
  refine Vector.ext fun j hj => ?_
  simpa [State.reg, Nat.mod_eq_of_lt hj] using h (BitVec.ofNat 5 j)

theorem SameCore.trans {s u t : State} (h : SameCore s u) (k : SameCore u t) : SameCore s t := by
  obtain ⟨hreg, hflags, hpc, hcycles⟩ := h
  obtain ⟨kreg, kflags, kpc, kcycles⟩ := k
  exact ⟨fun r => (kreg r).trans (hreg r), kflags.trans hflags, kpc.trans hpc, kcycles.trans hcycles⟩

theorem SameMmu.pool_eq {s t : State} (h : SameMmu s t) (q : Pool) : t.pool q = s.pool q := by
  obtain ⟨huser, hkernel, hdisk, -⟩ := h
  cases q with
  | user => exact huser
  | kernel => exact hkernel
  | disk => exact hdisk

/-- A record has no word exactly if the fetch faulted with the record's cause. -/
theorem RecordsWord.none_iff {s : State} {c : FaultCause} {word : Option Word} (h : RecordsWord s c word) :
    word = none ↔ ∃ s1, s.resume.fetch = .fault c s1 := by
  rcases h with ⟨rfl, hf⟩ | ⟨w, s0, rfl, hf⟩
  · exact iff_of_true rfl hf
  · exact iff_of_false nofun fun ⟨_, hf'⟩ => nomatch hf.symm.trans hf'

/-- A record's word is the one that the fetch answered. -/
theorem RecordsWord.fetched {s : State} {c : FaultCause} {w : Word} (h : RecordsWord s c (some w)) :
    ∃ s1, s.resume.fetch = .ok w s1 := by
  rcases h with ⟨hnone, -⟩ | ⟨w', s1, hw, hf⟩
  · cases hnone
  · cases hw; exact ⟨s1, hf⟩

/-- Only a step that takes a fault leaves the machine Faulted (60_exceptions.md R288). -/
theorem step_faulted {s t : State} (h : step s = .next t) (hfaulted : t.execState = .faulted) :
    ∃ c word s1, Translations s.resume s1 ∧ RecordsWord s c word ∧ TookFault c word s1 t := by
  by_cases hs : s.execState = .halted
  · rw [step_of_halted hs] at h
    cases h
    exact nomatch hs.symm.trans hfaulted
  · cases step_ends hs h with
    | faulted hreach hword ht => exact ⟨_, _, _, hreach, hword, ht⟩
    | completed hstate | halted hstate | interrupted _ hstate => exact nomatch hstate.symm.trans hfaulted

/-- Settles O39: translations alone made the state in which a step's fault was taken. -/
theorem faultsPrecise : Obligations.FaultsPrecise := by
  intro s t hi hstep hfaulted
  obtain ⟨c, word, s1, hreach, hword, ht⟩ := step_faulted hstep hfaulted
  obtain ⟨-, hrun, hlast, hcore, hcfg, -, hbytes, hmmu⟩ := ht
  have hframe := hreach.frame
  have hview : SameView s t := (hreach.kept hi.resume).view.trans (hc := hframe.cfg_eq)
    fun pid p o _ => virtualByte_of_same hcfg hbytes (State.table_of_sameMmu hmmu pid) p o
  have hram : ChangesTakenFrames s t := fun off hfree =>
    (hbytes .ram off).trans (hreach.changesTakenFrames hi.resume off fun kernel hf => hmmu.pool_eq _ ▸ hfree kernel hf)
  have hcount : s1.executed = s.executed := hframe.executed_eq
  obtain ⟨hregs1, hflags1, hpc1, -⟩ := hframe.core
  refine ⟨hframe.core.trans hcore, hcfg.trans hframe.cfg_eq, hrun, fun off => (hbytes .rom off).trans (hframe.rom off),
    fun off => (hbytes .disk off).trans (hframe.disk off), fun off huser hkernel => hram off fun kernel => ?_, hview,
    s1.faultRecord c word, hcount ▸ hlast, hpc1, State.regs_eq_of_reg hregs1, hflags1, hpc1, hword.none_iff, fun w hw => ?_⟩
  · cases kernel with
    | false => exact huser
    | true => exact hkernel
  · cases hw
    exact hword.fetched

end Sys2Proof.Machine

/-! What the fetch, hlt, swi and the instructions without a data access do, that no state of the invariant stops the machine, and
that a run stays within its budget (48_system.md, 60_exceptions.md R281 to R290). -/

namespace Sys2Proof.Machine

/-! ## The outcome of the fetch (60_exceptions.md R285, R290) -/

/-- Settles O6. -/
theorem stepRunsDecoded : Obligations.StepRunsDecoded := fun _ _ _ _ hs hf hi =>
  ⟨step_of_fetch hs hf hi, (State.fetch_ok_translations hf).frame⟩

/-- Settles O8. -/
theorem fetchFaultTaken : Obligations.FetchFaultTaken := by
  intro s c s1 hs hf
  rw [step_of_fetch_fault hs hf]
  exact ⟨(State.fetch_fault_translations hf).frame, takeFault_spec c none s1⟩

/-! ## The system instructions (48_system.md R270, R271) -/

theorem run_of_halted {s : State} (hs : s.execState = .halted) (max : Nat) :
    run max s = .next { s with lastResult := some { ending := .halt, executed := 0 }, activeRun := none } := by
  unfold run
  rw [hs]

/-- Settles O34: hlt leaves a Halted machine between runs, where a run answers at once. -/
theorem hltEndsTheRun : Obligations.HltEndsTheRun := fun s =>
  ⟨encodedAs .hlt, rfl, _, rfl, rfl, rfl, rfl, rfl, rfl, fun _ _ => rfl, rfl, fun d _ => by cases d <;> rfl, .refl s, rfl, rfl,
    run_of_halted rfl⟩

/-- Settles O35. -/
theorem swiEndsTheRun : Obligations.SwiEndsTheRun := fun s imm =>
  ⟨encodedAs (.swi imm), _, rfl, rfl, rfl, rfl, rfl, rfl, fun _ _ => rfl, rfl, fun d _ => by cases d <;> rfl, .refl s, rfl, rfl⟩

/-! ## Instructions without a data access (60_exceptions.md R290) -/

theorem CoreOnly.touchesNoByte {s t : State} {i : Instr} (h : CoreOnly i s t) : SameBytes s t ∧ SameMmu s t ∧
    t.cycles = s.cycles + BitVec.ofNat 64 (s.cfg.cost i.opcode) ∧ (t.execState = s.execState ∨ i = .hlt) :=
  have ⟨⟨hcycles, _⟩, ⟨_, hstate, _, _⟩, hbytes, hmmu⟩ := h
  ⟨hbytes, hmmu, hcycles, .inl hstate⟩

/-- Settles O27: such an instruction is of a shape that writes registers, flags and the pc, or is hlt or swi. -/
theorem noAccessNoFault : Obligations.NoAccessNoFault := by
  intro s i hnone
  have hshape := exec_runsAs s i
  generalize exec i s = o at hshape
  cases hshape with
  | register xd v fl => exact ⟨_, rfl, (writeback_coreOnly s i xd v fl).touchesNoByte⟩
  | compare fl => exact ⟨_, rfl, (advance_coreOnly (s.setFlags fl) i).touchesNoByte⟩
  | branch target => exact ⟨_, rfl, (redirect_coreOnly s i target).touchesNoByte⟩
  | link target => exact ⟨_, rfl, (redirect_coreOnly (s.setReg linkReg (s.pc + 4#32)) i target).of_setReg.touchesNoByte⟩
  | halt hi =>
    subst hi
    exact ⟨_, rfl, fun d _ => by cases d <;> rfl, .refl s, rfl, .inr rfl⟩
  | interrupt imm hi =>
    subst hi
    exact ⟨_, rfl, fun d _ => by cases d <;> rfl, .refl s, rfl, .inl rfl⟩
  | load _ _ _ _ _ hd | store _ _ _ _ _ hd | swap _ _ _ _ hd => exact nomatch hnone.symm.trans hd

/-! ## No state of the invariant stops the machine (60_exceptions.md R285, 93_implementation_defined.md I13) -/

/-- The outcome is a next state. -/
def Answers (o : Host.Outcome State Fault Refusal) : Prop := ∃ t, o = .next t

section Answering

variable {s : State} {i : Instr} {w : Width}

theorem takeFault_answers (c : FaultCause) (word : Option Word) (s : State) : Answers (takeFault c word s) := ⟨_, rfl⟩

theorem loadInstr_answers {xt xn : Reg} {am : AddrMode} {off : MemOffset}
    (h : ∀ e, s.resolve (s.accessAddr xn am off) w.bytes .read ≠ .stuck e) : Answers (loadInstr i w xt xn am off s) := by
  unfold loadInstr State.memRead
  cases hr : s.resolve (s.accessAddr xn am off) w.bytes .read with
  | ok pl s1 => exact ⟨_, rfl⟩
  | fault c s1 => exact takeFault_answers ..
  | stuck e => exact absurd hr (h e)

theorem storeInstr_answers {xt xn : Reg} {am : AddrMode} {off : MemOffset}
    (h : ∀ e, s.resolve (s.accessAddr xn am off) w.bytes .write ≠ .stuck e) : Answers (storeInstr i w xt xn am off s) := by
  unfold storeInstr State.memWrite
  cases hr : s.resolve (s.accessAddr xn am off) w.bytes .write with
  | ok pl s1 => exact ⟨_, rfl⟩
  | fault c s1 => exact takeFault_answers ..
  | stuck e => exact absurd hr (h e)

theorem swapInstr_answers {xt xs xn : Reg} (h : ∀ e, s.resolve (s.reg xn) w.bytes .swap ≠ .stuck e) :
    Answers (swapInstr i w xt xs xn s) := by
  unfold swapInstr State.busSwap
  cases hr : s.resolve (s.reg xn) w.bytes .swap with
  | ok pl s1 => exact ⟨_, rfl⟩
  | fault c s1 => exact takeFault_answers ..
  | stuck e => exact absurd hr (h e)

theorem Inv.resolve_not_stuck (hi : Inv s) (a : Word) (n : Nat) (k : AccessKind) (e : Fault) : s.resolve a n k ≠ .stuck e :=
  have ⟨_, _, hstuck⟩ := Machine.resolve_kept hi.cfgOk hi.memory hi.mmu
  hstuck e

theorem exec_answers (hi : Inv s) (i : Instr) : Answers (exec i s) := by
  have hshape := exec_runsAs s i
  generalize exec i s = o at hshape
  cases hshape with
  | register | compare | branch | link | halt | interrupt => exact ⟨_, rfl⟩
  | load => exact loadInstr_answers (hi.resolve_not_stuck _ _ _)
  | store => exact storeInstr_answers (hi.resolve_not_stuck _ _ _)
  | swap => exact swapInstr_answers (hi.resolve_not_stuck _ _ _)

theorem State.fetch_of_resolve_stuck {e : Fault} (h : s.fetch = .stuck e) : s.resolve s.pc 4 .fetch = .stuck e := by
  unfold State.fetch State.memRead at h
  split at h
  · cases h
  · cases h
  · next hr => cases h; exact hr

theorem step_answers (hi : Inv s) : Answers (step s) := by
  by_cases hs : s.execState = .halted
  · exact ⟨s, step_of_halted hs⟩
  cases hf : s.resume.fetch with
  | fault c s1 => exact step_of_fetch_fault hs hf ▸ takeFault_answers c none s1
  | stuck e => exact absurd (State.fetch_of_resolve_stuck hf) (hi.resume.resolve_not_stuck _ _ _ e)
  | ok w s1 =>
    cases hd : decode w with
    | none => exact step_of_fetch_invalid hs hf hd ▸ takeFault_answers _ _ s1
    | some i =>
      have hkept := (State.fetch_ok_translations hf).kept hi.resume
      exact step_of_fetch hs hf hd ▸ exec_answers (hi.resume.of_kept hkept) i

end Answering

/-! ## Runs (60_exceptions.md R284) -/

theorem runLoop_succ_active {s s1 : State} {budget : Nat} (h : step s = .next s1) (hrun : s1.activeRun.isSome = true) :
    runLoop (budget + 1) s = runLoop budget s1 := by
  simp only [runLoop, h, hrun, if_true]

theorem runLoop_succ_ended {s s1 : State} {budget : Nat} (h : step s = .next s1) (hrun : s1.activeRun = none) :
    runLoop (budget + 1) s = .next s1 := by
  simp [runLoop, h, hrun]

theorem runLoop_answers {s : State} (hi : Inv s) (budget : Nat) : Answers (runLoop budget s) := by
  induction budget generalizing s with
  | zero => exact ⟨_, rfl⟩
  | succ budget ih =>
    obtain ⟨s1, h1⟩ := step_answers hi
    cases hrun : s1.activeRun with
    | none => exact ⟨s1, runLoop_succ_ended h1 hrun⟩
    | some n =>
      rw [runLoop_succ_active h1 (by rw [hrun]; rfl)]
      exact ih (step_inv hi h1)

theorem run_of_not_halted {s : State} (hs : s.execState ≠ .halted) (max : Nat) :
    run max s = runLoop max { s with execState := .running, activeRun := some 0 } := by
  unfold run
  cases he : s.execState with
  | halted => exact absurd he hs
  | running | faulted => rfl

theorem run_answers {s : State} (hi : Inv s) (max : Nat) : Answers (run max s) := by
  by_cases hs : s.execState = .halted
  · exact ⟨_, run_of_halted hs max⟩
  · rw [run_of_not_halted hs]
    exact runLoop_answers (hi.running 0) max

/-- Settles O43. -/
theorem stepsNeverStop : Obligations.StepsNeverStop := fun _ hi =>
  ⟨step_answers hi, exec_answers hi, fun max => (run_answers hi max).imp fun _ ht => ⟨ht, run_inv hi ht⟩⟩

/-- No run is in progress, and the last result is that of a run of at most `max` instructions that left this state
(60_exceptions.md R282, R284, R289). -/
def EndsWithin (max : Nat) (t : State) : Prop :=
  t.activeRun = none ∧
  ∃ r, t.lastResult = some r ∧ r.executed ≤ max ∧
    (r.ending = .budgetExhausted → r.executed = max ∧ t.execState = .running) ∧
    (r.ending = .halt → t.execState = .halted) ∧
    (∀ imm, r.ending = .softwareInterrupt imm → t.execState = .running) ∧
    ∀ rec, r.ending = .fault rec → t.execState = .faulted ∧ r.executed < max

/-- A step that ends the run, taken while the budget is not used up. -/
theorem StepEnds.endsWithin {s t : State} {max : Nat} (h : StepEnds s t) (hend : t.activeRun = none) (hbudget : s.executed < max) :
    EndsWithin max t := by
  refine ⟨hend, ?_⟩
  cases h with
  | completed hstate hrun => rw [hend] at hrun; cases hrun
  | halted hstate _ hlast => exact ⟨_, hlast, hbudget, nofun, fun _ => hstate, nofun, nofun⟩
  | interrupted imm hstate _ hlast => exact ⟨_, hlast, hbudget, nofun, nofun, fun _ _ => hstate, nofun⟩
  | faulted hreach _ ht =>
    obtain ⟨hfaulted, -, hlast, -⟩ := ht
    have hcount := hreach.frame.executed_eq.trans_lt hbudget
    exact ⟨_, hlast, hcount.le, nofun, nofun, nofun, fun _ _ => ⟨hfaulted, hcount⟩⟩

/-- A step that does not end the run counts one more instruction. -/
theorem StepEnds.executed_succ {s t : State} (h : StepEnds s t) (hrun : t.activeRun.isSome = true) :
    t.execState = .running ∧ t.executed = s.executed + 1 := by
  cases h with
  | completed hstate hactive => exact ⟨hstate, by rw [State.executed, hactive]; rfl⟩
  | halted _ hnone => simp [hnone] at hrun
  | interrupted _ _ hnone => simp [hnone] at hrun
  | faulted _ _ ht =>
    obtain ⟨-, hnone, -⟩ := ht
    simp [hnone] at hrun

theorem runLoop_endsWithin {budget max : Nat} {s t : State} (hrunning : s.execState = .running)
    (hmax : s.executed + budget = max) (h : runLoop budget s = .next t) : EndsWithin max t := by
  induction budget generalizing s with
  | zero =>
    cases h
    exact ⟨rfl, _, rfl, hmax.le, fun _ => ⟨hmax, hrunning⟩, nofun, nofun, nofun⟩
  | succ budget ih =>
    rw [runLoop] at h
    split at h
    · next s1 hstep =>
      have hends := step_ends (by rw [hrunning]; nofun) hstep
      split at h
      · next hrun =>
        obtain ⟨hrunning1, hcount⟩ := hends.executed_succ hrun
        exact ih hrunning1 (by omega) h
      · next hrun =>
        cases h
        exact hends.endsWithin (by simpa using hrun) (by omega)
    · next hne => exact absurd h (hne t)

/-- Settles O40: a Halted machine answers at once, and else the loop's count and its remaining budget add up to the budget. -/
theorem runWithinBudget : Obligations.RunWithinBudget := by
  intro max s t h
  by_cases hs : s.execState = .halted
  · rw [run_of_halted hs] at h
    cases h
    exact ⟨rfl, _, rfl, Nat.zero_le _, nofun, fun _ => hs, nofun, nofun⟩
  · rw [run_of_not_halted hs] at h
    exact runLoop_endsWithin rfl (Nat.zero_add max) h

end Sys2Proof.Machine

/-! The host's operations on a Halted machine: every one is done, and only reset leaves Halted (60_exceptions.md R287, R295). -/

namespace Sys2Proof.Machine

section KeepsExecState

variable {s t : State}

/-! ## exec_state through the operations of the MMU, in any state (20_memory.md R86 to R101) -/

theorem allocateOne_execState {q : Pool} {n : Nat} (h : s.allocateOne q = .ok (n, t)) : t.execState = s.execState := by
  obtain ⟨free, -, rfl⟩ := State.allocateOne_ok h
  simp

theorem returnOne_execState {q : Pool} {n : Nat} (h : s.returnOne q n = .ok t) : t.execState = s.execState := by
  obtain ⟨-, -, rfl⟩ := State.returnOne_ok h
  simp

theorem returnFrame_execState {f : Nat} (h : s.returnFrame f = .ok t) : t.execState = s.execState := by
  unfold State.returnFrame at h
  split at h
  · exact returnOne_execState h
  · cases h

theorem release_execState {l : Loc} (h : s.release l = .ok t) : t.execState = s.execState := by
  cases l with
  | frame f =>
    simp only [State.release] at h
    split at h
    · exact (returnFrame_execState h).trans rfl
    · cases h; rfl
  | disk d =>
    simp only [State.release] at h
    split at h
    · exact (returnOne_execState h).trans rfl
    · cases h; rfl

theorem addVpage_execState {p : Nat} {kernel write execute cow : Bool} (h : s.addVpage p kernel write execute cow = .ok t) :
    t.execState = s.execState := by
  unfold State.addVpage at h
  split at h
  · cases h
  · split at h
    · cases h
    · split at h
      · cases h
      · next ha => cases h; simpa using allocateOne_execState ha

theorem removeEntryOf_execState {pid p : Nat} (h : s.removeEntryOf pid p = .ok t) : t.execState = s.execState := by
  unfold State.removeEntryOf at h
  split at h
  · cases h; rfl
  · exact (release_execState h).trans rfl

theorem removeEntries_execState {pid : Nat} {ps : List Nat} (h : s.removeEntries pid ps = .ok t) :
    t.execState = s.execState := by
  induction ps generalizing s with
  | nil => cases h; rfl
  | cons p ps ih =>
    rw [State.removeEntries] at h
    split at h
    · cases h
    · next h1 => exact (ih h).trans (removeEntryOf_execState h1)

theorem removeVpage_execState {p : Nat} (h : s.removeVpage p = .ok t) : t.execState = s.execState := by
  unfold State.removeVpage at h
  split at h
  · cases h
  · exact removeEntryOf_execState h

theorem removePagedir_execState (h : s.removePagedir = .ok t) : t.execState = s.execState := by
  unfold State.removePagedir at h
  split at h
  · cases h
  · exact removeEntries_execState h

theorem shareVpage_execState {srcPid src dst : Nat} {write execute cow : Bool}
    (h : s.shareVpage srcPid src dst write execute cow = .ok t) : t.execState = s.execState := by
  unfold State.shareVpage at h
  split at h
  · split at h
    · cases h
    · cases h; simp
  · cases h

theorem protectVpage_execState {p : Nat} {write execute cow : Bool} (h : s.protectVpage p write execute cow = .ok t) :
    t.execState = s.execState := by
  unfold State.protectVpage at h
  split at h
  · cases h; simp
  · cases h

theorem pageOutFrame_execState {f : Nat} (h : s.pageOutFrame f = .ok t) : t.execState = s.execState := by
  unfold State.pageOutFrame at h
  split at h
  · cases h
  · next ha => exact (returnFrame_execState h).trans (allocateOne_execState ha :)

theorem pageOut_execState {p : Nat} (h : s.pageOut p = .ok t) : t.execState = s.execState := by
  unfold State.pageOut at h
  split at h
  · split at h
    · cases h; rfl
    · exact pageOutFrame_execState h
  · cases h

theorem bringIn_execState {e : Pte} (h : s.bringIn e = .ok t) : t.execState = s.execState := by
  rcases State.bringIn_ok h with ⟨-, -, rfl⟩ | ⟨d, -, hd⟩
  · rfl
  · exact (State.pageInSlot_frame hd).execState_eq

theorem pageIn_execState {p : Nat} (h : s.pageIn p = .ok t) : t.execState = s.execState := by
  unfold State.pageIn at h
  split at h
  · exact bringIn_execState h
  · cases h

theorem setCurrent_execState {pid : Nat} (h : s.setCurrent pid = .ok t) : t.execState = s.execState := by
  unfold State.setCurrent at h
  split at h
  · cases h; rfl
  · cases h

theorem endProcess_execState {pid : Nat} (h : s.endProcess pid = .ok t) : t.execState = s.execState := by
  unfold State.endProcess at h
  split at h
  · split at h
    · cases h
    · next hall => cases h; exact (removeEntries_execState hall :)
  · cases h

/-! ## exec_state through the host's operations (60_exceptions.md R295) -/

theorem loadImage_execState {base : Word} {bytes : List Byte} (h : s.loadImage base bytes = .ok t) :
    t.execState = s.execState := by
  simp only [State.loadImage] at h
  split at h
  · cases h; rfl
  · split at h
    · cases h; rfl
    · cases h

theorem replyCtl_execState {op : Except CtlError State} (h : ∀ t, op = .ok t → t.execState = s.execState) :
    (replyCtl s op).2.execState = s.execState := by
  cases op with
  | ok t => exact h t rfl
  | error e => rfl

theorem replyAccess_execState {α : Type} {answer : α → HostReply} {op : Access α}
    (hok : ∀ v t, op = .ok v t → t.execState = s.execState) (hfault : ∀ c t, op = .fault c t → t.execState = s.execState) :
    (replyAccess s answer op).2.execState = s.execState := by
  cases op with
  | ok v t => exact hok v t rfl
  | fault c t => exact hfault c t rfl
  | stuck e => rfl

theorem hostBusRead_execState {a : Word} {w : Width} : (hostCallIdle (.busRead a w) s).2.execState = s.execState :=
  replyAccess_execState
    (fun _ _ h => by
      obtain ⟨-, -, -, hframe⟩ := State.memRead_ok h
      exact hframe.execState_eq)
    fun _ _ h => (State.memRead_fault h).2.execState_eq

theorem hostBusWrite_execState {a : Word} {w : Width} {v : Word} :
    (hostCallIdle (.busWrite a w v) s).2.execState = s.execState :=
  replyAccess_execState
    (fun _ _ h => by
      obtain ⟨pl, s1, -, rfl, hframe⟩ := State.memWrite_ok h
      exact hframe.execState_eq)
    fun _ _ h => (State.memWrite_fault h).2.execState_eq

theorem hostTranslate_execState {p : Nat} : (hostCallIdle (.translate p) s).2.execState = s.execState := by
  simp only [hostCallIdle]
  split
  · exact replyAccess_execState (fun _ _ h => (State.translate_frame h).execState_eq)
      fun _ _ h => (State.translate_fault_frame h).execState_eq
  · rfl

theorem hostLoadImage_execState {base : Word} {bytes : List Byte} :
    (hostCallIdle (.loadImage base bytes) s).2.execState = s.execState := by
  simp only [hostCallIdle]
  split
  · next h => exact loadImage_execState h
  · rfl

theorem hostAllocateOne_execState {q : Pool} : (hostCallIdle (.allocateOne q) s).2.execState = s.execState := by
  simp only [hostCallIdle]
  split
  · next h => exact allocateOne_execState h
  · rfl

theorem hostRun_of_halted (hs : s.execState = .halted) (max : Nat) : hostCallIdle (.run max) s =
    (.result (some { ending := .halt, executed := 0 }),
      { s with lastResult := some { ending := .halt, executed := 0 }, activeRun := none }) := by
  simp only [hostCallIdle, run_of_halted hs]

theorem hostCallIdle_keeps_halted {call : HostCall} (hcall : call ≠ .reset) (hs : s.execState = .halted) :
    (hostCallIdle call s).2.execState = .halted := by
  suffices h : (hostCallIdle call s).2.execState = s.execState from h.trans hs
  cases call with
  | reset => exact absurd rfl hcall
  | run max => rw [hostRun_of_halted hs]
  | busRead a w => exact hostBusRead_execState
  | busWrite a w v => exact hostBusWrite_execState
  | loadImage base bytes => exact hostLoadImage_execState
  | allocateOne q => exact hostAllocateOne_execState
  | returnOne q n => exact replyCtl_execState fun _ => returnOne_execState
  | addVpage p kernel write execute cow => exact replyCtl_execState fun _ => addVpage_execState
  | removeVpage p => exact replyCtl_execState fun _ => removeVpage_execState
  | removePagedir => exact replyCtl_execState fun _ => removePagedir_execState
  | shareVpage srcPid src dst write execute cow => exact replyCtl_execState fun _ => shareVpage_execState
  | protectVpage p write execute cow => exact replyCtl_execState fun _ => protectVpage_execState
  | pageOut p => exact replyCtl_execState fun _ => pageOut_execState
  | pageIn p => exact replyCtl_execState fun _ => pageIn_execState
  | translate p => exact hostTranslate_execState
  | endProcess pid => exact replyCtl_execState fun _ => endProcess_execState
  | setCurrent pid => exact replyCtl_execState fun _ => setCurrent_execState
  | writeReg | writePc | writeFlags | writeFlag | beginProcess => rfl
  | readReg | readPc | readFlags | readFlag | inspectEntry | inspectFrameRef | inspectDiskRef | inspectPool | inspectCycles
  | inspectLastResult => rfl

end KeepsExecState

/-! ## No operation is refused between runs (93_implementation_defined.md I14) -/

theorem replyCtl_ne_duringRun (s : State) (op : Except CtlError State) : (replyCtl s op).1 ≠ .duringRun := by
  cases op <;> nofun

theorem replyAccess_ne_duringRun {α : Type} (s : State) {answer : α → HostReply} (h : ∀ v, answer v ≠ .duringRun)
    (op : Access α) : (replyAccess s answer op).1 ≠ .duringRun := by
  cases op with
  | ok v _ => exact h v
  | fault | stuck => nofun

theorem hostCallIdle_ne_duringRun (call : HostCall) (s : State) : (hostCallIdle call s).1 ≠ .duringRun := by
  cases call with
  | returnOne | addVpage | removeVpage | removePagedir | shareVpage | protectVpage | pageOut | pageIn | endProcess | setCurrent =>
    exact replyCtl_ne_duringRun _ _
  | busRead | busWrite => exact replyAccess_ne_duringRun _ nofun _
  | translate =>
    simp only [hostCallIdle]
    split
    · exact replyAccess_ne_duringRun _ nofun _
    · nofun
  | run | loadImage | allocateOne =>
    simp only [hostCallIdle]
    split <;> nofun
  | reset | readReg | writeReg | readPc | writePc | readFlags | writeFlags | readFlag | writeFlag | beginProcess => nofun
  | inspectEntry | inspectFrameRef | inspectDiskRef | inspectPool | inspectCycles | inspectLastResult => nofun

theorem hostCall_of_idle {s : State} (h : s.activeRun = none) (call : HostCall) : hostCall call s = hostCallIdle call s := by
  simp [hostCall, h]

/-- Settles O36. -/
theorem haltedUntilReset : Obligations.HaltedUntilReset := by
  intro s hs hidle
  simp only [hostCall_of_idle hidle]
  exact ⟨run_of_halted hs, fun _ hcall => hostCallIdle_keeps_halted hcall hs, rfl, fun call => hostCallIdle_ne_duringRun call s⟩

end Sys2Proof.Machine

/-! Reset and construction (70_reset_and_hazards.md R320 to R322). -/

namespace Sys2Proof.Machine

/-! ## The reset vector (70_reset_and_hazards.md R320, R321) -/

/-- The word at RESET_VECTOR_ADDR lies in a device, `off` bytes from its start. -/
theorem resetWord_of_ready {s : State} {d : Device} {off : Nat} (hok : s.cfg.ok = true)
    (h : AccessReady s (BitVec.ofNat 32 s.cfg.resetVector) 4 .read d ((List.range 4).map (off + ·))) :
    s.resetWord.toNat = littleEndian ((List.range 4).map fun j => s.byteAt d (off + j)) := by
  rw [State.resetWord, State.memRead_ready hok (w := .word) h]
  exact AccessReady.toNat_valueAt (w := .word) h

theorem resetVector_toNat {p : Params} (h : p.resetVector + 4 ≤ 2 ^ 32) :
    (BitVec.ofNat 32 p.resetVector).toNat = p.resetVector := by
  rw [BitVec.toNat_ofNat, Nat.mod_eq_of_lt (by omega)]

theorem resetVector_offset {base v j : Nat} (hb : base ≤ v) (hj : j < 4) :
    ((List.range 4).map (v - base + ·))[j]? = some (v + j - base) := by
  rw [List.getElem?_map, List.getElem?_range hj, Option.map_some]
  congr 1
  omega

section ResetVector

variable {s : State}

theorem resetWord_rom (hok : s.cfg.ok = true) (hb : s.cfg.romBase ≤ s.cfg.resetVector)
    (hs : s.cfg.resetVector + 4 ≤ s.cfg.romBase + s.cfg.romSize) : s.resetWord.toNat =
      littleEndian ((List.range 4).map fun j => s.byteAt .rom (s.cfg.resetVector - s.cfg.romBase + j)) := by
  obtain ⟨-, -, -, hrom, -, -⟩ := cfg_ranges hok
  refine resetWord_of_ready hok ?_
  rw [AccessReady, resetVector_toNat (hs.trans hrom)]
  exact ⟨hs.trans hrom, rfl, .inl ⟨rfl, rfl, hb, hs, fun j hj => resetVector_offset hb hj⟩⟩

theorem resetWord_ram (hok : s.cfg.ok = true) (hb : s.cfg.ramBase ≤ s.cfg.resetVector)
    (hs : s.cfg.resetVector + 4 ≤ s.cfg.ramBase + s.cfg.ramSize) : s.resetWord.toNat =
      littleEndian ((List.range 4).map fun j => s.byteAt .ram (s.cfg.resetVector - s.cfg.ramBase + j)) := by
  obtain ⟨-, -, -, -, hram, -⟩ := cfg_ranges hok
  refine resetWord_of_ready hok ?_
  rw [AccessReady, resetVector_toNat (hs.trans hram)]
  exact ⟨hs.trans hram, rfl, .inr (.inl ⟨rfl, hb, hs, fun j hj => resetVector_offset hb hj⟩)⟩

end ResetVector

/-- Settles O56: the word at the reset vector is read by a ready access to ROM or RAM. -/
theorem resetOperation : Obligations.ResetOperation := fun s hok =>
  ⟨fun r => Vector.getElem_replicate r.isLt, rfl, rfl, rfl, rfl, rfl, fun d _ => by cases d <;> rfl, .refl s, rfl, rfl,
    fun ⟨hb, hs⟩ => resetWord_rom hok hb hs, fun ⟨hb, hs⟩ => resetWord_ram hok hb hs⟩

/-! ## Construction (70_reset_and_hazards.md R322) -/

/-- The machine that construction resets: the images laid in their devices, and the MMU empty with process 0 current. -/
def State.fresh (cfg : Params) (rom ram disk : List Byte) : State where
  cfg := cfg
  regs := Vector.replicate 32 0#32
  pc := 0#32
  flags := { n := false, z := false, c := false, v := false }
  execState := .running
  cycles := 0#64
  lastResult := none
  activeRun := none
  rom := Memory.load [] 0 rom
  ram := Memory.load [] 0 ram
  disk := Memory.load [] 0 disk
  userFree := List.range' cfg.userLow (cfg.userHigh + 1 - cfg.userLow)
  kernelFree := List.range' cfg.kernelLow (cfg.kernelHigh + 1 - cfg.kernelLow)
  diskFree := List.range cfg.diskPages
  frameRef := []
  diskRef := []
  procs := [(0, [])]
  current := some 0
  nextPid := 1
  freeDraws := 0

/-- A machine that is constructed passed the checks, with images that fit their devices. -/
theorem construct_some {cfg : Params} {rom ram disk : List Byte} {s : State} (h : construct cfg rom ram disk = some s) :
    cfg.ok = true ∧ rom.length ≤ cfg.romSize ∧ ram.length ≤ cfg.ramSize ∧ disk.length ≤ cfg.diskPages * cfg.pageSize ∧
    s = (State.fresh cfg rom ram disk).resetCore := by
  unfold construct at h
  split at h
  · next hchecks =>
    simp only [Bool.and_eq_true, decide_eq_true_eq, and_assoc] at hchecks
    obtain ⟨hok, hrom, hram, hdisk⟩ := hchecks
    exact ⟨hok, hrom, hram, hdisk, (Option.some.inj h).symm⟩
  · cases h

/-- The bytes of an image laid from offset 0 on, and 0 elsewhere. -/
theorem read_load_empty (bytes : List Byte) (off : Nat) : (Memory.load [] 0 bytes).read off = bytes[off]?.getD 0#8 := by
  by_cases hoff : off < bytes.length
  · simpa using Memory.read_load [] 0 bytes hoff
  · rw [Memory.read_load_outside _ _ _ (by omega), List.getElem?_eq_none (by omega)]
    rfl

theorem load_empty_wf (bytes : List Byte) : (Memory.load [] 0 bytes).wf := Memory.load_wf ⟨.nil, nofun⟩ _ _

theorem load_empty_inside {bytes : List Byte} {size : Nat} (h : bytes.length ≤ size) : (Memory.load [] 0 bytes).inside size :=
  Memory.load_inside nofun (by omega)

theorem mem_inclusive_range {lo hi f : Nat} : f ∈ List.range' lo (hi + 1 - lo) ↔ lo ≤ f ∧ f ≤ hi := by
  rw [List.mem_range'_1]
  omega

theorem inPoolRange_user {cfg : Params} {f : Nat} :
    inPoolRange cfg .user f = true ↔ cfg.userLow ≤ f ∧ f ≤ cfg.userHigh := by simp [inPoolRange]

theorem inPoolRange_kernel {cfg : Params} {f : Nat} :
    inPoolRange cfg .kernel f = true ↔ cfg.kernelLow ≤ f ∧ f ≤ cfg.kernelHigh := by simp [inPoolRange]

theorem inPoolRange_disk {cfg : Params} {d : Nat} : inPoolRange cfg .disk d = true ↔ d < cfg.diskPages := by
  simp [inPoolRange]

section Fresh

variable {cfg : Params} {rom ram disk : List Byte}

theorem fresh_mmuWf : MmuWf (State.fresh cfg rom ram disk) where
  procsSorted := List.pairwise_singleton ..
  tablesSorted := by rintro e he; cases List.mem_singleton.1 he; exact .nil
  pagesInWindow := nofun
  pidsBelowNext := by rintro e he; cases List.mem_singleton.1 he; exact Nat.one_pos
  currentLive := by rintro pid hpid; cases hpid; rfl
  frameRefWf := ⟨.nil, nofun⟩
  diskRefWf := ⟨.nil, nofun⟩
  frameCounts _ := rfl
  diskCounts _ := rfl
  userSorted := List.pairwise_lt_range' ..
  kernelSorted := List.pairwise_lt_range' ..
  diskSorted := List.pairwise_lt_range
  userFreeIff _ := mem_inclusive_range.trans (inPoolRange_user.symm.trans (and_iff_left rfl).symm)
  kernelFreeIff _ := mem_inclusive_range.trans (inPoolRange_kernel.symm.trans (and_iff_left rfl).symm)
  diskFreeIff _ := List.mem_range.trans (inPoolRange_disk.symm.trans (and_iff_left rfl).symm)
  framesOfPool := nofun
  slotsInRange := nofun
  sharersAgree := nofun

theorem fresh_inv (hok : cfg.ok = true) (hrom : rom.length ≤ cfg.romSize) (hram : ram.length ≤ cfg.ramSize)
    (hdisk : disk.length ≤ cfg.diskPages * cfg.pageSize) : Inv (State.fresh cfg rom ram disk) where
  cfgOk := hok
  memory := ⟨load_empty_wf rom, load_empty_wf ram, load_empty_wf disk, load_empty_inside hrom, load_empty_inside hram,
    load_empty_inside hdisk⟩
  mmu := fresh_mmuWf
  engine := nofun

end Fresh

/-- Settles O57: construction is reset of a machine with the images laid and an empty MMU. -/
theorem constructedMachine : Obligations.ConstructedMachine := by
  intro cfg rom ram disk s h
  obtain ⟨hok, hrom, hram, hdisk, rfl⟩ := construct_some h
  obtain ⟨hregs, hflags, hcycles, hlast, hstate, -, -, -, -, -, hpcRom, hpcRam⟩ :=
    resetOperation (State.fresh cfg rom ram disk) hok
  exact ⟨rfl, (fresh_inv hok hrom hram hdisk).resetCore, hstate, hregs, hcycles, hlast, hflags, hpcRom, hpcRam,
    read_load_empty rom, read_load_empty ram, read_load_empty disk, fun _ => mem_inclusive_range, fun _ => mem_inclusive_range,
    fun _ => List.mem_range, fun _ => rfl, fun _ => rfl, rfl, rfl, rfl⟩

end Sys2Proof.Machine
